-- ==== Sys2Proof/Word.lean ====
section
/-!
DEFINITION. Word.lean: the word types of the Vujor, and the plainest arithmetic on them.
Everything that a test could show wrong (field extraction, byte order, extension) stands in Decode.lean or under
Machine/.
-/
namespace Sys2Proof

/-- A byte of memory. -/
abbrev Byte := BitVec 8
/-- A 32-bit word: half of a scalar, one lane of a vector entry (R123). -/
abbrev Word := BitVec 32
/-- A 64-bit scalar (R123). -/
abbrev DWord := BitVec 64

end Sys2Proof
end

