-- ==== Sys2Proof/Context.lean ====
section
/-!
DEFINITION. Context.lean: the plain data of operands, of a strand's context (R123), and of a rank with all that moves with it
(R66). The instructions and events of Syntax.lean and the state of Machine/State.lean are built from them.
-/
namespace Sys2Proof

/-- An 8-bit operand code of R124 and R237, decoded. `pred` is a lane predicate where R255 asks for one. -/
inductive Opnd where
  | v (k : BitVec 8)          -- 0x00 to 0xDF, entry vk of the window
  | uni (i : BitVec 3)        -- 0xE0 to 0xE7, uniform indirect through s8 to s15
  | ind (i : BitVec 3)        -- 0xE8 to 0xEF, per-lane indirect through v216 to v223
  | port (c : BitVec 3)       -- 0xF0 to 0xF7
  | queue (q : BitVec 2)      -- 0xF8 to 0xFB
  | zero                      -- 0xFC
  | lane                      -- 0xFD
  | imm (w : BitVec 16)       -- 0xFE, with the bundle extension
  | none                      -- 0xFF
  | pred (p : BitVec 4)
  deriving DecidableEq, Repr

/-- Operations of `amo`, codes 0 to 9 of R252. -/
inductive AmoOp where
  | add | and | or | xor | min | max | minu | maxu | swap | cas
  deriving DecidableEq, Repr

/-- A trap to be taken (R209, R213, R403). -/
structure TrapInfo where
  cause : BitVec 6
  kind : BitVec 2
  lane : BitVec 8
  info : Word
  fva : DWord
  deriving DecidableEq, Repr

end Sys2Proof

namespace Sys2Proof.Machine

/-- A sparse table: an unlisted key holds the table's default. -/
abbrev Store (α : Type) := List (Nat × α)

/-- An exact floating-point value: a NaN with its sign and 23-bit payload, an infinity, or (-1)^neg × m × 2^e, where
m = 0 is a zero of that sign (R141, R164). -/
inductive FVal where
  | nan (neg : Bool) (pay : BitVec 23)
  | inf (neg : Bool)
  | fin (neg : Bool) (m : Nat) (e : Int)
  deriving DecidableEq, Repr

/-! ## A strand's context (R123) -/

/-- A watch slot: line, version (R123); an unset slot is invalid. -/
structure Watch where
  line : Nat
  ver : BitVec 48
  deriving DecidableEq, Repr

/-- An entry of a load queue (R134): its words by lane, its poison marks, how the residue that each lane holds differs from its
word's (four bits a lane, 0: it agrees), by lane how the twin's word differs (R127, default 0), and the distance that remains. `ref`
numbers the load while its data is in flight; 0 when it has landed. -/
structure QEntry where
  ref : Nat
  words : List Word
  poison : BitVec 16
  bad : BitVec 64
  tw : Store Word
  dist : Nat
  deriving DecidableEq, Repr

/-- A loop level (R120, R265). `rot` is the ROT field; `stop` is the address of the body's last bundle. -/
structure Loop where
  i : Word
  n : Word
  start : DWord
  len : BitVec 10
  stop : DWord
  rot : BitVec 5
  deriving DecidableEq, Repr

/-- One lane of a D-slot operation in flight. `a`, `b`, `c` are the latched register words; `digits` are the digits it
has emitted, first digit first; class, sign, payload and frame are those of R164. `flags` are the flags decided at issue,
in the order of ASTICKY.FLG; `taken` counts the digits of its own port that consumers have read (R182). -/
structure DLane where
  en : Bool
  a : Word
  b : Word
  c : Word
  cls : BitVec 2
  neg : Bool
  pay : BitVec 23
  ce : Int
  digits : List Int
  zero : Bool                 -- the frame fell below -2048: every digit is zero (R165)
  canc : Bool
  kdec : Bool
  decStep : Nat
  taken : Nat
  resBad : Bool
  bad : BitVec 12             -- how the residues of the latched words of SA, SB and SC differ from theirs, from bit 0 (R179)
  flags : BitVec 5
  rnd : BitVec 16
  sh : Int                    -- the power of two by which the word of SA counts: the scale of an `mdrain` to a port (R347)
  deriving DecidableEq, Repr

/-- A D-slot operation in flight (R166 to R173). `age` counts the steps it has run since its issue. `land` is its landing
cycle after issue, where it lands a register or a predicate. `pa`, `pb`, `pc` number the producers of its port operands.
`out` are the words or predicate bits it lands, for an operation whose result is fixed at issue. -/
structure DOp where
  ref : Nat
  op : BitVec 6
  fmt : Nat
  minor : BitVec 5
  rm : Nat
  sat : Bool
  kill : Bool
  cp : Nat
  ftz : Bool
  xv : BitVec 9               -- the extra value that source codes read
  mn : Bool                   -- MN of the destination's extra value
  sa : Opnd
  sb : Opnd
  sc : Opnd
  dst : Opnd
  landTo : Opnd
  dstEnts : List Nat          -- the window entry each lane lands in; empty: no register
  pa : Option Nat
  pb : Option Nat
  pc : Option Nat
  cin : Nat
  age : Nat
  last : Nat
  land : Option Nat
  lanes : List DLane
  fixed : Bool
  out : List Word
  badOut : List (BitVec 4)    -- how the residues of `out` differ from theirs
  landed : Bool
  done : Bool
  deriving DecidableEq, Repr

/-- A chain port that is not free (R168): its producer, whether its consuming bundle has issued, and the consumers still
running. -/
structure Port where
  prod : Nat
  consumed : Bool
  users : List Nat
  deriving DecidableEq, Repr

/-- An M-slot or K-slot instruction that stays in flight, its fields as the constructor of `Instr` has them (R334 to R350). -/
inductive EOp where
  | mload (fmt : BitVec 4) (plane : BitVec 1) (src : Opnd) (rows : BitVec 8) (row0 : BitVec 6)
  | mswap
  | mma (fmt : BitVec 4) (bank : BitVec 3) (ck acc : Bool) (src : Opnd) (rmask cmask : BitVec 6) (rows : BitVec 8)
  | mcfg (neg trans : Bool)
  | mclr (bank : BitVec 3) (ck : Bool)
  | mdrain (fmt : BitVec 4) (bank : BitVec 3) (dst : Opnd) (rows : BitVec 8) (scale : BitVec 8) (sr clip : Bool)
  | mchk (bank : BitVec 3) (r : BitVec 6) (tol : BitVec 6) (b : BitVec 4)
  | kread (bank : BitVec 3) (index : BitVec 6) (opnd : Opnd) (col : Bool)
  | kwrite (bank : BitVec 3) (index : BitVec 6) (opnd : Opnd) (col : Bool)
  | kadd (bank : BitVec 3) (index : BitVec 6) (opnd : Opnd) (col : Bool)
  | kreadck (bank : BitVec 3) (opnd : Opnd) (col : Bool)
  deriving DecidableEq, Repr

/-- An M or K operation in flight (R337): the instruction, its resolved format and scale, the first window entry and the
scalars it latched, what it has read, and the cycles since its issue. -/
structure MOp where
  ref : Nat
  instr : EOp
  fmt : Nat
  scale : BitVec 8
  xv : BitVec 9
  entry : Nat
  zero : Bool
  win : Nat
  rmask : DWord
  cmask : DWord
  plane : Nat
  words : List (List Word)
  rnd : List Word
  ftz : Bool
  wts : Store FVal            -- the weights that an `mma` multiplies by, as they stood at its issue; default +0
  fl : BitVec 5               -- the flags of an `mdrain` so far
  hist : List (Nat × Nat)     -- the Scruple slots that count an `mdrain`, as they were at its issue, with their `gen` (R366)
  age : Nat
  deriving DecidableEq, Repr

/-- What a held strand waits for (R276, R273, R274, R275). -/
inductive Wait where
  | time (t : DWord)
  | version (line : Nat) (v : BitVec 48)
  | src (obj : Nat) (n : Word)
  | land (obj : Nat) (n : BitVec 31)
  | perch (line : BitVec 6)
  | arm (line : BitVec 6)
  | swap
  deriving DecidableEq, Repr

/-- The part of a context that a rewind snapshot holds (R218). -/
structure Regs where
  pc : DWord
  loops : List Loop
  s : Store DWord             -- s1 to s63, default 0; s0 is hard-wired
  b : BitVec 16               -- bit i is b(i); bit 0 is not used, b0 is hard-wired
  p : Store (BitVec 16)       -- p1 to p15, default 0; p0 is hard-wired
  dops : List DOp
  ports : Store (Option Port) -- c0 to c7, default free
  q : Store (List QEntry)     -- q0 to q3, oldest first, default empty
  w : Store (Option Watch)    -- w0 to w7, default invalid
  asticky : BitVec 16
  fpctl : BitVec 4
  xv : BitVec 9
  chp : BitVec 4
  wcfg : BitVec 32
  ftBase : BitVec 6
  ftLevel : BitVec 3
  stream : DWord
  deriving DecidableEq, Repr

/-- A rewind snapshot: the registers, with the residues of the scalars and the twin's (R218), by key as in `bad`. -/
structure Snap extends Regs where
  sbad : Store (BitVec 4)
  stw : Store (BitVec 36)
  deriving DecidableEq, Repr

/-- A strand's context (R120, R123, R372). -/
structure Ctx extends Regs where
  live : Bool                 -- a strand occupies this context
  seq : Nat                   -- physical sequencer, 4 × core + sequencer (R119)
  rank : Nat                  -- 65536 for a resident supervisor strand, which has none
  lcore : Nat                 -- logical core (R126)
  sv : Bool                   -- privilege level 1 (R372)
  resident : Bool             -- a resident supervisor strand (R377)
  launch : Nat                -- the launch it belongs to; 0 for a spawned strand (R103)
  npc : DWord                 -- where the next bundle is fetched once the running one commits
  v : Store Word              -- key 16 × entry + lane, default 0 (R124)
  bad : Store (BitVec 4)      -- by word, held residue xor the word's own: 2k + half for s(k), 128 + the key of a vector word (R217)
  tw : Store (BitVec 36)      -- by the same key, the twin's word and residue xor the leader's, the word low (R127, log 42)
  banks : BitVec 8            -- bank mask (R139)
  win0 : Nat                  -- WIN the context was created with (R125)
  ftsel : BitVec 6             -- one of each strand's (R157, R260; DEDUCED, log 81)
  tvec : DWord
  tfp : DWord
  tvecSv : DWord
  tfpSv : DWord
  tstat : BitVec 2
  rots : List (BitVec 5)      -- the ROT copy kept for level 0 (R267)
  rotsSv : List (BitVec 5)    -- the ROT copy kept for level 1
  mops : List MOp
  snap : Option Snap          -- the rewind point (R218)
  point : Nat                 -- the next operation's number when it was set: those numbered below were issued before it (R219)
  rewinds : Nat               -- rewinds made to it (R222)
  since : Nat                 -- bundles issued since it (R221)
  mark : Bool                 -- the next bundle takes a snapshot (R218)
  again : Nat                 -- bundles it has still to issue again after a rewind (R221)
  caughtUp : Nat              -- the device time at which it had last issued them
  told : List Nat             -- the contexts of rewound partners that it has been told of (R221)
  due : Option (TrapInfo × Bool)  -- a trap it takes once nothing of it is in flight, and whether at supervisor level
  wait : Option Wait
  bound : Bool                -- it stands at an iteration boundary (R104)
  past : Bool                 -- its bundle has met a freeze or the hold of `tfence`: the point before it is past (R133, R221, R277)
  held : Option (List DOp × Store (Option Port))    -- the chain operations held for level 0's handler (R180, log 17)
  heldSv : Option (List DOp × Store (Option Port))  -- and for level 1's
  fresh : Bool                -- what it restored runs its next step only with its first bundle (R180)
  pause : Bool                -- the idle cycle after a taken transfer is still to come (R263)
  deriving DecidableEq, Repr

/-- The engine state of a rank on a core (R334). Keys: plane elements 4096 × plane + 64 × k + n; bank elements
4096 × bank + 64 × r + n; checksums 64 × bank + index. Every default is +0. -/
structure Engine where
  planes : Store FVal
  active : Bool
  cfg : Store (BitVec 2)      -- NEG, TRANS by plane
  acc : Store Word
  cr : Store Word
  cc : Store Word
  ckv : BitVec 8
  deriving DecidableEq, Repr

/-- A Scruple tensor slot (R366). `owner` is the sequencer of its core that issued `hist.on`; `gen` counts the slot's `hist.on`s. -/
structure Scruple where
  owner : Nat
  counts : Store Word         -- 32 counters
  total : Word
  ebase : BitVec 16
  on : Bool
  drain : Bool
  vst : Bool
  bank : BitVec 3
  scale : BitVec 8
  gen : Nat
  deriving DecidableEq, Repr

/-- States of a rank (R61). -/
inductive RankState where
  | absent | loading | hot | parking | cold | recalling | outgoing | incoming | ending
  deriving DecidableEq, Repr

/-- A launch waiting in a rank's queue (R95, R100). -/
structure Launch where
  id : Nat
  entry : DWord
  cx : Nat
  cy : Nat
  cz : Nat
  prio : Nat
  banks : BitVec 8
  core0 : Nat
  win : Nat
  recVA : DWord
  after : Bool
  afterCo : Nat               -- location of AFTER_CO
  afterN : Nat
  met : Bool                  -- its LAND has been seen at AFTER_N (R99)
  stream : DWord
  args : List DWord
  granted : Store Nat         -- strands granted so far, by logical core, default 0
  at_ : Nat                   -- when it entered the queue
  deriving DecidableEq, Repr

/-- A launch with strands outstanding (R98). -/
structure LiveLaunch where
  id : Nat
  co : Nat
  left : Nat
  failed : Bool
  waits : List Nat            -- accesses of strands that have exited, not yet performed (R271)
  deriving DecidableEq, Repr

/-- A group (R121): its members, as 4 × logical core + sequencer, and its perch line. -/
structure Group where
  members : List Nat
  line : BitVec 6
  deriving DecidableEq, Repr

/-- A token bucket (R113). -/
structure Bucket where
  level : Int
  rate : Word
  depth : Word
  deriving DecidableEq, Repr

/-- A mapped page of a rank (R60, R66). -/
structure Page where
  va : Nat
  pa : Nat
  size : Nat
  perm : BitVec 4             -- RD, W, X, SV from bit 0
  deriving DecidableEq, Repr

/-- A segment-table entry (R57). -/
structure SegEnt where
  addr : BitVec 52
  cost : BitVec 16
  deferred : Bool
  deriving DecidableEq, Repr

/-- Where a League operation has got to (R68, R71). -/
inductive LeagueStep where
  | request | precopy | quiesce | hold | snapshot | transfer | commit | recall | load
  deriving DecidableEq, Repr

/-- A League operation in progress on a rank (R68, R71, R370). -/
structure League where
  id : Nat                    -- the number its transfers carry
  step : LeagueStep
  round : Nat
  node : BitVec 12
  chan : BitVec 8
  dom : BitVec 5
  sent : Store (BitVec 48)    -- versions last sent, by line
  chips : List (BitVec 12)    -- the chips of step 2, which hold the entry
  waiting : List (BitVec 12)  -- chips whose answer is outstanding
  before : DWord              -- the map entry before the hold
  rcd : Option Nat            -- the command table it serves
  co : Option Nat             -- completion object of a migr.* command
  rblk : Option Nat           -- its result block
  coVa : DWord                -- the completion object's VA, for FAB_ERR (R34)
  at_ : Nat                   -- when what it waits for was asked
  kept : Nat                  -- when League traffic last went to the destination
  late : Option (BitVec 12)   -- a chip that did not acknowledge
  run : Nat × Nat             -- the run of memory that it moves to: first byte, bytes
  bytes : Nat                 -- bytes that the running round sends
  failed : Option Nat         -- the R34 code of a transfer of it that has failed
  deriving DecidableEq, Repr

/-- Who asked for an operation on a rank, and what its end must complete (R62): a record's table, or a completion object, with its
VA, and a result block; none of them for an END_RANK that the peer has forwarded. -/
structure EndOp where
  rcd : Option Nat
  co : Option Nat
  rblk : Option Nat
  coVa : DWord
  deriving DecidableEq, Repr

/-- What a rank that is not resident keeps of a core (R66): its engine, the owner, its Scruple slots. -/
structure CoreSave where
  lcore : Nat
  engine : Engine
  mown : BitVec 3
  scr : Store Scruple
  deriving DecidableEq, Repr

/-- A rank (04, 05, 06). -/
structure Rank where
  st : RankState
  last : BitVec 8
  dom : BitVec 5
  step : Word
  vhdr : Nat                  -- V: virtual ranks of the image (R54)
  job : Word
  shapeX : Nat
  shapeY : Nat
  stepline : BitVec 8
  csMib : Nat
  prot : Bool
  slot : Nat
  key : DWord
  fmt : Store DWord           -- format table, default 0 (R155)
  segs : List SegEnt
  ptRoot : DWord
  csBase : Nat                -- bytes
  arg3 : DWord                -- supervisor trap vector (R373)
  arg4 : DWord                -- supervisor frame area (R373)
  pages : List Page
  queue : List Launch
  lives : List LiveLaunch
  groups : Store (Option Group)
  league : Option League
  heldRelease : Bool
  overran : Store Bool           -- over-arrivals recorded by perch line (R224)
  image : Nat                 -- where its image stands while it is LOADING
  base : Nat                  -- the run of memory it holds: page tables, pages, and, when COLD, its cluster-store lines
  bytes : Nat
  saved : List Ctx            -- contexts of a rank that is not resident (R66)
  savedCores : List CoreSave
  savedFull : List Nat        -- the full lines of its cluster store, by offset from the first (R66)
  ends : List EndOp
  dist : List Byte            -- the DISTANCE section (R56)
  deriving DecidableEq, Repr

/-- What a migration brings to its destination (R66): the rank as its source had it, its contexts and cores, the bytes,
versions and marks of its pages by their addresses at the source, and its cluster-store bytes by logical cluster. -/
structure Moved where
  rank : Rank
  mem : Store Byte
  ver : Store (BitVec 48)
  poison : Store (BitVec 16)
  cs : List (List Byte)
  csPoison : List (Store (BitVec 16))
  deriving DecidableEq, Repr

end Sys2Proof.Machine
end

