-- ==== Sys2Proof/Syntax.lean ====
section
/-!
DEFINITION. Syntax.lean: the instructions and events of the Vujor, one constructor of `Instr` for each row of
spec/opcode_table.json. The rows of the C, A, S, D, M, K and X slots are instructions of a bundle (R227 to R236); the other
rows are events, and their constructors carry what the event brings.
-/
namespace Sys2Proof

/-- The predicate of a C slot: BP and BN (R230). -/
structure Guard where
  bp : BitVec 4
  bn : Bool
  deriving DecidableEq, Repr

/-- The address of an A slot: BASE and the displacement of the bundle extension, 0 without one (R231, R291). -/
structure Addr where
  base : BitVec 6
  disp : BitVec 16
  deriving DecidableEq, Repr

/-- The lane predicate of a plain A slot that touches lanes: MOD[3:0] and MOD[4] (R231). -/
structure LaneSel where
  pred : BitVec 4
  inv : Bool
  deriving DecidableEq, Repr

/-- The index fields of the gather form: width in log2 bytes, signed, log2 of the scale (R231, R299). -/
structure GIndex where
  width : BitVec 2
  signed : Bool
  scale : BitVec 3
  deriving DecidableEq, Repr

/-- Comparisons of the S slot, codes 0 to 7 of R286. -/
inductive SCond where
  | eq | ne | lt | ge | ltu | geu | tst | ntst
  deriving DecidableEq, Repr

/-- Conditions of `dcmp` and `vcmp`, codes 0 to 7 of R319. -/
inductive DCond where
  | eq | ne | lt | le | gt | ge | uo | ord
  deriving DecidableEq, Repr

/-- The fields common to a D slot (R233). -/
structure DSlot where
  fmt : BitVec 4
  pred : BitVec 4
  pn : Bool
  kill : Bool
  dst : Opnd
  sa : Opnd
  sb : Opnd
  sc : Opnd
  landTo : Opnd
  rm : BitVec 2
  sat : Bool
  minor : BitVec 5
  deriving DecidableEq, Repr

/-- Operations of `coll.ar` and `coll.rs`, MINOR[1:0] of R357. -/
inductive CollOp where
  | addF32 | addBf16 | maxF32 | addS32
  deriving DecidableEq, Repr

/-- A command record of R45, as the serving strand reads it. `fwd`: an END_RANK that the source of a migration has forwarded, which
no table of this chip holds (R62). `mig`: a `migr` command instead of a record, with what its end completes, and whether its strand is
in the secure world (R370). -/
structure CmdRec where
  table : BitVec 2
  fwd : Bool
  rank : Word
  job : Word
  a0 : DWord
  a1 : DWord
  a2 : DWord
  a3 : DWord
  a4 : DWord
  mig : Option (Machine.EndOp × Bool)
  deriving DecidableEq, Repr

/-- What a party of a collective sends for the exchange (R358): how parties are matched, its own party, OP, MINOR, COUNT and ROOT, and
whether its engine's checks passed. -/
structure Check where
  tag : Nat
  base : Nat
  parties : Nat
  stride : Nat
  party : Nat
  op : Nat
  minor : Nat
  count : Nat
  root : Nat
  ok : Bool
  deriving DecidableEq, Repr

/-- What a Soard packet carries (R35): bytes for a VA of the rank, each granule with its poison mark, and what the transfer counts at
its landing; words of an edge of a collective, named as R358 matches parties, each with its mark; what a party says of itself before
a collective moves data; or League traffic: the k-th piece, of 256 bytes, of a transfer's lines with their versions and marks (R66,
R69), where `moved` is the content of which the packets of the transfer bring the pieces. -/
inductive Payload where
  | data (va : Nat) (bytes : List Byte) (poison : BitVec 32) (line : Option (BitVec 6)) (party : BitVec 16) (count : Nat)
  | coll (tag base parties stride party : Nat) (down : Bool) (words : List (Word × Bool))
  | check (c : Check)
  | league (k : Nat) (moved : Option Machine.Moved)
  deriving DecidableEq, Repr

/-- The bytes that a payload takes of a packet. -/
def Payload.size : Payload → Nat
  | .data _ bytes .. => bytes.length
  | .coll _ _ _ _ _ _ words => 4 * words.length
  | .check _ => 32
  | .league .. => 256

/-- A Soard packet (R21, R23, R29, R32): its source node and generation, domain, rank and epoch, its number on the channel, the
transfer that it is a part of, which part, and whether that is the last. -/
structure Packet where
  src : BitVec 12
  gen : BitVec 16
  dom : BitVec 5
  rank : Nat
  epoch : BitVec 16
  seqNo : Nat
  xfer : Nat
  part : Nat
  last : Bool
  body : Payload
  deriving DecidableEq, Repr

/-- A packet as it comes in at a port: its last flit there, and whether the CRC of its flits is good (R23). -/
structure Arrival where
  port : BitVec 4
  flit : Nat
  crcOk : Bool
  packet : Packet
  deriving DecidableEq, Repr

/-- Where a message of League traffic comes from: its node, and the generation that it carries (R29). -/
structure MsgSrc where
  node : BitVec 12
  gen : BitVec 16
  deriving DecidableEq, Repr

/-- A message about a rank. -/
structure RankMsg where
  rank : Nat
  src : MsgSrc
  deriving DecidableEq, Repr

/-- What the neighbour at a port says of itself in a time flit: its hops from the root, and the root that it follows (R36). -/
structure TimeNbr where
  hops : BitVec 8
  root : BitVec 12
  deriving DecidableEq, Repr

/-- The same with the port at which it says it. -/
structure TimeFlit extends TimeNbr where
  port : BitVec 4
  deriving DecidableEq, Repr

/-- What phase 0 finds (R17, R18): whether the firmware's signature verifies, and the form that the fuses name (R10). -/
structure Fuses where
  signatureOk : Bool
  form : BitVec 8
  deriving DecidableEq, Repr

/-- The training of the second tier (R17): whether it passed, and the GiB installed. -/
structure TierTraining where
  ok : Bool
  installed : Nat
  deriving DecidableEq, Repr

/-- Lines that a request accesses, and whether it writes them (R82). -/
structure Request where
  lines : List Nat
  write : Bool
  deriving DecidableEq, Repr

/-- A launch record as it was read (R97): whether the launch is an `.after` one, the record's bytes, and where its completion object and
AFTER_CO stand. -/
structure LaunchRead where
  after : Bool
  record : List Byte
  co : Nat
  ac : Nat
  deriving DecidableEq, Repr

/-- How a CXL.mem write comes: on which IDE stream, if on one (R49), and whether it is a plain write, of those that R39 lists. -/
structure CxlWay where
  stream : Option (BitVec 3)
  plain : Bool
  deriving DecidableEq, Repr

/-- A CXL.cache request for a line, and whether it is a snoop, of those that R39 lists. -/
structure CxlSnoop where
  line : Nat
  plain : Bool
  deriving DecidableEq, Repr

/-- A migration request as the destination's League engine receives it (R67). -/
structure MigReq where
  rank : Nat
  src : BitVec 12
  gen : BitVec 16
  chan : BitVec 8
  dom : BitVec 5
  shapeX : Nat
  shapeY : Nat
  csMib : Nat
  prot : Bool
  job : Word
  pages : Nat
  dslice : List Byte
  dcc : List Byte
  deriving DecidableEq, Repr

/-- A CXL.io request (R39, R42). -/
inductive CxlIo where
  | dvsecRead (off : BitVec 12)
  | dvsecWrite (off : BitVec 12) (val : DWord) (stream : Option (BitVec 3))
  | cfgRead (off : BitVec 12)   -- a configuration register outside the Morben DVSEC
  | cfgWrite (off : BitVec 12) (val : DWord)
  | other                       -- an option outside the table of R39
  deriving DecidableEq, Repr

/-- A buffer of R51 whose zeroing ends. -/
inductive ZBuf where
  | window (key : Nat)
  | bank (core slot : Nat) (b : BitVec 3)
  | csLines (cluster lo hi : Nat)
  | region (lo hi : Nat)
  deriving DecidableEq, Repr

/-- What a request to a home slice does (R77, R129): a read, or a write event with its bytes. -/
inductive Access where
  | read (loc len : Nat)
  | write (loc : Nat) (data : List Byte)
  | signal (loc src land : Nat) (fail : Bool)
  deriving DecidableEq, Repr

/-- Where an error arises of itself (R216). -/
inductive ErrSite where
  | corrected                               -- a correctable error
  | memory (loc : Nat)                      -- uncorrectable, found on fetch: marks the granule
  | core (seq : Nat)                        -- uncorrectable, in core storage: found as a rewind
  deriving DecidableEq, Repr

/-- A decoded frame as the decoder delivers it (R363 to R365). The AV1 decoding itself is no part of the spec: the
event brings what it yields. `seqHdr`: the unit has a sequence header that the decoder has read (R362). -/
structure Frame where
  status : BitVec 32
  seqHdr : Bool
  width : BitVec 16
  height : BitVec 16
  badTiles : BitVec 16
  depth : BitVec 8
  ftype : BitVec 8
  grain : BitVec 16
  grainBits : List Byte
  refs : BitVec 8
  refresh : BitVec 8
  shown : Bool
  luma : List Nat
  chromaU : List Nat
  chromaV : List Nat
  deriving DecidableEq, Repr

/-- A resident supervisor strand that firmware starts (R17 phase 7). -/
structure SvStrand where
  seq : Nat
  entry : DWord
  win : Nat
  deriving DecidableEq, Repr

/-- One constructor for each row of the opcode table: the slots' instructions first, then the events. -/
inductive Instr where
  -- the instructions of the eight slots: C (14, 20)
  | br (g : Guard) (off : BitVec 21)
  | braAny (g : Guard) (p : BitVec 4) (off : BitVec 16)
  | braAll (g : Guard) (p : BitVec 4) (off : BitVec 16)
  | call (g : Guard) (off : BitVec 21)
  | ret (g : Guard) (k : BitVec 6)
  | jmpi (g : Guard) (k : BitVec 6)
  | loop (g : Guard) (c : BitVec 6) (len : BitVec 10) (stages : BitVec 3) (step : BitVec 2)
  | lbrk (g : Guard) (k : BitVec 3)
  | spawn (g : Guard) (k : BitVec 2) (e : BitVec 6) (a : BitVec 6) (n : BitVec 4)
  | launch (g : Guard) (r : BitVec 6)
  | launchAfter (g : Guard) (r : BitVec 6)
  | exit (g : Guard)
  | gjoin (g : Guard) (grp : BitVec 6) (line : BitVec 6)
  | gleave (g : Guard) (grp : BitVec 6)
  | gwait (g : Guard) (grp : BitVec 6)
  | parm (g : Guard) (h : BitVec 6)
  | pwait (g : Guard) (line : BitVec 6) (b : BitVec 4)
  | tfence (g : Guard)
  | waitt (g : Guard) (t : BitVec 6)
  | waitv (g : Guard) (a v : BitVec 6)
  | waitcSrc (g : Guard) (c n : BitVec 6)
  | waitcLand (g : Guard) (c n : BitVec 6)
  | mclaim (g : Guard) (b : BitVec 4)
  | mrel (g : Guard)
  | setft (g : Guard) (base : BitVec 6) (level : BitVec 3)
  | trap (g : Guard) (imm : BitVec 16)
  | svc (g : Guard) (imm : BitVec 16)
  | rfi (g : Guard)
  | ttload (g : Guard) (t : BitVec 6)
  | swapctx (g : Guard) (a : BitVec 6)
  | halt (g : Guard)
  | dbg (g : Guard) (imm : BitVec 16)
  -- A slot (16, 20)
  | ld (a : Addr) (q : BitVec 2) (land : BitVec 6) (size : BitVec 2) (signed : Bool)
  | st (a : Addr) (d : BitVec 6) (size : BitVec 2)
  | vld (a : Addr) (q : BitVec 2) (land : BitVec 6) (m : LaneSel)
  | vst (a : Addr) (d : Opnd) (m : LaneSel)
  | vstCnt (a : Addr) (d : Opnd) (line : BitVec 6) (m : LaneSel)
  | vldw (a : Addr) (q : BitVec 2) (land : BitVec 6) (m : LaneSel)
  | pf (a : Addr) (q : BitVec 2) (land : BitVec 6) (m : LaneSel)
  | vgth (base : BitVec 6) (ix : Opnd) (q : BitVec 2) (land : BitVec 4) (g : GIndex)
  | vsct (base : BitVec 6) (ix : BitVec 8) (g : GIndex)
  | ldfe (a : Addr) (q : BitVec 2) (land : BitVec 6) (m : LaneSel)
  | stfe (a : Addr) (d : Opnd) (m : LaneSel)
  | clrfe (a : Addr)
  | ldv (a : Addr) (q : BitVec 2) (land : BitVec 6) (w : BitVec 3)
  | vsetChk (b : BitVec 4) (mask : BitVec 8)
  | vsetSt (base : BitVec 6) (b : BitVec 4) (d : Opnd) (mask : BitVec 8)
  | casv (a : Addr) (v : BitVec 6) (d : Opnd)
  | amo (a : Addr) (op : AmoOp) (wide : Bool) (o : BitVec 6)
  | redAddF32 (a : Addr) (d : Opnd) (m : LaneSel)
  | redAddBf16 (a : Addr) (d : Opnd) (m : LaneSel)
  | redAddBf16Sr (a : Addr) (d : Opnd) (m : LaneSel)
  | redAddBdx8 (a : Addr) (d : Opnd) (m : LaneSel)
  | redAddBdx4 (a : Addr) (d : Opnd) (m : LaneSel)
  | redMaxF32 (a : Addr) (d : Opnd) (m : LaneSel)
  | redAddS32 (a : Addr) (d : Opnd) (m : LaneSel)
  | pstore (a : Addr) (d : BitVec 8) (fmt : BitVec 2)
  | fenceRel (scope : BitVec 3)
  | fenceAcq (scope : BitVec 3)
  | fenceSc (scope : BitVec 3)
  | drain (scope : BitVec 3)
  | arrive (c : BitVec 6) (line : BitVec 6) (scope : BitVec 3)
  | arriveRel (c : BitVec 6) (line : BitVec 6) (scope : BitVec 3)
  | lqadv (q : BitVec 2)
  | tlbinvPage (a : Addr)
  | tlbinvCtx (base : BitVec 6)
  | tlbinvAll
  -- S slot (15)
  | add (d a b : BitVec 6)
  | sub (d a b : BitVec 6)
  | mul (d a b : BitVec 6)
  | mulh (d a b : BitVec 6) (unsigned : Bool)
  | and (d a b : BitVec 6)
  | or (d a b : BitVec 6)
  | xor (d a b : BitVec 6)
  | andn (d a b : BitVec 6)
  | shl (d a b : BitVec 6)
  | shr (d a b : BitVec 6)
  | sar (d a b : BitVec 6)
  | rol (d a b : BitVec 6)
  | addi (d a : BitVec 6) (imm : BitVec 16)
  | andi (d a : BitVec 6) (imm : BitVec 16)
  | ori (d a : BitVec 6) (imm : BitVec 16)
  | xori (d a : BitVec 6) (imm : BitVec 16)
  | shli (d a : BitVec 6) (k : BitVec 6)
  | shri (d a : BitVec 6) (k : BitVec 6)
  | sari (d a : BitVec 6) (k : BitVec 6)
  | roli (d a : BitVec 6) (k : BitVec 6)
  | bfx (d a : BitVec 6) (width : BitVec 6) (pos : BitVec 6) (signed : Bool)
  | bfi (d a : BitVec 6) (width : BitVec 6) (pos : BitVec 6)
  | clz (d a : BitVec 6)
  | popc (d a : BitVec 6)
  | min (d a b : BitVec 6)
  | max (d a b : BitVec 6)
  | minu (d a b : BitVec 6)
  | maxu (d a b : BitVec 6)
  | cmp (c : SCond) (d : BitVec 4) (a b : BitVec 6)
  | cmpi (c : SCond) (d : BitVec 4) (a : BitVec 6) (imm : BitVec 16)
  | sel (d : BitVec 6) (c : BitVec 4) (a b : BitVec 6)
  | band (d a b : BitVec 4) (inv : Bool)
  | bor (d a b : BitVec 4) (inv : Bool)
  | bxor (d a b : BitVec 4) (inv : Bool)
  | bandn (d a b : BitVec 4) (inv : Bool)
  | movi (d : BitVec 6) (imm : BitVec 36)
  | lui (d : BitVec 6) (imm : BitVec 32)
  | getc (d : BitVec 6) (num : BitVec 14)
  | putc (num : BitVec 14) (a : BitVec 6)
  | lea (d a b : BitVec 6) (j : BitVec 3)
  | leai (d a : BitVec 6) (imm : BitVec 16)
  -- D slots (17)
  | dadd (d : DSlot)
  | dsub (d : DSlot)
  | dmul (d : DSlot)
  | dfma (d : DSlot)
  | dfms (d : DSlot)
  | ddiv (d : DSlot)
  | dsqrt (d : DSlot)
  | dabs (d : DSlot)
  | dneg (d : DSlot)
  | dcmp (d : DSlot)
  | dsel (d : DSlot)
  | dclip (d : DSlot)
  | dmax (d : DSlot)
  | dmin (d : DSlot)
  | dcvt (d : DSlot)
  | dland (d : DSlot)
  | vrng (d : DSlot)
  | vsr (d : DSlot)
  | vadd (d : DSlot)
  | vsub (d : DSlot)
  | vmul (d : DSlot)
  | vmulh (d : DSlot)
  | vand (d : DSlot)
  | vor (d : DSlot)
  | vxor (d : DSlot)
  | vandn (d : DSlot)
  | vshl (d : DSlot)
  | vshr (d : DSlot)
  | vsar (d : DSlot)
  | vmin (d : DSlot)
  | vmax (d : DSlot)
  | vcmp (d : DSlot)
  | vsel (d : DSlot)
  | vclz (d : DSlot)
  | vpopc (d : DSlot)
  | vabs (d : DSlot)
  | vneg (d : DSlot)
  | vperm (d : DSlot)
  | vrot (d : DSlot)
  | vbcast (d : DSlot)
  | vshuf (d : DSlot)
  | vred (d : DSlot)
  | pand (d : DSlot)
  | por (d : DSlot)
  | pxor (d : DSlot)
  | pandn (d : DSlot)
  | ptest (d : DSlot)
  | vmov (d : DSlot)
  | vmovi (d : DSlot)
  -- M and K slots (18)
  | mload (fmt : BitVec 4) (plane : BitVec 1) (src : Opnd) (rows : BitVec 8) (row0 : BitVec 6)
  | mswap
  | mma (fmt : BitVec 4) (bank : BitVec 3) (ck acc : Bool) (src : Opnd) (rmask cmask : BitVec 6) (rows : BitVec 8)
  | mcfg (neg trans : Bool)
  | mclr (bank : BitVec 3) (ck : Bool)
  | mdrain (fmt : BitVec 4) (bank : BitVec 3) (dst : Opnd) (rows : BitVec 8) (scale : BitVec 8) (sr clip : Bool)
  | mchk (bank : BitVec 3) (r : BitVec 6) (tol : BitVec 6) (b : BitVec 4)
  | kread (bank : BitVec 3) (index : BitVec 6) (opnd : Opnd) (col : Bool)
  | kwrite (bank : BitVec 3) (index : BitVec 6) (opnd : Opnd) (col : Bool)
  | kadd (bank : BitVec 3) (index : BitVec 6) (opnd : Opnd) (col : Bool)
  | kreadck (bank : BitVec 3) (opnd : Opnd) (col : Bool)
  -- X slot (19)
  | cp (p q co : BitVec 6) (scope : BitVec 3) (cnt : Bool)
  | cp2d (p q co : BitVec 6) (scope : BitVec 3) (cnt : Bool)
  | launchX (p : BitVec 6)
  | launchAfterX (p : BitVec 6)
  | collAr (p co : BitVec 6) (op : CollOp)
  | collRs (p co : BitVec 6) (op : CollOp)
  | collAg (p co : BitVec 6)
  | collBc (p co : BitVec 6)
  | dec (d : BitVec 4) (p co : BitVec 6)
  | histOn (t : BitVec 4) (p q : BitVec 6)
  | histOff (t : BitVec 4)
  | histRd (t : BitVec 4) (p co : BitVec 6)
  | hscale (t : BitVec 4) (p q : BitVec 6)
  | seed (p : BitVec 6)
  | migrMove (p q co : BitVec 6)
  | migrPark (p q co : BitVec 6)
  | migrRecall (p q co : BitVec 6)
  | migrEnd (p q co : BitVec 6)
  -- events that the machine itself makes due
  | emptyBundle (seg rdv ppt : Bool)
  | loopBoundary
  | fuseLoad (fuses : Fuses)
  | pllLock (ok link : Bool)
  | cxlLinkTraining (ok : Bool)
  | selfTest (pass : BitVec 24) (slicesOk bridgeOk : Bool)
  | memoryTraining (hbm : BitVec 8) (tier : TierTraining) (ports : BitVec 16)
  | hardwareZeroing
  | timeDiscipline (rootTime : DWord) (flit : TimeFlit)
  | supervisorStart (strands : List SvStrand)
  | digitStep
  | registerLanding
  | loadLanding (id : Nat)
  | memoryAnswer (id : Nat)
  | clusterStoreAccess (id : Nat)
  | requestDeparture (rank : Nat) (req : Request)
  | writeQueueApply (line : Nat)
  | countedDecrement (rank : Nat) (line : BitVec 6) (party : BitVec 16) (bytes : Nat)
  | rewind (source : BitVec 3)
  | waitConditionMet (seq : Nat)
  | launchRecordRead (rank : Nat) (va : DWord) (read : LaunchRead)
  | strandGrant (seq slot : Nat)
  | swapBegin (seq : Nat)
  | bufferZeroingEnd (b : ZBuf)
  | copySourceRelease (id : Nat)
  | copyLanding (id : Nat)
  | collParameterExchange (id : Nat) (same : Bool)
  | collSourceRelease (id : Nat)
  | collEdgeArrival (id party : Nat) (down : Bool) (data : List (Word × Bool))
  | collLanding (id : Nat) (failed : Bool)
  | decoderRecordStart (d : BitVec 4)
  | decoderSourceRelease (d : BitVec 4)
  | histSnapshot (core rank slot loc : Nat) (co : Option Nat)
  | loadCopyEnd (rank : Nat)
  | parkComplete (rank : Nat)
  | recallComplete (rank : Nat)
  | rankEndComplete (rank : Nat)
  | sharedCacheAccess (a : Access)
  -- events that come from outside the chip, from software writes, or of themselves
  | decoderFrameDone (d : BitVec 4) (f : Frame)
  | packetArrival (a : Arrival)
  | mapHoldReceived (rank : Nat) (src : MsgSrc)
  | mapEntryReceived (rank : Nat) (entry : DWord) (src : MsgSrc) (restore : Bool)
  | thermalTrip
  | thermalLimitLower (tj : BitVec 8)
  | thermalLimitRaise (tj : BitVec 8)
  | powerWindowEvaluation (avg : BitVec 16)
  | setWorld (r : CmdRec)
  | rowActivate (bank row : Nat)
  | parkRank (r : CmdRec)
  | recallRank (r : CmdRec)
  | migrateRank (r : CmdRec)
  | endRank (r : CmdRec)
  | migrationAbortReceived (m : RankMsg)
  | migrationDestReady (rank : Nat)
  | trapEntry (t : TrapInfo) (supervisor : Bool)
  | swapComplete (seq : Nat)
  | spillEnd (seq : Nat)
  | fillEnd (seq slot : Nat)
  | bucketRefill
  | translationReturn (va : DWord) (write : Bool)
  | powerOnReset
  | warmReset (perst linkUp : Bool)
  | railOrderError
  | brownOut
  | railAlert
  | vidbFrame (code : BitVec 8)
  | entdaa (addr : BitVec 7)
  | sidebandRead (addr : BitVec 8)
  | sidebandWrite (addr : BitVec 8) (data : Word)
  | alertStatClear (bits : Word)
  | flitAck (port : BitVec 4) (seqNo : Nat)
  | flitReplay (port : BitVec 4)
  | portDown (port : BitVec 4)
  | portRetrain (port : BitVec 4)
  | portUp (port : BitVec 4)
  | portCmdRetrain (port : BitVec 4)
  | portCmdHold (port : BitVec 4)
  | portCmdRelease (port : BitVec 4)
  | chanCfgWrite (val : DWord)
  | chanCmdOpen (secure : Bool)
  | chanCmdFence
  | chanCmdUnmap
  | fabNodeWrite (node : BitVec 12)
  | openArrival (src dst : BitVec 12) (gen : BitVec 16) (reply : Bool)
  | openRepeat (ch : BitVec 8)
  | openingTimeout (ch : BitVec 8)
  | fenceMarkerArrival (ch : BitVec 8) (port : BitVec 4)
  | fencingTimeout (ch : BitVec 8)
  | transferAcknowledged (id : Nat)
  | rejectionArrival (id : Nat) (stale : Bool)
  | transferTimeout (id : Nat)
  | timeExchange (port : BitVec 4) (offset : BitVec 16) (nbr : TimeNbr)
  | timeLockLoss
  | cxlIoRequest (r : CxlIo)
  | cmdtEnable (t : BitVec 2)
  | cmdtDisable (t : BitVec 2)
  | backInvalidateResponse (line : Nat)
  | cxlMemRead (pa : Nat) (stream : Option (BitVec 3))
  | cxlMemWrite (pa : Nat) (data : List Byte) (way : CxlWay)
  | hostSnoop (snoop : CxlSnoop)
  | mapAckReceived (rank : Nat) (node : BitVec 12)
  | matrixOperationComplete (id : Nat)
  | getVersion
  | getCapabilities
  | negotiateAlgorithms (supported : Bool)
  | getDigests (slot : BitVec 8)
  | getCertificate (slot : BitVec 8)
  | challenge (slot : BitVec 8) (nonce : BitVec 256)
  | getMeasurements (nonce : BitVec 256)
  | keyExchange (secure : Bool) (data : BitVec 256)
  | finish
  | loadRank (r : CmdRec)
  | startRank (r : CmdRec)
  | setChannel (r : CmdRec)
  | migrateRequestReceived (m : MigReq)
  | destAnswer (rank : Nat) (n : BitVec 8)
  | precopyRoundEnd (rank : Nat)
  | mapHoldAnswer (rank : Nat) (node : BitVec 12) (ready : Bool)
  | mapHoldTimeout (rank : Nat)
  | mapAckTimeout (rank : Nat) (node : BitVec 12)
  | leagueKeepalive (rank : Nat)
  | incomingTimeout (rank : Nat)
  | refreshWindowEnd
  | timetableSlotStart (dom : BitVec 5)
  | minresExpiry (seq : Nat)
  | tbCfgWrite (val : DWord)
  | domCfgWrite (val : DWord)
  | wcfgWrite (val : DWord)
  | mownWrite (val : DWord)
  | worldBlkWrite (val : DWord)
  | worldRegionWrite (val : DWord)
  | worldMapBaseWrite (val : DWord)
  | pwCmdForce (line : BitVec 6)
  | errinjWrite (val : DWord)
  | perchWatchdogCensus (line : BitVec 6)
  | debuggerResume (seq : Nat)
  | cxlCacheResponse (line : Nat) (data : List Byte)
  | ideKmRequest (stream : BitVec 3) (secure : Bool)
  | debuggerAttach (seq : Nat) (on : Bool)
  | softError (e : ErrSite)
  deriving DecidableEq, Repr

end Sys2Proof
end

