-- ==== Sys2Proof/Decode.lean ====
section
/-!
DEFINITION. Decode.lean: from the words of a bundle to its instructions (R227 to R260), and, after it, the encoder.
A word that the opcode map does not assign, or a field that is not what its row says, is rejected; every rejection is the trap
ILLEGAL or BANK_CLASH of R248.
-/
namespace Sys2Proof

/-- Bits [lo + len - 1 : lo] of a word (R3). -/
abbrev fld (w : BitVec n) (lo len : Nat) : BitVec len := w.extractLsb' lo len

/-- One bit of a word. -/
abbrev bit (w : BitVec n) (i : Nat) : Bool := w.getLsbD i

namespace Decode

/-- The operand code c with the extension its slot has, if any (R124, R237). -/
def opnd (c : BitVec 8) (ext : Option (BitVec 16)) : Option Opnd :=
  if c.toNat < 0xE0 then some (.v c)
  else if c.toNat < 0xE8 then some (.uni (fld c 0 3))
  else if c.toNat < 0xF0 then some (.ind (fld c 0 3))
  else if c.toNat < 0xF8 then some (.port (fld c 0 3))
  else if c.toNat < 0xFC then some (.queue (fld c 0 2))
  else if c = 0xFC then some .zero
  else if c = 0xFD then some .lane
  else if c = 0xFE then ext.map .imm
  else some .none

def isReg : Opnd → Bool
  | .v _ | .uni _ | .ind _ => true
  | _ => false

def isPort : Opnd → Bool
  | .port _ => true
  | _ => false

def isImm : Opnd → Bool
  | .imm _ => true
  | _ => false

def isQueue : Opnd → Bool
  | .queue _ => true
  | _ => false

/-- Codes that the data operand of a store admits (R297): entries, queues, `zero` and `lane`. -/
def isData : Opnd → Bool
  | .v _ | .uni _ | .ind _ | .queue _ | .zero | .lane => true
  | _ => false

/-- An answer if the check holds. -/
def when (b : Bool) (i : Instr) : Option Instr := if b then some i else none

def scond (c : Nat) : Option SCond :=
  [SCond.eq, .ne, .lt, .ge, .ltu, .geu, .tst, .ntst][c]?

def amoOp (c : Nat) : Option AmoOp :=
  [AmoOp.add, .and, .or, .xor, .min, .max, .minu, .maxu, .swap, .cas][c]?

def collOp (c : Nat) : Option CollOp :=
  [CollOp.addF32, .addBf16, .maxF32, .addS32][c]?

/-! ## The C slot (R230, R250) -/

def slotC (w : BitVec 32) : Option Instr :=
  let g : Guard := ⟨fld w 22 4, bit w 21⟩
  let s := fld w 15 6
  let t := fld w 9 6
  match (fld w 26 6).toNat with
  | 0x01 => some (.br g (fld w 0 21))
  | 0x02 => some (if bit w 16 then .braAll g (fld w 17 4) (fld w 0 16) else .braAny g (fld w 17 4) (fld w 0 16))
  | 0x03 => some (.call g (fld w 0 21))
  | 0x04 => when (fld w 0 15 = 0) (.ret g s)
  | 0x05 => when (fld w 0 15 = 0) (.jmpi g s)
  | 0x08 => when (fld w 5 10 ≠ 0) (.loop g s (fld w 5 10) (fld w 2 3) (fld w 0 2))
  | 0x09 => when (fld w 3 18 = 0 && decide ((fld w 0 3).toNat < 6)) (.lbrk g (fld w 0 3))
  | 0x0A =>
    let a := fld w 7 6
    let n := fld w 3 4
    when (fld w 0 3 = 0 && decide (a.toNat + n.toNat ≤ 64) && (n ≠ 0 || a = 0)) (.spawn g (fld w 19 2) (fld w 13 6) a n)
  | 0x0B => when (fld w 1 14 = 0) (if bit w 0 then .launchAfter g s else .launch g s)
  | 0x0C => when (fld w 0 21 = 0) (.exit g)
  | 0x10 => when (fld w 0 9 = 0) (.gjoin g s t)
  | 0x11 => when (fld w 0 15 = 0) (.gleave g s)
  | 0x12 => when (fld w 0 15 = 0) (.gwait g s)
  | 0x14 => when (fld w 0 15 = 0) (.parm g s)
  | 0x15 => when (fld w 0 11 = 0) (.pwait g s (fld w 11 4))
  | 0x18 => when (fld w 0 21 = 0) (.tfence g)
  | 0x19 => when (fld w 0 15 = 0) (.waitt g s)
  | 0x1A => when (fld w 0 9 = 0) (.waitv g s t)
  | 0x1B => when (fld w 1 8 = 0) (if bit w 0 then .waitcLand g s t else .waitcSrc g s t)
  | 0x1C => when (fld w 0 17 = 0) (.mclaim g (fld w 17 4))
  | 0x1D => when (fld w 0 21 = 0) (.mrel g)
  | 0x1E => when (fld w 0 12 = 0) (.setft g s (fld w 12 3))
  | 0x20 => when (fld w 16 5 = 0) (.trap g (fld w 0 16))
  | 0x21 => when (fld w 16 5 = 0) (.svc g (fld w 0 16))
  | 0x22 => when (fld w 0 21 = 0) (.rfi g)
  | 0x28 => when (fld w 0 15 = 0) (.ttload g s)
  | 0x29 => when (fld w 0 15 = 0) (.swapctx g s)
  | 0x2A => when (fld w 0 21 = 0) (.halt g)
  | 0x2B => when (fld w 16 5 = 0) (.dbg g (fld w 0 16))
  | _ => none

/-! ## The A slot (R231, R251, R252) -/

/-- A load of the plain form: OPND is a queue. -/
def queueOf (c : BitVec 8) : Option (BitVec 2) :=
  if 0xF8 ≤ c.toNat ∧ c.toNat < 0xFC then some (fld c 0 2) else none

/-- A data operand of R297. -/
def dataOf (c : BitVec 8) : Option Opnd :=
  match opnd c none with
  | some o => if isData o then some o else none
  | none => none

def slotA (ext : Option (BitVec 16)) (w : BitVec 32) : Option Instr :=
  let base := fld w 20 6
  let code := fld w 12 8
  let land := fld w 6 6
  let m := fld w 0 6
  let a : Addr := ⟨base, ext.getD 0⟩
  let sel : LaneSel := ⟨fld w 0 4, bit w 4⟩
  let lanes := !bit w 5
  let red (mk : Addr → Opnd → LaneSel → Instr) : Option Instr :=
    (dataOf code).bind fun d => when (lanes && land = 0) (mk a d sel)
  let gix : GIndex := ⟨fld w 4 2, bit w 3, fld w 0 3⟩
  let gOk := fld w 4 2 ≠ 3 && ext.isNone
  match (fld w 26 6).toNat with
  | 0x01 => (queueOf code).bind fun q =>
      when (fld w 3 3 = 0 && !(bit w 2 && fld w 0 2 = 3)) (.ld a q land (fld w 0 2) (bit w 2))
  | 0x02 => when (fld code 6 2 = 0 && land = 0 && fld w 2 4 = 0) (.st a (fld code 0 6) (fld w 0 2))
  | 0x08 => (queueOf code).bind fun q => when lanes (.vld a q land sel)
  | 0x09 => (dataOf code).bind fun d =>
      if bit w 5 then when (base ≠ 63) (.vstCnt a d land sel) else when (land = 0) (.vst a d sel)
  | 0x0A => (queueOf code).bind fun q => when (lanes && decide (base.toNat ≤ 61)) (.vldw a q land sel)
  | 0x0B => (queueOf code).bind fun q => when lanes (.pf a q land sel)
  | 0x0C => (opnd code none).bind fun o =>
      when (gOk && (isReg o || isQueue o)) (.vgth base o (fld w 10 2) (fld w 6 4) gix)
  | 0x0D => when (gOk && fld w 6 6 = 0 && decide (code.toNat ≤ 0xDE)) (.vsct base code gix)
  | 0x10 => (queueOf code).bind fun q => when lanes (.ldfe a q land sel)
  | 0x11 => red .stfe
  | 0x12 => when (m = 0 && land = 0 && code = 0xFF) (.clrfe a)
  | 0x14 => (queueOf code).bind fun q => when (fld w 3 3 = 0) (.ldv a q land (fld w 0 3))
  | 0x15 => when (base = 0 && land = 0 && fld w 4 2 = 0 && code = 0xFF && fld (ext.getD 0) 8 8 = 0)
      (.vsetChk (fld w 0 4) (match ext with | some e => fld e 0 8 | none => 0xFF))
  | 0x16 => (dataOf code).bind fun d => when (land = 0 && fld w 4 2 = 0 && fld (ext.getD 0) 8 8 = 0)
      (.vsetSt base (fld w 0 4) d (match ext with | some e => fld e 0 8 | none => 0xFF))
  | 0x17 => (dataOf code).bind fun d => when (land = 0) (.casv a m d)
  | 0x18 => (amoOp (fld w 2 4).toNat).bind fun op =>
      when (fld code 6 2 = 0 && land = 0 && bit w 1 && !(op = .cas && fld code 0 6 = 63)) (.amo a op (bit w 0) (fld code 0 6))
  | 0x1A => red .redAddF32
  | 0x1B => (dataOf code).bind fun d =>
      when (land = 0) (if bit w 5 then .redAddBf16Sr a d sel else .redAddBf16 a d sel)
  | 0x1C => red .redAddBdx8
  | 0x1D => red .redAddBdx4
  | 0x1E => red .redMaxF32
  | 0x1F => red .redAddS32
  | 0x20 => when (land = 0 && decide (base.toNat ≤ 61) && fld w 2 4 = 0 && decide (code.toNat + 3 ≤ 223))
      (.pstore a code (fld w 0 2))
  | 0x24 => if base = 0 ∧ land = 0 ∧ code = 0xFF ∧ bit w 5 = false ∧ (fld w 0 3).toNat < 6 ∧ ext = none then
      match (fld w 3 2).toNat with
      | 0 => some (.fenceRel (fld w 0 3))
      | 1 => some (.fenceAcq (fld w 0 3))
      | 2 => some (.fenceSc (fld w 0 3))
      | _ => none
    else none
  | 0x25 => when (base = 0 && land = 0 && code = 0xFF && fld w 3 3 = 0 && decide ((fld w 0 3).toNat < 6) && ext = none)
      (.drain (fld w 0 3))
  | 0x26 => when (fld code 6 2 = 0 && land = 0 && fld w 4 2 = 0 && decide ((fld w 0 3).toNat < 6) && ext = none)
      (if bit w 3 then .arriveRel base (fld code 0 6) (fld w 0 3) else .arrive base (fld code 0 6) (fld w 0 3))
  | 0x27 => (queueOf code).bind fun q => when (base = 0 && land = 0 && m = 0 && ext = none) (.lqadv q)
  | 0x28 => if code = 0xFF ∧ land = 0 ∧ fld w 2 4 = 0 then
      match (fld w 0 2).toNat with
      | 0 => when (base ≠ 63) (.tlbinvPage a)
      | 1 => when (ext = none) (.tlbinvCtx base)
      | 2 => when (base = 0 && ext = none) .tlbinvAll
      | _ => none
    else none
  | _ => none

/-! ## The S slot (R232, R253) -/

/-- The immediate of the forms that admit the extension: SignExtend(IMM8), or IMM16 with IMM8 zero. -/
def imm16 (ext : Option (BitVec 16)) (i : BitVec 8) : Option (BitVec 16) :=
  match ext with
  | none => some (i.signExtend 16)
  | some e => if i = 0 then some e else none

def slotS (ext : Option (BitVec 16)) (w : BitVec 32) : Option Instr :=
  let d := fld w 20 6
  let a := fld w 14 6
  let b := fld w 8 6
  let i := fld w 0 8
  let no := ext.isNone
  let reg (mk : BitVec 6 → BitVec 6 → BitVec 6 → Instr) : Option Instr := when (no && i = 0) (mk d a b)
  let immf (mk : BitVec 6 → BitVec 6 → BitVec 16 → Instr) : Option Instr :=
    if b = 0 then (imm16 ext i).map (mk d a) else none
  let shf (mk : BitVec 6 → BitVec 6 → BitVec 6 → Instr) : Option Instr :=
    when (no && b = 0 && fld i 6 2 = 0) (mk d a (fld i 0 6))
  let una (mk : BitVec 6 → BitVec 6 → Instr) : Option Instr := when (no && b = 0 && i = 0) (mk d a)
  match (fld w 26 6).toNat with
  | 0x01 => reg .add
  | 0x02 => reg .sub
  | 0x03 => reg .mul
  | 0x04 => when (no && fld i 1 7 = 0) (.mulh d a b (bit i 0))
  | 0x08 => reg .and
  | 0x09 => reg .or
  | 0x0A => reg .xor
  | 0x0B => reg .andn
  | 0x0C => reg .shl
  | 0x0D => reg .shr
  | 0x0E => reg .sar
  | 0x0F => reg .rol
  | 0x10 => immf .addi
  | 0x11 => immf .andi
  | 0x12 => immf .ori
  | 0x13 => immf .xori
  | 0x14 => shf .shli
  | 0x15 => shf .shri
  | 0x16 => shf .sari
  | 0x17 => shf .roli
  | 0x18 => when (no && !bit i 7 && decide ((fld i 0 6).toNat + b.toNat + 1 ≤ 64)) (.bfx d a b (fld i 0 6) (bit i 6))
  | 0x19 => when (no && fld i 6 2 = 0 && decide ((fld i 0 6).toNat + b.toNat + 1 ≤ 64)) (.bfi d a b (fld i 0 6))
  | 0x1A => una .clz
  | 0x1B => una .popc
  | 0x1C => reg .min
  | 0x1D => reg .max
  | 0x1E => reg .minu
  | 0x1F => reg .maxu
  | 0x20 => if no && fld d 4 2 = 0 && fld i 4 4 = 0 then
      (scond (fld i 0 4).toNat).map fun c => .cmp c (fld d 0 4) a b else none
  | 0x21 => if fld d 4 2 = 0 && fld b 4 2 = 0 then
      (scond (fld b 0 4).toNat).bind fun c => (imm16 ext i).map fun v => .cmpi c (fld d 0 4) a v else none
  | 0x22 => when (no && fld i 4 4 = 0) (.sel d (fld i 0 4) a b)
  | 0x23 => if no && fld d 4 2 = 0 && fld a 4 2 = 0 && fld b 4 2 = 0 && fld i 3 5 = 0 then
      let mk := match (fld i 0 2).toNat with
        | 0 => Instr.band
        | 1 => .bor
        | 2 => .bxor
        | _ => .bandn
      some (mk (fld d 0 4) (fld a 0 4) (fld b 0 4) (bit i 2)) else none
  | 0x28 => some (.movi d (match ext with
      | none => (fld w 0 20).signExtend 36
      | some e => e ++ fld w 0 20))
  | 0x29 => match ext with
      | none => some (.lui d ((fld w 0 20).signExtend 32))
      | some e => when (fld w 16 4 = 0) (.lui d (e ++ fld w 0 16))
  | 0x30 => when (no && a = 0) (.getc d (fld w 0 14))
  | 0x31 => when (no && d = 0) (.putc (fld w 0 14) a)
  | 0x38 => when (no && fld i 3 5 = 0) (.lea d a b (fld i 0 3))
  | 0x39 => immf .leai
  | _ => none

/-! ## The D slots (R233, R237, R254, R255, R315) -/

/-- What a row of R254 and R315 admits. Sources are listed SA, SB, SC. -/
inductive Src where
  | no                 -- unused: 0xFF
  | reg                -- entries, queues, `zero`, `lane`, literal
  | regPort            -- as `reg`, or a chain port
  | portOnly           -- a chain port
  | predOnly           -- a lane predicate (R255)
  | immOnly            -- the literal
  deriving DecidableEq, Repr

structure DRow where
  fmts : List Nat
  sa : Src
  sb : Src := .no
  sc : Src := .no
  predDst : Bool := false
  portDst : Bool := false
  zeroDst : Bool := true
  kill : Bool := false
  rms : List Nat := [0]
  sat : Bool := false
  minor : BitVec 5 → Bool := fun m => m = 0
  build : DSlot → Instr

def fF : List Nat := [0, 1, 2, 3, 4, 14]
def fF2 : List Nat := [0, 1, 14]
def fI : List Nat := [8, 9, 10, 11, 12, 13, 14]
def fAll : List Nat := [0, 1, 2, 3, 4, 5, 6, 7, 8, 9, 10, 11, 12, 13, 14]
def rmAll : List Nat := [0, 1, 2, 3]
def cpo (m : BitVec 5) : Bool := !m.getLsbD 4

/-- The source format of `dcvt` in MINOR[3:0]: 0 to 5 or 8 to 13. -/
def cvtSrc (m : BitVec 5) : Bool := [0, 1, 2, 3, 4, 5, 8, 9, 10, 11, 12, 13].contains m.toNat

/-- An online row of two port-capable sources. -/
def online2 (mk : DSlot → Instr) : DRow :=
  { fmts := fF, sa := .regPort, sb := .regPort, portDst := true, rms := rmAll, sat := true, minor := cpo, build := mk }

def intRow (mk : DSlot → Instr) (sat : Bool) : DRow := { fmts := fI, sa := .reg, sb := .reg, sat, build := mk }
def intRow1 (mk : DSlot → Instr) (sat : Bool) : DRow := { fmts := fI, sa := .reg, sat, build := mk }
def permRow (mk : DSlot → Instr) : DRow := { fmts := fAll, sa := .reg, sb := .reg, build := mk }
def predRow (mk : DSlot → Instr) : DRow :=
  { fmts := [0, 14], sa := .predOnly, sb := .predOnly, predDst := true, build := mk }

/-- The table of R254. `minor` and the source of `vrng` and `vshuf` depend on MINOR, so the row takes it. -/
def dRow (op : Nat) (minor : BitVec 5) : Option DRow :=
  match op with
  | 0x01 => some (online2 .dadd)
  | 0x02 => some (online2 .dsub)
  | 0x03 => some (online2 .dmul)
  | 0x04 => some { online2 .dfma with sc := .regPort }
  | 0x05 => some { online2 .dfms with sc := .regPort }
  | 0x06 => some { online2 .ddiv with fmts := fF2, sb := .reg }
  | 0x07 => some { online2 .dsqrt with fmts := fF2, sa := .reg, sb := .no }
  | 0x08 => some { fmts := fF, sa := .reg, build := .dabs }
  | 0x09 => some { fmts := fF, sa := .reg, build := .dneg }
  | 0x0A => some { fmts := fF, sa := .regPort, sb := .regPort, predDst := true, kill := true,
                   minor := fun m => fld m 3 2 = 0, build := .dcmp }
  | 0x0B => some { fmts := fF, sa := .regPort, sb := .regPort, sc := .regPort, kill := true, rms := rmAll, sat := true,
                   build := .dsel }
  | 0x0C => some { fmts := fF, sa := .regPort, sb := .regPort, sc := .regPort, kill := true, rms := rmAll, sat := true,
                   build := .dclip }
  | 0x0D => some { online2 .dmax with kill := true }
  | 0x0E => some { online2 .dmin with kill := true }
  | 0x0F => some { fmts := [0, 1, 2, 3, 4, 5, 8, 9, 10, 11, 12, 13, 14], sa := .reg, portDst := true, rms := rmAll,
                   sat := true, minor := cvtSrc, build := .dcvt }
  | 0x10 => some { fmts := fF, sa := .portOnly, rms := rmAll, sat := true, build := .dland }
  | 0x11 => some { fmts := [0, 9, 14], sa := if minor = 2 then .reg else .no, predDst := decide (minor = 2), zeroDst := false,
                   minor := fun m => decide (m.toNat ≤ 2), build := .vrng }
  | 0x12 => some { fmts := fF, sa := .regPort, sb := .reg, rms := [2], sat := true, build := .vsr }
  | 0x18 => some (intRow .vadd true)
  | 0x19 => some (intRow .vsub true)
  | 0x1A => some (intRow .vmul true)
  | 0x1B => some { intRow .vmulh true with rms := [0, 1] }
  | 0x1C => some (intRow .vand false)
  | 0x1D => some (intRow .vor false)
  | 0x1E => some (intRow .vxor false)
  | 0x1F => some (intRow .vandn false)
  | 0x20 => some (intRow .vshl true)
  | 0x21 => some (intRow .vshr false)
  | 0x22 => some (intRow .vsar false)
  | 0x23 => some (intRow .vmin false)
  | 0x24 => some (intRow .vmax false)
  | 0x25 => some { fmts := fI, sa := .reg, sb := .reg, predDst := true, minor := fun m => decide (m.toNat ≤ 5), build := .vcmp }
  | 0x26 => some { fmts := fAll, sa := .reg, sb := .reg, sc := .predOnly, build := .vsel }
  | 0x27 => some (intRow1 .vclz false)
  | 0x28 => some (intRow1 .vpopc false)
  | 0x29 => some (intRow1 .vabs true)
  | 0x2A => some (intRow1 .vneg true)
  | 0x30 => some (permRow .vperm)
  | 0x31 => some (permRow .vrot)
  | 0x32 => some (permRow .vbcast)
  | 0x33 => some { permRow .vshuf with sb := if minor = 4 then .no else .reg, minor := fun m => decide (m.toNat ≤ 4) }
  | 0x34 => some { fmts := [0, 1, 2, 3, 4, 8, 9, 10, 11, 12, 13, 14], sa := .reg, rms := rmAll, sat := true,
                   minor := fun m => decide (m.toNat ≤ 2), build := .vred }
  | 0x38 => some (predRow .pand)
  | 0x39 => some (predRow .por)
  | 0x3A => some (predRow .pxor)
  | 0x3B => some (predRow .pandn)
  | 0x3C => some { fmts := fAll, sa := .reg, predDst := true, build := .ptest }
  | 0x3E => some { fmts := [0, 14], sa := .reg, build := .vmov }
  | 0x3F => some { fmts := [0, 1, 2, 3, 4, 5, 8, 9, 10, 11, 12, 13, 14], sa := .immOnly, build := .vmovi }
  | _ => none

/-- A literal is legal in the format (R237); the format table's is known only at issue. -/
def litOk (fmt : Nat) (w : BitVec 16) : Bool :=
  match fmt with
  | 3 | 4 => fld w 8 8 = 0
  | 5 => fld w 4 12 = 0
  | 6 | 7 => false
  | _ => true

/-- A source field read in its role. -/
def srcOpnd (k : Src) (fmt : Nat) (c : BitVec 8) (ext : Option (BitVec 16)) : Option Opnd :=
  match k with
  | .no => if c = 0xFF then some .none else none
  | .predOnly => if c.toNat < 16 then some (.pred (fld c 0 4)) else none
  | .portOnly => (opnd c ext).bind fun o => if isPort o then some o else none
  | .immOnly => (opnd c ext).bind fun o => match o with
      | .imm w => if litOk fmt w then some o else none
      | _ => none
  | .reg | .regPort => (opnd c ext).bind fun o => match o with
      | .imm w => if litOk fmt w then some o else none
      | .port _ => if k = .regPort then some o else none
      | .none | .pred _ => none
      | _ => some o

/-- The destination field (R237, R255, R315). -/
def dstOpnd (r : DRow) (fmt : Nat) (c : BitVec 8) : Option Opnd :=
  if r.predDst then (if c.toNat < 16 then some (.pred (fld c 0 4)) else none)
  else (opnd c none).bind fun o => match o with
    | .v _ | .uni _ | .ind _ => some o
    | .zero => if r.zeroDst then some o else none
    | .port _ => if r.portDst && (fmt ≤ 4 || fmt = 14) then some o else none
    | _ => none

/-- LANDTO: 0xFF, or an entry with a port DST. -/
def landOpnd (dst : Opnd) (c : BitVec 8) : Option Opnd :=
  (opnd c none).bind fun o => match o with
    | .none => some o
    | .v _ | .uni _ | .ind _ => if isPort dst then some o else none
    | _ => none

def slotD (ext : Option (BitVec 16)) (w : BitVec 64) : Option Instr := do
  let fmt := fld w 54 4
  let minor := fld w 0 5
  let r ← dRow (fld w 58 6).toNat minor
  let f := fmt.toNat
  let dst ← dstOpnd r f (fld w 40 8)
  let sa ← srcOpnd r.sa f (fld w 32 8) ext
  let sb ← srcOpnd r.sb f (fld w 24 8) ext
  let sc ← srcOpnd r.sc f (fld w 16 8) ext
  let landTo ← landOpnd dst (fld w 8 8)
  let rm := fld w 6 2
  let usesImm := isImm sa || isImm sb || isImm sc
  let selfPort := isPort dst && (sa = dst || sb = dst || sc = dst)
  if r.fmts.contains f && r.minor minor && r.rms.contains rm.toNat && (r.sat || !bit w 5) && (r.kill || !bit w 48)
      && !selfPort && (ext.isNone || usesImm) then
    some (r.build ⟨fmt, fld w 50 4, bit w 49, bit w 48, dst, sa, sb, sc, landTo, rm, bit w 5, minor⟩)
  else none

/-! ## The M and K slots (R234, R235, R256, R257, R335, R336) -/

/-- Entries of `rows` row images of a format (R335): entries per row, or per four rows of a block format. -/
def imageEntries (fmt rows : Nat) : Nat :=
  match fmt with
  | 0 | 8 | 9 => 4 * rows
  | 1 | 2 | 10 | 13 => 2 * rows
  | 6 => 5 * (rows / 4)
  | 7 => 3 * (rows / 4)
  | _ => rows

/-- A vector operand of an M or K slot whose last entry is legal (R336); FMT 14 is checked at issue. -/
def vecOpnd (c : BitVec 8) (entries : Nat) : Option Opnd :=
  match opnd c none with
  | some (.v k) => if k.toNat + entries ≤ 224 then some (.v k) else none
  | some (.uni i) => some (.uni i)
  | _ => none

/-- As `vecOpnd`, admitting `zero`. -/
def vecOrZero (c : BitVec 8) (entries : Nat) : Option Opnd :=
  if c = 0xFC then some .zero else vecOpnd c entries

def isBlock (fmt : Nat) : Bool := fmt = 6 || fmt = 7

def slotM (w : BitVec 64) : Option Instr :=
  let fmt := fld w 54 4
  let f := fmt.toNat
  let bank := fld w 51 3
  let plane := bit w 50
  let ck := bit w 49
  let acc := bit w 48
  let src := fld w 40 8
  let rmask := fld w 34 6
  let cmask := fld w 28 6
  let rows := fld w 20 8
  let n := rows.toNat
  let drain := fld w 12 8
  let minor := fld w 0 12
  let rowsOk := decide (1 ≤ n ∧ n ≤ 64)
  let known := f ≠ 14
  let four := !isBlock f || n % 4 = 0
  match (fld w 58 6).toNat with
  | 0x01 =>
    if rowsOk && ((1 ≤ f && f ≤ 7) || f = 14) && bank = 0 && !ck && !acc && rmask = 0 && cmask = 0 && drain = 0
        && fld minor 6 6 = 0 && decide ((fld minor 0 6).toNat + n ≤ 64) && four
        && (!isBlock f || (fld minor 0 6).toNat % 4 = 0) then
      (vecOrZero src (if known then imageEntries f n else 1)).map fun s =>
        .mload fmt (fld w 50 1) s rows (fld minor 0 6)
    else none
  | 0x02 => if fld w 0 58 = 0 then some .mswap else none
  | 0x03 =>
    if rowsOk && ((1 ≤ f && f ≤ 7) || f = 14) && !plane && drain = 0 && minor = 0 && four && (!ck || acc) then
      (vecOrZero src (if known then imageEntries f n else 1)).map fun s =>
        .mma fmt bank ck acc s rmask cmask rows
    else none
  | 0x04 => if fld w 2 56 = 0 then some (.mcfg (bit w 1) (bit w 0)) else none
  | 0x05 => if f = 0 && !plane && !acc && fld w 0 48 = 0 then some (.mclr bank ck) else none
  | 0x06 =>
    if rowsOk && f ≠ 15 && !plane && !ck && !acc && src = 0 && rmask = 0 && cmask = 0 && fld minor 10 2 = 0 && four then
      if 0xF0 ≤ drain.toNat ∧ drain.toNat ≤ 0xF4 then
        (if f = 0 && !bit minor 8 then
          some (.mdrain fmt bank (.port (fld drain 0 3)) rows (fld minor 0 8) (bit minor 8) (bit minor 9)) else none)
      else (vecOpnd drain (if known then imageEntries f n else 1)).map fun d =>
        .mdrain fmt bank d rows (fld minor 0 8) (bit minor 8) (bit minor 9)
    else none
  | 0x07 =>
    if f = 0 && !plane && !ck && !acc && src = 0 && rows = 0 && drain = 0 && fld minor 4 8 = 0
        && decide (1 ≤ rmask.toNat ∧ rmask.toNat ≤ 62) then
      some (.mchk bank rmask cmask (fld minor 0 4))
    else none
  | _ => none

def slotK (w : BitVec 32) : Option Instr :=
  let bank := fld w 23 3
  let ix := fld w 17 6
  if fld w 1 8 = 0 then
    (vecOpnd (fld w 9 8) 4).bind fun o =>
      match (fld w 26 6).toNat with
      | 0x01 => some (.kread bank ix o (bit w 0))
      | 0x02 => some (.kwrite bank ix o (bit w 0))
      | 0x03 => some (.kadd bank ix o (bit w 0))
      | 0x04 => if ix = 0 then some (.kreadck bank o (bit w 0)) else none
      | _ => none
  else none

/-! ## The X slot (R236, R258, R351) -/

def slotX (w : BitVec 32) : Option Instr :=
  let p := fld w 20 6
  let q := fld w 14 6
  let co := fld w 8 6
  let m := fld w 0 8
  let scopeOk := decide ((fld m 0 3).toNat < 6) && fld m 4 4 = 0
  match (fld w 26 6).toNat with
  | 0x01 => when (scopeOk && decide (p ≠ 63 ∧ q ≠ 63)) (.cp p q co (fld m 0 3) (bit m 3))
  | 0x02 => when (scopeOk && decide (p ≠ 63 ∧ q.toNat < 62)) (.cp2d p q co (fld m 0 3) (bit m 3))
  | 0x04 => when (q = 0 && co = 0 && fld m 1 7 = 0) (if bit m 0 then .launchAfterX p else .launchX p)
  | 0x08 => if q = 0 && fld m 2 6 = 0 then (collOp (fld m 0 2).toNat).map (.collAr p co) else none
  | 0x09 => if q = 0 && fld m 2 6 = 0 then (collOp (fld m 0 2).toNat).map (.collRs p co) else none
  | 0x0A => when (q = 0 && m = 0) (.collAg p co)
  | 0x0B => when (q = 0 && m = 0) (.collBc p co)
  | 0x10 => when (q = 0 && fld m 4 4 = 0) (.dec (fld m 0 4) p co)
  | 0x14 => when (co = 0 && fld m 4 4 = 0) (.histOn (fld m 0 4) p q)
  | 0x15 => when (p = 0 && q = 0 && co = 0 && fld m 4 4 = 0) (.histOff (fld m 0 4))
  | 0x16 => when (q = 0 && fld m 4 4 = 0) (.histRd (fld m 0 4) p co)
  | 0x17 => when (co = 0 && fld m 4 4 = 0) (.hscale (fld m 0 4) p q)
  | 0x18 => when (q = 0 && co = 0 && m = 0) (.seed p)
  | 0x20 => if fld m 2 6 = 0 then
      some (match (fld m 0 2).toNat with
        | 0 => .migrMove p q co
        | 1 => .migrPark p q co
        | 2 => .migrRecall p q co
        | _ => .migrEnd p q co)
    else none
  | _ => none

/-! ## What a bundle's slots name (R168, R238, R265) -/

/-- The scalars an instruction names as destinations; s0 is exempt. -/
def dstScalars : Instr → List Nat
  | .call .. => [62]
  | .casv _ v _ => [v.toNat]
  | .amo _ _ _ o => [o.toNat]
  | .mchk _ r _ _ => [r.toNat, r.toNat + 1]
  | .add d _ _ | .sub d _ _ | .mul d _ _ | .mulh d _ _ _ | .and d _ _ | .or d _ _ | .xor d _ _ | .andn d _ _
  | .shl d _ _ | .shr d _ _ | .sar d _ _ | .rol d _ _ | .addi d _ _ | .andi d _ _ | .ori d _ _ | .xori d _ _
  | .shli d _ _ | .shri d _ _ | .sari d _ _ | .roli d _ _ | .bfx d _ _ _ _ | .bfi d _ _ _ | .clz d _ | .popc d _
  | .min d _ _ | .max d _ _ | .minu d _ _ | .maxu d _ _ | .sel d _ _ _ | .movi d _ | .lui d _ | .getc d _
  | .lea d _ _ _ | .leai d _ _ => [d.toNat]
  | _ => []

/-- The scalar predicates an instruction names as destinations; b0 is exempt. -/
def dstPreds : Instr → List Nat
  | .pwait _ _ b | .mclaim _ b | .vsetChk b _ | .vsetSt _ b _ _ | .mchk _ _ _ b | .cmp _ b _ _ | .cmpi _ b _ _
  | .band b _ _ _ | .bor b _ _ _ | .bxor b _ _ _ | .bandn b _ _ _ => [b.toNat]
  | _ => []

/-- The D-slot record of an instruction. -/
def dslot? : Instr → Option DSlot
  | .dadd d | .dsub d | .dmul d | .dfma d | .dfms d | .ddiv d | .dsqrt d | .dabs d | .dneg d | .dcmp d | .dsel d | .dclip d
  | .dmax d | .dmin d | .dcvt d | .dland d | .vrng d | .vsr d | .vadd d | .vsub d | .vmul d | .vmulh d | .vand d | .vor d
  | .vxor d | .vandn d | .vshl d | .vshr d | .vsar d | .vmin d | .vmax d | .vcmp d | .vsel d | .vclz d | .vpopc d | .vabs d
  | .vneg d | .vperm d | .vrot d | .vbcast d | .vshuf d | .vred d | .pand d | .por d | .pxor d | .pandn d | .ptest d
  | .vmov d | .vmovi d => some d
  | _ => none

/-- The lane predicates an instruction names as destinations; `loop` counts its stage predicates (R265). -/
def dstLanePreds (i : Instr) : List Nat :=
  match i with
  | .loop _ _ _ s _ => List.range' 1 s.toNat
  | _ => match dslot? i with
    | some d => match d.dst with
      | .pred p => [p.toNat]
      | _ => []
    | none => []

/-- The chain ports an instruction writes. `mdrain` to a port writes four (R347). -/
def dstPorts (i : Instr) : List Nat :=
  match i with
  | .mdrain _ _ (.port c) _ _ _ _ => [c.toNat, c.toNat + 1, c.toNat + 2, c.toNat + 3]
  | _ => match dslot? i with
    | some d => match d.dst with
      | .port c => [c.toNat]
      | _ => []
    | none => []

/-- The chain ports an instruction reads. -/
def srcPorts (i : Instr) : List Nat :=
  match dslot? i with
  | some d => [d.sa, d.sb, d.sc].filterMap fun o => match o with
    | .port c => some c.toNat
    | _ => none
  | none => []

/-- The bank an M or K instruction names. -/
def bank? : Instr → Option (BitVec 3)
  | .mma _ b _ _ _ _ _ _ | .mclr b _ | .mdrain _ b _ _ _ _ _ | .mchk b _ _ _ | .kread b _ _ _ | .kwrite b _ _ _
  | .kadd b _ _ _ | .kreadck b _ _ => some b
  | _ => none

def overlap (exempt : Nat) (l l' : List Nat) : Bool :=
  l.any fun x => x ≠ exempt && l'.contains x

/-- The cross-slot rules between an earlier and a later slot of one bundle (R168, R238). -/
def clash (e l : Instr) : Bool :=
  overlap 0 (dstScalars e) (dstScalars l) || overlap 0 (dstPreds e) (dstPreds l)
    || overlap 0 (dstLanePreds e) (dstLanePreds l)
    || overlap 256 (dstPorts e) (dstPorts l ++ srcPorts l) || overlap 256 (srcPorts e) (dstPorts l)

/-! ## Bundles (R227 to R229) -/

/-- Why words are no bundle: the trap of R248 they take. -/
inductive Reject where
  | illegal (slot : Nat)        -- INFO of R403: the slot index, 255 for the header or the fetch
  | bankClash (bank : BitVec 3)
  deriving DecidableEq, Repr

/-- A header's fields. -/
structure Header where
  imm16 : BitVec 16
  xslot : BitVec 3
  ext : Bool
  ppt : Bool
  rdv : Bool
  seg : Bool
  presence : BitVec 8
  deriving DecidableEq, Repr

/-- A decoded bundle: its header, its slots with their indices in the order C, A, S, D0, D1, M, K, X, and its bytes. -/
structure Bundle where
  hdr : Header
  slots : List (Nat × Instr)
  size : Nat
  deriving DecidableEq, Repr

def header (w : BitVec 32) : Option Header :=
  let h : Header := ⟨fld w 16 16, fld w 13 3, bit w 11, bit w 10, bit w 9, bit w 8, fld w 0 8⟩
  if bit w 12 || (h.seg && h.ext) || (!h.ext && h.xslot ≠ 0) || (!h.ext && !h.seg && h.imm16 ≠ 0)
      || (h.ext && !h.presence.getLsbD h.xslot.toNat) then none
  else some h

/-- The bytes of a slot: D0, D1 and M are 64 bits (R229). -/
def slotSize (i : Nat) : Nat := if i = 3 ∨ i = 4 ∨ i = 5 then 8 else 4

def present (h : Header) : List Nat := (List.range 8).filter h.presence.getLsbD

def bundleSize (h : Header) : Nat := 4 + ((present h).map slotSize).sum

/-- The little-endian number in the first n bytes (R2). -/
def leNat : List Byte → Nat
  | [] => 0
  | b :: bs => b.toNat + 256 * leNat bs

/-- The instruction in slot i, from the bytes that start at it. -/
def slot (i : Nat) (ext : Option (BitVec 16)) (bs : List Byte) : Option Instr :=
  let w32 : BitVec 32 := BitVec.ofNat 32 (leNat (bs.take 4))
  let w64 : BitVec 64 := BitVec.ofNat 64 (leNat (bs.take 8))
  match i with
  | 0 => if ext.isNone then slotC w32 else none
  | 1 => slotA ext w32
  | 2 => slotS ext w32
  | 3 | 4 => slotD ext w64
  | 5 => if ext.isNone then slotM w64 else none
  | 6 => if ext.isNone then slotK w32 else none
  | _ => if ext.isNone then slotX w32 else none

/-- The slots of a bundle in order, `bs` starting at the first; a slot that does not decode is `none`. -/
def slotList (h : Header) : List Nat → List Byte → List (Nat × Option Instr)
  | [], _ => []
  | i :: is, bs =>
    (i, slot i (if h.ext && h.xslot.toNat = i then some h.imm16 else none) bs) :: slotList h is (bs.drop (slotSize i))

/-- The first breach of the decode rules, in slot order: an undecodable slot, a clash with an earlier slot, or an M and a K
slot on one bank (R139). -/
def breach : List (Nat × Instr) → List (Nat × Option Instr) → Except Reject (List (Nat × Instr))
  | done, [] => .ok done
  | _, (i, none) :: _ => .error (.illegal i)
  | done, (i, some x) :: rest =>
    if done.any fun e => clash e.2 x then .error (.illegal i)
    else match bank? x with
      | some b => if i = 6 && done.any fun e => e.1 = 5 && bank? e.2 = some b then .error (.bankClash b)
                  else breach (done ++ [(i, x)]) rest
      | none => breach (done ++ [(i, x)]) rest

/-- Does an instruction, decoded without an extension, admit one (R228, R244, R252, R253, R302)? A D slot that decodes so has no field
0xFE, and admits none. -/
def admitsExt : Instr → Bool
  | .ld .. | .st .. | .vld .. | .vst .. | .vstCnt .. | .vldw .. | .pf .. | .ldfe .. | .stfe .. | .clrfe _ | .ldv .. | .vsetChk ..
  | .vsetSt .. | .casv .. | .amo .. | .redAddF32 .. | .redAddBf16 .. | .redAddBf16Sr .. | .redAddBdx8 .. | .redAddBdx4 ..
  | .redMaxF32 .. | .redAddS32 .. | .pstore .. | .tlbinvPage _ => true
  | .addi .. | .andi .. | .ori .. | .xori .. | .cmpi .. | .movi .. | .lui .. | .leai .. => true
  | _ => false

/-- Does a header's extension name a slot whose instruction admits none (R228)? -/
def extRefused (h : Header) (bs : List Byte) : Bool :=
  let k := h.xslot.toNat
  let at_ := 4 + (((present h).filter fun i => decide (i < k)).map slotSize).sum
  h.ext && match slot k none (bs.drop at_) with
    | some i => !admitsExt i
    | none => false

/-- What stands at a fetch address, from the bytes up to the end of its 64-byte fetch line: a pad word (R229), a bundle, or
words that take a trap. -/
inductive Fetched where
  | pad
  | bundle (b : Bundle)
  | reject (r : Reject)
  deriving DecidableEq, Repr

def bundle (bs : List Byte) : Fetched :=
  let w : BitVec 32 := BitVec.ofNat 32 (leNat (bs.take 4))
  if w = 0 then .pad
  else match header w with
    | none => .reject (.illegal 255)
    | some h =>
      if bs.length < bundleSize h || extRefused h bs then .reject (.illegal 255)
      else match breach [] (slotList h (present h) (bs.drop 4)) with
        | .ok slots => .bundle ⟨h, slots, bundleSize h⟩
        | .error r => .reject r

/-- The slots that decode in words which take a trap behind a valid header; the errors that they start go before the trap (R210). -/
def readable (bs : List Byte) : List (Nat × Instr) :=
  match header (BitVec.ofNat 32 (leNat (bs.take 4))) with
  | none => []
  | some h =>
    if bs.length < bundleSize h then []
    else (slotList h (present h) (bs.drop 4)).filterMap fun x => x.2.map fun i => (x.1, i)

/-- The slot index in which a 32-bit word of the opcode table is read. The slot classes share their opcode numbers
(R249), so one word can be an instruction of several classes; the table's word does not say which. The classes are
tried in the order A, S, K, X, C (log 7). -/
def classOf (w : BitVec 32) : Option Nat :=
  if (slotA none w).isSome then some 1
  else if (slotS none w).isSome then some 2
  else if (slotK w).isSome then some 6
  else if (slotX w).isSome then some 7
  else if (slotC w).isSome then some 0
  else none

/-- The slot index in which a 64-bit word is read: D0, else M (log 7). -/
def classOf64 (w : BitVec 64) : Option Nat :=
  if (slotD none w).isSome then some 3
  else if (slotM w).isSome then some 5
  else none

/-- The bytes of a number, least significant first (R2). -/
def leBytes : Nat → Nat → List Byte
  | 0, _ => []
  | n + 1, x => BitVec.ofNat 8 x :: leBytes n (x / 256)

/-- The slot index and the bytes of a one-slot bundle that carries the table's word: header, then the slot. -/
def tableBundle (nbits w : Nat) : Option (Nat × List Byte) :=
  if nbits ≤ 32 then
    (classOf (BitVec.ofNat 32 w)).map fun i => (i, leBytes 4 (2 ^ i) ++ leBytes 4 w)
  else
    (classOf64 (BitVec.ofNat 64 w)).map fun i => (i, leBytes 4 (2 ^ i) ++ leBytes 8 w)

end Decode

/-- The instruction that the decoder reads from a word of the opcode table: the word laid out as the one slot of a bundle. -/
def decodeTableWord (nbits w : Nat) : Option Instr :=
  match Decode.tableBundle nbits w with
  | none => none
  | some (_, bs) => match Decode.bundle bs with
    | .bundle b => match b.slots with
      | [(_, i)] => some i
      | _ => none
    | _ => none

namespace Encode

/-! ## The encoder, from the same tables of the spec -/

/-- The word of one slot: its slot index, the bundle extension it takes, and its bits. -/
inductive SlotWord where
  | short (slot : Nat) (ext : Option (BitVec 16)) (w : BitVec 32)
  | long (slot : Nat) (ext : Option (BitVec 16)) (w : BitVec 64)
  deriving DecidableEq, Repr

/-- What the decoder reads from the word of one slot. -/
def SlotWord.decode : SlotWord → Option Instr
  | .short 0 none w => Decode.slotC w
  | .short 1 ext w => Decode.slotA ext w
  | .short 2 ext w => Decode.slotS ext w
  | .short 6 none w => Decode.slotK w
  | .short 7 none w => Decode.slotX w
  | .long 3 ext w => Decode.slotD ext w
  | .long 4 ext w => Decode.slotD ext w
  | .long 5 none w => Decode.slotM w
  | _ => none

abbrev bool (b : Bool) : BitVec 1 := BitVec.ofBool b

/-- The operand code of an operand (R124, R237, R255). -/
def opnd : Opnd → BitVec 8
  | .v k => k
  | .uni i => (0b11100#5 ++ i : BitVec 8)
  | .ind i => (0b11101#5 ++ i : BitVec 8)
  | .port c => (0b11110#5 ++ c : BitVec 8)
  | .queue q => (0b111110#6 ++ q : BitVec 8)
  | .zero => 0xFC
  | .lane => 0xFD
  | .imm _ => 0xFE
  | .none => 0xFF
  | .pred p => (0#4 ++ p : BitVec 8)

/-- A C slot (R230). -/
def cw (op : BitVec 6) (g : Guard) (rest : BitVec 21) : Option SlotWord :=
  some (.short 0 none (op ++ g.bp ++ bool g.bn ++ rest))

/-- A C slot that names a scalar in bits 20 to 15, `rest` below it. -/
def cs (op : BitVec 6) (g : Guard) (s : BitVec 6) (rest : BitVec 15) : Option SlotWord := cw op g (s ++ rest)

/-- A plain A slot (R231). -/
def aw (op base : BitVec 6) (code : BitVec 8) (land m : BitVec 6) (ext : Option (BitVec 16)) : Option SlotWord :=
  some (.short 1 ext (op ++ base ++ code ++ land ++ m))

/-- The extension that a displacement takes. -/
def dispExt (d : BitVec 16) : Option (BitVec 16) := if d = 0 then none else some d

def qcode (q : BitVec 2) : BitVec 8 := (0b111110#6 ++ q : BitVec 8)

def sel (m : LaneSel) (top : Bool) : BitVec 6 := (bool top ++ bool m.inv ++ m.pred : BitVec 6)

def gmod (g : GIndex) : BitVec 6 := (g.width ++ bool g.signed ++ g.scale : BitVec 6)

/-- A load of the plain form, with a lane predicate. -/
def aload (op : BitVec 6) (a : Addr) (q : BitVec 2) (land : BitVec 6) (m : LaneSel) : Option SlotWord :=
  aw op a.base (qcode q) land (sel m false) (dispExt a.disp)

/-- A store of the plain form, with a lane predicate. -/
def astore (op : BitVec 6) (a : Addr) (d : Opnd) (m : LaneSel) (top : Bool) : Option SlotWord :=
  aw op a.base (opnd d) 0 (sel m top) (dispExt a.disp)

/-- The extension of a vset lane mask (R302). -/
def maskExt (m : BitVec 8) : Option (BitVec 16) := if m = 0xFF then none else some (0#8 ++ m : BitVec 16)

def amoCode : AmoOp → BitVec 4
  | .add => 0 | .and => 1 | .or => 2 | .xor => 3 | .min => 4 | .max => 5 | .minu => 6 | .maxu => 7 | .swap => 8 | .cas => 9

/-- An S slot (R232). -/
def sw (op d a b : BitVec 6) (i : BitVec 8) (ext : Option (BitVec 16)) : Option SlotWord :=
  some (.short 2 ext (op ++ d ++ a ++ b ++ i))

/-- An S slot with an immediate: in IMM8 where it fits, else in the extension (R253). -/
def si (op d a b : BitVec 6) (imm : BitVec 16) : Option SlotWord :=
  if (imm.setWidth 8).signExtend 16 = imm then sw op d a b (imm.setWidth 8) none else sw op d a b 0 (some imm)

def scond : SCond → BitVec 4
  | .eq => 0 | .ne => 1 | .lt => 2 | .ge => 3 | .ltu => 4 | .geu => 5 | .tst => 6 | .ntst => 7

def pd (p : BitVec 4) : BitVec 6 := (0#2 ++ p : BitVec 6)

/-- A predicate operation of the S slot (R289). -/
def sp (op : BitVec 2) (d a b : BitVec 4) (inv : Bool) : Option SlotWord :=
  sw 0x23 (pd d) (pd a) (pd b) (0#5 ++ bool inv ++ op : BitVec 8) none

/-- The literal that an operand list needs as the extension. -/
def dExt : List Opnd → Option (BitVec 16)
  | [] => none
  | .imm w :: _ => some w
  | _ :: os => dExt os

/-- A D slot (R233). It may stand in D0 or D1; the encoder writes D0. -/
def dw (op : BitVec 6) (d : DSlot) : Option SlotWord :=
  some (.long 3 (dExt [d.sa, d.sb, d.sc])
    (op ++ d.fmt ++ d.pred ++ bool d.pn ++ bool d.kill ++ opnd d.dst ++ opnd d.sa ++ opnd d.sb ++ opnd d.sc
      ++ opnd d.landTo ++ d.rm ++ bool d.sat ++ d.minor))

/-- An M slot (R234). -/
def mw (op : BitVec 6) (fmt : BitVec 4) (bank : BitVec 3) (plane : BitVec 1) (ck acc : Bool) (src : BitVec 8)
    (rmask cmask : BitVec 6) (rows drain : BitVec 8) (minor : BitVec 12) : Option SlotWord :=
  some (.long 5 none (op ++ fmt ++ bank ++ plane ++ bool ck ++ bool acc ++ src ++ rmask ++ cmask ++ rows ++ drain ++ minor))

/-- A K slot (R235). -/
def kw (op : BitVec 6) (bank : BitVec 3) (ix : BitVec 6) (o : Opnd) (col : Bool) : Option SlotWord :=
  some (.short 6 none (op ++ bank ++ ix ++ opnd o ++ 0#8 ++ bool col))

/-- An X slot (R236). -/
def xw (op p q co : BitVec 6) (m : BitVec 8) : Option SlotWord :=
  some (.short 7 none (op ++ p ++ q ++ co ++ m))

def cpMod (cnt : Bool) (scope : BitVec 3) : BitVec 8 := (0#4 ++ bool cnt ++ scope : BitVec 8)

def collCode : CollOp → BitVec 8
  | .addF32 => 0 | .addBf16 => 1 | .maxF32 => 2 | .addS32 => 3

def nib (t : BitVec 4) : BitVec 8 := (0#4 ++ t : BitVec 8)

/-- The word of a well-formed instruction of a slot; an event has none. -/
def encode : Instr → Option SlotWord
  | .br g off => cw 0x01 g off
  | .braAny g p off => cw 0x02 g (p ++ 0#1 ++ off : BitVec 21)
  | .braAll g p off => cw 0x02 g (p ++ 1#1 ++ off : BitVec 21)
  | .call g off => cw 0x03 g off
  | .ret g k => cs 0x04 g k 0
  | .jmpi g k => cs 0x05 g k 0
  | .loop g c len stages step => cs 0x08 g c (len ++ stages ++ step : BitVec 15)
  | .lbrk g k => cw 0x09 g (0#18 ++ k : BitVec 21)
  | .spawn g k e a n => cw 0x0A g (k ++ e ++ a ++ n ++ 0#3 : BitVec 21)
  | .launch g r => cs 0x0B g r 0
  | .launchAfter g r => cs 0x0B g r 1
  | .exit g => cw 0x0C g 0
  | .gjoin g grp line => cs 0x10 g grp (line ++ 0#9 : BitVec 15)
  | .gleave g grp => cs 0x11 g grp 0
  | .gwait g grp => cs 0x12 g grp 0
  | .parm g h => cs 0x14 g h 0
  | .pwait g line b => cs 0x15 g line (b ++ 0#11 : BitVec 15)
  | .tfence g => cw 0x18 g 0
  | .waitt g t => cs 0x19 g t 0
  | .waitv g a v => cs 0x1A g a (v ++ 0#9 : BitVec 15)
  | .waitcSrc g c n => cs 0x1B g c (n ++ 0#9 : BitVec 15)
  | .waitcLand g c n => cs 0x1B g c (n ++ 1#9 : BitVec 15)
  | .mclaim g b => cw 0x1C g (b ++ 0#17 : BitVec 21)
  | .mrel g => cw 0x1D g 0
  | .setft g base level => cs 0x1E g base (level ++ 0#12 : BitVec 15)
  | .trap g imm => cw 0x20 g (0#5 ++ imm : BitVec 21)
  | .svc g imm => cw 0x21 g (0#5 ++ imm : BitVec 21)
  | .rfi g => cw 0x22 g 0
  | .ttload g t => cs 0x28 g t 0
  | .swapctx g a => cs 0x29 g a 0
  | .halt g => cw 0x2A g 0
  | .dbg g imm => cw 0x2B g (0#5 ++ imm : BitVec 21)
  | .ld a q land size signed => aw 0x01 a.base (qcode q) land (0#3 ++ bool signed ++ size : BitVec 6) (dispExt a.disp)
  | .st a d size => aw 0x02 a.base (0#2 ++ d : BitVec 8) 0 (0#4 ++ size : BitVec 6) (dispExt a.disp)
  | .vld a q land m => aload 0x08 a q land m
  | .vst a d m => astore 0x09 a d m false
  | .vstCnt a d line m => aw 0x09 a.base (opnd d) line (sel m true) (dispExt a.disp)
  | .vldw a q land m => aload 0x0A a q land m
  | .pf a q land m => aload 0x0B a q land m
  | .vgth base ix q land g => aw 0x0C base (opnd ix) (q ++ land : BitVec 6) (gmod g) none
  | .vsct base ix g => aw 0x0D base ix 0 (gmod g) none
  | .ldfe a q land m => aload 0x10 a q land m
  | .stfe a d m => astore 0x11 a d m false
  | .clrfe a => aw 0x12 a.base 0xFF 0 0 (dispExt a.disp)
  | .ldv a q land w => aw 0x14 a.base (qcode q) land (0#3 ++ w : BitVec 6) (dispExt a.disp)
  | .vsetChk b mask => aw 0x15 0 0xFF 0 (pd b) (maskExt mask)
  | .vsetSt base b d mask => aw 0x16 base (opnd d) 0 (pd b) (maskExt mask)
  | .casv a v d => aw 0x17 a.base (opnd d) 0 v (dispExt a.disp)
  | .amo a op wide o => aw 0x18 a.base (0#2 ++ o : BitVec 8) 0 (amoCode op ++ 1#1 ++ bool wide : BitVec 6) (dispExt a.disp)
  | .redAddF32 a d m => astore 0x1A a d m false
  | .redAddBf16 a d m => astore 0x1B a d m false
  | .redAddBf16Sr a d m => astore 0x1B a d m true
  | .redAddBdx8 a d m => astore 0x1C a d m false
  | .redAddBdx4 a d m => astore 0x1D a d m false
  | .redMaxF32 a d m => astore 0x1E a d m false
  | .redAddS32 a d m => astore 0x1F a d m false
  | .pstore a d fmt => aw 0x20 a.base d 0 (0#4 ++ fmt : BitVec 6) (dispExt a.disp)
  | .fenceRel scope => aw 0x24 0 0xFF 0 (0#3 ++ scope : BitVec 6) none
  | .fenceAcq scope => aw 0x24 0 0xFF 0 (0b001#3 ++ scope : BitVec 6) none
  | .fenceSc scope => aw 0x24 0 0xFF 0 (0b010#3 ++ scope : BitVec 6) none
  | .drain scope => aw 0x25 0 0xFF 0 (0#3 ++ scope : BitVec 6) none
  | .arrive c line scope => aw 0x26 c (0#2 ++ line : BitVec 8) 0 (0#3 ++ scope : BitVec 6) none
  | .arriveRel c line scope => aw 0x26 c (0#2 ++ line : BitVec 8) 0 (0b001#3 ++ scope : BitVec 6) none
  | .lqadv q => aw 0x27 0 (qcode q) 0 0 none
  | .tlbinvPage a => aw 0x28 a.base 0xFF 0 0 (dispExt a.disp)
  | .tlbinvCtx base => aw 0x28 base 0xFF 0 1 none
  | .tlbinvAll => aw 0x28 0 0xFF 0 2 none
  | .add d a b => sw 0x01 d a b 0 none
  | .sub d a b => sw 0x02 d a b 0 none
  | .mul d a b => sw 0x03 d a b 0 none
  | .mulh d a b unsigned => sw 0x04 d a b (0#7 ++ bool unsigned : BitVec 8) none
  | .and d a b => sw 0x08 d a b 0 none
  | .or d a b => sw 0x09 d a b 0 none
  | .xor d a b => sw 0x0A d a b 0 none
  | .andn d a b => sw 0x0B d a b 0 none
  | .shl d a b => sw 0x0C d a b 0 none
  | .shr d a b => sw 0x0D d a b 0 none
  | .sar d a b => sw 0x0E d a b 0 none
  | .rol d a b => sw 0x0F d a b 0 none
  | .addi d a imm => si 0x10 d a 0 imm
  | .andi d a imm => si 0x11 d a 0 imm
  | .ori d a imm => si 0x12 d a 0 imm
  | .xori d a imm => si 0x13 d a 0 imm
  | .shli d a k => sw 0x14 d a 0 (0#2 ++ k : BitVec 8) none
  | .shri d a k => sw 0x15 d a 0 (0#2 ++ k : BitVec 8) none
  | .sari d a k => sw 0x16 d a 0 (0#2 ++ k : BitVec 8) none
  | .roli d a k => sw 0x17 d a 0 (0#2 ++ k : BitVec 8) none
  | .bfx d a width pos signed => sw 0x18 d a width (0#1 ++ bool signed ++ pos : BitVec 8) none
  | .bfi d a width pos => sw 0x19 d a width (0#2 ++ pos : BitVec 8) none
  | .clz d a => sw 0x1A d a 0 0 none
  | .popc d a => sw 0x1B d a 0 0 none
  | .min d a b => sw 0x1C d a b 0 none
  | .max d a b => sw 0x1D d a b 0 none
  | .minu d a b => sw 0x1E d a b 0 none
  | .maxu d a b => sw 0x1F d a b 0 none
  | .cmp c d a b => sw 0x20 (pd d) a b (nib (scond c)) none
  | .cmpi c d a imm => si 0x21 (pd d) a (pd (scond c)) imm
  | .sel d c a b => sw 0x22 d a b (nib c) none
  | .band d a b inv => sp 0 d a b inv
  | .bor d a b inv => sp 1 d a b inv
  | .bxor d a b inv => sp 2 d a b inv
  | .bandn d a b inv => sp 3 d a b inv
  | .movi d imm => if (imm.setWidth 20).signExtend 36 = imm then some (.short 2 none (0x28#6 ++ d ++ imm.setWidth 20))
      else some (.short 2 (some (imm.extractLsb' 20 16)) (0x28#6 ++ d ++ imm.setWidth 20))
  | .lui d imm => if (imm.setWidth 20).signExtend 32 = imm then some (.short 2 none (0x29#6 ++ d ++ imm.setWidth 20))
      else some (.short 2 (some (imm.extractLsb' 16 16)) (0x29#6 ++ d ++ 0#4 ++ imm.setWidth 16))
  | .getc d num => some (.short 2 none (0x30#6 ++ d ++ 0#6 ++ num))
  | .putc num a => some (.short 2 none (0x31#6 ++ 0#6 ++ a ++ num))
  | .lea d a b j => sw 0x38 d a b (0#5 ++ j : BitVec 8) none
  | .leai d a imm => si 0x39 d a 0 imm
  | .dadd d => dw 0x01 d
  | .dsub d => dw 0x02 d
  | .dmul d => dw 0x03 d
  | .dfma d => dw 0x04 d
  | .dfms d => dw 0x05 d
  | .ddiv d => dw 0x06 d
  | .dsqrt d => dw 0x07 d
  | .dabs d => dw 0x08 d
  | .dneg d => dw 0x09 d
  | .dcmp d => dw 0x0A d
  | .dsel d => dw 0x0B d
  | .dclip d => dw 0x0C d
  | .dmax d => dw 0x0D d
  | .dmin d => dw 0x0E d
  | .dcvt d => dw 0x0F d
  | .dland d => dw 0x10 d
  | .vrng d => dw 0x11 d
  | .vsr d => dw 0x12 d
  | .vadd d => dw 0x18 d
  | .vsub d => dw 0x19 d
  | .vmul d => dw 0x1A d
  | .vmulh d => dw 0x1B d
  | .vand d => dw 0x1C d
  | .vor d => dw 0x1D d
  | .vxor d => dw 0x1E d
  | .vandn d => dw 0x1F d
  | .vshl d => dw 0x20 d
  | .vshr d => dw 0x21 d
  | .vsar d => dw 0x22 d
  | .vmin d => dw 0x23 d
  | .vmax d => dw 0x24 d
  | .vcmp d => dw 0x25 d
  | .vsel d => dw 0x26 d
  | .vclz d => dw 0x27 d
  | .vpopc d => dw 0x28 d
  | .vabs d => dw 0x29 d
  | .vneg d => dw 0x2A d
  | .vperm d => dw 0x30 d
  | .vrot d => dw 0x31 d
  | .vbcast d => dw 0x32 d
  | .vshuf d => dw 0x33 d
  | .vred d => dw 0x34 d
  | .pand d => dw 0x38 d
  | .por d => dw 0x39 d
  | .pxor d => dw 0x3A d
  | .pandn d => dw 0x3B d
  | .ptest d => dw 0x3C d
  | .vmov d => dw 0x3E d
  | .vmovi d => dw 0x3F d
  | .mload fmt plane src rows row0 => mw 0x01 fmt 0 plane false false (opnd src) 0 0 rows 0 (0#6 ++ row0 : BitVec 12)
  | .mswap => mw 0x02 0 0 0 false false 0 0 0 0 0 0
  | .mma fmt bank ck acc src rmask cmask rows => mw 0x03 fmt bank 0 ck acc (opnd src) rmask cmask rows 0 0
  | .mcfg neg tr => mw 0x04 0 0 0 false false 0 0 0 0 0 (0#10 ++ bool neg ++ bool tr : BitVec 12)
  | .mclr bank ck => mw 0x05 0 bank 0 ck false 0 0 0 0 0 0
  | .mdrain fmt bank dst rows scale sr clip => mw 0x06 fmt bank 0 false false 0 0 0 rows (opnd dst) (0#2 ++ bool clip ++ bool sr ++ scale : BitVec 12)
  | .mchk bank r tol b => mw 0x07 0 bank 0 false false 0 r tol 0 0 (0#8 ++ b : BitVec 12)
  | .kread bank index o col => kw 0x01 bank index o col
  | .kwrite bank index o col => kw 0x02 bank index o col
  | .kadd bank index o col => kw 0x03 bank index o col
  | .kreadck bank o col => kw 0x04 bank 0 o col
  | .cp p q co scope cnt => xw 0x01 p q co (cpMod cnt scope)
  | .cp2d p q co scope cnt => xw 0x02 p q co (cpMod cnt scope)
  | .launchX p => xw 0x04 p 0 0 0
  | .launchAfterX p => xw 0x04 p 0 0 1
  | .collAr p co op => xw 0x08 p 0 co (collCode op)
  | .collRs p co op => xw 0x09 p 0 co (collCode op)
  | .collAg p co => xw 0x0A p 0 co 0
  | .collBc p co => xw 0x0B p 0 co 0
  | .dec d p co => xw 0x10 p 0 co (nib d)
  | .histOn t p q => xw 0x14 p q 0 (nib t)
  | .histOff t => xw 0x15 0 0 0 (nib t)
  | .histRd t p co => xw 0x16 p 0 co (nib t)
  | .hscale t p q => xw 0x17 p q 0 (nib t)
  | .seed p => xw 0x18 p 0 0 0
  | .migrMove p q co => xw 0x20 p q co 0
  | .migrPark p q co => xw 0x20 p q co 1
  | .migrRecall p q co => xw 0x20 p q co 2
  | .migrEnd p q co => xw 0x20 p q co 3
  | .emptyBundle .. | .loopBoundary | .fuseLoad .. | .pllLock .. | .cxlLinkTraining .. | .selfTest ..
  | .memoryTraining .. | .hardwareZeroing | .timeDiscipline .. | .supervisorStart .. | .digitStep | .registerLanding
  | .matrixOperationComplete .. | .loadLanding .. | .memoryAnswer .. | .clusterStoreAccess .. | .requestDeparture ..
  | .writeQueueApply .. | .countedDecrement .. | .trapEntry .. | .rewind .. | .waitConditionMet ..
  | .launchRecordRead .. | .strandGrant .. | .swapBegin .. | .swapComplete .. | .spillEnd .. | .fillEnd ..
  | .bucketRefill | .bufferZeroingEnd .. | .copySourceRelease .. | .copyLanding .. | .collParameterExchange ..
  | .collSourceRelease .. | .collEdgeArrival .. | .collLanding .. | .decoderRecordStart .. | .decoderSourceRelease ..
  | .histSnapshot .. | .loadCopyEnd .. | .parkComplete .. | .recallComplete .. | .rankEndComplete ..
  | .translationReturn .. | .sharedCacheAccess .. | .powerOnReset | .warmReset .. | .railOrderError | .brownOut
  | .railAlert | .thermalTrip | .thermalLimitLower .. | .thermalLimitRaise .. | .powerWindowEvaluation ..
  | .vidbFrame .. | .entdaa .. | .sidebandRead .. | .sidebandWrite .. | .alertStatClear .. | .flitAck ..
  | .flitReplay .. | .portDown .. | .portRetrain .. | .portUp .. | .portCmdRetrain .. | .portCmdHold ..
  | .portCmdRelease .. | .chanCfgWrite .. | .chanCmdOpen .. | .chanCmdFence | .chanCmdUnmap | .fabNodeWrite ..
  | .openArrival .. | .openRepeat .. | .openingTimeout .. | .fenceMarkerArrival .. | .fencingTimeout ..
  | .packetArrival .. | .transferAcknowledged .. | .rejectionArrival .. | .transferTimeout .. | .timeExchange ..
  | .timeLockLoss | .cxlIoRequest .. | .cmdtEnable .. | .cmdtDisable .. | .cxlMemRead .. | .cxlMemWrite ..
  | .hostSnoop .. | .backInvalidateResponse .. | .getVersion | .getCapabilities | .negotiateAlgorithms ..
  | .getDigests .. | .getCertificate .. | .challenge .. | .getMeasurements .. | .keyExchange .. | .finish
  | .loadRank .. | .startRank .. | .parkRank .. | .recallRank .. | .migrateRank .. | .endRank .. | .setChannel ..
  | .setWorld .. | .migrateRequestReceived .. | .destAnswer .. | .precopyRoundEnd .. | .mapHoldReceived ..
  | .mapHoldAnswer .. | .mapHoldTimeout .. | .migrationDestReady .. | .mapEntryReceived .. | .mapAckReceived ..
  | .mapAckTimeout .. | .leagueKeepalive .. | .migrationAbortReceived .. | .incomingTimeout .. | .rowActivate ..
  | .refreshWindowEnd | .timetableSlotStart .. | .minresExpiry .. | .tbCfgWrite .. | .domCfgWrite .. | .wcfgWrite ..
  | .mownWrite .. | .worldBlkWrite .. | .worldRegionWrite .. | .worldMapBaseWrite .. | .pwCmdForce ..
  | .errinjWrite .. | .perchWatchdogCensus .. | .debuggerResume .. | .decoderFrameDone .. | .cxlCacheResponse ..
  | .ideKmRequest .. | .debuggerAttach .. | .softError .. => none

end Encode

/-- The word of an instruction of a slot, with the bundle extension it takes (R227 to R260). -/
def encode : Instr → Option Encode.SlotWord := Encode.encode

end Sys2Proof
end

