-- ==== Sys2Proof/Config.lean ====
section
/-!
DEFINITION. Config.lean: the values the spec leaves open. Each is a constant with no body, so that no proof can see what it
is: a claim holds whatever it is.
-/
namespace Sys2Proof.Config

/-- The bytes of an SPDM answer (R52, R53) that differ from one to the next: signatures and key exchanges depend on the fused
identity key and on cryptography the spec only names. Applied to the count of free values drawn (log 8). -/
opaque spdmBytes : Nat → List Byte

/-- The certificate of slot 0, and its digest (R52): the identity key is derived from fuses, so neither changes (log 8). -/
opaque certificate : List Byte
opaque certificateDigest : List Byte

/-- Measurement blocks 1 to 3 (R52, R53): the digests of the boot ROM, the firmware image and the fuse configuration, by the number
of resets before they were taken (log 8). -/
opaque measurement : Nat → Nat → BitVec 512

/-- What a configuration register outside the Morben DVSEC reads: R39 names configuration space and gives none of it (log 8). -/
opaque cfgSpace : BitVec 12 → BitVec 64

/-- What the AV1 decoder leaves in the header state it keeps in bytes 0x10 and up of a stream context, "the decoder's
own" (R362, log 8): it depends on what stood there and on the frame, so that it is one value in every placement (R73). -/
opaque decoderState : List Byte → List Nat → List Byte

/-- The sign of the infinity that a `ddiv` of a finite port operand by zero makes: R171 says that the port's sign is not
known at issue, and R318 gives the sign of the infinity by it (log 8). Applied to the rank's key and step, the bundle, the lane
and the divisor's word, which are the same in every placement (R73). -/
opaque openSign : BitVec 64 → BitVec 32 → BitVec 64 → Nat → BitVec 32 → Bool

/-- The FP4 code that the operand `lane` reads in a lane whose number FP4 does not represent (5, 7 to 15): R237 reads the
lane number as the format's value and states no rounding (log 8). -/
opaque fp4Lane : Nat → BitVec 4

/-- The MINOR of a chain operation that `rfi` restores from an image which names no operation held for that handler: the image
has no field for it (R181, log 17). Applied to the rank's key and step, the address of the `rfi`, and the place in the image, which
are the same in every placement (R73). -/
opaque heldMinor : BitVec 64 → BitVec 32 → BitVec 64 → Nat → BitVec 5

/-- A doubleword of a context image that no chip has written, in a save area whose header R376 admits (log 18). Applied to what stands
in the area behind the header, and to the place of the doubleword. -/
opaque strayImage : Nat → Nat → BitVec 64

/-- The random bits of a lane of such an operation (R161, R181, log 17). -/
opaque heldRandom : BitVec 64 → BitVec 32 → BitVec 64 → Nat → Nat → BitVec 16

/-- INFO of the WORLD trap of a refused `putc` to WORLD_MAP_BASE, which names no object of the classes of R403 (log 8). Applied
to the count of free values drawn. -/
opaque mapBaseInfo : Nat → BitVec 32

/-- Is the cycle of device time a freeze cycle of a cluster, while the package is above its limit? R12 says that freeze cycles are
inserted cluster by cluster, and not which ones (log 55). -/
opaque freezeCycle : Nat → Nat → Bool

/-- The bank of its channel, and the row there, in which a line of HBM4E stands: R75 ends at the channel (log 66). -/
opaque dramBank : Nat → Nat
opaque dramRow : Nat → Nat

/-- Which of the six rails crosses the bounds of its range, by the number of crossings before: the event names none (R20, log 8). -/
opaque railOf : Nat → Fin 6

/-- The package power averaged over the last window, which R12 evaluates every 10 µs, by the cycle of the evaluation: what the
package draws the spec does not say (log 55). -/
opaque windowPower : Nat → BitVec 16

end Sys2Proof.Config
end

