-- ==== Sys2Proof/Machine/State.lean ====
section
/-!
DEFINITION. State.lean: the state of one Vujor chip, all of it plain data, and the state right after power-on reset.
Registers, memories and tables that are mostly at one value are sparse tables (`Store`): keys strictly rising, no entry
at the table's default. What each table's default is stands beside its field.
-/
namespace Sys2Proof.Machine

/-! ## The chip's parts -/

/-- Power, bring-up and the sideband (01). -/
structure Power where
  phase : Nat
  err : BitVec 4
  pass : BitVec 24
  hbmPass : BitVec 8
  limit : BitVec 16           -- PWR_LIMIT.LIMIT (R13)
  thermal : BitVec 16         -- the thermal limit, 1450 while there is none (R14)
  tj : BitVec 8
  throt : Bool
  avg : BitVec 16
  alert : BitVec 4            -- ALERT_STAT: THERM, FAIL, RAIL, LINK from bit 0 (R20)
  thermAt : Nat               -- when the next 1 ms step of the thermal limit is due (R14)
  railsOut : BitVec 6         -- the rails that are out of their range (R20)
  rails : Nat                 -- crossings of a rail's range so far
  memActive : Bool            -- the CXL Memory_Active indication (R17)
  trip : Bool                 -- THERM_TRIP_N asserted
  link : Bool                 -- the CXL.io link has trained
  clocks : Bool               -- clocks run
  good : Bool                 -- internal power-good
  orderErr : Bool             -- a rail came up out of order (R15)
  i3c : Option (BitVec 7)     -- dynamic address
  vid : BitVec 8              -- VIDB set-point code
  form : BitVec 8             -- FORM (R53), fused
  tierGib : Nat               -- TIER_GIB (R9)
  deriving DecidableEq, Repr

/-- A Soard port (R23, R24). `replay` are the flits sent and not acknowledged, by sequence number and channel, none for a flit of
the time tree, the first 512 of them in the buffer; `sent` numbers the next. `tryAt` is when it trains next of itself, and `fell` that it has gone down and not
come up since. `nhops` and `nroot` are the hops and the root that the neighbour named in its last time flit, 0xFF hops none (R36). -/
structure SPort where
  up : Bool
  training : Bool
  held : Bool
  fell : Bool
  replay : List (Nat × Option (BitVec 8))
  sent : Nat
  replays : Nat
  tryAt : Nat
  ackAt : Nat
  nhops : BitVec 8
  nroot : BitVec 12
  deriving DecidableEq, Repr

/-- States of a channel end (R27). -/
inductive ChanState where
  | closed | opening | opened | fencing | fenced
  deriving DecidableEq, Repr

/-- A channel end (R25, R26). -/
structure Chan where
  peer : BitVec 12
  cports : BitVec 16
  domains : BitVec 24
  gen : BitVec 16
  pgen : BitVec 16
  lastErr : BitVec 8
  st : ChanState
  since : Nat
  markers : BitVec 16
  admits : Bool
  psent : Nat                 -- the sequence number of the next packet it sends (R23)
  pgot : List Nat             -- those of the packets that it has accepted since it opened
  deriving DecidableEq, Repr

/-- What a transfer toward another chip carries: an edge of a collective toward a party, down or up, what a party says of itself for
the exchange of R358, or League traffic. -/
inductive XferWhat where
  | edge (coll party : Nat) (down : Bool)
  | check (coll party : Nat)
  | league (rank op : Nat)
  deriving DecidableEq, Repr

/-- A transfer toward another chip in flight (R28, R32). -/
structure Xfer where
  id : Nat
  chan : BitVec 8
  gen : BitVec 16
  dest : Nat                  -- the rank it goes to
  epoch : BitVec 16           -- the epoch its packets carry (R30)
  co : DWord                  -- its completion object's VA (R34)
  what : XferWhat
  at_ : Nat
  deriving DecidableEq, Repr

/-- A transfer that arrives (R35): its source and number there, the parts accepted, with the words they brought, and how many parts
it has, once the last has been accepted. -/
structure InXfer where
  src : BitVec 12
  id : Nat
  parts : List (Nat × List (Word × Bool))
  size : Option Nat
  deriving DecidableEq, Repr

/-- The Soard fabric (02). -/
structure Fabric where
  ports : Store SPort
  chans : Store Chan
  node : BitVec 12
  chanSel : BitVec 8
  epmap : BitVec 52
  timeout : Word
  share : BitVec 8
  root : Bool
  lock : Bool
  hops : BitVec 8
  offset : BitVec 16
  exchangeAt : Nat
  good : Nat
  slewAt : Nat
  rate : Int                  -- cycles between the last two corrections, negative where they advanced time; 0 none (R6, log 62)
  rateAt : Nat                -- when a chip that is not locked corrects next at that rate
  hold : Bool                 -- the next count of device time is held (R36)
  skip : Bool                 -- the next count of device time is by two (R36)
  err : DWord
  xfers : List Xfer
  ins : List InXfer           -- transfers of which some part has been accepted
  checks : List Check         -- what parties of other chips have said of themselves (R358)
  holds : List (Nat × BitVec 12)  -- holds whose answer waits for transfers toward the rank to end (R68)
  before : Store (Option DWord)  -- by rank, the entry that a hold has replaced (R68)
  arrived : Store (Option Moved)  -- by rank, what a migration has brought and not yet put in place (R68)
  deriving DecidableEq, Repr

/-- A command table (R42, R46). `serving`: STATE is serving. -/
structure Cmdt where
  base : BitVec 40
  secure : Bool
  en : Bool
  cons : Word
  state : BitVec 2
  busy : Bool                 -- a record is being executed
  rcd : Nat                   -- where it stands, and the table's address when it was taken
  home : Nat
  again : Bool                -- EN has gone to 0 and back to 1 meanwhile: the table starts afresh once it has ended (R46)
  done : Option (Nat × Nat)   -- the STATUS and DETAIL it has ended with, not yet written
  batch : Option (Word × BitVec 48) -- PROD and the header line's version, as the server last read them
  waits : Option (Nat × BitVec 48)  -- the line its `waitv` watches, with the version it was given
  deriving DecidableEq, Repr

/-- The host's side (03). -/
structure HostIf where
  cmdts : Store Cmdt
  cmdtErr : Word
  ide : Store Bool            -- IDE streams with keys: secure or not
  idePresent : BitVec 8
  session : Bool
  sessionSecure : Bool
  negotiated : Bool
  keyed : Bool                -- a KEY_EXCHANGE waits for its FINISH (R52)
  boots : Nat                 -- resets so far: measurement blocks 1 to 3 are taken anew at each (R52)
  rasUr : Bool
  held : Store Bool           -- device lines the host holds (R41)
  cached : Store Bool         -- host lines held through CXL.cache: dirty (R194); listed as key + its dirtiness
  cachedSet : Store Bool
  biWait : List (Nat × List Instr)  -- back-invalidate snoops outstanding, each with the events that wait for its response
  wbOut : List Nat            -- host lines written back, once for each write-back that the host has not completed (R194)
  wbWait : Store (Option (List Nat))  -- by context, the host lines whose write-back its drain still waits for (R194)
  deriving DecidableEq, Repr

/-- The worlds (R48 to R50): bit i of a block class is 1 where the block is secure; `changes` are the regions whose world a `putc` of
the running cycle changes, with the world (R50). -/
structure Worlds where
  clusters : BitVec 24
  decoders : BitVec 16
  copies : Store Bool
  leagues : BitVec 16
  wports : BitVec 16
  blk : DWord
  mapBase : BitVec 52
  region : DWord
  changes : List (Nat × Bool)
  deriving DecidableEq, Repr

/-- A running timetable (R110). -/
structure Timetable where
  slots : List (Nat × Nat)    -- rank slot, length in units of 16 cycles
  cwin : List Nat
  cbank : List (BitVec 8)
  start : Nat
  deriving DecidableEq, Repr

/-- A domain's scheduler (R111, R113, R116 to R118), by its lowest cluster. HARD and MODE are as written; each sequencer follows at its
next pre-emption point (R117). -/
structure Dom where
  hard : Bool
  mode : Bool
  tt : Option Timetable
  pending : Option Timetable
  ttErr : BitVec 8
  ttSlot : BitVec 8
  buckets : Store Bucket      -- by 4 × rank slot + bucket
  deriving DecidableEq, Repr

/-- Scheduler and rank-selection registers (R72, R116). -/
structure Sched where
  rankSel : BitVec 16
  pace : BitVec 16
  precopyStop : Word
  domSel : BitVec 5
  doms : Store Dom
  tbSel : BitVec 4
  ageStep : Word
  deriving DecidableEq, Repr

/-- A sequencer (R106 to R115). `active` is the slot of the active context, 4 for the supervisor's; `want` the slot chosen for
the next switch, `swapTo` that of the running swap. The spill, the fill and the swap end at `spillAt`, `fillAt` and `swapAt`. -/
structure Seq where
  active : Option Nat
  shadow : Option Nat
  spilling : Bool
  spillAt : Nat
  filling : Option Nat
  fillAt : Nat
  want : Option Nat
  swapTo : Option Nat
  swapAt : Nat
  lastSlot : Nat
  swapInAt : Nat
  minres : Nat                -- MINRES while it counts, 0 after (R115)
  entered : Nat               -- 1 + the start of the timetable slot whose first segment has been entered (R112)
  early : Bool                -- the active context runs ahead of its slot, in DEFERRED segments (R112)
  hard : Bool                 -- HARD and MODE as this sequencer follows them (R117)
  mode : Bool
  freedAt : Nat               -- from when a sequencer that an `exit` has freed is free for grants (R102)
  both : BitVec 8             -- banks that the active context shares with the one before it, not its own before `bothAt` (R107)
  bothAt : Nat
  attached : Bool
  status : BitVec 8           -- CTX_STATUS
  chkills : DWord
  lastBanks : BitVec 8        -- the banks of the strand whose exit has left it without an active one (R107)
  stopped : Bool              -- stopped at `dbg` (R378)
  spoilt : Bool               -- the twin's next commit signature is spoilt (R225)
  deriving DecidableEq, Repr

/-- A memory-management page-tracker entry: row and count (R86). -/
abbrev Tracker := List (Nat × Nat)

/-- An open write-queue entry (R305): its lines, kind, and the adds merged so far: location, 32-bit addend, random bits. -/
structure WqEntry where
  kind : Nat
  ranks : List Nat            -- the ranks whose reductions it holds (R64)
  lines : List Nat
  base : Nat                  -- a BDX superblock: its first byte, the bytes before a page boundary, and where the rest stands
  cut : Nat
  base2 : Nat
  adds : List (Nat × Word × BitVec 16)
  at_ : Nat
  deriving DecidableEq, Repr

/-- A translation held in a TLB (R91): context tag (domain's lowest cluster × 8 + slot), page and permissions. -/
structure TlbEntry where
  tag : Nat
  va : Nat
  size : Nat
  pa : Nat
  perm : BitVec 4
  deriving DecidableEq, Repr

/-- A load in flight (R134): where its entry stands, and for each lane the location of its word. -/
structure Load where
  key : Nat                   -- the context
  q : BitVec 2
  lanes : List (Option Nat)   -- the location of each lane's word, none: lands zero
  scalar : Option (Nat × Nat × Bool)  -- a scalar load: location, bytes, signed
  pf : Bool
  watch : Option (BitVec 3 × Nat)     -- ldv: slot and line
  ldfe : Option Nat           -- ldfe: the line it empties
  deriving DecidableEq, Repr

/-- A memory answer in flight (R294), or an access that waits behind an earlier one, or, as `stfe`, while its line is full
(R131, R300). `count` is the counted arrival that follows a store: rank, line, PARTY, bytes. -/
inductive Pending where
  | answerS (key : Nat) (r : Nat) (val : DWord)
  | answerB (key : Nat) (b : Nat) (val : Bool)
  | store (key : Nat) (lines : List Nat) (whileFull : Bool) (pieces : List (Nat × List Byte))
      (count : Option (Nat × BitVec 6 × BitVec 16 × Nat))
  | amo (key : Nat) (op : AmoOp) (wide : Bool) (loc : Nat) (y z : DWord) (r : Nat)
  | casv (key : Nat) (r : Nat) (loc : Nat) (want : DWord) (data : List Byte)
  | vset (key : Nat) (b : Nat) (loc : Nat) (data : List Byte) (slot : Nat) (want : BitVec 48)
  | clrfe (key : Nat) (line : Nat)
  | red (key : Nat) (entries : List WqEntry) (at_ : Nat)  -- reductions, with the cycle of the slot in which they depart (R82)
  | event (key ref : Nat) (ev : Instr)  -- what a command issued at number `ref` starts, once its strand's accesses allow it (R98, R200)
  deriving DecidableEq, Repr

/-- A copy in flight (R355, R356): what it reads and writes, by location, with the counted arrival and completion. `data` is
what the source held, once it is read: destination, bytes, and for each byte whether its granule was marked. -/
structure Copy where
  id : Nat
  core : Nat
  rank : Nat
  segs : List (Nat × Nat × Nat)     -- source location, destination location, bytes
  read : Bool
  data : List (Nat × List Byte × List Bool)
  co : Option Nat
  line : Option (BitVec 6)
  party : BitVec 16
  bytes : Nat
  fail : Bool
  deriving DecidableEq, Repr

/-- A destination of a perch line (R272): its pending bytes, whether it has raised its part, and the group through which it was
added. -/
structure Dest where
  party : BitVec 16
  left : Nat
  raised : Bool
  group : Option Nat
  deriving DecidableEq, Repr

/-- A perch line that is armed (R272 to R275). -/
structure Perch where
  rank : Nat
  hdr : DWord
  scope : BitVec 3
  dests : List Dest
  waiters : List Nat          -- contexts that wait in pwait or gwait
  held : Bool                 -- the release of a STEPLINE is held (R64)
  at_ : Nat                   -- when the sum of counters last changed
  deriving DecidableEq, Repr

/-- How a waiter's line was released, for the retirement of its pwait (R274). -/
inductive Released where
  | clean | overran | stall
  deriving DecidableEq, Repr

/-- Words that a collective moves, each with the poison mark of its source (R35). -/
abbrev CWords := List (Word × Bool)

/-- An edge that waits on an entry that was held when it was read (R31). With no data it is what the party says of itself for the
exchange of R358. -/
structure CWait where
  party : Nat
  down : Bool
  data : Option CWords
  deriving DecidableEq, Repr

/-- A collective in flight at one party (R357 to R360, R404). `nbrs` are the map entries of the parties that are not local and of those
it shares an edge with, and `gone` the parties whose entries are absent, as read at issue (R31); `told`: it has said to the others
what they compare, and `group` numbers its exchange once every party has, 0 before; `ins` is what its children sent. -/
structure Coll where
  id : Nat
  told : Bool
  group : Nat
  rank : Nat
  op : Nat                    -- 0 ar, 1 rs, 2 ag, 3 bc
  minor : Nat
  tag : Nat
  base : Nat
  parties : Nat
  stride : Nat
  root : Nat
  count : Nat
  party : Nat
  nbrs : List (Nat × DWord)
  gone : List Nat
  spieces : List (Nat × Nat)
  dpieces : List (Nat × Nat)
  ok : Bool
  co : Option Nat
  coVa : DWord
  started : Bool
  srcUp : Bool
  own : Option CWords
  ins : List (Nat × CWords)
  sentUp : Bool
  result : Option CWords
  sentDown : Bool
  waits : List CWait
  landed : Bool               -- its DBUF is written, and it stays for the edges that wait
  deriving DecidableEq, Repr

/-- A decoder's record (R361): its bytes, the context that gave it, and how far it has got. `checked`: the decoder's own checks have
passed. `met`: with WAITIN, its counter has been zero in a phase armed by the rank (R363). `srcUp`: its SRC has risen. `busy`: its
stream's context was BUSY when it started (R364). -/
structure DecRec where
  id : Nat
  block : List Byte
  rank : Nat
  seq : Nat
  sv : Bool
  co : Option Nat
  checked : Bool
  met : Bool
  started : Bool
  srcUp : Bool
  busy : Bool
  deriving DecidableEq, Repr

/-- The protection registers of the chip (R226). -/
structure Protect where
  window : Word
  log : BitVec 52
  errinj : DWord
  erraddr : BitVec 52
  ce : DWord
  rw : DWord
  deriving DecidableEq, Repr

/-- What the chip sends outside: to peers over Soard, to the host over CXL, on the sideband and on VIDB. -/
inductive OutMsg where
  | openMsg (ch : BitVec 8) (src dst : BitVec 12) (gen : BitVec 16) (reply : Bool)
  | fenceMarker (ch : BitVec 8)
  | flits (port : BitVec 4) (l : List (Nat × Option (BitVec 8)))
  | packet (ch : BitVec 8) (p : Packet)
  | flitAck (port : BitVec 4) (flit : Nat)
  | ack (node : BitVec 12) (id : Nat)
  | reject (node : BitVec 12) (id : Nat) (stale : Bool)
  | league (node : BitVec 12) (gen : BitVec 16) (what : String) (rank : Nat) (entry : DWord)
  | collFail (node : BitVec 12) (tag base parties stride party : Nat)  -- a failure that reaches a party of another chip (R360)
  | timeFlit (port : BitVec 4) (hops : BitVec 8) (root : BitVec 12)
  | vidb (frame : BitVec 20)
  | dropRails                 -- the request to drop every rail but VDD_AUX (R14)
  | i3c (val : Word)
  | cxlData (data : List Byte) (poison : Bool)
  | cxlUr
  | cxlError                  -- an error completion on CXL.mem or CXL.cache (R39)
  | cxlRetry
  | cxlCfg (val : DWord)
  | writeBack (line : Nat) (data : List Byte)
  | backInvalidate (line : Nat)
  | msix (vec : Nat)
  | spdm (bytes : List Byte)
  | spdmError (unsupportedRequest : Bool)
  | directedRefresh (bank row : Nat)
  deriving DecidableEq, Repr

/-! ## How a step can stop -/

/-- Why the machine stops with a fault. Safe: the machine does nothing more, and no claim about a next state holds. -/
inductive Fault where
  /-- Raised by `step` when THERM_TRIP_N or a lost rail has stopped every clock and no event is due (R14, R11). Safe. -/
  | clocksStopped
  /-- Raised by `step` when bring-up has failed (R19, R15) and no event is due. Safe. -/
  | noProgram
  deriving DecidableEq, Repr

/-- Why an instruction is refused. -/
inductive Refusal where
  /-- Raised by an arm of `exec` that has no meaning yet; no arm does. Safe. -/
  | notModelled (mnemonic : String)
  deriving DecidableEq, Repr

/-- Why a bundle does not issue this cycle (R136): a clock freeze, an issue hold, or an unmet wait (R104). -/
inductive Stall where
  | freeze | hold | wait
  | fence                     -- the hold of `tfence`, which is no pre-emption point (R277)
  | rewind                    -- the bundle is discarded: a rewind has started (R219)
  deriving DecidableEq, Repr

/-! ## The machine -/

structure State where
  time : DWord                -- device time (R6)
  pwr : Power
  fab : Fabric
  host : HostIf
  world : Worlds
  ranks : Store Rank          -- by virtual rank number
  sched : Sched
  prot : Protect
  mem : List Host.Cell        -- bytes by location, default 0. A physical address, or 2^52 + 2^24 × cluster + offset
  ver : Store (BitVec 48)     -- versions by line (location div 128), default 0
  poison : Store (BitVec 16)  -- poison marks by line, default 0
  full : Store Bool           -- full/empty bits by cluster-store line, default empty
  feq : List Nat              -- numbers of the accesses that wait on a full/empty bit, in the order of R131
  fenced : List (Nat × Nat)   -- an access that waits, and an agent whose later accesses wait behind it (R193, R196, R200)
  loads : Store (Option Load)
  pend : Store (Option Pending)
  wq : List WqEntry
  slices : Store (List (Nat × Bool))  -- shared-cache sets, by 1024 × slice + set: lines, oldest use first, dirty or not (R76)
  dies : Store (List (Nat × Bool))    -- base-die cache sets, by 512 × channel + set (R78)
  calendar : Store Nat        -- by 24 × slice + cluster, 1 + the cycle of the last slot that a request has taken (R81, R82)
  trk : Store Tracker         -- row trackers by bank
  rmThresh : BitVec 16
  rmRadius : BitVec 2
  rmCount : DWord
  tlb1 : Store (List TlbEntry)
  tlb2 : Store (List TlbEntry)
  ptRootSv : DWord
  mown : Store (BitVec 3)     -- CLAIMED, OWNER by 2^17 × core + rank, default 0 (R138)
  engines : Store Engine      -- by 2^17 × core + rank
  scruple : Store Scruple     -- by 16 × (2^17 × core + rank) + slot
  seqs : Store Seq
  copies : List Copy
  colls : List Coll
  decs : Store (List DecRec)
  perch : Store (Option Perch)
  releases : Store (Option Released)  -- by context: how the line it waited on was released
  c : Ctx                     -- the context of the strand that moves next
  cur : Nat                   -- its key: 8 × sequencer + slot
  ctxs : Store Ctx            -- every other context, by key; default: no strand
  -- the model's own
  agenda : List Instr         -- events that are due, oldest first
  out : List OutMsg           -- messages sent outside, oldest first
  old : Option Ctx            -- the registers as they stood when the running bundle issued (R187)
  oldFmt : Option (Store DWord)  -- its rank's format table as it stood then (R157)
  issueRef : Nat              -- the number of the next operation when the running bundle issued
  slot : Nat                  -- index of the slot that runs, for INFO (R403)
  pops : BitVec 4             -- queues that the running bundle pops (R135)
  stall : Option Stall        -- why the running bundle does not issue this cycle
  trapped : Option TrapInfo   -- the trap that the running bundle has taken
  jumped : Bool               -- the running bundle has chosen the next one itself (R266)
  staged : Bool               -- the running bundle's boundary sets stage predicates (R266)
  opening : Bool              -- device time has moved, and what comes between two cycles is still to come
  images : Store Ctx          -- the contexts that save areas hold, by the number their images carry (R376, log 18)
  imageCores : Store (Option CoreSave)  -- what those contexts hold of their core's engine, by the same number (R334, R376)
  nextRef : Nat               -- number of the next operation in flight
  free : Nat                  -- free values drawn (log 8)
  deriving DecidableEq, Repr

/-! ## Reset (R16, R17) -/

def Regs.reset : Regs where
  pc := 0
  loops := []
  s := []
  b := 0
  p := []
  dops := []
  ports := []
  q := []
  w := []
  asticky := 0
  fpctl := 0
  xv := 0
  chp := 0
  wcfg := 0x00400000
  ftBase := 0
  ftLevel := 0
  stream := 0

/-- No strand. -/
def Ctx.reset : Ctx where
  toRegs := Regs.reset
  live := false
  seq := 0
  rank := 0
  lcore := 0
  sv := false
  resident := false
  launch := 0
  npc := 0
  v := []
  bad := []
  tw := []
  banks := 0
  win0 := 64
  ftsel := 0
  tvec := 0
  tfp := 0
  tvecSv := 0
  tfpSv := 0
  tstat := 0
  rots := []
  rotsSv := []
  mops := []
  snap := none
  point := 0
  rewinds := 0
  since := 0
  mark := false
  again := 0
  caughtUp := 0
  told := []
  due := none
  wait := none
  bound := false
  past := false
  held := none
  heldSv := none
  fresh := false
  pause := false

def Power.reset : Power where
  phase := 0
  err := 0
  pass := 0
  hbmPass := 0
  limit := 1450
  thermal := 1450
  tj := 0
  throt := false
  avg := 0
  alert := 0
  thermAt := 0
  railsOut := 0
  rails := 0
  memActive := false
  trip := false
  link := false
  clocks := true
  good := true
  orderErr := false
  i3c := none
  vid := 30
  form := 2
  tierGib := 3072

def SPort.reset : SPort := ⟨false, false, false, false, [], 0, 0, 0, 0, 0xFF, 0⟩

def Chan.reset : Chan := ⟨0, 0, 0, 0, 0, 0, .closed, 0, 0, false, 0, []⟩

def Fabric.reset : Fabric where
  ports := []
  chans := []
  node := 0
  chanSel := 0
  epmap := 0
  timeout := 4000000
  share := 32
  root := false
  lock := false
  hops := 0
  offset := 0
  exchangeAt := 0
  good := 0
  slewAt := 0
  rate := 0
  rateAt := 0
  hold := false
  skip := false
  err := 0
  xfers := []
  ins := []
  checks := []
  holds := []
  before := []
  arrived := []

def Cmdt.reset : Cmdt := ⟨0, false, false, 0, 0, false, 0, 0, false, none, none, none⟩

def HostIf.reset : HostIf where
  cmdts := []
  cmdtErr := 0
  ide := []
  idePresent := 0
  session := false
  sessionSecure := false
  negotiated := false
  keyed := false
  boots := 0
  rasUr := false
  held := []
  cached := []
  cachedSet := []
  biWait := []
  wbOut := []
  wbWait := []

def Worlds.reset : Worlds := ⟨0, 0, [], 0, 0, 0, 0, 0, []⟩

def Bucket.reset : Bucket := ⟨0, 0xFFFFFFFF, 0xFFFFFFFF⟩

/-- A rank that is ABSENT. -/
def Rank.reset : Rank where
  st := .absent
  last := 0
  dom := 0
  step := 0
  vhdr := 0
  job := 0
  shapeX := 0
  shapeY := 0
  stepline := 0
  csMib := 0
  prot := false
  slot := 0
  key := 0
  fmt := []
  segs := []
  ptRoot := 0
  csBase := 0
  arg3 := 0
  arg4 := 0
  pages := []
  queue := []
  lives := []
  groups := []
  league := none
  heldRelease := false
  overran := []
  image := 0
  base := 0
  bytes := 0
  saved := []
  savedCores := []
  savedFull := []
  ends := []
  dist := []

def Dom.reset : Dom := ⟨false, false, none, none, 0, 0, []⟩

def Sched.reset : Sched where
  rankSel := 0
  pace := 256
  precopyStop := 1024
  domSel := 0
  doms := []
  tbSel := 0
  ageStep := 262144

def Seq.reset : Seq where
  active := none
  shadow := none
  spilling := false
  spillAt := 0
  filling := none
  fillAt := 0
  want := none
  swapTo := none
  swapAt := 0
  lastSlot := 0
  swapInAt := 0
  minres := 0
  entered := 0
  early := false
  hard := false
  mode := false
  freedAt := 0
  both := 0
  bothAt := 0
  attached := false
  status := 0
  chkills := 0
  lastBanks := 0
  stopped := false
  spoilt := false

def Engine.reset : Engine := ⟨[], false, [], [], [], [], 0⟩

def Scruple.reset : Scruple := ⟨0, [], 0, 0, false, false, false, 0, 127, 0⟩

def Protect.reset : Protect := ⟨40000000, 0, 0, 0, 0, 0⟩

/-- The machine right after a power-on reset: bring-up at phase 0 (R16, R17). -/
def State.reset : State where
  time := 0
  pwr := Power.reset
  fab := Fabric.reset
  host := HostIf.reset
  world := Worlds.reset
  ranks := []
  sched := Sched.reset
  prot := Protect.reset
  mem := []
  ver := []
  poison := []
  full := []
  feq := []
  fenced := []
  loads := []
  pend := []
  wq := []
  slices := []
  dies := []
  calendar := []
  trk := []
  rmThresh := 512
  rmRadius := 1
  rmCount := 0
  tlb1 := []
  tlb2 := []
  ptRootSv := 0
  mown := []
  engines := []
  scruple := []
  seqs := []
  copies := []
  colls := []
  decs := []
  perch := []
  releases := []
  c := Ctx.reset
  cur := 0
  ctxs := []
  agenda := []
  out := []
  old := none
  oldFmt := none
  issueRef := 0
  slot := 0
  pops := 0
  stall := none
  trapped := none
  jumped := false
  staged := false
  opening := false
  images := []
  imageCores := []
  nextRef := 1
  free := 0

end Sys2Proof.Machine
end

