-- ==== Sys2Proof/Machine/Flags.lean ====
section
/-!
DEFINITION. Flags.lean: the number formats (R141 to R151), exact arithmetic on their values, rounding with its flags (R143,
R145, R148, R150, R161), comparison, and the stream generator (R158, R160).
-/
namespace Sys2Proof.Machine

/-! ## Flags, in the order of ASTICKY.FLG (R214) -/

abbrev Fl := BitVec 5

def flInv : Fl := 0b10000#5
def flDz : Fl := 0b01000#5
def flOf : Fl := 0b00100#5
def flUf : Fl := 0b00010#5
def flNx : Fl := 0b00001#5

/-! ## Exact values -/

/-- An exact result: a value, a quotient (-1)^neg × n / d × 2^e, or a square root √(m × 2^e). -/
inductive Ex where
  | val (v : FVal)
  | quo (neg : Bool) (n d : Nat) (e : Int)
  | root (m : Nat) (e : Int)
  deriving DecidableEq, Repr

/-- ⌊m × 2^k⌋. -/
def shiftFloor (m : Nat) (k : Int) : Nat :=
  match k with
  | .ofNat j => m <<< j
  | .negSucc j => m >>> (j + 1)

/-- Is m × 2^k whole? -/
def shiftExact (m : Nat) (k : Int) : Bool :=
  match k with
  | .ofNat _ => true
  | .negSucc j => m % 2 ^ (j + 1) = 0

/-- The largest r with r² ≤ n, found bit by bit from bit b down. -/
def isqrtFrom (n : Nat) : Nat → Nat → Nat
  | 0, r => if (r + 1) * (r + 1) ≤ n then r + 1 else r
  | b + 1, r =>
    let r' := r + 2 ^ (b + 1)
    isqrtFrom n b (if r' * r' ≤ n then r' else r)

/-- ⌊√n⌋. -/
def isqrt (n : Nat) : Nat := isqrtFrom n (n.log2 / 2) 0

/-- ⌊|x| × 2^k⌋ of a finite exact value, and whether nothing was lost. -/
def Ex.floorMag (x : Ex) (k : Int) : Nat × Bool :=
  match x with
  | .val (.fin _ m e) => (shiftFloor m (e + k), shiftExact m (e + k))
  | .val _ => (0, true)
  | .quo _ n d e =>
    match e + k with
    | .ofNat j => ((n <<< j) / d, (n <<< j) % d = 0)
    | .negSucc j => (n / (d <<< (j + 1)), n % (d <<< (j + 1)) = 0)
  | .root m e =>
    let y := shiftFloor m (e + 2 * k)
    let r := isqrt y
    (r, shiftExact m (e + 2 * k) && r * r = y)

/-- The sign of a finite exact value. -/
def Ex.neg : Ex → Bool
  | .val (.fin n _ _) => n
  | .val (.inf n) => n
  | .val (.nan n _) => n
  | .quo n _ _ _ => n
  | .root _ _ => false

/-- Is the exact value zero? -/
def Ex.isZero : Ex → Bool
  | .val (.fin _ m _) => m = 0
  | .val _ => false
  | .quo _ n _ _ => n = 0
  | .root m _ => m = 0

/-- The E with 2^E ≤ |x| < 2^(E+1), for a finite value that is not zero. -/
def Ex.log2 : Ex → Int
  | .val (.fin _ m e) => m.log2 + e
  | .val _ => 0
  | .quo _ n d e =>
    let g : Int := (n.log2 : Int) - d.log2
    -- n/d lies in (2^(g-1), 2^(g+1))
    if (Ex.quo false n d 0).floorMag (-g) = (0, false) then g - 1 + e else g + e
  | .root m e => ((m.log2 : Int) + e) / 2

/-- ⌊x × 2^k⌋, signed. -/
def Ex.floor (x : Ex) (k : Int) : Int :=
  let (q, exact) := x.floorMag k
  if x.neg then (if exact then -(q : Int) else -(q : Int) - 1) else q

/-- A signed dyadic a × 2^e as a value; +0 when a = 0. -/
def FVal.ofInt (a : Int) (e : Int) : FVal := .fin (decide (a < 0)) a.natAbs e

/-- The signed mantissa of a finite value, brought to the exponent e, no larger than its own. -/
def FVal.toInt (v : FVal) (e : Int) : Int :=
  match v with
  | .fin n m e' => if n then -(shiftFloor m (e' - e) : Int) else shiftFloor m (e' - e)
  | _ => 0

/-- The exponent of a finite value. -/
def FVal.exp : FVal → Int
  | .fin _ _ e => e
  | _ => 0

def FVal.isNan : FVal → Bool
  | .nan _ _ => true
  | _ => false

def FVal.isInf : FVal → Bool
  | .inf _ => true
  | _ => false

def FVal.isZero : FVal → Bool
  | .fin _ m _ => m = 0
  | _ => false

def FVal.neg : FVal → Bool
  | .nan n _ => n
  | .inf n => n
  | .fin n _ _ => n

/-- The value with its sign inverted. -/
def FVal.negate : FVal → FVal
  | .nan n p => .nan n p
  | .inf n => .inf (!n)
  | .fin n m e => .fin (!n) m e

/-- The canonical NaN (R142). -/
def FVal.cnan : FVal := .nan false 0x400000

/-- The exact sum of two finite values; an exact zero is +0 but for (-0) + (-0) (R318). -/
def addFin (x y : FVal) : FVal :=
  let e := min x.exp y.exp
  let a := x.toInt e + y.toInt e
  if a = 0 then .fin (x.isZero && y.isZero && x.neg && y.neg) 0 0 else .ofInt a e

/-- The exact product of two finite values. -/
def mulFin (x y : FVal) : FVal :=
  match x, y with
  | .fin n m e, .fin n' m' e' => .fin (n != n') (m * m') (e + e')
  | _, _ => .cnan

/-- The exact sum of a list of finite values from +0. -/
def sumFin (l : List FVal) : FVal := l.foldl addFin (.fin false 0 0)

/-- The value times 2^k (R149). -/
def FVal.scale (v : FVal) (k : Int) : FVal :=
  match v with
  | .fin n m e => .fin n m (e + k)
  | v => v

/-- Is |x| ≤ |y|, for finite values? -/
def leMag (x y : FVal) : Bool :=
  let e := min x.exp y.exp
  decide ((x.toInt e).natAbs ≤ (y.toInt e).natAbs)

/-- Is x < y, for values that are not NaN; ±0 are equal. -/
def ltVal (x y : FVal) : Bool :=
  match x, y with
  | .inf true, .inf true => false
  | .inf true, _ => true
  | _, .inf true => false
  | .inf false, _ => false
  | _, .inf false => true
  | x, y => let e := min x.exp y.exp; decide (x.toInt e < y.toInt e)

/-- Are two values that are not NaN equal? ±0 are. -/
def eqVal (x y : FVal) : Bool := !ltVal x y && !ltVal y x

/-- The order of `dmax` and `dmin`, in which -0 is below +0 (R320). -/
def ltMax (x y : FVal) : Bool := ltVal x y || (x.isZero && y.isZero && x.neg && !y.neg)

/-! ## The formats (R141) -/

/-- A floating-point format: widths of the exponent and fraction, bias. -/
structure Fmt where
  eb : Nat
  fb : Nat
  bias : Int
  deriving DecidableEq, Repr

/-- FP32, FP16, BF16, E4M3, E5M2, FP4 by FMT code. -/
def fmtOf (f : Nat) : Fmt :=
  match f with
  | 0 => ⟨8, 23, 127⟩
  | 1 => ⟨5, 10, 15⟩
  | 2 => ⟨8, 7, 127⟩
  | 3 => ⟨4, 3, 7⟩
  | 4 => ⟨5, 2, 15⟩
  | _ => ⟨2, 1, 1⟩

/-- FTZ acts on FP32, FP16 and BF16 alone (R145). -/
def ftzFmt (f : Nat) : Bool := f ≤ 2

def isFloat (f : Nat) : Bool := f ≤ 5
def isInt (f : Nat) : Bool := 8 ≤ f && f ≤ 13

/-- A code read as a value: the value, and whether it is a NaN whose quiet bit is clear (R142). -/
structure Dec where
  v : FVal
  snan : Bool
  deriving DecidableEq, Repr

/-- The value of an IEEE-like code, FMT 0 to 4 (R141). -/
def decodeIeee (f : Nat) (w : Word) : Dec :=
  let k := fmtOf f
  let x := w.toNat
  let frac := x % 2 ^ k.fb
  let ex := x / 2 ^ k.fb % 2 ^ k.eb
  let n := x / 2 ^ (k.fb + k.eb) % 2 = 1
  let top := 2 ^ k.eb - 1
  let nanCode := if f = 3 then ex = top ∧ frac = 7 else ex = top ∧ frac ≠ 0
  if nanCode then
    let q := if f = 3 then true else frac / 2 ^ (k.fb - 1) % 2 = 1
    ⟨.nan n (BitVec.ofNat 23 (frac <<< (23 - k.fb)) ||| 0x400000), !q⟩
  else if f ≠ 3 ∧ ex = top then ⟨.inf n, false⟩
  else if ex = 0 then ⟨.fin n frac (1 - k.bias - k.fb), false⟩
  else ⟨.fin n (frac + 2 ^ k.fb) (ex - k.bias - k.fb), false⟩

/-- An FP4 code under XV (R146, R147). -/
def decodeFp4 (xv : BitVec 9) (c : BitVec 4) : Dec :=
  if c = 8 then (if xv.getLsbD 8 then ⟨.cnan, false⟩ else decodeIeee 3 ((xv.setWidth 8).setWidth 32))
  else
    let m := ([0, 1, 2, 3, 4, 6, 8, 12] : List Nat).getD (c.toNat % 8) 0
    ⟨.fin (c.getLsbD 3) m (-1), false⟩

/-- The value in the low bits of a word, FTZ applied to the operand (R145, R151). -/
def decodeF (f : Nat) (ftz : Bool) (xv : BitVec 9) (w : Word) : Dec :=
  if f = 5 then decodeFp4 xv (w.setWidth 4)
  else
    let d := decodeIeee f w
    match d.v with
    | .fin n m _ =>
      if ftz && ftzFmt f && m ≠ 0 && w.toNat / 2 ^ (fmtOf f).fb % 2 ^ (fmtOf f).eb = 0 then ⟨.fin n 0 0, false⟩ else d
    | _ => d

/-- The width of an integer format (R150). -/
def intWidth (f : Nat) : Nat :=
  match f with
  | 8 | 9 => 32
  | 10 | 13 => 16
  | _ => 8

def intSigned (f : Nat) : Bool := f = 8 || f = 10 || f = 11

/-- An integer format's value of a word (R151). -/
def decodeI (f : Nat) (w : Word) : Int :=
  let x := w.toNat % 2 ^ intWidth f
  if intSigned f && decide (2 ^ (intWidth f - 1) ≤ x) then (x : Int) - 2 ^ intWidth f else x

def intMin (f : Nat) : Int := if intSigned f then -(2 ^ (intWidth f - 1)) else 0
def intMax (f : Nat) : Int := if intSigned f then 2 ^ (intWidth f - 1) - 1 else 2 ^ intWidth f - 1

/-- An integer in range, in the low bits of a word, extended as the format gives (R151). -/
def encodeI (x : Int) : Word := BitVec.ofInt 32 x

/-- The exact integer fitted to the format: clamped when SAT, else its low bits (R328). -/
def fitI (f : Nat) (sat : Bool) (x : Int) : Word :=
  if sat then encodeI (max (intMin f) (min (intMax f) x))
  else encodeI (decodeI f (BitVec.ofInt 32 x))

/-! ## Rounding -/

/-- ⌊|x| × 2^-q⌋ or one more, by the mode (0 RNE, 1 RTZ, 2 stochastic with the bits r), and whether the result is
exact (R143, R161). -/
def roundMag (x : Ex) (q : Int) (mode : Nat) (r : BitVec 16) : Nat × Bool :=
  let (t2, ex2) := x.floorMag (1 - q)
  let t := t2 / 2
  let half := t2 % 2 = 1
  let exact := !half && ex2
  if exact then (t, true)
  else
    let up := match mode with
      | 0 => half && (!ex2 || t % 2 = 1)
      | 1 => false
      | _ => decide (2 ^ 16 ≤ (x.floorMag (16 - q)).1 % 2 ^ 16 + r.toNat)
    (if up then t + 1 else t, false)

/-- The largest finite code of a format, without sign. -/
def maxCode (f : Nat) : Nat :=
  match f with
  | 0 => 0x7F7FFFFF
  | 1 => 0x7BFF
  | 2 => 0x7F7F
  | 3 => 0x7E
  | 4 => 0x7B
  | _ => 7

/-- The code of infinity. -/
def infCode (f : Nat) : Nat := (2 ^ (fmtOf f).eb - 1) <<< (fmtOf f).fb

/-- A code with its sign. -/
def withSign (f : Nat) (n : Bool) (c : Nat) : Word :=
  BitVec.ofNat 32 (if n then c + 2 ^ ((fmtOf f).eb + (fmtOf f).fb) else c)

/-- A NaN as a code of the format, and the flags that writing it sets (R142, R148). -/
def encodeNan (f : Nat) (mn : Bool) (n : Bool) (pay : BitVec 23) : Word × Fl :=
  match f with
  | 3 => (withSign 3 n 0x7F, 0)
  | 5 => if mn then (8, 0) else (0, flInv)
  | _ =>
    let k := fmtOf f
    (withSign f n (infCode f + ((pay ||| 0x400000).toNat >>> (23 - k.fb))), 0)

/-- An infinity as a code of the format (R143, R148). -/
def encodeInf (f : Nat) (sat : Bool) (n : Bool) : Word × Fl :=
  match f with
  | 3 => if sat then (withSign 3 n 0x7E, 0) else (withSign 3 n 0x7F, flInv)
  | 5 => (withSign 5 n 7, flOf)
  | _ => (withSign f n (if sat then maxCode f else infCode f), 0)

/-- What a result that overflows becomes (R143). -/
def overflowCode (f mode : Nat) (sat : Bool) (n : Bool) : Word :=
  match f with
  | 3 => withSign 3 n (if sat then 0x7E else 0x7F)
  | 5 => withSign 5 n 7
  | _ => withSign f n (if sat || mode = 1 then maxCode f else infCode f)

/-- A zero of the sign; FP4 has one zero (R148). -/
def zeroCode (f : Nat) (n : Bool) : Word := if f = 5 then 0 else withSign f n 0

/-- The exact result rounded once to a floating-point format: the word and the flags (R143, R145, R148, R161). -/
def roundTo (f mode : Nat) (sat ftz mn : Bool) (r : BitVec 16) (x : Ex) : Word × Fl :=
  match x with
  | .val (.nan n p) => encodeNan f mn n p
  | .val (.inf n) => encodeInf f sat n
  | x =>
    if x.isZero then (zeroCode f x.neg, 0)
    else
      let k := fmtOf f
      let emin : Int := 1 - k.bias
      let q := max x.log2 emin - k.fb
      let (m, exact) := roundMag x q mode r
      let code := (q + k.bias + k.fb) * 2 ^ k.fb + m - 2 ^ k.fb
      if decide (code > maxCode f) then (overflowCode f mode sat x.neg, flOf ||| flNx)
      else
        let tiny := decide (code < 2 ^ k.fb)
        if tiny && ftz && ftzFmt f then (zeroCode f x.neg, flUf ||| flNx)
        else
          let fl := if exact then 0 else if tiny then flUf ||| flNx else flNx
          (if code = 0 then zeroCode f x.neg else withSign f x.neg code.toNat, fl)

/-- The exact result rounded to FP32 with RNE, subnormals kept, without flags (R343). -/
def roundF32 (x : FVal) : Word := (roundTo 0 0 false false false 0 (.val x)).1

/-- A floating-point value to an integer format (R150). -/
def floatToInt (f mode : Nat) (sat : Bool) (r : BitVec 16) (v : FVal) : Word × Fl :=
  match v with
  | .nan _ _ => (0, flInv)
  | .inf n => (encodeI (if n then intMin f else intMax f), if sat then 0 else flInv)
  | .fin n _ _ =>
    let (m, exact) := roundMag (.val v) 0 mode r
    let x : Int := if n then -(m : Int) else m
    if x < intMin f then (encodeI (intMin f), if sat then 0 else flInv)
    else if intMax f < x then (encodeI (intMax f), if sat then 0 else flInv)
    else (encodeI x, if exact then 0 else flNx)

/-! ## Block formats (R152 to R154) -/

/-- The constants k, mmax, gap and the sub-block element width of BDX8 (FMT 6) and BDX4 (FMT 7). -/
structure Bdx where
  k : Nat
  mmax : Nat
  gap : Nat
  size : Nat
  deriving DecidableEq, Repr

def bdxOf (f : Nat) : Bdx := if f = 6 then ⟨5, 63, 4, 272⟩ else ⟨1, 3, 2, 144⟩

/-- Byte i of a byte list, 0 past its end. -/
def byteAt (bs : List Byte) (i : Nat) : Byte := bs.getD i 0

/-- The element code at i of a superblock. -/
def bdxCode (f : Nat) (bs : List Byte) (i : Nat) : Nat :=
  if f = 6 then (byteAt bs (16 + i)).toNat
  else
    let b := (byteAt bs (16 + i / 2)).toNat
    if i % 2 = 0 then b % 16 else b / 16

/-- Element i of a superblock (R153). -/
def bdxElem (f : Nat) (bs : List Byte) (i : Nat) : FVal :=
  let S := (byteAt bs 0).toNat
  if S = 255 then .cnan
  else
    let c := bdxCode f bs i
    let k := bdxOf f
    let w := if f = 6 then 6 else 2
    let off := (byteAt bs (1 + i / 32)).toNat
    let e := if c / 2 ^ w % 2 = 1 then off / 16 else off % 16
    .fin (decide (c / 2 ^ (w + 1) % 2 = 1)) (c % 2 ^ w) ((S : Int) - 127 + e - k.k)

/-- Quant of R154: |v| in units of 2^(s - 127 + e - k), rounded by the mode. -/
def quant (k : Bdx) (mode : Nat) (r : BitVec 16) (v : FVal) (s e : Nat) : Nat :=
  (roundMag (.val v) ((s : Int) - 127 + e - k.k) mode r).1

def bdxFits (k : Bdx) (mode : Nat) (s e : Nat) (vs : List (FVal × BitVec 16)) : Bool :=
  vs.all fun x => decide (quant k mode x.2 x.1 s e ≤ k.mmax)

/-- The smallest number in lo … lo + n that passes the test. -/
def firstFrom (p : Nat → Bool) : Nat → Nat → Option Nat
  | 0, lo => if p lo then some lo else none
  | n + 1, lo => if p lo then some lo else firstFrom p n (lo + 1)

/-- One sub-block of R154 at S and e1: the offsets byte, the element codes and the flags. -/
def bdxSub (f mode S e1 : Nat) (vs : List (FVal × BitVec 16)) : Byte × List Nat × Fl :=
  let k := bdxOf f
  let w := if f = 6 then 6 else 2
  let e0 := e1 - k.gap
  let one := fun (x : FVal × BitVec 16) =>
    let sel := if quant k mode x.2 x.1 S e0 ≤ k.mmax then 0 else 1
    let e := if sel = 0 then e0 else e1
    let m := quant k mode x.2 x.1 S e
    let m' := min m k.mmax
    let ex : FVal := .fin false m' ((S : Int) - 127 + e - k.k)
    let same := leMag ex x.1 && leMag x.1 ex
    let fl : Fl := (if k.mmax < m then flOf else 0) ||| (if same then 0 else flNx)
      ||| (if m' = 0 && !x.1.isZero then flUf else 0)
    ((if x.1.neg then 2 ^ (w + 1) else 0) + sel * 2 ^ w + m', fl)
  let out := vs.map one
  (BitVec.ofNat 8 (e0 + 16 * e1), out.map (·.1), out.foldl (fun a x => a ||| x.2) 0)

/-- The bytes of a superblock from its scale, offsets and element codes. -/
def bdxBytes (f S : Nat) (offs : List Byte) (codes : List Nat) : List Byte :=
  let body := if f = 6 then codes.map (BitVec.ofNat 8)
    else (List.range 128).map fun j => BitVec.ofNat 8 (codes.getD (2 * j) 0 + 16 * codes.getD (2 * j + 1) 0)
  BitVec.ofNat 8 S :: offs ++ List.replicate 7 0 ++ body

/-- Split into pieces of 32. -/
def chunks32 {α : Type} (l : List α) : List (List α) := (List.range 8).map fun b => (l.drop (32 * b)).take 32

/-- The sub-blocks of a superblock at scale S (R154). -/
def bdxAt (f mode S : Nat) (vs : List (FVal × BitVec 16)) : List Byte × Fl :=
  let k := bdxOf f
  let subs := (chunks32 vs).map fun g =>
    bdxSub f mode S ((firstFrom (fun e => bdxFits k mode S e g) 15 0).getD 15) g
  (bdxBytes f S (subs.map (·.1)) (subs.flatMap (·.2.1)), subs.foldl (fun a x => a ||| x.2.2) 0)

/-- An infinite value as R154 replaces it. -/
def bdxInf (k : Bdx) (v : FVal) : FVal :=
  match v with
  | .inf n => .fin n k.mmax (254 - 127 + 15 - (k.k : Int))
  | v => v

/-- A superblock encoded from 256 values with their random bits (R154). -/
def bdxEncode (f mode : Nat) (vs : List (FVal × BitVec 16)) : List Byte × Fl :=
  let k := bdxOf f
  if vs.any fun x => x.1.isNan then (0xFF :: List.replicate (k.size - 1) 0, 0)
  else if vs.all fun x => x.1.isZero && !x.1.neg then (List.replicate k.size 0, 0)
  else
    let ofl : Fl := if vs.any fun x => x.1.isInf then flOf else 0
    let vs := vs.map fun x => (bdxInf k x.1, x.2)
    let S := (firstFrom (fun s => bdxFits k mode s 15 vs) 254 0).getD 254
    let (bs, fl) := bdxAt f mode S vs
    (bs, fl ||| ofl)

/-! ## The stream generator (R158, R160) -/

def mix64 (z : DWord) : DWord :=
  let z := (z ^^^ (z >>> 30)) * 0xBF58476D1CE4E5B9
  let z := (z ^^^ (z >>> 27)) * 0x94D049BB133111EB
  z ^^^ (z >>> 31)

def rngG (key count : DWord) : Word := (mix64 (key + count)).extractLsb' 32 32

/-- The N words of a draw at the stream count. -/
def draw (key count : DWord) (n : Nat) : List Word :=
  (List.range n).map fun j => rngG key (count + BitVec.ofNat 64 j)

/-- The 16 bits of a memory-side reduction (R161). -/
def srBits (key : DWord) (a : DWord) (step : Word) : BitVec 16 :=
  (rngG (mix64 (key ^^^ step.setWidth 64)) a).extractLsb' 16 16

end Sys2Proof.Machine
end

