-- ==== Sys2Proof/Machine/Store.lean ====
section
/-!
DEFINITION. Store.lean: the operations on sparse tables, and the accessors of a context's registers (R123 to R125).
-/
namespace Sys2Proof.Machine

/-! ## Sparse tables -/

/-- What a table with the default d holds at k. -/
def Store.get {α : Type} (d : α) (m : Store α) (k : Nat) : α :=
  match m.find? (fun e => e.1 == k) with
  | some e => e.2
  | none => d

/-- The entries that list vs from key k up, those at the default left out. -/
def Store.run {α : Type} [DecidableEq α] (d : α) (k : Nat) : List α → Store α
  | [] => []
  | v :: vs => if v = d then Store.run d (k + 1) vs else (k, v) :: Store.run d (k + 1) vs

/-- The table with keys k, k + 1, … holding vs. -/
def Store.setRange {α : Type} [DecidableEq α] (d : α) (m : Store α) (k : Nat) (vs : List α) : Store α :=
  m.filter (fun e => e.1 < k) ++ Store.run d k vs ++ m.filter (fun e => k + vs.length ≤ e.1)

/-- The table with k holding v. -/
def Store.set {α : Type} [DecidableEq α] (d : α) (m : Store α) (k : Nat) (v : α) : Store α := Store.setRange d m k [v]

/-- The table with n keys from k up at the default. -/
def Store.clear {α : Type} (m : Store α) (k n : Nat) : Store α :=
  m.filter (fun e => e.1 < k) ++ m.filter (fun e => k + n ≤ e.1)

/-- The canonical form: keys strictly rising, no entry at the default. -/
def Store.wf {α : Type} [DecidableEq α] (d : α) (m : Store α) : Bool :=
  decide (m.Pairwise (fun a b => a.1 < b.1)) && m.all fun e => e.2 ≠ d

/-- Memory is in its canonical form: addresses strictly rising, no entry equal to what an unlisted address reads as. -/
def Memory.wf (m : List Host.Cell) : Bool := Store.wf 0 m

/-- The values at n keys from k up. -/
def Store.getRange {α : Type} (d : α) (m : Store α) (k n : Nat) : List α :=
  let near := m.filter fun e => k ≤ e.1 && e.1 < k + n
  (List.range n).map fun i => Store.get d near (k + i)

/-! ## A context's registers -/

/-- Scalar i; s0 reads 0 (R123). -/
def Ctx.rs (c : Ctx) (i : BitVec 6) : DWord := if i = 0 then 0 else Store.get 0 c.s i.toNat

/-- A write of scalar i, with valid residues, in both twins; s0 ignores writes (R123). -/
def Ctx.ws (c : Ctx) (i : BitVec 6) (v : DWord) : Ctx :=
  if i = 0 then c
  else { c with
    s := Store.set 0 c.s i.toNat v, bad := Store.clear c.bad (2 * i.toNat) 2, tw := Store.clear c.tw (2 * i.toNat) 2 }

/-- Scalar predicate i; b0 reads 1 (R123). -/
def Ctx.rb (c : Ctx) (i : BitVec 4) : Bool := i = 0 || c.b.getLsbD i.toNat

/-- A write of scalar predicate i; b0 ignores writes. -/
def Ctx.wb (c : Ctx) (i : BitVec 4) (v : Bool) : Ctx :=
  if i = 0 then c
  else { c with b := if v then c.b ||| BitVec.twoPow 16 i.toNat else c.b &&& ~~~(BitVec.twoPow 16 i.toNat) }

/-- Lane predicate i; p0 reads all ones (R123). -/
def Ctx.rp (c : Ctx) (i : BitVec 4) : BitVec 16 := if i = 0 then 0xFFFF else Store.get 0 c.p i.toNat

/-- A write of lane predicate i; p0 ignores writes. -/
def Ctx.wp (c : Ctx) (i : BitVec 4) (v : BitVec 16) : Ctx := if i = 0 then c else { c with p := Store.set 0 c.p i.toNat v }

/-- The lanes a predicate field selects (R231, R314). -/
def Ctx.sel (c : Ctx) (p : BitVec 4) (inv : Bool) : BitVec 16 := if inv then ~~~(c.rp p) else c.rp p

/-- WIN, the window's size (R125). -/
def Ctx.win (c : Ctx) : Nat := (c.wcfg.extractLsb' 16 11).toNat

/-- WROT, the rotation offset (R125). -/
def Ctx.wrot (c : Ctx) : Nat := (c.wcfg.extractLsb' 0 10).toNat

/-- WCFG with another WROT. -/
def Ctx.setWrot (c : Ctx) (r : Nat) : Ctx :=
  { c with wcfg := (c.wcfg.extractLsb' 10 22 ++ BitVec.ofNat 10 r : BitVec 32) }

/-- The window entry that vk names (R124). -/
def Ctx.entry (c : Ctx) (k : Nat) : Nat := (k + c.wrot) % c.win

/-- The word of a window entry in a lane. -/
def Ctx.rv (c : Ctx) (e l : Nat) : Word := Store.get 0 c.v (16 * e + l)

/-- The sixteen words of a window entry. -/
def Ctx.rvs (c : Ctx) (e : Nat) : List Word := Store.getRange 0 c.v (16 * e) 16

/-- How the residue of a window word differs from the word's own; 0 where it agrees. -/
def Ctx.rvBad (c : Ctx) (e l : Nat) : BitVec 4 := Store.get 0 c.bad (128 + 16 * e + l)

/-- A write of a window word, with its residue, in both twins. -/
def Ctx.wv (c : Ctx) (e l : Nat) (w : Word) (bad : BitVec 4) : Ctx :=
  { c with
    v := Store.set 0 c.v (16 * e + l) w
    bad := Store.set 0 c.bad (128 + 16 * e + l) bad
    tw := Store.clear c.tw (128 + 16 * e + l) 1 }

/-- A write of all sixteen words of an entry, with valid residues, in both twins. -/
def Ctx.wvs (c : Ctx) (e : Nat) (ws : List Word) : Ctx :=
  { c with
    v := Store.setRange 0 c.v (16 * e) ws
    bad := Store.clear c.bad (128 + 16 * e) ws.length
    tw := Store.clear c.tw (128 + 16 * e) ws.length }

/-- The mod-15 residue of a word (R123). -/
def residue (w : Word) : BitVec 4 := BitVec.ofNat 4 (w.toNat % 15)

/-- How a residue that was formed from `old` differs from that of the word that now stands there. -/
def residueOff (bad : BitVec 4) (old new : Word) : BitVec 4 := bad ^^^ residue old ^^^ residue new

/-- How the residue of lane l of a queue entry differs from its word's. -/
def QEntry.badAt (e : QEntry) (l : Nat) : BitVec 4 := e.bad.extractLsb' (4 * l) 4

/-- Queue q, oldest entry first (R134). -/
def Ctx.queue (c : Ctx) (q : BitVec 2) : List QEntry := Store.get [] c.q q.toNat

def Ctx.setQueue (c : Ctx) (q : BitVec 2) (l : List QEntry) : Ctx := { c with q := Store.set [] c.q q.toNat l }

/-- The flags entered in ASTICKY (R214). -/
def Ctx.flag (c : Ctx) (fl : BitVec 5) : Ctx := { c with asticky := c.asticky ||| fl.setWidth 16 }

/-- FTZ and DRM of FPCTL (R144). -/
def Ctx.ftz (c : Ctx) : Bool := c.fpctl.getLsbD 3
def Ctx.drm (c : Ctx) : Nat := (c.fpctl.extractLsb' 0 2).toNat

/-- The physical core and cluster of a context (R119). -/
def Ctx.core (c : Ctx) : Nat := c.seq / 4
def Ctx.cluster (c : Ctx) : Nat := c.seq / 32

/-- The number by which a group and PARTY know a strand: 4 × logical core + sequencer (R223). -/
def Ctx.party (c : Ctx) : Nat := 4 * c.lcore + c.seq % 4

end Sys2Proof.Machine
end

