-- ==== Sys2Proof/Machine/Digit.lean ====
section
/-!
DEFINITION. Digit.lean: the digit units of one sequencer (R162 to R178): frames, the online recurrence, early decision and
cancellation, landings, and the freeing of chain ports.
-/
namespace Sys2Proof.Machine

/-! ## Operands of a lane -/

/-- An operand of a D slot in one lane: a register value, or a chain port with its frame, chain precision, the digits
emitted so far, and its class (R164). -/
structure View where
  port : Bool
  v : FVal          -- a register's value; a port's infinity or NaN; +0 for a finite port
  snan : Bool
  ce : Int
  cp : Nat
  digits : List Int
  deriving DecidableEq, Repr

/-- CE of a register value (R163). -/
def ceOf (v : FVal) : Int :=
  match v with
  | .fin _ 0 _ => -2048
  | .fin _ m e => ((m.log2 : Int) + e) / 4 + 1
  | _ => -2048

/-- The leading digit h0 of a register value (R163). -/
def leadDigit (v : FVal) : Nat :=
  match v with
  | .fin _ m e => shiftFloor m (e + 4 * (1 - ceOf v))
  | _ => 0

def View.ofReg (d : Dec) : View := ⟨false, d.v, d.snan, ceOf d.v, 0, []⟩

/-- The signed integer that digits spell in radix 16, first digit first. -/
def digitInt (zs : List Int) : Int := zs.foldl (fun a z => 16 * a + z) 0

/-- The value of a digit string (R162); all zeros is +0 (R164). -/
def digitVal (ce : Int) (zs : List Int) : FVal := .ofInt (digitInt zs) (4 * (ce - zs.length))

/-- The whole value of an operand (R170): a port's chained value. -/
def View.whole (x : View) : FVal :=
  if x.port then (match x.v with
    | .fin _ _ _ => digitVal x.ce x.digits
    | v => v)
  else x.v

/-- A register value cut after n digits of the frame f, in units of 16^f. -/
def cutReg (v : FVal) (f : Int) (n : Int) : FVal :=
  match v with
  | .fin neg m e => .fin neg (shiftFloor m (e + 4 * (n - f))) (-4 * n)
  | v => v

/-- The first n digits of a port, in units of 16^f. -/
def cutPort (ce : Int) (zs : List Int) (f : Int) (n : Int) : FVal :=
  (digitVal ce (zs.take n.toNat)).scale (-4 * f)

/-- Pre(X, s) in the frame f (R166). -/
def View.pre (x : View) (f : Int) (s : Nat) : FVal :=
  if x.port then cutPort x.ce x.digits f ((s : Int) + 1 - (f - x.ce)) else cutReg x.v f (s + 1)

/-- Own(X, s) (R166). -/
def View.own (x : View) (s : Nat) : FVal := x.pre x.ce s

/-! ## Frames (R165) -/

/-- A bound n / 3 × 2^e. -/
abbrev Bound := Nat × Int

/-- U(X) (R165). -/
def View.bound (x : View) : Bound :=
  if x.port then (2, 4 * x.ce)
  else if x.v.isZero then (0, 0)
  else (3 * (leadDigit x.v + 1), 4 * (x.ce - 1))

def addBound (a b : Bound) : Bound :=
  let e := min a.2 b.2
  (shiftFloor a.1 (a.2 - e) + shiftFloor b.1 (b.2 - e), e)

def maxBound (a b : Bound) : Bound :=
  let e := min a.2 b.2
  if shiftFloor a.1 (a.2 - e) < shiftFloor b.1 (b.2 - e) then b else a

/-- The smallest e with B ≤ 10 × 16^(e - 1); -2048 for B = 0 (R165). -/
def frameOf (b : Ex) : Int :=
  if b.isZero then -2048
  else
    let f := b.log2 / 4
    let (t, exact) := b.floorMag (-4 * f)
    if t < 10 || (t = 10 && exact) then f + 1 else f + 2

def boundEx (b : Bound) : Ex := .quo false b.1 3 b.2

/-- The frame of `dsub` on a pair, in which decisions are tested (R165). -/
def frameSub (a b : View) : Int := frameOf (boundEx (addBound a.bound b.bound))

def oneThird (a b : Bound) : Ex := .quo false (a.1 * b.1) 9 (a.2 + b.2)

/-- a × b + c of bounds. -/
def fmaBound (a b c : Bound) : Ex :=
  let e := min (a.2 + b.2) c.2
  .quo false (shiftFloor (a.1 * b.1) (a.2 + b.2 - e) + 3 * shiftFloor c.1 (c.2 - e)) 9 e

/-- B of an operation (R165), by OP. -/
def resultBound (op : Nat) (a b c : View) : Ex :=
  match op with
  | 0x01 | 0x02 => boundEx (addBound a.bound b.bound)
  | 0x03 => oneThird a.bound b.bound
  | 0x04 | 0x05 => fmaBound a.bound b.bound c.bound
  | 0x06 =>
    if b.v.isInf || b.v.isZero then boundEx (0, 0)
    else .quo false a.bound.1 (3 * leadDigit b.v) (a.bound.2 - 4 * (b.ce - 1))
  | 0x07 => if a.v.isZero then boundEx (0, 0) else .root (leadDigit a.v + 1) (4 * (a.ce - 1))
  | 0x0D | 0x0E =>
    if a.v.isNan || a.v.isInf then boundEx b.bound
    else if b.v.isNan || b.v.isInf then boundEx a.bound
    else boundEx (maxBound a.bound b.bound)
  | _ => boundEx a.bound

/-! ## The recurrence (R166) -/

/-- Online delay δ by OP (R167). -/
def delay (op : Nat) : Nat :=
  match op with
  | 0x01 | 0x02 => 1
  | 0x03 => 2
  | 0x04 | 0x05 => 3
  | 0x06 | 0x07 => 8
  | 0x0A | 0x0B | 0x0C | 0x0D | 0x0E => 1
  | _ => 0

/-- F(op, s) in the frame ce (R166). -/
def stepF (op : Nat) (ce : Int) (a b c : View) (s : Nat) : Ex :=
  match op with
  | 0x01 => .val (addFin (a.pre ce s) (b.pre ce s))
  | 0x02 => .val (addFin (a.pre ce s) (b.pre ce s).negate)
  | 0x03 => .val ((mulFin (a.own s) (b.own s)).scale (4 * (a.ce + b.ce - ce)))
  | 0x04 => .val (addFin ((mulFin (a.own s) (b.own s)).scale (4 * (a.ce + b.ce - ce))) (c.pre ce s))
  | 0x05 => .val (addFin ((mulFin (a.own s) (b.own s)).scale (4 * (a.ce + b.ce - ce))) (c.pre ce s).negate)
  | 0x06 =>
    match a.pre (ce + b.ce) s, b.v with
    | .fin n m e, .fin n' m' e' => .quo (n != n') m m' (e + 4 * (ce + b.ce) - e' - 4 * ce)
    | _, _ => .val (.fin false 0 0)
  | 0x07 =>
    match a.v with
    | .fin _ m e => .root m (e - 8 * ce)
    | _ => .val (.fin false 0 0)
  | 0x0D =>
    if a.v.isNan || a.v.isInf then .val (b.pre ce s)
    else if b.v.isNan || b.v.isInf then .val (a.pre ce s)
    else .val (if ltMax (a.pre ce s) (b.pre ce s) then b.pre ce s else a.pre ce s)
  | 0x0E =>
    if a.v.isNan || a.v.isInf then .val (b.pre ce s)
    else if b.v.isNan || b.v.isInf then .val (a.pre ce s)
    else .val (if ltMax (b.pre ce s) (a.pre ce s) then b.pre ce s else a.pre ce s)
  | _ => .val (a.whole.scale (-4 * ce))

/-- The next digit after zs, F as it stands at the step (R166): the nearest, ties up, within ±10. -/
def nextDigit (f : Ex) (zs : List Int) : Int :=
  let k := zs.length
  let g := (f.floor (4 * (k + 1) + 1) + 1) / 2
  min 10 (max (-10) (g - 16 * digitInt zs))

/-! ## Classes (R171) -/

/-- What an operation's operands decide at issue: class, sign and payload of the result, and its flags. -/
structure Cls where
  cls : BitVec 2
  neg : Bool
  pay : BitVec 23
  fl : Fl
  deriving DecidableEq, Repr

def Cls.fin : Cls := ⟨0, false, 0, 0⟩
def Cls.inf (n : Bool) (fl : Fl) : Cls := ⟨1, n, 0, fl⟩
def Cls.invalid : Cls := ⟨2, false, 0x400000, flInv⟩

/-- The first NaN of the operands, and invalid when any has its quiet bit clear (R142, R171). -/
def nanOf (xs : List View) : Option Cls :=
  match xs.find? (fun x => x.v.isNan) with
  | none => none
  | some x => some ⟨2, x.v.neg, (match x.v with | .nan _ p => p | _ => 0x400000),
      if xs.any fun y => y.snan then flInv else 0⟩

/-- The class of a product (R171, R318): the sign of an infinity, or NaN, or finite. -/
def clsMul (a b : View) : Cls :=
  if a.v.isInf || b.v.isInf then
    let other := if a.v.isInf then b else a
    if (other.port && !other.v.isInf) || other.v.isZero then .invalid else .inf (a.v.neg != b.v.neg) 0
  else .fin

/-- What a product raises beside an addend that is a NaN (R171, log 41): invalid, where an infinity meets a zero or a finite port. -/
def prodFlags (a b : View) : Fl := if a.v.isNan || b.v.isNan then 0 else (clsMul a b).fl

def Cls.raise (k : Cls) (fl : Fl) : Cls := { k with fl := k.fl ||| fl }

/-- The class of a sum of two addends given by class and sign. -/
def clsAdd (a b : Cls) : Cls :=
  if a.cls = 2 then a else if b.cls = 2 then b
  else if a.cls = 1 && b.cls = 1 then (if a.neg = b.neg then a else .invalid)
  else if a.cls = 1 then a else if b.cls = 1 then b else .fin

def View.cls (x : View) (flip : Bool) : Cls := if x.v.isInf then .inf (x.v.neg != flip) 0 else .fin

/-- The class of an online operation's result, decided at issue (R164, R171, R318). `sign` is the open sign of R171. -/
def classify (op : Nat) (a b c : View) (sign : Bool) : Cls :=
  match op with
  | 0x01 => (nanOf [a, b]).getD (clsAdd (a.cls false) (b.cls false))
  | 0x02 => (nanOf [a, b]).getD (clsAdd (a.cls false) (b.cls true))
  | 0x03 => (nanOf [a, b]).getD (clsMul a b)
  | 0x04 => ((nanOf [a, b, c]).map (·.raise (prodFlags a b))).getD (clsAdd (clsMul a b) (c.cls false))
  | 0x05 => ((nanOf [a, b, c]).map (·.raise (prodFlags a b))).getD (clsAdd (clsMul a b) (c.cls true))
  | 0x06 => (nanOf [a, b]).getD
      (if a.v.isInf then (if b.v.isInf then .invalid else .inf (a.v.neg != b.v.neg) 0)
       else if b.v.isZero then
         (if a.port then .inf sign flDz
          else if a.v.isZero then .invalid else .inf (a.v.neg != b.v.neg) flDz)
       else .fin)
  | 0x07 => (nanOf [a]).getD
      (if a.v.isZero then .fin else if a.v.neg then .invalid else if a.v.isInf then .inf false 0 else .fin)
  | 0x0D | 0x0E =>
    let fl : Fl := if a.snan || b.snan then flInv else 0
    let pick (x : View) : Cls := match x.v with
      | .nan n p => ⟨2, n, p, fl⟩
      | .inf n => .inf n fl
      | .fin _ _ _ => { Cls.fin with fl := fl }
    if a.v.isNan then (if b.v.isNan then pick a else pick b)
    else if b.v.isNan then pick a
    else if a.v.isInf then (if a.v.neg = decide (op = 0x0E) then pick a else pick b)
    else if b.v.isInf then (if b.v.neg = decide (op = 0x0E) then pick b else pick a)
    else { Cls.fin with fl := fl }
  | _ => (nanOf [a]).getD (a.cls false)

/-! ## Exact results on whole values (R170, R318 to R322) -/

/-- `dmax` (R320). -/
def maxVal (x y : FVal) : FVal :=
  if x.isNan then (if y.isNan then x else y) else if y.isNan then x else if ltMax x y then y else x

/-- `dmin` (R320). -/
def minVal (x y : FVal) : FVal :=
  if x.isNan then (if y.isNan then x else y) else if y.isNan then x else if ltMax y x then y else x

/-- `dclip` (R322): Min(Max(a, lo), hi), a NaN in a given, a NaN bound not clamping. -/
def clipVal (a lo hi : FVal) : FVal :=
  if a.isNan then a
  else
    let m := if lo.isNan then a else maxVal a lo
    if hi.isNan then m
    else if !lo.isNan && ltMax hi lo then hi else minVal m hi

/-- The condition of `dcmp` (R319). -/
def condVal (k : Nat) (a b : FVal) : Bool :=
  let un := a.isNan || b.isNan
  match k with
  | 0 => !un && eqVal a b
  | 1 => un || !eqVal a b
  | 2 => !un && ltVal a b
  | 3 => !un && !ltVal b a
  | 4 => !un && ltVal b a
  | 5 => !un && !ltVal a b
  | 6 => un
  | _ => !un

/-- The exact result of a lane that lands a register, class finite (R318). -/
def exactOf (op : Nat) (a b c : FVal) : Ex :=
  match op with
  | 0x01 => .val (addFin a b)
  | 0x02 => .val (addFin a b.negate)
  | 0x03 => .val (mulFin a b)
  | 0x04 => .val (addFin (mulFin a b) c)
  | 0x05 => .val (addFin (mulFin a b) c.negate)
  | 0x06 =>
    match a, b with
    | .fin n m e, .fin n' m' e' =>
      if m = 0 then .val (.fin (n != n') 0 0) else .quo (n != n') m m' (e - e')
    | .fin n _ _, b => .val (.fin (n != b.neg) 0 0)
    | a, _ => .val a
  | 0x07 =>
    match a with
    | .fin n m e => if m = 0 then .val (.fin n 0 0) else .root m e
    | a => .val a
  | 0x0D => .val (maxVal a b)
  | 0x0E => .val (minVal a b)
  | 0x0B => .val (if !c.isNan && ltVal (.fin false 0 0) c then a else b)
  | 0x0C => .val (clipVal a b c)
  | _ => .val a

/-- Are two exact values the same? -/
def exEq (x : Ex) (v : FVal) : Bool :=
  match x with
  | .val y => eqVal y v
  | .quo n p d e =>
    -- p / d × 2^e = v
    match v with
    | .fin n' m e' => (p = 0 && m = 0) || (n = n' && decide (eqVal (.fin false p e) (.fin false (m * d) e')))
    | _ => false
  | .root m e =>
    match v with
    | .fin n' m' e' => !n' && eqVal (.fin false m e) (.fin false (m' * m') (2 * e'))
    | _ => false

/-! ## One sequencer's digit units -/

/-- The producer with a number. -/
def findOp (ops : List DOp) (r : Nat) : Option DOp := ops.find? (fun o => o.ref == r)

def DLane.none : DLane := ⟨false, 0, 0, 0, 0, false, 0, -2048, [], false, false, false, 0, 0, false, 0, 0, 0, 0⟩

def DOp.lane (o : DOp) (l : Nat) : DLane := o.lanes.getD l DLane.none

/-- A producer's lane as an operand. -/
def portView (o : DOp) (l : Nat) : View :=
  let d := o.lane l
  let v : FVal := match d.cls with
    | 1 => .inf d.neg
    | 2 => .nan d.neg d.pay
    | _ => .fin false 0 0
  ⟨true, v, false, d.ce, o.cp, d.digits⟩

/-- The format in which an operation's register operands are read: the source format of `dcvt`, FP32 for `vsr`. -/
def DOp.srcFmt (o : DOp) : Nat :=
  match o.op.toNat with
  | 0x0F => o.minor.toNat
  | 0x12 => 0
  | _ => o.fmt

/-- A latched word as a value; `dcvt` may convert an integer. -/
def DOp.word (o : DOp) (w : Word) : Dec :=
  if isInt o.srcFmt then ⟨.ofInt (decodeI o.srcFmt w) 0, false⟩ else decodeF o.srcFmt o.ftz o.xv w

/-- An operand in a lane: that of producer p, or word w times 2^sh. -/
def DOp.view (ops : List DOp) (o : DOp) (l : Nat) (p : Option Nat) (w : Word) (sh : Int) : View :=
  match p with
  | some r => match findOp ops r with
    | some x => portView x l
    | none => View.ofReg ⟨.fin false 0 0, false⟩
  | none => View.ofReg { o.word w with v := (o.word w).v.scale sh }

/-- The three operands of an operation in a lane. -/
def DOp.views (ops : List DOp) (o : DOp) (l : Nat) : View × View × View :=
  let d := o.lane l
  (o.view ops l o.pa d.a d.sh, o.view ops l o.pb d.b 0, o.view ops l o.pc d.c 0)

/-- Does the operation write a port? -/
def DOp.producer (o : DOp) : Bool := match o.dst with
  | .port _ => true
  | _ => false

/-- One step of a lane: the digit of step s, where the lane emits one (R166). -/
def stepLane (ops : List DOp) (o : DOp) (l : Nat) : DLane :=
  let d := o.lane l
  let δ := delay o.op.toNat
  if !o.producer || d.canc || d.cls ≠ 0 || o.age < δ || o.cp ≤ o.age - δ then d
  else if !d.en || d.zero then { d with digits := d.digits ++ [0] }
  else
    let (a, b, c) := o.views ops l
    { d with digits := d.digits ++ [nextDigit (stepF o.op.toNat d.ce a b c o.age) d.digits] }

/-- One step of one operation; operations before it in `ops` have run theirs. -/
def stepOp (ops : List DOp) (o : DOp) : DOp :=
  if o.done || o.fixed then { o with age := o.age + 1 }
  else { o with lanes := (List.range 16).map (stepLane ops o), age := o.age + 1 }

/-- One step of every operation, oldest first, so that a digit is used in the cycle in which it leaves (R167). -/
def stepOps : List DOp → List DOp → List DOp
  | done, [] => done
  | done, o :: os => stepOps (done ++ [stepOp done o]) os

/-! ## Early decision (R175 to R177) -/

/-- The sum of 10 × 16^(-j-1) over a port's positions not consumed by step s, in the frame f. -/
def View.slack (x : View) (f : Int) (s : Nat) : FVal :=
  if !x.port then .fin false 0 0
  else
    let n := ((s : Int) + 1 - (f - x.ce)).toNat
    -- (10 / 15) × (16^-n - 16^-cp) in the port's own frame: an integer count of 16^-cp
    let u := (10 * (16 ^ (x.cp - n) - 1)) / 15
    .fin false u (4 * (x.ce - f - x.cp))

/-- Has the comparison of a with b decided by step s in the frame f (R175)? -/
def decidedBy (a b : View) (f : Int) (s : Nat) : Bool :=
  if a.v.isNan || a.v.isInf || b.v.isNan || b.v.isInf then true
  else
    let side (x : View) : FVal := if x.port then x.pre f s else x.v.scale (-4 * f)
    let gone (x : View) : Bool := !x.port || decide ((x.cp : Int) ≤ (s : Int) + 1 - (f - x.ce))
    let d := addFin (side a) (side b).negate
    (gone a && gone b) || ltVal (addFin (a.slack f s) (b.slack f s)) (if d.neg then d.negate else d)

/-- An operand as it stands at step s of a decision: a class, a whole register value, or what a port has given. -/
def View.seen (x : View) (f : Int) (s : Nat) : FVal :=
  if x.v.isNan || x.v.isInf then x.v else if x.port then x.pre f s else x.v.scale (-4 * f)

def View.zero : View := View.ofReg ⟨.fin false 0 0, false⟩

/-- Has the operation decided in this lane by step s, and which of SA, SB, SC does its outcome still need (R175, R176)? -/
def decision (op : Nat) (ce : Int) (a b c : View) (s : Nat) : Option (Bool × Bool × Bool) :=
  match op with
  | 0x0A => if decidedBy a b (frameSub a b) s then some (false, false, false) else none
  | 0x0D =>
    if decidedBy a b ce s then
      let w := if a.v.isNan || b.v.isNan then b.v.isNan else !ltMax (a.seen ce s) (b.seen ce s)
      some (w, !w, false)
    else none
  | 0x0E =>
    if decidedBy a b ce s then
      let w := if a.v.isNan || b.v.isNan then b.v.isNan else !ltMax (b.seen ce s) (a.seen ce s)
      some (w, !w, false)
    else none
  | 0x0B =>
    let f := frameSub c View.zero
    if decidedBy c View.zero f s then
      let w := !c.v.isNan && ltVal (.fin false 0 0) (c.seen f s)
      some (w, !w, false)
    else none
  | 0x0C =>
    let f1 := frameSub a b
    let f2 := frameSub a c
    let f3 := frameSub b c
    let known := decidedBy b c f3 s
    let crossed := known && !b.v.isNan && !c.v.isNan && ltMax (c.seen f3 s) (b.seen f3 s)
    let low := !b.v.isNan && !a.v.isNan && ltMax (a.seen f1 s) (b.seen f1 s)
    let high := !c.v.isNan && !a.v.isNan && ltMax (c.seen f2 s) (a.seen f2 s)
    let d1 := decidedBy a b f1 s
    let d2 := decidedBy a c f2 s
    -- above hi, or with the bounds crossed, the result is hi whatever the other comparisons give
    if a.v.isNan then some (true, false, false)
    else if (d2 && high) || crossed then some (false, false, true)
    else if d1 && low then (if known then some (false, true, false) else none)
    else if d1 && d2 then some (true, false, false)
    else none
  | _ => none

/-- The step that consumes the last digit an operation's ports still hold, by the frames of its tests (R175): none where the class of
the result, or a NaN or an infinity of the pair, has decided at issue. -/
def lastStep (op : Nat) (cls : BitVec 2) (ce : Int) (a b c : View) : Nat :=
  let stop (x : View) (f : Int) : Nat := if x.port && !x.v.isInf && !x.v.isNan then ((x.cp : Int) - 1 + (f - x.ce)).toNat else 0
  let pair (x y : View) : Nat :=
    if x.v.isInf || x.v.isNan || y.v.isInf || y.v.isNan then 0 else max (stop x (frameSub x y)) (stop y (frameSub x y))
  match op with
  | 0x0A => pair a b
  | 0x0D | 0x0E => if cls ≠ 0 then 0 else max (stop a ce) (stop b ce)
  | 0x0B => stop c (frameSub c View.zero)
  | 0x0C => max (pair a b) (pair a c)
  | _ => 0

/-- Does the operation decide (R175)? -/
def DOp.decides (o : DOp) : Bool := decide (0x0A ≤ o.op.toNat ∧ o.op.toNat ≤ 0x0E)

/-- A lane after the step just run: has it decided? -/
def decideLane (ops : List DOp) (o : DOp) (l : Nat) : DLane :=
  let d := o.lane l
  if !o.decides || !d.en || d.kdec || o.age = 0 then d
  else
    let (a, b, c) := o.views ops l
    if (decision o.op.toNat d.ce a b c (o.age - 1)).isSome then { d with kdec := true, decStep := o.age - 1 } else d

def decideOps (ops : List DOp) : List DOp :=
  ops.map fun o => if o.decides && !o.done then { o with lanes := (List.range 16).map (decideLane ops o) } else o

/-- Does user u cancel producer r in lane l (R176, R177)? -/
def cancels (ops : List DOp) (u : DOp) (r l : Nat) : Bool :=
  let d := u.lane l
  if d.canc then true
  else if !(u.kill && d.kdec) then false
  else
    let (a, b, c) := u.views ops l
    match decision u.op.toNat d.ce a b c d.decStep with
    | some (na, nb, nc) => !((na && u.pa = some r) || (nb && u.pb = some r) || (nc && u.pc = some r))
    | none => false

/-- Has the operation run its last step? -/
def DOp.stepped (o : DOp) : Bool := decide (delay o.op.toNat + o.cp ≤ o.age)

def uses (u : DOp) (r : Nat) : Bool := u.pa = some r || u.pb = some r || u.pc = some r

/-- Steps that a lane of a producer has run (R182): none after its last, or once it is cancelled. -/
def DOp.steps (o : DOp) (l : Nat) : Nat :=
  let d := o.lane l
  min o.age (delay o.op.toNat + if d.canc then d.digits.length else o.cp)

/-- How many digits of producer r an operation has read in a lane: those that its last step run consumes, in the frame in which it
takes that operand (R166, R175). -/
def DOp.reads (ops : List DOp) (u : DOp) (r l : Nat) : Nat :=
  let d := u.lane l
  let (a, b, c) := u.views ops l
  let n := min u.age u.last
  let by_ (p : Option Nat) (x : View) (f : Int) : Nat := if p = some r then ((n : Int) - (f - x.ce)).toNat else 0
  let own (p : Option Nat) : Nat := if p = some r then n else 0
  if !d.en then 0
  else match u.op.toNat with
    | 0x01 | 0x02 | 0x0D | 0x0E => max (by_ u.pa a d.ce) (by_ u.pb b d.ce)
    | 0x04 | 0x05 => max (max (own u.pa) (own u.pb)) (by_ u.pc c d.ce)
    | 0x06 => by_ u.pa a (d.ce + b.ce)
    | 0x0A => max (by_ u.pa a (frameSub a b)) (by_ u.pb b (frameSub a b))
    | 0x0B => max (max (own u.pa) (own u.pb)) (by_ u.pc c (frameSub c View.zero))
    | 0x0C => max (max (by_ u.pa a (frameSub a b)) (by_ u.pb b (frameSub a b)))
        (max (by_ u.pa a (frameSub a c)) (by_ u.pc c (frameSub a c)))
    | _ => max (own u.pa) (own u.pb)

/-- Producers with the count of the digits that their users have read (R182). -/
def takeOps (ops : List DOp) : List DOp :=
  ops.map fun o =>
    let us := ops.filter fun u => uses u o.ref
    if !o.producer || us.isEmpty then o
    else { o with lanes := (List.range 16).map fun l =>
      let d := o.lane l
      { d with taken := max d.taken (min d.digits.length ((us.map fun u => u.reads ops o.ref l).foldl max 0)) } }

/-- The producer with the lanes that all its users cancel marked, the digit-cycles saved (R178), and the flags that those lanes
enter, which are those decided at issue (R177). A user that does not act in a lane has completed there at issue (R314). -/
def cancelOp (ops newer : List DOp) (o : DOp) : DOp × Nat × Fl :=
  let us := newer.filter fun u => uses u o.ref
  if !o.producer || o.land.isSome || us.isEmpty then (o, 0, 0)
  else
    let hit (l : Nat) : Bool :=
      let d := o.lane l
      let vs := us.filter fun u => (u.lane l).en
      !d.canc && !o.stepped && !vs.isEmpty && vs.all fun u => cancels ops u o.ref l
    let lanes := (List.range 16).map fun l => if hit l then { o.lane l with canc := true } else o.lane l
    let n := ((List.range 16).map fun l => if hit l then o.cp - (o.lane l).digits.length else 0).sum
    ({ o with lanes }, n, (List.range 16).foldl (fun f l => if hit l then f ||| (o.lane l).flags else f) 0)

/-- Cancellation spreads up the chain in one cycle: the newest operation first. -/
def cancelFrom (ops : List DOp) (newer : List DOp) (n : Nat) (fl : Fl) : List DOp → List DOp × Nat × Fl
  | [] => (newer, n, fl)
  | o :: os => let (o', k, f) := cancelOp ops newer o; cancelFrom ops (o' :: newer) (n + k) (fl ||| f) os

/-! ## Landings (R167, R172, R173) -/

/-- Is the operation cancelled in every lane in which it acts (R177)? -/
def DOp.cancelled (o : DOp) : Bool := o.lanes.any (·.canc) && o.lanes.all fun d => !d.en || d.canc

/-- Has it completed, for the freeing of a port it reads (R168)? A lane in which it does not act counts as completed at issue (R314). -/
def DOp.complete (o : DOp) : Bool :=
  (o.lanes.all fun d => !d.en || d.canc) ||
  (match o.land with
   | some L => decide (L + 1 ≤ o.age)
   | none => o.stepped)

/-- What an online or deciding lane lands: its word, or the bit of a predicate, and its flags (R170 to R172, R317). -/
def landLane (ops : List DOp) (o : DOp) (l : Nat) : Word × Fl :=
  let d := o.lane l
  let (a, b, c) := o.views ops l
  let op := o.op.toNat
  let put (x : Ex) : Word × Fl := roundTo o.fmt o.rm o.sat o.ftz o.mn d.rnd x
  if op = 0x0A then (if condVal (o.minor.toNat % 8) a.whole b.whole then 1 else 0, d.flags)
  else if op = 0x0B then
    let pick := if !c.whole.isNan && ltVal (.fin false 0 0) c.whole then a else b
    ((put (.val pick.whole)).1, if c.snan || pick.snan then flInv else 0)
  else if op = 0x0C then
    ((put (.val (clipVal a.whole b.whole c.whole))).1, if a.snan || b.snan || c.snan then flInv else 0)
  else
    let x : Ex := match d.cls with
      | 1 => .val (.inf d.neg)
      | 2 => .val (.nan d.neg d.pay)
      | _ => exactOf op a.whole b.whole c.whole
    let (w, fl) := put x
    (w, fl ||| d.flags)

/-- Operations as they stand once every digit of theirs has left: what their chained values then are. -/
def wholeOps (ops : List DOp) : List DOp :=
  if ops.all fun o => !o.producer || o.stepped then ops else (List.range 23).foldl (fun ops _ => stepOps [] ops) ops

/-- The flags of a producer that lands no register, at its completion (R172); `ops` hold the whole values of its operands. A
cancelled lane has entered its flags before (R177). -/
def portFlags (ops : List DOp) (o : DOp) (l : Nat) : Fl :=
  let d := o.lane l
  if !d.en || d.canc then 0
  else if d.cls ≠ 0 then d.flags
  else
    let (a, b, c) := o.views ops l
    if exEq (exactOf o.op.toNat a.whole b.whole c.whole) (digitVal d.ce d.digits) then d.flags else d.flags ||| flNx

/-- How the residue that a lane lands differs from its word's (R179). It is formed from the residues of the register words it comes
from: that of the one chosen, of all in an arithmetic operation, where it disagrees as soon as one of theirs does (log 23). -/
def laneBad (ops : List DOp) (o : DOp) (l : Nat) : BitVec 4 :=
  let d := o.lane l
  let (a, b, c) := o.views ops l
  let e (k : Nat) : BitVec 4 := d.bad.extractLsb' (4 * k) 4
  if d.bad = 0 then 0
  else match o.op.toNat with
    | 0x0B => e (if !c.whole.isNan && ltVal (.fin false 0 0) c.whole then 0 else 1)
    | 0x0C =>
      let v := clipVal a.whole b.whole c.whole
      e (if v = a.whole then 0 else if v = b.whole then 1 else 2)
    | 0x0D => e (if maxVal a.whole b.whole = a.whole then 0 else 1)
    | 0x0E => e (if minVal a.whole b.whole = a.whole then 0 else 1)
    | _ => if e 0 ^^^ e 1 ^^^ e 2 ≠ 0 then e 0 ^^^ e 1 ^^^ e 2 else if e 0 ≠ 0 then e 0 else e 1

/-- A lane of a result: its word, how its residue differs from the word's, its flags. -/
abbrev LaneOut := Word × BitVec 4 × Fl

/-- The results of an operation by lane. -/
def results (ops : List DOp) (o : DOp) : List LaneOut :=
  (List.range 16).map fun l =>
    if !(o.lane l).en then (0, 0, 0)
    else if o.fixed then (o.out.getD l 0, o.badOut.getD l 0, (o.lane l).flags)
    else let (w, fl) := landLane ops o l; (w, laneBad ops o l, fl)

/-- The bits of a lane predicate after a landing: enabled lanes take their result (R314). -/
def landPred (old : BitVec 16) (en : Nat → Bool) (w : Nat → Word) : Nat → BitVec 16
  | 0 => old
  | l + 1 =>
    let p := landPred old en w l
    if en l then (if w l = 0 then p &&& ~~~(BitVec.twoPow 16 l) else p ||| BitVec.twoPow 16 l) else p

/-- An operation's landing in the context. -/
def landOp (o : DOp) (c : Ctx) : Ctx :=
  let rs := results c.dops o
  let fl := rs.foldl (fun a x => a ||| x.2.2) 0
  let c1 := match o.dst with
    | .pred p => c.wp p (landPred (c.rp p) (fun l => (o.lane l).en) (fun l => (rs.getD l (0, 0, 0)).1) 16)
    | _ => (List.range 16).foldl (fun c l =>
        match o.dstEnts[l]? with
        | some e => if (o.lane l).en then (let r := rs.getD l (0, 0, 0); c.wv e l r.1 r.2.1) else c
        | none => c) c
  c1.flag fl

/-- Operations whose landing cycle has come land, the older first (R173). -/
def landDue (c : Ctx) : List DOp → Ctx
  | [] => c
  | o :: os =>
    if !o.landed && (match o.land with | some L => decide (L ≤ o.age) | none => false) then
      landDue { landOp o c with dops := (landOp o c).dops.map fun x => if x.ref = o.ref then { x with landed := true } else x } os
    else landDue c os

/-- Producers that land no register and have emitted their last digit, or are cancelled, enter their flags (R172). -/
def flagDue (c : Ctx) : List DOp → Ctx
  | [] => c
  | o :: os =>
    if o.producer && o.land.isNone && !o.landed && (o.stepped || o.cancelled) then
      let ops := wholeOps c.dops
      let fl := (List.range 16).foldl (fun a l => a ||| portFlags ops o l) (0 : Fl)
      flagDue { c.flag fl with dops := c.dops.map fun x => if x.ref = o.ref then { x with landed := true } else x } os
    else flagDue c os

/-- Is the port free: its consuming bundle has issued, and every consumer has completed (R168)? -/
def portFree (ops : List DOp) (p : Port) : Bool :=
  p.consumed && p.users.all fun u => match findOp ops u with
    | some o => o.complete
    | none => true

/-- Ports that have become free are freed; operations that nothing needs any more leave (R168): none that a port holds, nor the source
of one that does, whose residual is still asked for (R182). -/
def sweep (c : Ctx) : Ctx :=
  let ports : Store (Option Port) := c.ports.filter fun e => match e.2 with
    | some p => !portFree c.dops p
    | none => false
  let held (r : Nat) : Bool := ports.any fun e => match e.2 with
    | some p => p.prod = r
    | none => false
  let needed (r : Nat) : Bool := c.dops.any fun u => uses u r && (!(u.landed && u.complete) || held u.ref)
  { c with ports, dops := c.dops.filter fun o => !(o.landed && (o.complete || o.fixed)) || held o.ref || needed o.ref }

/-- Does the operation read or write a chain port? -/
def DOp.chained (o : DOp) : Bool := o.producer || o.pa.isSome || o.pb.isSome || o.pc.isSome

/-- A cycle of the operations that touch no port. -/
def Ctx.stepPlain (c : Ctx) : Ctx :=
  { c with dops := c.dops.map fun o => if o.chained then o else { o with age := o.age + 1 } }

/-- The digit units' cycle: one step of every operation, decisions and what they cancel, with the flags that this enters; the cancelled
digit-cycles. Chain operations that have been restored run no step before their first bundle (R180). -/
def Ctx.digits (c : Ctx) : Ctx × Nat :=
  if c.fresh then (c.stepPlain, 0)
  else
    let ops := decideOps (takeOps (stepOps [] c.dops))
    let (ops, n, fl) := cancelFrom ops [] 0 0 ops.reverse
    ({ c with dops := ops }.flag fl, n)

/-- What lands at the end of the cycle. -/
def Ctx.landings (c : Ctx) : Ctx :=
  let c := landDue c c.dops
  let c := flagDue c c.dops
  sweep c

/-- Has every D-slot operation of the context completed or been cancelled (R172)? -/
def Ctx.digitsDone (c : Ctx) : Bool := c.dops.all fun o => o.landed || o.cancelled

/-! ## Holding for a save (R180) -/

/-- SetStages (R266): pj is all ones while stage j - 1 has a source iteration. -/
def setStages (c : Ctx) (l : Loop) : Ctx :=
  let st := (l.rot.extractLsb' 2 3).toNat
  let n : Int := (l.n.toNat : Int) - st + 1
  (List.range st).foldl (fun c (j : Nat) =>
    let d : Int := (l.i.toNat : Int) - (j : Int)
    c.wp (BitVec.ofNat 4 (j + 1)) (if 0 ≤ d && d < n then 0xFFFF else 0)) c

/-- The stage predicates of the innermost level take its values. -/
def Ctx.stages (c : Ctx) : Ctx :=
  match c.loops with
  | l :: _ => setStages c l
  | [] => c

/-- The digit units' part of a cycle in which the context leaves its sequencer, with its landings (R106 cycle 0, R180). -/
def Ctx.lastCycle (staged : Bool) (c : Ctx) : Ctx × Nat :=
  let (d, n) := c.digits
  (if staged then d.landings.stages else d.landings, n)

/-- A cycle of the operations that touch no port, with its landings. -/
def Ctx.settleStep (c : Ctx) : Ctx := landDue c.stepPlain (c.stepPlain.dops.filter fun o => !o.chained)

/-- Operations that touch no port complete and land, each in its cycle (R173); the others hold (R180). A stage predicate that the
boundary of this cycle sets keeps its value over a landing of the same cycle (R266). -/
def Ctx.settle (staged : Bool) (c : Ctx) : Ctx :=
  let now := if staged then c.settleStep.stages else c.settleStep
  sweep ((List.range 31).foldl (fun c _ => c.settleStep) now)

end Sys2Proof.Machine
end

