-- ==== Sys2Proof/Machine/Ops.lean ====
section
/-!
DEFINITION. Ops.lean: the named operations over memory, translation, contexts, completion objects, perch lines and traps.
-/
namespace Sys2Proof.Machine

/-- What a meaning answers. -/
abbrev Out := Host.Outcome State Fault Refusal

/-! ## Contexts and ranks -/

/-- The context with a key: 8 × sequencer + slot. -/
def State.ctx (s : State) (key : Nat) : Ctx := if key = s.cur then s.c else Store.get Ctx.reset s.ctxs key

def State.setCtx (s : State) (key : Nat) (c : Ctx) : State :=
  if key = s.cur then { s with c } else { s with ctxs := Store.set Ctx.reset s.ctxs key c }

def State.modCtx (s : State) (key : Nat) (f : Ctx → Ctx) : State := s.setCtx key (f (s.ctx key))

/-- The machine with the context of a key as the strand that moves next. -/
def State.focus (s : State) (key : Nat) : State :=
  if key = s.cur then s
  else
    let c := Store.get Ctx.reset s.ctxs key
    { s with c, cur := key, ctxs := Store.set Ctx.reset (Store.set Ctx.reset s.ctxs s.cur s.c) key Ctx.reset }

/-- The registers that the slots of the running bundle read (R187). -/
def State.rd (s : State) : Ctx := s.old.getD s.c

def State.modC (s : State) (f : Ctx → Ctx) : State := { s with c := f s.c }

def State.rank (s : State) (r : Nat) : Rank := Store.get Rank.reset s.ranks r
def State.modRank (s : State) (r : Nat) (f : Rank → Rank) : State :=
  { s with ranks := Store.set Rank.reset s.ranks r (f (s.rank r)) }

def State.seqOf (s : State) (q : Nat) : Seq := Store.get Seq.reset s.seqs q
def State.modSeq (s : State) (q : Nat) (f : Seq → Seq) : State :=
  { s with seqs := Store.set Seq.reset s.seqs q (f (s.seqOf q)) }

def State.send (s : State) (m : OutMsg) : State := { s with out := s.out ++ [m] }
def State.due (s : State) (i : Instr) : State := { s with agenda := s.agenda ++ [i] }
/-- An event that comes before everything else that is due. -/
def State.dueNow (s : State) (i : Instr) : State := { s with agenda := i :: s.agenda }

/-- A number for the next operation in flight. -/
def State.take (s : State) : Nat × State := (s.nextRef, { s with nextRef := s.nextRef + 1 })

/-- The next free value's index (log 8). -/
def State.drawFree (s : State) : Nat × State := (s.free, { s with free := s.free + 1 })

/-- The key under which a core holds a rank's engine, MOWN and Scruple slots. -/
def engKey (core rank : Nat) : Nat := 131072 * core + rank

def State.engine (s : State) (core rank : Nat) : Engine := Store.get Engine.reset s.engines (engKey core rank)
def State.setEngine (s : State) (core rank : Nat) (e : Engine) : State :=
  { s with engines := Store.set Engine.reset s.engines (engKey core rank) e }

def State.mownOf (s : State) (core rank : Nat) : BitVec 3 := Store.get 0 s.mown (engKey core rank)
def State.setMown (s : State) (core rank : Nat) (m : BitVec 3) : State :=
  { s with mown := Store.set 0 s.mown (engKey core rank) m }

def scKey (core rank slot : Nat) : Nat := 16 * engKey core rank + slot

def State.scr (s : State) (core rank slot : Nat) : Scruple := Store.get Scruple.reset s.scruple (scKey core rank slot)
def State.setScr (s : State) (core rank slot : Nat) (x : Scruple) : State :=
  { s with scruple := Store.set Scruple.reset s.scruple (scKey core rank slot) x }

/-- L, the logical clusters of a rank (R56). -/
def Rank.clusters (r : Rank) : Nat := r.shapeX * r.shapeY

/-- π(ℓ): the physical cluster of a logical cluster (R58). -/
def Rank.place (r : Rank) (l : Nat) : Nat := r.dom.toNat + l % (max 1 r.shapeX) + 6 * (l / (max 1 r.shapeX))

/-- The ranks that are resident in the domain whose lowest cluster is k, by rank slot. -/
def State.rankIn (s : State) (k slot : Nat) : Option Nat :=
  (s.ranks.find? fun e => e.2.dom.toNat = k && e.2.slot = slot && e.2.st ≠ .absent && e.2.st ≠ .cold).map (·.1)

/-- Does the domain named by its lowest cluster exist? -/
def State.isDom (s : State) (k : Nat) : Bool :=
  s.ranks.any fun e => e.2.dom.toNat = k && e.2.st ≠ .absent && e.2.st ≠ .cold

/-- Is a cluster in the secure world (R48)? -/
def State.secureCluster (s : State) (k : Nat) : Bool := s.world.clusters.getLsbD k

/-- Is the running strand in the secure world (R372)? -/
def State.secure (s : State) : Bool := s.secureCluster s.c.cluster

/-! ## Memory -/

/-- Locations of cluster stores start at 2^52, above every physical address. -/
def csBaseLoc (cluster : Nat) : Nat := 2 ^ 52 + 2 ^ 24 * cluster

def isCs (loc : Nat) : Bool := decide (2 ^ 52 ≤ loc)
/-- Host memory (R74). -/
def isHost (loc : Nat) : Bool := decide (2 ^ 51 ≤ loc ∧ loc < 2 ^ 52)
def isDev (loc : Nat) : Bool := decide (loc < 2 ^ 51)

def lineOf (loc : Nat) : Nat := loc / 128

/-- The lines that n bytes from a location touch. -/
def linesOf (loc n : Nat) : List Nat := if n = 0 then [] else List.range' (lineOf loc) (lineOf (loc + n - 1) + 1 - lineOf loc)

/-- A byte of memory, or of a cluster store. -/
def State.byte (s : State) (loc : Nat) : Byte := Store.get 0 s.mem loc

def State.bytes (s : State) (loc n : Nat) : List Byte := Store.getRange 0 s.mem loc n

/-- A little-endian number in memory (R2). -/
def State.num (s : State) (loc n : Nat) : Nat := Decode.leNat (s.bytes loc n)

def State.version (s : State) (line : Nat) : BitVec 48 := Store.get 0 s.ver line

def State.isFull (s : State) (line : Nat) : Bool := Store.get false s.full line

/-- Is the 8-byte granule of a location marked (R216)? -/
def State.marked (s : State) (loc : Nat) : Bool := (Store.get 0 s.poison (lineOf loc)).getLsbD (loc % 128 / 8)

/-! ### Slices, channels and their caches (R75, R76, R78) -/

/-- The slice of a line: PA[13:8] (R75). -/
def sliceOf (line : Nat) : Nat := line / 2 % 64

/-- The HBM4E channel of a line, 0 to 255: 4 × slice + PA[15:14] (R75). -/
def channelOf (line : Nat) : Nat := 4 * sliceOf line + line / 128 % 4

/-- The stack of a line, and the channel within it (R75). -/
def stackOf (line : Nat) : Nat × Nat := (sliceOf line / 8, 4 * (sliceOf line % 8) + line / 128 % 4)

/-- The set of a line among the 1,024 of its slice, from PA[51:14] and PA[7] (R76, log 66). -/
def sliceSet (line : Nat) : Nat := 1024 * sliceOf line + (line / 128 * 2 + line % 2) % 1024

/-- The set of a line among the 512 of its channel's base-die cache (R78, log 66). -/
def dieSet (line : Nat) : Nat := 512 * channelOf line + (line / 512 * 2 + line % 2) % 512

/-- A use of a line in a set of 16 ways: it becomes the latest used, dirty if it was or if it is written, and the oldest used leave a
set that holds too many (log 66). The set, whether it was a hit, and what has left. -/
def useWay (set : List (Nat × Bool)) (line : Nat) (write : Bool) : List (Nat × Bool) × Bool × List (Nat × Bool) :=
  let dirty := set.any fun e => e.1 = line && e.2
  let l := (set.filter fun e => e.1 ≠ line) ++ [(line, dirty || write)]
  (l.drop (l.length - 16), set.any fun e => e.1 = line, l.take (l.length - 16))

/-- The shared cache gives a host line up (R39). -/
def State.uncacheHost (s : State) (line : Nat) : State :=
  { s with
    slices := Store.set [] s.slices (sliceSet line) ((Store.get [] s.slices (sliceSet line)).filter fun e => e.1 ≠ line)
    host := { s.host with
      cached := Store.set false s.host.cached line false, cachedSet := Store.set false s.host.cachedSet line false } }

/-- A host line is written back; the host has not completed it yet (R194). -/
def State.writeBack (s : State) (line : Nat) : State :=
  { s.send (.writeBack line (s.bytes (128 * line) 128)) with host := { s.host with wbOut := s.host.wbOut ++ [line] } }

/-- A base-die cache is asked for a line, to read it or to write it back; a miss opens its row in DRAM, and so does the write-back
of a dirty line that leaves (R78, log 66). -/
def State.dieUse (s : State) (line : Nat) (write : Bool) : State :=
  let (set, hit, gone) := useWay (Store.get [] s.dies (dieSet line)) line write
  let opens (s : State) (l : Nat) : State := s.due (.rowActivate (256 * Config.dramBank l + channelOf l) (Config.dramRow l))
  let s := { s with dies := Store.set [] s.dies (dieSet line) set }
  let s := if hit then s else opens s line
  gone.foldl (fun s e => if e.2 then opens s e.1 else s) s

/-- Is a line one of HBM4E (R74)? -/
def isHbm (line : Nat) : Bool := decide (128 * line < 2 ^ 39)

/-- A slice serves a line of device or host memory (R76): it is allocated on a miss, a host line is then held through CXL.cache, and
what leaves its set is written back where it is dirty. -/
def State.sliceUse (s : State) (line : Nat) (write : Bool) : State :=
  let (set, hit, gone) := useWay (Store.get [] s.slices (sliceSet line)) line write
  let s := { s with slices := Store.set [] s.slices (sliceSet line) set }
  let s := if isHost (128 * line) then
      { s with host := { s.host with
        cached := if write then Store.set false s.host.cached line true else s.host.cached
        cachedSet := Store.set false s.host.cachedSet line true } }
    else if hit || !isHbm line then s else s.dieUse line false
  gone.foldl (fun s e =>
    if isHost (128 * e.1) then (if e.2 then s.writeBack e.1 else s).uncacheHost e.1
    else if e.2 && isHbm e.1 then s.dieUse e.1 true
    else s) s

/-- The slices serve those of these lines that are not of a cluster store. -/
def State.slicesUse (s : State) (lines : List Nat) (write : Bool) : State :=
  (lines.filter fun l => !isCs (128 * l)).foldl (fun s l => s.sliceUse l write) s

/-- The versions of a list of lines advance by one; lines of device memory alone have a version (R74, R201). A written host
line is held, dirty, by the shared cache (R41). -/
def State.bump (s : State) (lines : List Nat) : State :=
  lines.foldl (fun s l =>
    if isDev (128 * l) then { s with ver := Store.set 0 s.ver l (s.version l + 1) }
    else if isHost (128 * l) then s.sliceUse l true
    else s) s

/-- The cluster-store lines of a list become full (R132). -/
def State.fill (s : State) (lines : List Nat) : State :=
  lines.foldl (fun s l => if isCs (128 * l) then { s with full := Store.set false s.full l true } else s) s

/-- A run of lines' versions advance by one, n lines from l up, all of device memory. -/
def State.bumpRun (s : State) (l n : Nat) : State :=
  { s with ver := Store.setRange 0 s.ver l ((Store.getRange 0 s.ver l n).map (· + 1)) }

/-- The marks of a line after n bytes from a location have been written: wholly written granules lose theirs (R216). -/
def clearMarks (m : BitVec 16) (line loc n : Nat) : BitVec 16 :=
  (List.range 16).foldl (fun m g =>
    if loc ≤ 128 * line + 8 * g ∧ 128 * line + 8 * g + 8 ≤ loc + n then m &&& ~~~(BitVec.twoPow 16 g) else m) m

/-- Bytes take their values; marks of wholly written granules go. No version moves. -/
def State.poke (s : State) (loc : Nat) (bs : List Byte) : State :=
  { s with
    mem := Store.setRange 0 s.mem loc bs
    poison := if s.poison.isEmpty then s.poison
      else (linesOf loc bs.length).foldl (fun p l => Store.set 0 p l (clearMarks (Store.get 0 p l) l loc bs.length)) s.poison }

/-! ### Reductions held in write queues (R305 to R308) -/

/-- The sum of a reduction on values read as an IEEE format: an element's NaN first, then the addend's (R307). -/
def redSum (x y : FVal) : FVal :=
  match x, y with
  | .nan n p, _ => .nan n p
  | _, .nan n p => .nan n p
  | .inf a, .inf b => if a = b then .inf a else .cnan
  | .inf a, _ => .inf a
  | _, .inf b => .inf b
  | x, y => addFin x y

def redMax (x y : FVal) : FVal :=
  match x, y with
  | .nan n p, _ => .nan n p
  | _, .nan n p => .nan n p
  | x, y => if ltMax x y then y else x

/-- An element after one add of a kind: 0 f32, 1 bf16, 2 bf16.sr, 5 max.f32, 6 s32 (R307). -/
def redWord (kind : Nat) (old : Nat) (add : Word) (r : BitVec 16) : Nat :=
  let y := (decodeF 0 false 0 add).v
  match kind with
  | 0 => (roundTo 0 0 false false false 0 (.val (redSum (decodeF 0 false 0 (BitVec.ofNat 32 old)).v y))).1.toNat
  | 1 => (roundTo 2 0 true false false 0 (.val (redSum (decodeF 2 false 0 (BitVec.ofNat 32 old)).v y))).1.toNat
  | 2 => (roundTo 2 2 true false false r (.val (redSum (decodeF 2 false 0 (BitVec.ofNat 32 old)).v y))).1.toNat
  | 5 => (roundTo 0 0 false false false 0 (.val (redMax (decodeF 0 false 0 (BitVec.ofNat 32 old)).v y))).1.toNat
  | _ => (BitVec.ofNat 32 old + add).toNat

/-- One add to element i of a BDX superblock (R308). -/
def redBdx (f : Nat) (bs : List Byte) (i : Nat) (add : Word) : List Byte :=
  let k := bdxOf f
  let y := (decodeF 0 false 0 add).v
  let S := (byteAt bs 0).toNat
  if S = 255 then bs
  else if y.isNan then 0xFF :: List.replicate (k.size - 1) 0
  else
    let v := bdxInf k (redSum (bdxElem f bs i) y)
    let b := i / 32
    let off := (byteAt bs (1 + b)).toNat
    let w := if f = 6 then 6 else 2
    let code (sel m : Nat) : Nat := (if v.neg then 2 ^ (w + 1) else 0) + sel * 2 ^ w + m
    let put (c : Nat) : List Byte :=
      if f = 6 then bs.set (16 + i) (BitVec.ofNat 8 c)
      else
        let old := (byteAt bs (16 + i / 2)).toNat
        bs.set (16 + i / 2) (BitVec.ofNat 8 (if i % 2 = 0 then old / 16 * 16 + c else old % 16 + 16 * c))
    let q0 := quant k 0 0 v S (off % 16)
    let q1 := quant k 0 0 v S (off / 16)
    if q0 ≤ k.mmax then put (code 0 q0)
    else if q1 ≤ k.mmax then put (code 1 q1)
    else
      let vals := (List.range 256).map fun j => (if j = i then v else bdxElem f bs j, (0 : BitVec 16))
      let grp := (vals.drop (32 * b)).take 32
      match firstFrom (fun e => bdxFits k 0 S e grp) (15 - off / 16) (off / 16) with
      | some e1 =>
        let (ob, codes, _) := bdxSub f 0 S e1 grp
        let all := (List.range 256).map fun j => if j / 32 = b then codes.getD (j % 32) 0 else bdxCode f bs j
        let offs := (List.range 8).map fun t => if t = b then ob else byteAt bs (1 + t)
        bdxBytes f S offs all
      | none =>
        let S' := (firstFrom (fun s => bdxFits k 0 s 15 vals) (254 - S - 1) (S + 1)).getD 254
        (bdxAt f 0 S' vals).1

/-- Bytes per element of a reduction kind. -/
def redSize (kind : Nat) : Nat := if kind = 1 ∨ kind = 2 then 2 else 4

/-- An entry applied to the array: its adds in order of arrival, as one write event on each line it covers (R305). What it has read
of a superblock keeps its marks (R216). -/
def State.applyEntry (s : State) (e : WqEntry) : State :=
  let s :=
    if e.kind = 3 ∨ e.kind = 4 then
      let f := e.kind + 3
      let n := (bdxOf f).size
      let bs := s.bytes e.base (min e.cut n) ++ s.bytes e.base2 (n - e.cut)
      let bs := e.adds.foldl (fun bs a => redBdx f bs a.1 a.2.1) bs
      { (s.poke e.base (bs.take e.cut)).poke e.base2 (bs.drop e.cut) with poison := s.poison }
    else
      e.adds.foldl (fun s a =>
        let n := redSize e.kind
        s.poke a.1 (Decode.leBytes n (redWord e.kind (s.num a.1 n) a.2.1 a.2.2))) s
  s.bump e.lines

/-- Open entries that cover a line are applied before another access to it (R305). -/
def State.flush (s : State) (lines : List Nat) : State :=
  if s.wq.isEmpty then s
  else
    let hit (e : WqEntry) : Bool := e.lines.any fun l => lines.contains l
    (s.wq.filter hit).foldl State.applyEntry { s with wq := s.wq.filter fun e => !hit e }

/-- Memory as an access to these lines finds it: their open entries applied (R305). -/
def State.bytesNow (s : State) (loc n : Nat) : List Byte := (s.flush (linesOf loc n)).bytes loc n

/-- A little-endian number in memory as an access finds it (R305). -/
def State.numNow (s : State) (loc n : Nat) : Nat := Decode.leNat (s.bytesNow loc n)

/-- A write event (R77, R132): the bytes, one version step on each line of device memory, full bits in a cluster store. A line is one of
128 bytes wherever a version is counted (R74, R189), though the listings of R392 and R396 count 64-byte ones (log 80). -/
def State.write (s : State) (loc : Nat) (bs : List Byte) : State :=
  let ls := linesOf loc bs.length
  (((s.flush ls).poke loc bs).bump ls).fill ls

/-- Marks of granules that several pieces write wholly between them go (R216). -/
def State.clearWhole (s : State) (ps : List (Nat × List Byte)) (lines : List Nat) : State :=
  let hit (a : Nat) : Bool := ps.any fun p => decide (p.1 ≤ a ∧ a < p.1 + p.2.length)
  let whole (l g : Nat) : Bool := (List.range 8).all fun i => hit (128 * l + 8 * g + i)
  { s with poison := if s.poison.isEmpty then s.poison
      else lines.foldl (fun p l => Store.set 0 p l
        ((List.range 16).foldl (fun m g => if whole l g then m &&& ~~~(BitVec.twoPow 16 g) else m) (Store.get 0 p l))) s.poison }

/-- Several pieces written as one event of each line (R189). -/
def State.writeAll (s : State) (ps : List (Nat × List Byte)) : State :=
  let ls := (ps.flatMap fun p => linesOf p.1 p.2.length).eraseDups
  (((ps.foldl (fun s p => s.poke p.1 p.2) (s.flush ls)).clearWhole ps ls).bump ls).fill ls

/-- Lines of a list that the host holds (R41). -/
def State.heldLines (s : State) (lines : List Nat) : List Nat := lines.filter fun l => Store.get false s.host.held l

/-- The lines from an address on, n bytes of them, that the host holds. -/
def State.heldIn (s : State) (a n : Nat) : List Nat :=
  (s.host.held.filter fun e => e.2 && decide (a ≤ 128 * e.1 + 127 ∧ 128 * e.1 < a + n)).map (·.1)

/-- The back-invalidate snoops for lines the host holds, each sent once (R41); the events wait for the first response. -/
def State.snoop (s : State) (lines : List Nat) (evs : List Instr) : State :=
  let held := s.heldLines lines
  let add (s : State) (l : Nat) (evs : List Instr) : State :=
    if s.host.biWait.any fun w => w.1 = l then
      { s with host := { s.host with biWait := s.host.biWait.map fun w => if w.1 = l then (l, w.2 ++ evs) else w } }
    else { s.send (.backInvalidate l) with host := { s.host with biWait := s.host.biWait ++ [(l, evs)] } }
  match held with
  | [] => s
  | l :: ls => ls.foldl (fun s l => add s l []) (add s l evs)

/-! ## Translation (R89 to R94, R128) -/

/-- What an access needs of a page. -/
inductive Acc where
  | read | write | rw | fetch
  deriving DecidableEq, Repr

def Acc.isWrite : Acc → Bool
  | .write | .rw => true
  | _ => false

/-- The start of the aperture, and its size (R128). -/
def apertureVa : Nat := 0xFF00000000000

def inAperture (va : Nat) : Bool := decide (va / 2 ^ 29 = apertureVa / 2 ^ 29)

/-- The second tier's size in GiB; capacity above 3,072 is not mapped (R9). -/
def State.tierGiB (s : State) : Nat := min 3072 s.pwr.tierGib

/-- Is the page of a leaf backed (R74)? -/
def State.backed (s : State) (pa size : Nat) : Bool :=
  decide (pa + size ≤ 2 ^ 39)
    || decide (0x10000000000 ≤ pa ∧ pa + size ≤ 0x10000000000 + 2 ^ 30 * s.tierGiB)
    || decide (2 ^ 51 ≤ pa ∧ pa + size ≤ 2 ^ 52)

/-- A page-table entry (R90). -/
structure Pte where
  valid : Bool
  leaf : Bool
  perm : BitVec 4
  pa : Nat
  clean : Bool
  deriving DecidableEq, Repr

def pteOf (w : DWord) : Pte :=
  ⟨w.getLsbD 0, w.getLsbD 1, w.extractLsb' 2 4, (w.extractLsb' 12 40).toNat * 4096,
    w.extractLsb' 52 12 = 0 && w.extractLsb' 6 6 = 0⟩

/-- Index of a level in its table, and the size of a leaf there (R89). -/
def levelIndex (lvl va : Nat) : Nat :=
  match lvl with
  | 0 => va / 2 ^ 39 % 2 ^ 13
  | 1 => va / 2 ^ 30 % 2 ^ 9
  | 2 => va / 2 ^ 21 % 2 ^ 9
  | _ => va / 2 ^ 16 % 2 ^ 5

def leafSize (lvl : Nat) : Nat :=
  match lvl with
  | 0 => 2 ^ 39
  | 1 => 2 ^ 30
  | 2 => 2 ^ 21
  | _ => 2 ^ 16

/-- The walk from a table at a level; `fuel` counts the levels left (R89, R90). R90 names no fault for a table outside the backed
ranges: it reads as zeros, so that the walk fails at that table's level (DESIGN CHOICE, log 78). -/
def State.walk (s : State) (va tag : Nat) : Nat → Nat → Nat → Except (BitVec 8) TlbEntry
  | 0, lvl, _ => .error (BitVec.ofNat 8 lvl)
  | fuel + 1, lvl, table =>
    let p := pteOf (BitVec.ofNat 64 (Decode.leNat (s.bytesNow (table + 8 * levelIndex lvl va) 8)))
    let bad : Except (BitVec 8) TlbEntry := .error (BitVec.ofNat 8 lvl)
    if !p.valid || !p.clean then bad
    else if p.leaf then
      if lvl = 0 || p.pa % leafSize lvl ≠ 0 || !s.backed p.pa (leafSize lvl) then bad
      else .ok ⟨tag, va / leafSize lvl * leafSize lvl, leafSize lvl, p.pa, p.perm⟩
    else if lvl = 3 then bad
    else State.walk s va tag fuel (lvl + 1) p.pa

/-- The lines that a walk reads (R89): those of its entries, level by level. -/
def State.walkLines (s : State) (va : Nat) : Nat → Nat → Nat → List Nat
  | 0, _, _ => []
  | fuel + 1, lvl, table =>
    let a := table + 8 * levelIndex lvl va
    let p := pteOf (BitVec.ofNat 64 (Decode.leNat (s.bytesNow a 8)))
    lineOf a :: if !p.valid || !p.clean || p.leaf || lvl = 3 then [] else State.walkLines s va fuel (lvl + 1) p.pa

/-- The tag of a context's translations (R91): domain × 8 + rank slot, or 4 at supervisor level. -/
def State.tag (s : State) (c : Ctx) : Nat := if c.sv then 4 else 8 * (s.rank c.rank).dom.toNat + (s.rank c.rank).slot

def tlbFind (l : List TlbEntry) (tag va : Nat) : Option TlbEntry :=
  l.find? fun e => e.tag = tag && decide (e.va ≤ va ∧ va < e.va + e.size)

/-- What the TLBs of a context's core and cluster hold for a VA: a first-level hit, or a second-level one (R91). -/
def State.tlbHit (s : State) (c : Ctx) (va : Nat) : Option TlbEntry :=
  match tlbFind (Store.get [] s.tlb1 c.core) (s.tag c) va with
  | some e => some e
  | none => tlbFind (Store.get [] s.tlb2 c.cluster) (s.tag c) va

/-- The root table of a context's walks; bits [15:0] of its register are ignored (R89). -/
def State.rootOf (s : State) (c : Ctx) : Nat :=
  (if c.sv then s.ptRootSv else (s.rank c.rank).ptRoot).toNat / 65536 * 65536 % 2 ^ 52

/-- A translation: a hit in the TLBs, or a walk (R91, R92). -/
def State.translate (s : State) (c : Ctx) (va : Nat) : Except (BitVec 8) TlbEntry :=
  match s.tlbHit c va with
  | some e => .ok e
  | none => s.walk va (s.tag c) 4 0 (s.rootOf c)

/-- The second-level set of an entry, of 512 (R91, log 5). -/
def tlbSet (e : TlbEntry) : Nat := e.va / 65536 % 512

/-- An entry joins a list of which at most n stand in its set; the oldest of the set leaves (R91, log 5). -/
def tlbAdd (l : List TlbEntry) (e : TlbEntry) (mates : TlbEntry → Bool) (n : Nat) : List TlbEntry :=
  if l.contains e then l
  else match l.find? mates with
    | some x => if n ≤ (l.filter mates).length then l.erase x ++ [e] else l ++ [e]
    | none => l ++ [e]

/-- An entry enters both TLBs: 192 entries, and 4,096 in 8 ways (R91, log 5). -/
def State.install (s : State) (c : Ctx) (e : TlbEntry) : State :=
  { s with tlb1 := Store.set [] s.tlb1 c.core (tlbAdd (Store.get [] s.tlb1 c.core) e (fun _ => true) 192)
           tlb2 := Store.set [] s.tlb2 c.cluster (tlbAdd (Store.get [] s.tlb2 c.cluster) e (fun x => tlbSet x = tlbSet e) 8) }

/-- The TLBs after an access has translated a VA; a walk reads its entries through the shared cache (R89). -/
def State.touch (s : State) (c : Ctx) (ea : DWord) : State :=
  if decide (2 ^ 52 ≤ ea.toNat) || inAperture ea.toNat then s
  else
    let t := if (s.tlbHit c ea.toNat).isSome then s else s.slicesUse (s.walkLines ea.toNat 4 0 (s.rootOf c)) false
    match s.translate c ea.toNat with
    | .ok e => t.install c e
    | .error _ => t

/-- The number of the 2 MiB region of a physical address (R50). -/
def regionOf (pa : Nat) : Nat := if pa < 2 ^ 39 then pa / 2 ^ 21 else 262144 + (pa - 0x10000000000) / 2 ^ 21

/-- Is the region of a device address secure (R49, R50)? -/
def State.secureRegion (s : State) (pa : Nat) : Bool :=
  s.world.mapBase ≠ 0 && isDev pa &&
    (s.byte (s.world.mapBase.toNat / 65536 * 65536 + regionOf pa / 8)).getLsbD (regionOf pa % 8)

/-- Does a device address lie in the bitmap itself (R50)? -/
def State.inBitmap (s : State) (pa : Nat) : Bool :=
  let b := s.world.mapBase.toNat / 65536 * 65536
  s.world.mapBase ≠ 0 && decide (b ≤ pa ∧ pa < b + 229376)

/-- May an accessor of a world access a device address (R49, R50)? -/
def State.worldOk (s : State) (secure : Bool) (pa : Nat) (write : Bool) : Bool :=
  !isDev pa || ((secure || !(s.secureRegion pa || s.inBitmap pa)) && !(write && s.inBitmap pa))

def mkTrap (cause : BitVec 6) (lane : Nat) (info : Word) (fva : DWord) : TrapInfo :=
  ⟨cause, 0, BitVec.ofNat 8 lane, info, fva⟩

def lanes8 (lane : Nat) : Word := BitVec.ofNat 32 lane

/-- The missing rights of PROTECT, as INFO lays them out (R403). -/
def missing (perm : BitVec 4) (sv : Bool) (a : Acc) : Word :=
  let rd := (a = .read || a = .rw) && !perm.getLsbD 0
  let w := a.isWrite && !perm.getLsbD 1
  let x := a = .fetch && !perm.getLsbD 2
  let v := perm.getLsbD 3 && !sv
  (if rd then 0x100 else 0) ||| (if w then 0x200 else 0) ||| (if x then 0x400 else 0) ||| (if v then 0x800 else 0)

/-- One access of a lane, checked in the order of R94: the location it reaches, or the trap it takes. `ver` marks a version
instruction, `align` its alignment. -/
def State.check (s : State) (c : Ctx) (ea : DWord) (lane align : Nat) (a : Acc) (ver : Bool) : Except TrapInfo Nat :=
  let va := ea.toNat
  if va % align ≠ 0 then .error (mkTrap 0x08 lane (lanes8 lane) ea)
  else if 2 ^ 52 ≤ va then .error (mkTrap 0x09 lane (lanes8 lane ||| 0xFF00) ea)
  else if inAperture va then
    let r := s.rank c.rank
    let l := va / 2 ^ 24 % 32
    let o := va % 2 ^ 24
    if (l ≠ 31 && decide (r.clusters ≤ l)) || decide (r.csMib * 2 ^ 20 ≤ o) then
      .error (mkTrap 0x09 lane (lanes8 lane ||| 0xFF00) ea)
    else if a = .fetch then .error (mkTrap 0x0A lane (lanes8 lane ||| 0x400) ea)
    else if ver then .error (mkTrap 0x0B lane (lanes8 lane) ea)
    else .ok (csBaseLoc (if l = 31 then c.cluster else r.place l) + r.csBase + o)
  else match s.translate c va with
    | .error lvl => .error (mkTrap 0x09 lane (lanes8 lane ||| (lvl.setWidth 32 <<< 8)) ea)
    | .ok e =>
      let pa := e.pa + (va - e.va)
      let m := missing e.perm c.sv a
      if m ≠ 0 then .error (mkTrap 0x0A lane (lanes8 lane ||| m) ea)
      else if !s.worldOk (s.secureCluster c.cluster) pa a.isWrite then
        .error (mkTrap 0x06 lane ((5 : Word) <<< 24 ||| BitVec.ofNat 32 (regionOf pa)) ea)
      else if ver && isHost pa then .error (mkTrap 0x0B lane (lanes8 lane) ea)
      else .ok pa

/-- A run of n bytes from a VA as pieces that lie in one 64 KiB region each: location and length. -/
def State.span (s : State) (c : Ctx) (a : Acc) : Nat → DWord → Nat → Except TrapInfo (List (Nat × Nat))
  | 0, _, _ => .ok []
  | fuel + 1, ea, n =>
    if n = 0 then .ok []
    else match s.check c ea 0 1 a false with
      | .error t => .error t
      | .ok loc =>
        let k := min n (65536 - ea.toNat % 65536)
        match State.span s c a fuel (ea + BitVec.ofNat 64 k) (n - k) with
        | .error t => .error t
        | .ok ps => .ok ((loc, k) :: ps)

/-- As `span`, with the fuel its length needs. -/
def State.pieces (s : State) (c : Ctx) (a : Acc) (ea : DWord) (n : Nat) : Except TrapInfo (List (Nat × Nat)) :=
  s.span c a (n / 65536 + 2) ea n

def State.readPieces (s : State) (ps : List (Nat × Nat)) : List Byte := ps.flatMap fun p => s.bytesNow p.1 p.2

/-- Bytes written over pieces, one write event on each line. -/
def State.writePieces (s : State) : List (Nat × Nat) → List Byte → State
  | [], _ => s
  | (loc, n) :: ps, bs => State.writePieces (s.write loc (bs.take n)) ps (bs.drop n)

/-! ## Completion objects (R33, R352) -/

/-- A write event of the chip's own: where the host holds a line of it, its slice snoops the host, and applies the write after the
response (R41, log 20). -/
def State.writeNow (s : State) (loc : Nat) (bs : List Byte) : State :=
  let ls := linesOf loc bs.length
  if (s.heldLines ls).isEmpty then (s.write loc bs).slicesUse ls true else s.snoop ls [.sharedCacheAccess (.write loc bs)]

/-- A completion object after one event: SRC and LAND increments, FAIL set with them (R33). -/
def signalled (w : DWord) (src land : Nat) (fail : Bool) : DWord :=
  let sr := w.extractLsb' 0 32 + BitVec.ofNat 32 src
  let la := w.extractLsb' 32 31 + BitVec.ofNat 31 land
  BitVec.ofBool (w.getLsbD 63 || fail) ++ la ++ sr

/-- One event at a completion object (R33), after the host's response where it holds the line (R41). -/
def State.signal (s : State) (co : Option Nat) (src land : Nat) (fail : Bool) : State :=
  match co with
  | none => s
  | some loc =>
    let ls := linesOf loc 8
    if (s.heldLines ls).isEmpty then
      (s.write loc (Decode.leBytes 8 (signalled (BitVec.ofNat 64 (Decode.leNat (s.bytesNow loc 8))) src land fail).toNat)).slicesUse
        ls true
    else s.snoop ls [.sharedCacheAccess (.signal loc src land fail)]

/-- An event whose writes wait for the host to give up the lines it holds of theirs (R41). -/
def State.unheld (s : State) (lines : List Nat) (ev : Instr) (k : State → Out) : Out :=
  if (s.heldLines lines).isEmpty then k s else .next (s.snoop lines [ev])

def srcOf (w : DWord) : Word := w.extractLsb' 0 32
def landOf (w : DWord) : BitVec 31 := w.extractLsb' 32 31

/-! ## Order among the accesses of a strand (R131, R191, R193) -/

/-- The context of an access that has not performed, and the lines it accesses. -/
def Pending.access : Pending → Option (Nat × List Nat)
  | .store k ls _ _ _ => some (k, ls)
  | .amo k _ _ loc _ _ _ => some (k, [lineOf loc])
  | .casv k _ loc _ _ => some (k, [lineOf loc])
  | .vset k _ loc _ _ _ => some (k, [lineOf loc])
  | .clrfe k line => some (k, [line])
  | .red k es _ => some (k, es.flatMap (·.lines))
  | .event k _ _ => some (k, [])
  | .answerS .. | .answerB .. => none

/-- The context that an answer or an access in flight belongs to. -/
def Pending.key : Pending → Nat
  | .answerS k .. | .answerB k .. | .store k .. | .amo k .. | .casv k .. | .vset k .. | .clrfe k _ | .red k .. | .event k .. => k

/-- What an exited strand's access still does (R140): its own effect, and no answer. -/
def Pending.orphan (k : Nat) : Pending → Option Pending
  | .store _ ls w ps n => some (.store k ls w ps n)
  | .amo _ op wide loc y z _ => some (.amo k op wide loc y z 0)
  | .casv _ _ loc want data => some (.casv k 0 loc want data)
  | .vset _ _ loc data t v => some (.vset k 0 loc data t v)
  | .clrfe _ line => some (.clrfe k line)
  | .red _ es t => some (.red k es t)
  | .event _ n ev => some (.event k n ev)
  | .answerS .. | .answerB .. => none

/-- The lines that a load in flight reads. -/
def Load.lines (l : Load) : List Nat :=
  ((l.lanes.filterMap fun x => x).map lineOf).eraseDups ++ (l.scalar.map fun x => lineOf x.1).toList ++ l.ldfe.toList

/-- The context and lines of an access in flight. -/
def State.inFlightLines (s : State) (id : Nat) : Option (Nat × List Nat) :=
  match Store.get none s.loads id with
  | some l => some (l.key, l.lines)
  | none => (Store.get none s.pend id).bind Pending.access

/-- The lines that an access in flight writes. -/
def State.writeLines (s : State) (id : Nat) : List Nat :=
  match (Store.get none s.pend id).bind Pending.access with
  | some (_, ls) => ls
  | none => []

/-- Is a line one of the cluster store of this cluster? -/
def nearLine (cluster line : Nat) : Bool := decide (csBaseLoc cluster ≤ 128 * line ∧ 128 * line < csBaseLoc (cluster + 1))

/-- The key under which the accesses of a strand that has exited are known. -/
def exitKey (rank key : Nat) : Nat := 2 ^ 40 * (rank + 1) + key

/-- The rank of an exited strand, by the key of its accesses. -/
def keyRank (key : Nat) : Option Nat := if key < 2 ^ 40 then none else some (key / 2 ^ 40 - 1)

/-- The sequencer of an access, by its context's key or the key of an exited strand. -/
def keySeq (key : Nat) : Nat := key % 2 ^ 40 / 8

/-- Must an access to these lines wait behind one of the waiting accesses `ahead`: ordered by a fence or a fork (R193, R200); of its
strand, to the same line or both near (R188, R191); of its sequencer, to the same cluster-store line (R131)? -/
def State.behind (s : State) (ahead : List Nat) (key : Nat) (lines : List Nat) : Bool :=
  let near := nearLine (keySeq key / 32)
  ahead.any fun id => s.fenced.contains (id, key) || match s.inFlightLines id with
    | some (k, ls) => (k = key && ls.any fun l => lines.any fun m => l = m || (near l && near m))
        || (keySeq k = keySeq key && ls.any fun l => isCs (128 * l) && lines.contains l)
    | none => false

/-- The waiting accesses of a strand. -/
def State.waitsOf (s : State) (key : Nat) : List Nat :=
  s.feq.filter fun id => match s.inFlightLines id with
    | some (k, _) => k = key
    | none => false

/-- What an agent accesses from now on waits behind these accesses (R193, R196, R200). -/
def State.after (s : State) (ids : List Nat) (agent : Nat) : State :=
  { s with fenced := s.fenced ++ (ids.map fun id => (id, agent)).filter fun x => !s.fenced.contains x }

/-- The agent that an engine operation is, beside the contexts. -/
def opAgent (id : Nat) : Nat := 2 ^ 80 + id

/-- Does an engine operation wait for accesses po-before its command (R200)? -/
def State.opWaits (s : State) (id : Nat) : Bool := s.feq.any fun a => s.fenced.contains (a, opAgent id)

/-- Has a strand an access that waits? -/
def State.waitingFor (s : State) (key : Nat) : Bool := !(s.waitsOf key).isEmpty

/-- The numbers of the loads, accesses and answers in flight of a context. -/
def State.inFlightOf (s : State) (key : Nat) : List Nat :=
  ((s.loads.filter fun e => match e.2 with
      | some l => l.key = key
      | none => false).map (·.1))
    ++ (s.pend.filter fun e => match e.2 with
      | some p => p.key = key
      | none => false).map (·.1)

/-- Loads and accesses in flight go, without any effect (R133, R219). -/
def State.cancel (s : State) (ids : List Nat) : State :=
  { s with
    loads := s.loads.filter fun e => !ids.contains e.1
    pend := s.pend.filter fun e => !ids.contains e.1
    feq := s.feq.filter fun id => !ids.contains id
    fenced := s.fenced.filter fun x => !ids.contains x.1 }

/-- An access joins those that wait. -/
def State.park (s : State) (id : Nat) : State := if s.feq.contains id then s else { s with feq := s.feq ++ [id] }

/-- Must a read of these lines at its issue wait: behind an access of its strand, or on an empty line (R131, R132)? -/
def State.readWaits (s : State) (lines : List Nat) : Bool :=
  s.behind s.feq s.cur lines || lines.any fun l => isCs (128 * l) && !s.isFull l

/-! ## Buckets (R113) -/

/-- The scheduler of the domain whose lowest cluster is k. -/
def State.domOf (s : State) (k : Nat) : Dom := Store.get Dom.reset s.sched.doms k

/-- A change to the scheduler of a domain. -/
def State.modDom (s : State) (k : Nat) (f : Dom → Dom) : State :=
  { s with sched := { s.sched with doms := Store.set Dom.reset s.sched.doms k (f (s.domOf k)) } }

/-- Bucket b of a rank slot of a domain. -/
def State.bucket (s : State) (k slot b : Nat) : Bucket := Store.get Bucket.reset (s.domOf k).buckets (4 * slot + b)

def State.setBucket (s : State) (k slot b : Nat) (x : Bucket) : State :=
  s.modDom k fun d => { d with buckets := Store.set Bucket.reset d.buckets (4 * slot + b) x }

/-- Is a rank in a domain (R60)? -/
def Rank.placed (r : Rank) : Bool := r.st ≠ .absent && r.st ≠ .cold

/-- A charge to a bucket of a rank: never for a RATE of all ones; a level never falls below -DEPTH. -/
def State.charge (s : State) (rank b n : Nat) : State :=
  let r := s.rank rank
  let k := s.bucket r.dom.toNat r.slot b
  if k.rate = 0xFFFFFFFF || !r.placed then s
  else s.setBucket r.dom.toNat r.slot b { k with level := max (-(k.depth.toNat : Int)) (k.level - n) }

/-! ## Departures (R82) -/

/-- Requests of a rank to slices depart (R82, R113); a cluster-store access is not on the calendar (R83). -/
def State.departOf (s : State) (rank : Nat) (lines : List Nat) (write : Bool) : State :=
  let far := lines.filter fun l => !isCs (128 * l)
  if far.isEmpty then s else s.due (.requestDeparture rank ⟨far, write⟩)

/-- The cycle at which the first slot of cluster k on slice j begins, at or after a cycle, behind the slots taken already: network cycle
t of a furlong is that of cluster (t + j) mod 24, and a network cycle is two cycles (R5, R81, R82). -/
def State.slotAt (s : State) (k j : Nat) : Nat :=
  let from_ := max s.time.toNat (Store.get 0 s.calendar (24 * j + k))
  let t := (from_ + 1) / 2
  2 * (t + (k + 48 * 24 - j - t % 24) % 24)

/-- A request of the running strand's cluster to a slice takes its slot (R82). -/
def State.takeSlot (s : State) (j : Nat) : State :=
  { s with calendar := Store.set 0 s.calendar (24 * j + s.c.cluster) (s.slotAt s.c.cluster j + 1) }

/-- Requests of the running strand depart, one for each granule of 256 bytes, which lies on one slice. -/
def State.depart (s : State) (lines : List Nat) (write : Bool) : State :=
  let grans := ((lines.filter fun l => !isCs (128 * l)).map (· / 2)).eraseDups
  (grans.foldl (fun s g => s.takeSlot (sliceOf (2 * g))) s).departOf s.c.rank lines write

/-! ## Perch lines (R205, R224, R272 to R275) -/

def State.perchOf (s : State) (line : BitVec 6) : Option Perch := Store.get none s.perch line.toNat
def State.setPerch (s : State) (line : BitVec 6) (p : Option Perch) : State :=
  { s with perch := Store.set none s.perch line.toNat p }

/-- Contexts of a rank with their keys, the live one among them. -/
def State.strands (s : State) (rank : Nat) : List (Nat × Ctx) :=
  ((s.cur, s.c) :: s.ctxs.filter fun e => e.1 ≠ s.cur).filter fun e => e.2.live && !e.2.resident && e.2.rank = rank

/-- The strand of a rank that a PARTY names. -/
def State.partyKey (s : State) (rank : Nat) (party : BitVec 16) : Option Nat :=
  ((s.strands rank).find? fun e => e.2.party = party.toNat).map (·.1)

/-- Has a destination raised its part: counter zero, and in its `pwait`, exited, or out of its group; or a decoder (R274)? -/
def Dest.done (d : Dest) : Bool := d.left = 0 && (d.raised || d.party.getLsbD 15)

/-- The groups that no strand is in any more and that are bound to one of the lines named: dissolved (R275). -/
def dropEmpty (lines : Nat → Bool) (groups : List (Nat × Option Group)) : List (Nat × Option Group) :=
  groups.filter fun e => match e.2 with
    | some g => !(g.members.isEmpty && lines g.line.toNat)
    | none => true

/-- Does a decoder's record wait for its counter on a line, with WAITIN (R361, R363)? -/
def DecRec.awaits (r : DecRec) (line : BitVec 6) : Bool :=
  r.checked && !r.started && (byteAt r.block 15).getLsbD 1 && decide ((byteAt r.block 46).toNat = line.toNat)

/-- The decoders whose counters on a line are zero have met what their head records wait for, once the line is released too (R363). -/
def State.decMet (s : State) (line : BitVec 6) (p : Perch) : State :=
  let zero (d : Nat) : Bool := p.dests.any fun x => x.party.toNat = 0x8000 + d && x.left = 0
  { s with decs := s.decs.map fun e => (e.1, match e.2 with
    | r :: rs => (if r.rank = p.rank && r.awaits line && zero e.1 then { r with met := true } else r) :: rs
    | [] => []) }

/-- A line released (R274, R224): disarmed, every waiter marked with how it was released; groups left by all end with it (R275). -/
def State.release (s : State) (line : BitVec 6) (p : Perch) (forced : Bool) : State :=
  let s := if s.decs.isEmpty then s else s.decMet line p
  let overran := Store.get false (s.rank p.rank).overran line.toNat
  let how : Released := if forced then .stall else if overran then .overran else .clean
  let s := (s.setPerch line none).modRank p.rank fun r => { r with groups := dropEmpty (· = line.toNat) r.groups }
  let s := if overran then s.modRank p.rank fun r => { r with overran := Store.set false r.overran line.toNat false } else s
  let s := if !forced && (s.rank p.rank).stepline = line.setWidth 8 then s.modRank p.rank fun r => { r with step := r.step + 1 } else s
  { s with releases := p.waiters.foldl (fun m k => Store.set none m k (some how)) s.releases }

/-- Does the release of a rank's STEPLINE wait for the check of R64? -/
def Rank.holdsStep (r : Rank) : Bool :=
  match r.st, r.league with
  | .parking, some l | .outgoing, some l => l.step = .quiesce
  | _, _ => false

/-- The line released if every destination has raised it (R274); a STEPLINE release may be held (R63, R64). -/
def State.perchCheck (s : State) (line : BitVec 6) : State :=
  match s.perchOf line with
  | none => s
  | some p =>
    if p.held then s
    else if p.dests.all Dest.done then
      if (s.rank p.rank).stepline = line.setWidth 8 && (s.rank p.rank).holdsStep then
        (s.setPerch line (some { p with held := true })).modRank p.rank fun r => { r with heldRelease := true }
      else s.release line p false
    else s

/-- A counted arrival of n bytes at a line, by a rank, for a PARTY (R205, R311, R224). -/
def State.countDown (s : State) (rank : Nat) (line : BitVec 6) (party : BitVec 16) (n : Nat) : State :=
  let overran (s : State) : State := s.modRank rank fun r => { r with overran := Store.set false r.overran line.toNat true }
  if n = 0 then s
  else match s.perchOf line with
    | none => overran s
    | some p =>
      if p.rank ≠ rank then overran s
      else match p.dests.find? fun d => d.party = party with
        | none => overran s
        | some d =>
          let set (v : Nat) : Perch :=
            { p with
              dests := p.dests.map (fun e => if e.party = party then { e with left := v } else e)
              at_ := if v = d.left then p.at_ else s.time.toNat }
          if n ≤ d.left then (s.setPerch line (some (set (d.left - n)))).perchCheck line
          else (overran (s.setPerch line (some (set 0)))).perchCheck line

/-! ## Groups (R121) -/

/-- A strand leaves a group; the last member's leave dissolves it, after the release of its line if the rank has armed it (R121,
R275). -/
def State.leaveGroup (s : State) (rank g party : Nat) : State :=
  match Store.get none (s.rank rank).groups g with
  | none => s
  | some gr =>
    let ms := gr.members.filter fun m => m ≠ party
    if ms.length = gr.members.length then s
    else
      let armed := match s.perchOf gr.line with
        | some p => decide (p.rank = rank)
        | none => false
      let s := s.modRank rank fun r =>
        { r with groups := Store.set none r.groups g (if ms.isEmpty && !armed then none else some { gr with members := ms }) }
      -- a destination that was added through the group counts as raised (R274)
      match s.perchOf gr.line with
      | none => s
      | some p =>
        if p.rank = rank then
          (s.setPerch gr.line (some { p with dests := p.dests.map fun d =>
            if d.party.toNat = party && d.group = some g then { d with raised := true } else d })).perchCheck gr.line
        else s

/-! ## The end of a strand (R61, R98, R140, R271) -/

/-- LAND of a launch rises once no strand of it is left, and what its strands accessed has performed (R98, R271). -/
def State.launchDone (s : State) (rank id : Nat) : State :=
  match (s.rank rank).lives.find? fun l => l.id = id with
  | none => s
  | some l =>
    if l.left = 0 && l.waits.isEmpty then
      (s.modRank rank fun r => { r with lives := r.lives.filter fun x => x.id ≠ id }).signal (some l.co) 0 1 l.failed
    else s

/-- One strand of a launch has ended; the last one's end raises LAND once the accesses `waits` of it have performed (R98, R271). -/
def State.launchLeft (s : State) (rank id : Nat) (fail : Bool) (waits : List Nat) : State :=
  (s.modRank rank fun r => { r with lives := r.lives.map fun x => if x.id = id then
    { x with left := x.left - 1, failed := x.failed || fail, waits := x.waits ++ waits } else x }).launchDone rank id

/-- An access has performed, or is gone: it waits no more, and no launch waits for it. -/
def State.unpark (s : State) (id : Nat) : State :=
  let s := { s with feq := s.feq.filter (· ≠ id), fenced := s.fenced.filter (·.1 ≠ id) }
  (s.ranks.filter fun e => e.2.lives.any fun l => l.waits.contains id).foldl (fun s e =>
    let s := s.modRank e.1 fun r => { r with lives := r.lives.map fun l => { l with waits := l.waits.filter (· ≠ id) } }
    e.2.lives.foldl (fun s l => s.launchDone e.1 l.id) s) s

/-- The accesses of an exited strand go on under a key of their own, and answer nobody (R140). -/
def State.orphan (s : State) (key k : Nat) : State :=
  { s with
    loads := s.loads.map fun e => (e.1, e.2.map fun l => if l.key = key then { l with key := k, watch := none } else l)
    pend := (s.pend.map fun (e : Nat × Option Pending) =>
      (e.1, e.2.bind fun p => if p.key = key then p.orphan k else some p)).filter fun e => e.2 ≠ none
    fenced := s.fenced.map fun x => if x.2 = key then (x.1, k) else x }

/-- The strand in a context ends: its groups are left, an owned engine returns, its queues, ports and operations go, its
sequencer is free, and its launch is told (R140, R271). `fail` marks an end other than by `exit` (R98). -/
def State.endStrand (s : State) (key : Nat) (fail : Bool) : State :=
  let c := s.ctx key
  let s := (List.range 64).foldl (fun s g => s.leaveGroup c.rank g c.party) s
  let s := if !c.resident && (s.mownOf c.core c.rank).extractLsb' 0 2 = BitVec.ofNat 2 (c.seq % 4)
    then s.setMown c.core c.rank 0 else s
  -- the window keeps its values until the sequencer next serves a strand (R140)
  let s := s.setCtx key { Ctx.reset with
    seq := c.seq, rank := c.rank, v := c.v, wcfg := c.wcfg, bad := c.bad.filter (128 ≤ ·.1), tw := c.tw.filter (128 ≤ ·.1) }
  -- a destination that exits while its line is armed counts as raised (R274, log 84)
  let drop (e : Nat × Option Perch) : Nat × Option Perch :=
    (e.1, e.2.map fun p => { p with
      waiters := p.waiters.filter (· ≠ key)
      dests := if c.resident || p.rank ≠ c.rank then p.dests
        else p.dests.map fun d => if d.party.toNat = c.party then { d with raised := true } else d })
  let s := { s with perch := s.perch.map drop, releases := Store.set none s.releases key none,
                    host := { s.host with wbWait := Store.set none s.host.wbWait key none } }
  -- an `exit` drops the results of its accesses (R140); any other end cancels them (R133); what its commands start goes on (R271)
  let mine := s.inFlightOf key
  let started (id : Nat) : Bool := match Store.get none s.pend id with
    | some (.event ..) => true
    | _ => false
  let s := (if fail then s.cancel (mine.filter fun id => !started id) else s).orphan key (exitKey c.rank key)
  let waits := if fail then [] else mine.filter fun id => (s.inFlightLines id).isSome
  let s := s.modSeq c.seq fun q => if q.active = some (key % 8) then
      { q with active := none, lastSlot := key % 8, freedAt := s.time.toNat + 1, lastBanks := c.banks, minres := 0 }
    else if q.shadow = some (key % 8) then { q with shadow := none, freedAt := s.time.toNat + 1 } else q
  let s := (List.range 64).foldl (fun s l => s.perchCheck (BitVec.ofNat 6 l)) s
  let s := if c.launch = 0 then s else s.launchLeft c.rank c.launch fail waits
  let r := s.rank c.rank
  if r.st = .ending && (s.strands c.rank).isEmpty then s.due (.rankEndComplete c.rank) else s

/-! ## Chain images and trap frames (R181, R182, R213) -/

/-- Bits of a number at an offset. -/
def put (x : Nat) (lo : Nat) : Nat := x <<< lo

def two (x : Int) (n : Nat) : Nat := (x % (2 ^ n : Int)).toNat

def opf (o : DOp) : Nat :=
  o.op.toNat + put (if o.fmt < 16 then o.fmt else 0) 6 + put o.rm 10 + put (if o.sat then 1 else 0) 12 + put (if o.kill then 1 else 0) 13

def srcCodes (o : DOp) : Nat :=
  (Encode.opnd o.sa).toNat + put (Encode.opnd o.sb).toNat 8 + put (Encode.opnd o.sc).toNat 16

/-- The residual of R166 after the steps run, as RESID: two's complement, 120 fraction bits (R182). After step s it is scaled by
16^(s - δ + 1). -/
def resid (ops : List DOp) (o : DOp) (l : Nat) : Nat :=
  let d := o.lane l
  let n := o.steps l
  if !o.producer || d.cls ≠ 0 || !d.en || d.zero || n = 0 then 0
  else
    let (a, b, c) := o.views ops l
    let z := digitVal 0 d.digits
    let fixed (x : FVal) : Nat := two ((Ex.val (x.scale (4 * ((n : Int) - delay o.op.toNat)))).floor 120) 128
    match o.op.toNat with
    -- (F - Z) × B / 16^CE_B is dyadic
    | 0x06 => fixed (addFin (a.pre (d.ce + b.ce) (n - 1)) (mulFin z (b.v.scale (-4 * b.ce))).negate)
    | 0x07 => fixed (addFin (a.v.scale (-8 * d.ce)) (mulFin z z).negate)
    | op => match stepF op d.ce a b c (n - 1) with
      | .val f => fixed (addFin f z.negate)
      | _ => 0

/-- One lane record of a port's block (R182): the producer's lane, and the lander recorded there. -/
def laneRecord (ops : List DOp) (p : Option DOp) (u : Option DOp) (l : Nat) : List Byte :=
  let d := (p.map fun o => o.lane l).getD DLane.none
  let e := (u.map fun o => o.lane l).getD DLane.none
  let emit := d.digits.length
  let step := (p.map fun o => o.steps l).getD 0
  let lstep := (u.map fun o => min o.age o.last).getD 0
  let zdig : Nat := match d.cls with
    | 0 => (d.digits.zipIdx.map fun x => put (two x.1 5) (5 * x.2)).sum
    | 2 => d.pay.toNat
    | _ => 0
  let res := two (d.digits.foldl (· + ·) 0 % 15) 4
  let valw := two d.ce 12 + put d.cls.toNat 12 + put (if d.neg then 1 else 0) 14
  let ctr := step + put emit 5 + put (min d.taken 15) 9 + put res 13 + put (min lstep 31) 17 + put (if d.en then 1 else 0) 22
    + put (if e.en then 1 else 0) 23 + put (if d.canc then 1 else 0) 24 + put (if e.kdec then 1 else 0) 25
  if p.isNone then List.replicate 64 0
  else
    Decode.leBytes 16 ((p.map fun o => resid ops o l).getD 0) ++ Decode.leBytes 10 zdig ++ Decode.leBytes 2 valw
      ++ Decode.leBytes 4 ctr ++ Decode.leBytes 4 d.a.toNat ++ Decode.leBytes 4 d.b.toNat ++ Decode.leBytes 4 d.c.toNat
      ++ Decode.leBytes 4 e.a.toNat ++ Decode.leBytes 4 e.b.toNat ++ Decode.leBytes 4 e.c.toNat ++ Decode.leBytes 8 0

/-- The lander recorded with a port: a consumer that writes no port, and whose lowest port read is this one (R180). -/
def landerOf (c : Ctx) (k : Nat) : Option DOp :=
  match Store.get none c.ports k with
  | none => none
  | some p =>
    (p.users.filterMap (findOp c.dops)).find? fun u => !u.producer && !u.landed &&
      (List.range k).all fun j => match Store.get none c.ports j with
        | some q => !uses u q.prod
        | none => true

/-- A port's block of the chain image (R181). -/
def portBlock (c : Ctx) (k : Nat) : List Byte :=
  match Store.get none c.ports k with
  | none => List.replicate 1040 0
  | some p =>
    let pr := findOp c.dops p.prod
    let la := landerOf c k
    let run := (pr.map fun o => !o.stepped).getD false
    let h := 1 + put (if run then 1 else 0) 1 + put (if la.isSome then 1 else 0) 2
      + (match pr with
         | some o => put (opf o) 8 + put o.cp 22 + put (srcCodes o) 26 + put (Encode.opnd o.landTo).toNat 50
         | none => 0)
      + (match la with
         | some o => put (opf o) 64 + put o.cp 78 + put (srcCodes o) 82 + put (Encode.opnd o.dst).toNat 106
         | none => 0)
    Decode.leBytes 16 h ++ (List.range 16).flatMap (laneRecord c.dops pr la)

/-- The chain image (R181). -/
def chainImage (c : Ctx) : List Byte :=
  if c.ports.isEmpty then List.replicate 8320 0 else (List.range 8).flatMap (portBlock c)

/-- A queue record of the frame (R213); the lane residues are those that the entry holds. -/
def queueRecord (e : Option QEntry) : List Byte :=
  match e with
  | none => List.replicate 80 0
  | some e =>
    let res := ((List.range 16).map fun l => put (residue (e.words.getD l 0) ^^^ e.badAt l).toNat (32 + 4 * l)).sum
    (List.range 16).flatMap (fun l => Decode.leBytes 4 (e.words.getD l 0).toNat)
      ++ Decode.leBytes 16 (1 + put e.dist 1 + put e.poison.toNat 16 + res)

/-- A loop record (R213). -/
def loopRecord (l : Option Loop) : List Byte :=
  match l with
  | none => List.replicate 16 0
  | some l => Decode.leBytes 4 l.i.toNat ++ Decode.leBytes 4 l.n.toNat ++ Decode.leBytes 8 (l.start.toNat % 2 ^ 52 + put l.len.toNat 52)

/-- The 13,696 bytes of a trap frame (R213). -/
def frameBytes (c : Ctx) (t : TrapInfo) (epc : DWord) (time : DWord) : List Byte :=
  Decode.leBytes 8 epc.toNat ++ [t.cause.setWidth 8, t.kind.setWidth 8, t.lane, if c.sv then 1 else 0]
    ++ Decode.leBytes 4 t.info.toNat ++ Decode.leBytes 8 t.fva.toNat ++ Decode.leBytes 8 time.toNat
    ++ (List.range 6).flatMap (fun k => loopRecord c.loops[k]?)
    ++ [BitVec.ofNat 8 c.loops.length, 0, 0, 0] ++ Decode.leBytes 4 c.wcfg.toNat ++ List.replicate 120 0
    ++ (List.range 64).flatMap (fun k => queueRecord (c.queue (BitVec.ofNat 2 (k / 16)))[k % 16]?)
    ++ chainImage c

/-! ## Taking an exception (R209 to R213, R374) -/

/-- Does a cause go to the supervisor's vector (R209)? SOFTWARE is as its instruction states. -/
def supCause (cause : BitVec 6) : Bool := [0x05, 0x06, 0x11, 0x13].contains cause.toNat

/-- The context as a handler of level lvl starts (R211): ports and queues empty, no loop active, IN set, PC at the vector. -/
def enterHandler (c : Ctx) (lvl : Bool) : Ctx :=
  let rots := c.loops.map (·.rot)
  { c with
    rots := if lvl then c.rots else rots
    rotsSv := if lvl then rots else c.rotsSv
    held := if lvl then c.held else some (c.dops, c.ports)
    heldSv := if lvl then some (c.dops, c.ports) else c.heldSv
    loops := []
    q := []
    ports := []
    dops := []
    sv := lvl || c.sv
    tstat := if lvl then c.tstat ||| 2 else c.tstat ||| 1
    npc := (if lvl then c.tvecSv else c.tvec) &&& ~~~3
    mark := true
    again := 0
    due := none
    pause := false
    past := false
    wait := none
    snap := none }

/-- The frame written at the frame pointer of a level, or the fault that its first faulting byte takes. -/
def State.writeFrame (s : State) (lvl : Bool) (t : TrapInfo) (epc : DWord) : Except TrapInfo State :=
  let fp : DWord := (if lvl then s.c.tfpSv else s.c.tfp) &&& ~~~0xFF
  match s.pieces { s.c with sv := lvl || s.c.sv } .write fp 13696 with
  | .error f => .error f
  | .ok ps => .ok (s.writePieces ps (frameBytes s.c t epc s.time))

/-- The first header from an address on that is no pad word (R229): a pad word sends the fetch to the next line. -/
def State.pastPads : Nat → State → DWord → DWord
  | 0, _, pc => pc
  | fuel + 1, s, pc =>
    match s.check s.c pc 0 4 .fetch false with
    | .error _ => pc
    | .ok loc =>
      if s.numNow loc 4 ≠ 0 then pc
      else
        let page := loc / 65536 * 65536 + 65536
        match s.mem.find? fun c => decide (loc / 64 * 64 + 64 ≤ c.1 ∧ c.1 < page ∧ c.1 % 64 < 4) with
        | some c => pc + BitVec.ofNat 64 (c.1 / 64 * 64 - loc)
        | none => State.pastPads fuel s (pc + BitVec.ofNat 64 (page - loc))

/-- Where execution resumes (R209): the bundle for an exact trap, the next one for a trap after it; a pad word is no bundle (R229). -/
def State.epcOf (s : State) (t : TrapInfo) : DWord :=
  match t.kind.toNat with
  | 1 => s.pastPads 64 s.c.npc
  | _ => s.c.pc

/-- A double trap (R212): to the supervisor vector with INFO bit 31 set; the strand stops if that level is in a handler
or its frame cannot be written. -/
def State.doubleTrap (s : State) (t : TrapInfo) (epc : DWord) : State :=
  let t := { t with info := t.info ||| 0x80000000 }
  if s.c.tstat.getLsbD 1 then { s.endStrand s.cur true with trapped := some t }
  else match s.writeFrame true t epc with
    | .ok s => { s.modC (enterHandler · true) with trapped := some t }
    | .error _ => { s.endStrand s.cur true with trapped := some t }

/-- Is a load of the context in flight (R135)? -/
def Ctx.inFlight (c : Ctx) : Bool := c.q.any fun e => e.2.any fun x => x.ref ≠ 0

/-- Is a memory answer of a context outstanding (R294)? -/
def State.answersDue (s : State) (key : Nat) : Bool :=
  s.pend.any fun e => match e.2 with
    | some (.answerS k _ _) => k = key
    | some (.answerB k _ _) => k = key
    | some (.amo k _ _ _ _ _ _) => k = key
    | some (.casv k _ _ _ _) => k = key
    | some (.vset k _ _ _ _ _) => k = key
    | _ => false

/-- The lines of the frame that a trap writes; none where there is no frame to write. -/
def State.frameLines (s : State) (lvl : Bool) : List Nat :=
  let at_ (lvl : Bool) : Except TrapInfo (List (Nat × Nat)) :=
    s.pieces { s.c with sv := lvl || s.c.sv } .write ((if lvl then s.c.tfpSv else s.c.tfp) &&& ~~~0xFF) 13696
  let lines (ps : List (Nat × Nat)) : List Nat := ps.flatMap fun p => linesOf p.1 p.2
  match at_ lvl, s.c.tstat.getLsbD (if lvl then 1 else 0) with
  | .ok ps, false => lines ps
  | _, _ => if s.c.tstat.getLsbD 1 then [] else match at_ true with
    | .ok ps => lines ps
    | .error _ => []

/-- Must a trap of the running strand wait: for a load or a memory answer of the strand or an M or K operation in flight (R135, R294,
R338), for waiting accesses that its frame writes come after (R188, R191, R193), or for lines of the frame that the host holds
(R41)? -/
def State.trapWaits (s : State) (lvl : Bool) : Bool :=
  s.c.inFlight || !s.c.mops.isEmpty || s.answersDue s.cur || s.behind s.feq s.cur (s.frameLines lvl)
    || !(s.heldLines (s.frameLines lvl)).isEmpty

/-- Taking a trap (R211): the frame at the receiving level's frame pointer, its IN bit, and the handler's vector as the
next bundle. A trap that meets a set IN bit, or a frame that cannot be written, is a double trap. While it must wait the strand
freezes; one that comes after a bundle or a rewind stays due meanwhile. -/
def State.takeTrap (s : State) (t : TrapInfo) (sup : Bool) : State :=
  let lvl := sup || s.c.sv
  if s.trapWaits lvl then
    let s := s.snoop (s.frameLines lvl) []
    if t.kind = 0 then { s with stall := some .freeze, trapped := some t } else s.modC fun c => { c with due := some (t, sup) }
  else
    let s := s.modC (Ctx.settle s.staged)
    let epc := s.epcOf t
    if s.c.tstat.getLsbD (if lvl then 1 else 0) then s.doubleTrap t epc
    else match s.writeFrame lvl t epc with
      | .ok s => { s.modC (enterHandler · lvl) with trapped := some t }
      | .error f => s.doubleTrap { f with kind := t.kind } epc

/-- The trap a meaning takes exactly, at the level its cause names (R209). -/
def State.trap (s : State) (t : TrapInfo) : Out := .next (s.takeTrap t (supCause t.cause))

/-- ILLEGAL or NOT_OWNER at the running slot (R403). -/
def State.illegalTrap (s : State) : TrapInfo := mkTrap 0x01 0xFF (BitVec.ofNat 32 s.slot) 0
def State.illegal (s : State) : Out := s.trap s.illegalTrap
def State.notOwner (s : State) : Out := s.trap (mkTrap 0x04 0xFF (BitVec.ofNat 32 s.slot) 0)

/-- PRIV of an instruction: its slot and OP (R403). -/
def State.priv (s : State) (op : Nat) : Out :=
  s.trap (mkTrap 0x05 0xFF (BitVec.ofNat 32 (0x8000 + 256 * s.slot + op)) 0)

/-- WORLD of an object: its class and number (R403). -/
def State.worldTrap (s : State) (cls num : Nat) : Out :=
  s.trap (mkTrap 0x06 0xFF (BitVec.ofNat 32 (2 ^ 24 * cls + num)) 0)

/-- The bundle does not issue this cycle (R136). -/
def State.stalled (s : State) (k : Stall) : Out := .next { s with stall := some k }

/-! ## Rewind (R218 to R222) -/

/-- The operations in flight of the running strand that were issued after its rewind point are cancelled, without any landing
(R219). -/
def State.cancelAfter (s : State) : State :=
  let n := s.c.point
  { s.cancel ((s.inFlightOf s.cur).filter fun id => decide (n ≤ id)) with
    c := { s.c with mops := s.c.mops.filter fun o => o.ref < n } }

/-- The rewind point set at a bundle (R218); n numbers the next operation. -/
def Ctx.snapshot (c : Ctx) (n : Nat) : Ctx :=
  { c with
    snap := some ⟨c.toRegs, c.bad.filter fun e => e.1 < 128, c.tw.filter fun e => e.1 < 128⟩
    point := n, rewinds := 0, since := 0, mark := false }

/-- The registers of a snapshot restored; the vector window, with its residues, stays (R218). -/
def Ctx.restore (c : Ctx) (r : Snap) : Ctx :=
  { c with
    toRegs := r.toRegs
    bad := r.sbad ++ c.bad.filter fun e => 128 ≤ e.1
    tw := r.stw ++ c.tw.filter fun e => 128 ≤ e.1 }

/-- A rewind starts (R219): the snapshot is restored and the rewind-point bundle issues again; the fourth to one point
traps with REWIND_LIMIT after the restore (R222). Partners of a group are told (R221). Where an effect has performed since, the point
is the bundle that is next (R220). -/
def State.rewindFrom (s : State) (src : BitVec 3) : State :=
  let s := { s with prot := { s.prot with rw := s.prot.rw + 1 } }
  let s := if s.c.mark then s.modC (Ctx.snapshot · s.nextRef) else s
  match s.c.snap with
  | none => { s.modC fun c => { c with npc := c.pc } with stall := some .rewind }
  | some r =>
    let n := s.c.rewinds + 1
    let mine := s.c.party
    -- a rewind while an earlier one's bundles are still to issue again keeps the larger count
    let d := if s.c.again = 0 then s.c.since + 1 else max (s.c.since + 1) (s.c.again + s.c.since)
    let mates (x : Ctx) : Bool := (s.rank s.c.rank).groups.any fun g => match g.2 with
      | some gr => gr.members.contains mine && gr.members.contains x.party
      | none => false
    let s := { s with ctxs := s.ctxs.map fun (e : Nat × Ctx) =>
      if e.2.live && e.2.rank = s.c.rank && mates e.2 then (e.1, { e.2 with told := e.2.told ++ [s.cur] }) else e }
    let s := s.cancelAfter.modC fun c => { c.restore r with
      npc := r.pc, rewinds := n, since := 0, again := d, wait := none, pause := false, fresh := true }
    if n ≤ 3 then { s with stall := some .rewind }
    else
      let t : TrapInfo := ⟨0x11, 2, 0xFF, src.setWidth 32, 0⟩
      { (s.modC fun c => { c with rewinds := 0 }).takeTrap t true with stall := some .rewind }

/-- The residue of a scalar that is used as an address or stored (R217). -/
def Ctx.sBad (c : Ctx) (i : BitVec 6) : Bool :=
  i ≠ 0 && (Store.get 0 c.bad (2 * i.toNat) ≠ 0 || Store.get 0 c.bad (2 * i.toNat + 1) ≠ 0)

/-- A meaning behind the residue check of its scalars (R217): a disagreement starts a rewind. -/
def State.checked (s : State) (ss : List (BitVec 6)) (k : State → Out) : Out :=
  if ss.any s.rd.sBad then .next (s.rewindFrom 1) else k s

end Sys2Proof.Machine
end

