-- ==== Sys2Proof/Machine/Operands.lean ====
section
/-!
DEFINITION. Operands.lean: the operand forms of R124, R135, R151, R155, R156 and R237, and the registers an instruction
names.
-/
namespace Sys2Proof.Machine

/-! ## Formats at issue (R155, R156) -/

/-- A slot's format at issue: code, extra value, and the Scruple slot whose scale applies. -/
structure Resolved where
  fmt : Nat
  xv : BitVec 9
  scale : Option (BitVec 4)
  deriving DecidableEq, Repr

/-- The format-table entry that FMT 14 selects (R156). -/
def Ctx.ftIndex (c : Ctx) : BitVec 6 :=
  match c.loops[c.ftLevel.toNat]? with
  | some l => if c.ftLevel.toNat < 6 then c.ftBase + l.i.setWidth 6 else c.ftBase
  | none => c.ftBase

/-- The format table that the slots of the running bundle read: a write of its own bundle is not yet in it (R157). -/
def State.fmtTable (s : State) : Store DWord := s.oldFmt.getD (s.rank s.rd.rank).fmt

/-- FMT as the slot uses it; none where the selected entry is illegal (R155). -/
def State.resolve (s : State) (fmt : BitVec 4) : Option Resolved :=
  if fmt ≠ 14 then some ⟨fmt.toNat, s.rd.xv, none⟩
  else
    let e := Store.get 0 s.fmtTable s.rd.ftIndex.toNat
    let f := (e.extractLsb' 0 4).toNat
    if 14 ≤ f ∨ e.extractLsb' 25 39 ≠ 0 ∨ e.extractLsb' 13 3 ≠ 0 ∨ e.extractLsb' 4 4 ≠ 0 then none
    else some ⟨f, e.extractLsb' 16 9, if e.getLsbD 12 then some (e.extractLsb' 8 4) else none⟩

/-! ## Source operands -/

/-- What reading an operand gives: sixteen words with how their residues differ from them, or why the bundle does not issue. -/
inductive Src where
  | ok (ws : List Word) (bad : List (BitVec 4))
  | illegal
  | freeze
  | poison (lanes : BitVec 16) (bad : List (BitVec 4))
  deriving DecidableEq, Repr

/-- Does a residue of a list disagree with its word? -/
def anyBad (bad : List (BitVec 4)) : Bool := bad.any (· ≠ 0)

/-- The word that a literal forms in a format (R237); none where it is ILLEGAL. -/
def literal (f : Nat) (w : BitVec 16) : Option Word :=
  match f with
  | 0 => some (w.setWidth 32 <<< 16)
  | 1 | 2 => some (w.setWidth 32)
  | 3 | 4 => if w.extractLsb' 8 8 = 0 then some (w.setWidth 32) else none
  | 5 => if w.extractLsb' 4 12 = 0 then some (w.setWidth 32) else none
  | 8 | 10 | 11 => some (w.signExtend 32)
  | 9 | 12 | 13 => some (w.setWidth 32)
  | _ => none

/-- The lane number as a format's integer or value (R237); FP4 and E5M2 do not represent all sixteen (log 8, log 68). -/
def laneWord (f l : Nat) : Word :=
  if f = 5 then
    let r := roundTo 5 0 false false false 0 (.val (.ofInt l 0))
    if r.2 = 0 then r.1 else (Config.fp4Lane l).setWidth 32
  else if f ≤ 4 then (roundTo f 0 false false false 0 (.val (.ofInt l 0))).1
  else BitVec.ofNat 32 l

/-- The window entries, by lane, that a register operand names; none where vk lies at or beyond WIN (R124). -/
def Ctx.entries (c : Ctx) (o : Opnd) : Option (List Nat) :=
  match o with
  | .v k => if k.toNat < c.win then some (List.replicate 16 (c.entry k.toNat)) else none
  | .uni i => some (List.replicate 16 ((c.rs (8 + i.setWidth 6)).toNat % 2 ^ 32 % c.win))
  | .ind i => some ((List.range 16).map fun l => (c.rv (c.entry (216 + i.toNat)) l).toNat % c.win)
  | _ => none

/-- Is the oldest entry of a queue poppable by the bundle that issues (R134)? -/
def QEntry.ripe (e : QEntry) : Bool := decide (e.dist ≤ 1)

/-- A source operand's words (R124, R135, R237). -/
def Ctx.source (c : Ctx) (f : Nat) (o : Opnd) : Src :=
  match o with
  | .v _ | .uni _ | .ind _ =>
    match c.entries o with
    | none => .illegal
    | some es => .ok (es.zipIdx.map fun x => c.rv x.1 x.2) (es.zipIdx.map fun x => c.rvBad x.1 x.2)
  | .queue q =>
    match c.queue q with
    | [] => .illegal
    | e :: _ =>
      if !e.ripe then .illegal
      else if e.ref ≠ 0 then .freeze
      else if e.poison ≠ 0 then .poison e.poison ((List.range 16).map e.badAt)
      else .ok e.words ((List.range 16).map e.badAt)
  | .lane => .ok ((List.range 16).map (laneWord f)) (List.replicate 16 0)
  | .imm w => match literal f w with
    | some x => .ok (List.replicate 16 x) (List.replicate 16 0)
    | none => .illegal
  | .pred p => .ok ((List.range 16).map fun l => if (c.rp p).getLsbD l then 1 else 0) (List.replicate 16 0)
  | .zero | .none | .port _ => .ok (List.replicate 16 0) (List.replicate 16 0)

/-- POISON with its lanes (R403); FVA is 0. -/
def State.poisonTrap (s : State) (m : BitVec 16) : Out :=
  s.trap ⟨0x0C, 0, BitVec.ofNat 8 (((List.range 16).find? m.getLsbD).getD 0), m.setWidth 32, 0⟩

/-- A meaning behind the read of one operand. -/
def State.read (s : State) (f : Nat) (o : Opnd) (k : List Word → List (BitVec 4) → Out) : Out :=
  match s.rd.source f o with
  | .ok ws bad => k ws bad
  | .illegal => s.illegal
  | .freeze => s.stalled .freeze
  | .poison m _ => s.poisonTrap m

/-- A meaning behind the read, at its issue, of a block in memory whose pieces these are (R270, R273, R353, R375, R379): the strand is
held while the read must wait, and takes POISON where a word of it is marked (R216). -/
def State.reading (s : State) (ps : List (Nat × Nat)) (k : State → Out) : Out :=
  if s.readWaits (ps.flatMap fun p => linesOf p.1 p.2) then s.stalled .hold
  else if ps.any fun p => (List.range (p.2 / 8 + 1)).any fun i => decide (8 * i < p.2) && s.marked (p.1 + 8 * i) then s.poisonTrap 1
  else k s

/-! ## The scalars and predicates an instruction names -/

/-- A pair of scalars from p up. -/
def up (p : BitVec 6) (n : Nat) : List Nat := (List.range n).map (p.toNat + ·)

def opndScalars : Opnd → List Nat
  | .uni i => [8 + i.toNat]
  | _ => []

/-- The scalars an instruction reads. -/
def srcScalars (i : Instr) : List Nat :=
  match i with
  | .ret _ k | .jmpi _ k | .loop _ k _ _ _ | .launch _ k | .launchAfter _ k | .parm _ k | .waitt _ k | .ttload _ k
  | .swapctx _ k => [k.toNat]
  | .waitv _ a b | .waitcSrc _ a b | .waitcLand _ a b => [a.toNat, b.toNat]
  | .spawn _ _ e a n => e.toNat :: up a n.toNat
  | .ld a _ _ _ _ | .vld a _ _ _ | .pf a _ _ _ | .ldfe a _ _ _ | .clrfe a | .ldv a _ _ _ => [a.base.toNat]
  | .vldw a _ _ _ => up a.base 3
  | .st a d _ => [a.base.toNat, d.toNat]
  | .vst a d _ | .stfe a d _ | .redAddF32 a d _ | .redAddBf16 a d _ | .redAddBf16Sr a d _ | .redAddBdx8 a d _
  | .redAddBdx4 a d _ | .redMaxF32 a d _ | .redAddS32 a d _ => a.base.toNat :: opndScalars d
  | .vstCnt a d _ _ => up a.base 2 ++ opndScalars d
  | .vgth b o _ _ _ => b.toNat :: opndScalars o
  | .vsct b _ _ => [b.toNat]
  | .vsetSt b _ d _ => b.toNat :: opndScalars d
  | .casv a v d => [a.base.toNat, v.toNat] ++ opndScalars d
  | .amo a op _ o => a.base.toNat :: (if op = .cas then up o 2 else up o 1)
  | .pstore a _ _ => up a.base 2
  | .arrive c _ _ | .arriveRel c _ _ => [c.toNat]
  | .tlbinvPage a => up a.base 2
  | .tlbinvCtx b => [b.toNat]
  | .add _ a b | .sub _ a b | .mul _ a b | .mulh _ a b _ | .and _ a b | .or _ a b | .xor _ a b | .andn _ a b | .shl _ a b
  | .shr _ a b | .sar _ a b | .rol _ a b | .min _ a b | .max _ a b | .minu _ a b | .maxu _ a b | .cmp _ _ a b
  | .sel _ _ a b | .lea _ a b _ => [a.toNat, b.toNat]
  | .addi _ a _ | .andi _ a _ | .ori _ a _ | .xori _ a _ | .shli _ a _ | .shri _ a _ | .sari _ a _ | .roli _ a _
  | .bfx _ a _ _ _ | .clz _ a | .popc _ a | .cmpi _ _ a _ | .leai _ a _ | .putc _ a => [a.toNat]
  | .bfi d a _ _ => [d.toNat, a.toNat]
  | .mload _ _ o _ _ | .kread _ _ o _ | .kwrite _ _ o _ | .kadd _ _ o _ | .kreadck _ o _ => opndScalars o
  | .mma _ _ _ _ o r c _ => [r.toNat, c.toNat] ++ opndScalars o
  | .mdrain _ _ o _ _ _ _ => opndScalars o
  | .cp p q co _ _ => up p 2 ++ up q 2 ++ [co.toNat]
  | .cp2d p q co _ _ => up p 2 ++ up q 3 ++ [co.toNat]
  | .launchX p | .launchAfterX p | .seed p => [p.toNat]
  | .collAr p co _ | .collRs p co _ | .collAg p co | .collBc p co | .dec _ p co | .histRd _ p co => [p.toNat, co.toNat]
  | .histOn _ p q | .hscale _ p q => [p.toNat, q.toNat]
  | .migrMove p q co | .migrPark p q co | .migrRecall p q co | .migrEnd p q co => [p.toNat, q.toNat, co.toNat]
  | _ => match Decode.dslot? i with
    | some d => [d.sa, d.sb, d.sc, d.dst, d.landTo].flatMap opndScalars
    | none => []

/-- The C slot's predicate. -/
def guardOf? : Instr → Option Guard
  | .br g _ | .braAny g _ _ | .braAll g _ _ | .call g _ | .ret g _ | .jmpi g _ | .loop g _ _ _ _ | .lbrk g _
  | .spawn g _ _ _ _ | .launch g _ | .launchAfter g _ | .exit g | .gjoin g _ _ | .gleave g _ | .gwait g _ | .parm g _
  | .pwait g _ _ | .tfence g | .waitt g _ | .waitv g _ _ | .waitcSrc g _ _ | .waitcLand g _ _ | .mclaim g _ | .mrel g
  | .setft g _ _ | .trap g _ | .svc g _ | .rfi g | .ttload g _ | .swapctx g _ | .halt g | .dbg g _ => some g
  | _ => none

/-- The scalar predicates an instruction reads. -/
def srcPreds (i : Instr) : List Nat :=
  match i with
  | .sel _ c _ _ => [c.toNat]
  | .band _ a b _ | .bor _ a b _ | .bxor _ a b _ | .bandn _ a b _ => [a.toNat, b.toNat]
  | _ => match guardOf? i with
    | some g => [g.bp.toNat]
    | none => []

/-- The queues an instruction pops (R135). -/
def popsOf (i : Instr) : BitVec 4 :=
  let o (x : Opnd) : BitVec 4 := match x with
    | .queue q => BitVec.twoPow 4 q.toNat
    | _ => 0
  match i with
  | .vst _ d _ | .vstCnt _ d _ _ | .stfe _ d _ | .redAddF32 _ d _ | .redAddBf16 _ d _ | .redAddBf16Sr _ d _
  | .redAddBdx8 _ d _ | .redAddBdx4 _ d _ | .redMaxF32 _ d _ | .redAddS32 _ d _ | .vgth _ d _ _ _ | .vsetSt _ _ d _
  | .casv _ _ d => o d
  | .lqadv q => BitVec.twoPow 4 q.toNat
  | i => match Decode.dslot? i with
    | some d => o d.sa ||| o d.sb ||| o d.sc
    | none => 0

/-- The scalars and predicates of a context that wait for a memory answer or for `mchk` (R294, R337). -/
def State.interlocked (s : State) : List Nat × List Nat :=
  let ms := s.c.mops.filterMap fun m => match m.instr with
    | .mchk _ r _ b => some (r.toNat, b.toNat)
    | _ => none
  let ps := s.pend.filterMap fun e => match e.2 with
    | some (.answerS k r _) => if k = s.cur then some (Sum.inl r) else none
    | some (.answerB k b _) => if k = s.cur then some (Sum.inr b) else none
    | some (.amo k _ _ _ _ _ r) => if k = s.cur then some (Sum.inl r) else none
    | some (.casv k r _ _ _) => if k = s.cur then some (Sum.inl r) else none
    | some (.vset k b _ _ _ _) => if k = s.cur then some (Sum.inr b) else none
    | _ => none
  (ms.flatMap (fun m => [m.1, m.1 + 1]) ++ ps.filterMap (fun x => match x with | .inl r => some r | _ => none),
   ms.map (·.2) ++ ps.filterMap (fun x => match x with | .inr b => some b | _ => none))

/-- Does an instruction name a register that is interlocked (R294)? -/
def State.locked (s : State) (i : Instr) : Bool :=
  let (ss, bs) := s.interlocked
  (ss.any fun r => r ≠ 0 && (srcScalars i ++ Decode.dstScalars i).contains r)
    || (bs.any fun b => b ≠ 0 && (srcPreds i ++ Decode.dstPreds i).contains b)

end Sys2Proof.Machine
end

