-- ==== Sys2Proof/Machine/Control.lean ====
section
/-!
DEFINITION. Control.lean: the C-slot instructions of 14 (R261 to R279).
-/
namespace Sys2Proof.Machine

/-- A C slot acts only when its scalar predicate, inverted by BN, is true (R230, R261). -/
def State.guarded (s : State) (g : Guard) (k : State → Out) : Out := if s.rd.rb g.bp != g.bn then k s else .next s

/-! ## Transfers (R262 to R264) -/

/-- A taken transfer: every loop level ends, and the target is the next bundle, after an idle cycle (R263, R264). -/
def State.jump (s : State) (target : DWord) : State :=
  { s.modC fun c => { c with loops := [], npc := target, pause := true } with jumped := true }

/-- A target in 4-byte units from the branching bundle (R262). -/
def State.rel (s : State) (off : BitVec n) : DWord := s.rd.pc + (off.signExtend 64 <<< 2)

/-- `br` (R262). -/
def execBr (g : Guard) (off : BitVec 21) (s : State) : Out := s.guarded g fun s => .next (s.jump (s.rel off))

/-- `bra.any` (R262). -/
def execBraAny (g : Guard) (p : BitVec 4) (off : BitVec 16) (s : State) : Out :=
  s.guarded g fun s => if s.rd.rp p ≠ 0 then .next (s.jump (s.rel off)) else .next s

/-- `bra.all` (R262). -/
def execBraAll (g : Guard) (p : BitVec 4) (off : BitVec 16) (s : State) : Out :=
  s.guarded g fun s => if s.rd.rp p = 0xFFFF then .next (s.jump (s.rel off)) else .next s

/-- `call` (R262, R263): s62 takes the address of the next header. -/
def execCall (g : Guard) (off : BitVec 21) (s : State) : Out :=
  s.guarded g fun s => .next ((s.modC fun c => c.ws 62 s.c.npc).jump (s.rel off))

/-- `ret` and `jmpi` (R262, R263): a target off a 4-byte boundary takes ALIGN. -/
def State.jumpTo (s : State) (k : BitVec 6) : Out :=
  let t := s.rd.rs k
  if t.extractLsb' 0 2 ≠ 0 then s.trap (mkTrap 0x08 0 0 t) else .next (s.jump t)

/-- `ret` (R262). -/
def execRet (g : Guard) (k : BitVec 6) (s : State) : Out := s.guarded g fun s => s.jumpTo k

/-- `jmpi` (R262). -/
def execJmpi (g : Guard) (k : BitVec 6) (s : State) : Out := s.guarded g fun s => s.jumpTo k

/-! ## Hardware loops (R265 to R268) -/

/-- A header word in memory, fetched as code (R92). -/
def State.fetchWord (s : State) (va : DWord) : Except TrapInfo Word :=
  match s.check s.c va 0 4 .fetch false with
  | .ok loc => .ok (BitVec.ofNat 32 (s.numNow loc 4))
  | .error t => .error { t with lane := 0xFF }

/-- Bytes of a bundle by its header's PRESENCE (R229). -/
def sizeOf (w : Word) : Nat := 4 + (((List.range 8).filter w.getLsbD).map Decode.slotSize).sum

/-- The address and size of the n-th bundle from an address on, pad words skipped (R229); `fuel` bounds the pad words. -/
def State.bundleFrom (s : State) : Nat → Nat → DWord → Except TrapInfo (DWord × Nat)
  | 0, _, va => .error (mkTrap 0x01 0xFF (BitVec.ofNat 32 s.slot) va)
  | fuel + 1, n, va =>
    match s.fetchWord va with
    | .error t => .error t
    | .ok w =>
      if w = 0 then State.bundleFrom s fuel n (va + 64 - (va &&& 63))
      else match n with
        | 0 => .ok (va, sizeOf w)
        | n + 1 => State.bundleFrom s fuel n (va + BitVec.ofNat 64 (sizeOf w))

/-- StepOf (R266). -/
def stepOf (rot : BitVec 5) : Nat := ([0, 1, 2, 4] : List Nat).getD (rot.extractLsb' 0 2).toNat 0

/-- AfterIssue at address a (R266), level by level from the innermost. -/
def afterIssue (a : DWord) (c : Ctx) : List Loop → Ctx
  | [] => { c with loops := [] }
  | l :: ls =>
    if a = l.stop then
      let l' := { l with i := l.i + 1 }
      let w := max 1 c.win
      let c := { c.setWrot ((c.wrot % w + w - stepOf l.rot % w) % w) with bound := true }
      if l'.i < l.n then { setStages c l' with loops := l' :: ls, npc := l.start }
      else afterIssue a c ls
    else { c with loops := l :: ls }

/-- What the sequencer applies after a bundle that issues without a taken transfer (R266). Where a level goes on, its stage predicates
are written in the gap after the bundle. -/
def execLoopBoundary (s : State) : Out :=
  let c := afterIssue s.c.pc s.c s.c.loops
  .next { s with c, staged := s.staged || match c.loops with
    | l :: _ => l.stop = s.c.pc
    | [] => false }

/-- The count n of a level (R265): N + S - 1, and N for a loop without stages, as the worked programs count it (log 10). -/
def loopCount (n stages : Nat) : Nat := n + max stages 1 - 1

/-- `loop` (R265). The body is found by reading the headers after the loop bundle; a fetch fault there is taken at the loop
bundle (log 11). A body passed over is none that issues, so that no level ends with it. -/
def execLoop (g : Guard) (k : BitVec 6) (len : BitVec 10) (stages : BitVec 3) (step : BitVec 2) (s : State) : Out :=
  s.guarded g fun s =>
    let n := (s.rd.rs k).extractLsb' 0 32
    let st := stages.toNat
    if s.c.loops.length = 6 then s.illegal
    else if 0xFFFFFFFF < loopCount n.toNat st then s.illegal
    else match s.bundleFrom 4096 0 s.c.npc, s.bundleFrom 4096 (len.toNat - 1) s.c.npc with
      | .error t, _ => s.trap t
      | _, .error t => s.trap t
      | .ok (first, _), .ok (stop, size) =>
        if (match s.c.loops with | l :: _ => decide (l.stop < stop) | [] => false) then s.illegal
        else if n = 0 then .next { s.modC fun c => { c with npc := stop + BitVec.ofNat 64 size } with jumped := true }
        else
          let l : Loop := ⟨0, BitVec.ofNat 32 (loopCount n.toNat st), first, len, stop, (stages ++ step : BitVec 5)⟩
          .next { s.modC fun c => setStages { c with loops := l :: c.loops } l with staged := true }

/-- `lbrk` (R268): levels 0 to K end; the next bundle is the one after the body of level K, two cycles later. -/
def execLbrk (g : Guard) (k : BitVec 3) (s : State) : Out :=
  s.guarded g fun s =>
    match s.c.loops[k.toNat]? with
    | none => s.illegal
    | some l => match s.fetchWord l.stop with
      | .error t => s.trap t
      | .ok w => .next { s.modC fun c =>
          { c with loops := c.loops.drop (k.toNat + 1), npc := l.stop + BitVec.ofNat 64 (sizeOf w), bound := true, pause := true }
          with jumped := true }

/-! ## Strands (R269 to R271) -/

/-- SEQ_ID of a context (R126). -/
def State.seqId (s : State) (c : Ctx) : DWord :=
  let prot := (s.rank c.rank).prot
  BitVec.ofNat 64 (c.seq % 4 + 4 * c.lcore + (if prot then 2 ^ 16 else 0) + (if prot && c.seq % 2 = 1 then 2 ^ 17 else 0))

/-- A new context of a rank (R123, R373). -/
def State.newCtx (s : State) (rank seq lcore win : Nat) : Ctx :=
  let r := s.rank rank
  { Ctx.reset with
    live := true
    seq := seq
    rank := rank
    lcore := lcore
    wcfg := BitVec.ofNat 32 (win * 2 ^ 16)
    win0 := win
    tvecSv := r.arg3
    tfpSv := r.arg4 + BitVec.ofNat 64 (16384 * (4 * lcore + seq % 4))
    mark := true }

/-- Does a sequencer carry a strand in this rank slot, or is it a twin (R103)? -/
def State.busy (s : State) (key : Nat) : Bool :=
  (s.ctx key).live || ((s.rank s.c.rank).prot && key / 8 % 2 = 1)

/-- `spawn` (R269): the new strand stands in its place; its sequencer takes it up as it takes any context (R102, R112, R114). -/
def execSpawn (g : Guard) (k : BitVec 2) (e a : BitVec 6) (n : BitVec 4) (s : State) : Out :=
  s.guarded g fun s =>
    let seq := s.c.seq / 4 * 4 + k.toNat
    let key := 8 * seq + s.cur % 8
    let entry := s.rd.rs e
    if seq = s.c.seq || s.busy key then s.trap (mkTrap 0x03 0xFF (k.setWidth 32) 0)
    else if entry.extractLsb' 0 2 ≠ 0 then s.trap (mkTrap 0x08 0 0 entry)
    else
      let c := s.newCtx s.c.rank seq s.c.lcore s.rd.win
      let c := { c with pc := entry, npc := entry, stream := s.c.stream }
      let c := c.ws 1 (s.seqId s.c)
      let c := (List.range n.toNat).foldl (fun c j => c.ws (BitVec.ofNat 6 (16 + j)) (s.rd.rs (BitVec.ofNat 6 (a.toNat + j)))) c
      let s := s.modC fun c => { c with stream := c.stream + 0x100000000, mark := true }
      -- the spawner's accesses happen before those of the new strand
      .next ((s.setCtx key c).after (s.waitsOf s.cur) key)

/-- A launch record, as read (R95). -/
structure Rec where
  entry : DWord
  cx : Nat
  cy : Nat
  cz : Nat
  prio : Nat
  banks : BitVec 8
  core0 : Nat
  win : Nat
  co : DWord
  afterCo : DWord
  afterN : Nat
  stream : DWord
  args : List DWord
  clean : Bool
  deriving DecidableEq, Repr

/-- A little-endian field of a byte list. -/
def field (bs : List Byte) (off n : Nat) : Nat := Decode.leNat ((bs.drop off).take n)

def recOf (bs : List Byte) : Rec where
  entry := BitVec.ofNat 64 (field bs 0 8)
  cx := field bs 8 2
  cy := field bs 10 2
  cz := field bs 12 2
  prio := field bs 14 1
  banks := BitVec.ofNat 8 (field bs 15 1)
  core0 := field bs 16 2
  win := field bs 18 2
  co := BitVec.ofNat 64 (field bs 24 8)
  afterCo := BitVec.ofNat 64 (field bs 32 8)
  afterN := field bs 40 4
  stream := BitVec.ofNat 64 (field bs 48 8)
  args := (List.range 8).map fun i => BitVec.ofNat 64 (field bs (64 + 8 * i) 8)
  clean := field bs 20 4 = 0 && field bs 44 4 = 0 && field bs 56 8 = 0

/-- WIN is 64 to 1,024, a multiple of 64 (R95, R125). -/
def winOk (w : Nat) : Bool := decide (64 ≤ w ∧ w ≤ 1024) && w % 64 = 0

def popByte (b : BitVec 8) : Nat := ((List.range 8).filter b.getLsbD).length

/-- The logical cores on which a launch of n strands runs them (R96). -/
def launchCores (n core0 cores : Nat) : List Nat := (List.range (min n cores)).map fun g => (core0 + g) % max 1 cores

/-- The physical core of a logical core of a rank (R58, R126). -/
def Rank.coreAt (r : Rank) (lcore : Nat) : Nat := 8 * r.place (lcore / 8) + lcore % 8

/-- Would a strand of this launch that sequencer 0 takes hold the matrix engine, which stands at sequencer 0 unless another has claimed
it (R97, R137)? -/
def State.wouldHold (s : State) (rank : Nat) (r : Rec) : Bool :=
  let rk := s.rank rank
  (launchCores (r.cx * r.cy * r.cz) r.core0 (8 * rk.clusters)).any fun l => (s.mownOf (rk.coreAt l) rank).extractLsb' 0 2 = 0

/-- What a timetable refuses in a launch (R97, R110). -/
def State.ttRefuses (s : State) (rank : Nat) (r : Rec) : Bool :=
  let rk := s.rank rank
  match (s.domOf rk.dom.toNat).tt with
  | none => false
  | some t =>
    let b := t.cbank.getD rk.slot 0
    decide (t.cwin.getD rk.slot 0 < r.win) || decide ((b.toNat % 16) < popByte r.banks) || (!b.getLsbD 7 && s.wouldHold rank r)

/-- Why a launch is refused after its record has been read (R97). -/
def State.refuses (s : State) (rank : Nat) (r : Rec) : Bool :=
  let rk := s.rank rank
  !r.clean || decide (3 < r.prio) || !winOk r.win || decide (8 * rk.clusters ≤ r.core0) || decide (2 ^ 24 < r.cx * r.cy * r.cz)
    || s.ttRefuses rank r || decide (256 ≤ rk.queue.length)

/-- The addresses that a launch record names, checked in the order of R94: CO, and AFTER_CO where it is used (R97). -/
def State.launchAddrs (s : State) (c : Ctx) (r : Rec) (after : Bool) : Except TrapInfo (Nat × Nat) :=
  match s.check c r.co 0 8 .read true with
  | .error t => .error t
  | .ok co =>
    if after then match s.check c r.afterCo 0 8 .read true with
      | .error t => .error t
      | .ok ac => .ok (co, ac)
    else .ok (co, 0)

/-- A launch's record, read as a load reads it, with where its objects lie (R97): address faults by R94, then POISON of a marked
word (R210, R216). -/
def State.launchCheck (s : State) (c : Ctx) (va : DWord) (after : Bool) : Except TrapInfo (List Byte × Nat × Nat) :=
  match s.check c va 0 128 .read false with
  | .error t => .error t
  | .ok loc =>
    let bs := s.bytesNow loc 128
    match s.launchAddrs c (recOf bs) after with
    | .error t => .error t
    | .ok (co, ac) =>
      if (List.range 16).any fun i => s.marked (loc + 8 * i) then .error ⟨0x0C, 0, 0, 1, 0⟩ else .ok (bs, co, ac)

/-- A launch whose record has been read: refused with FAIL and both increments, or queued with SRC, or, with no strand, both
increments (R97, R98). -/
def State.queueLaunch (s : State) (rank : Nat) (va : DWord) (after : Bool) (r : Rec) (co ac : Nat) : State :=
  if s.refuses rank r then s.signal (some co) 1 1 true
  else
    let n := r.cx * r.cy * r.cz
    let s := s.signal (some co) 1 0 false
    if n = 0 then s.signal (some co) 0 1 false
    else
      let (id, s) := s.take
      let l : Launch := ⟨id, r.entry, r.cx, r.cy, r.cz, r.prio, r.banks, r.core0, r.win, va, after, ac, r.afterN, false, r.stream,
        r.args, [], s.time.toNat⟩
      s.modRank rank fun k => { k with queue := k.queue ++ [l], lives := k.lives ++ [⟨id, co, n, false, []⟩] }

/-- The launch record has been read: the launch is queued or refused, and SRC signalled (R97, R98); a launch of a rank that is ending
ends failed (R61). -/
def execLaunchRecordRead (rank : Nat) (va : DWord) (read : LaunchRead) (s : State) : Out :=
  match (s.rank rank).st with
  | .ending | .absent => .next (s.signal (some read.co) 1 1 true)
  | _ => .next (s.queueLaunch rank va read.after (recOf read.record) read.co read.ac)

/-- Is an operation an `mdrain` that is still reading its bank? -/
def MOp.reading (o : MOp) : Bool :=
  match o.instr with
  | .mdrain _ _ (.port _) _ _ _ _ => o.age = 0
  | .mdrain _ _ _ rows _ _ _ => decide (o.age < rows.toNat)
  | _ => false

/-- Has every operation numbered below n that a Scruple snapshot counts passed its counting point (R367)? Any other event counts
none. -/
def State.drainsPast (s : State) (n : Nat) (ev : Instr) : Bool :=
  match ev with
  | .histSnapshot core rank .. =>
    !((s.c :: s.ctxs.map (·.2)).any fun c => c.core = core && c.rank = rank && c.mops.any fun o => o.reading && decide (o.ref < n))
  | _ => true

/-- An event parked with a number, for what it waits for. -/
def State.parkEvent (s : State) (id key : Nat) (ev : Instr) : State :=
  { s with pend := Store.set none s.pend id (some (.event key s.issueRef ev)) }.park id

/-- An event that a command of the running strand starts: at once, or once the accesses po-before it that wait have performed
(R98, R200), and for a snapshot the drains issued before it have read their banks (R367). -/
def State.dueAfter (s : State) (ev : Instr) : State :=
  if s.waitingFor s.cur || !s.drainsPast s.issueRef ev then
    let (id, s) := s.take
    (s.after (s.waitsOf s.cur) (opAgent id)).parkEvent id s.cur ev
  else s.due ev

/-- A signal to the completion object of a command of the running strand, after the strand's accesses that wait (R98, R200). -/
def State.signalAfter (s : State) (co : Option Nat) (src land : Nat) (fail : Bool) : State :=
  match co with
  | none => s
  | some loc => if s.waitingFor s.cur then s.dueAfter (.sharedCacheAccess (.signal loc src land fail)) else s.signal co src land fail

/-- `launch` and its X form: faults are exact at the launching bundle, which is held until the record has been read (R97, R270); what
the launch starts and signals comes after the accesses of the strand that wait (R98, R200). -/
def State.launch (s : State) (r : BitVec 6) (after : Bool) : Out :=
  let va := s.rd.rs r
  s.checked [r] fun s => match s.check s.c va 0 128 .read false with
    | .error t => s.trap t
    | .ok loc =>
      if s.readWaits (linesOf loc 128) then s.stalled .hold
      else match s.launchCheck s.c va after with
        | .error t => s.trap t
        | .ok (bs, co, ac) =>
          .next (((s.modC fun c => { c with mark := true }).depart [lineOf loc] false).dueAfter
            (.launchRecordRead s.c.rank va ⟨after, bs, co, ac⟩))

/-- `launch` (R270). -/
def execLaunch (g : Guard) (r : BitVec 6) (s : State) : Out := s.guarded g fun s => s.launch r false
/-- `launch.after` (R99, R270). -/
def execLaunchAfter (g : Guard) (r : BitVec 6) (s : State) : Out := s.guarded g fun s => s.launch r true

/-! ## Groups and perch lines (R272 to R275) -/

/-- `gjoin` (R275). -/
def execGjoin (g : Guard) (grp line : BitVec 6) (s : State) : Out :=
  s.guarded g fun s =>
    let r := s.rank s.c.rank
    let me := s.c.party
    let mine := r.groups.filter fun e => match e.2 with
      | some x => x.members.contains me
      | none => false
    let bound := r.groups.any fun e => match e.2 with
      | some x => x.line = line && e.1 ≠ grp.toNat
      | none => false
    match Store.get none r.groups grp.toNat with
    | some x =>
      if x.line ≠ line then s.illegal
      else if x.members.contains me then .next s
      else if 16 ≤ mine.length then s.illegal
      else .next ((s.modRank s.c.rank fun r =>
        { r with groups := Store.set none r.groups grp.toNat (some { x with members := x.members ++ [me] }) }).modC
          fun c => { c with mark := true })
    | none =>
      if bound || decide (16 ≤ mine.length) then s.illegal
      else .next ((s.modRank s.c.rank fun r =>
        { r with groups := Store.set none r.groups grp.toNat (some ⟨[me], line⟩) }).modC fun c => { c with mark := true })

/-- `gleave` (R275). -/
def execGleave (g : Guard) (grp : BitVec 6) (s : State) : Out :=
  s.guarded g fun s => .next ((s.leaveGroup s.c.rank grp.toNat s.c.party).modC fun c => { c with mark := true })

/-- A phase header (R272): LINE, SCOPE, the destinations, and whether reserved fields are zero. -/
structure Hdr where
  line : Nat
  scope : Nat
  n : Nat
  dests : List (BitVec 16 × Nat)
  clean : Bool
  deriving DecidableEq, Repr

def hdrOf (bs : List Byte) : Hdr :=
  let n := field bs 2 2
  ⟨field bs 0 1, field bs 1 1, n,
    (List.range n).map fun k => (BitVec.ofNat 16 (field bs (8 + 8 * k + 6) 2), field bs (8 + 8 * k) 6), field bs 4 4 = 0⟩

/-- A PARTY that a header may name (R273). -/
def State.partyOk (s : State) (rank : Nat) (p : BitVec 16) : Bool :=
  if p.getLsbD 15 then
    decide (p.toNat % 2 ^ 15 < 16) && s.world.decoders.getLsbD (p.toNat % 16) = s.secureCluster (s.rank rank).dom.toNat
  else decide (p.toNat / 4 < 8 * (s.rank rank).clusters)

def State.hdrOk (s : State) (rank : Nat) (h : Hdr) : Bool :=
  h.clean && (h.scope = 4 || h.scope = 5) && decide (1 ≤ h.n ∧ h.n ≤ 120 ∧ h.line ≤ 63)
    && decide ((h.dests.map (·.1)).Nodup) && h.dests.all fun d => s.partyOk rank d.1

/-- The members of the group that a rank has bound to a line, each with the group's number. -/
def State.lineMembers (s : State) (rank : Nat) (line : BitVec 6) : List (Nat × Nat) :=
  (s.rank rank).groups.flatMap fun e => match e.2 with
    | some x => if x.line = line then x.members.map fun m => (m, e.1) else []
    | none => []

/-- A line armed for a rank (R273). -/
def State.arm (s : State) (rank : Nat) (va : DWord) (h : Hdr) : State :=
  let line := BitVec.ofNat 6 h.line
  let extra := (s.lineMembers rank line).filter fun m => !h.dests.any fun d => d.1.toNat = m.1
  s.setPerch line (some ⟨rank, va, BitVec.ofNat 3 h.scope,
    h.dests.map (fun d => ⟨d.1, d.2, false, none⟩) ++ extra.map fun m => ⟨BitVec.ofNat 16 m.1, 0, false, some m.2⟩, [], false,
    s.time.toNat⟩)

/-- The strand is held in an unmet wait (R276): its bundle does not issue, and it stands at a pre-emption point (R104). -/
def State.waitFor (s : State) (w : Wait) : Out := .next { s.modC fun c => { c with wait := some w } with stall := some .wait }

/-- `parm` (R273). -/
def execParm (g : Guard) (h : BitVec 6) (s : State) : Out :=
  s.guarded g fun s => s.checked [h] fun s =>
    let va := s.rd.rs h
    match s.check s.c va 0 8 .read false with
    | .error t => s.trap t
    | .ok loc => s.reading [(loc, 8)] fun s =>
      let n := s.numNow (loc + 2) 2
      match s.pieces s.c .read va (8 + 8 * min n 120) with
      | .error t => s.trap t
      | .ok ps => s.reading ps fun s =>
        let hd := hdrOf (s.readPieces ps)
        if !s.hdrOk s.c.rank hd then s.illegal
        else match s.perchOf (BitVec.ofNat 6 hd.line) with
          | none => .next (s.arm s.c.rank va hd)
          | some p =>
            if p.rank ≠ s.c.rank then s.waitFor (.arm (BitVec.ofNat 6 hd.line))
            else if p.hdr = va then .next s
            else s.illegal

/-- How a released wait retires (R274): its status, and the trap after it (R209, R224). -/
def State.retireWait (s : State) (line : BitVec 6) (b : BitVec 4) (how : Released) : Out :=
  let s := { s.modC fun c => { c.wb b (how = .clean) with wait := none } with releases := Store.set none s.releases s.cur none }
  match how with
  | .clean => .next s
  | .overran => .next (s.takeTrap ⟨0x12, 1, 0xFF, line.setWidth 32, 0⟩ false)
  | .stall => .next (s.takeTrap ⟨0x13, 1, 0xFF, line.setWidth 32, 0⟩ true)

/-- A wait on a line that the strand's rank has armed: the strand raises its part, and waits for the release (R274). -/
def State.perchWait (s : State) (line : BitVec 6) (b : BitVec 4) (p : Perch) : Out :=
  let me := s.c.party
  let s := s.setPerch line (some { p with
    dests := p.dests.map fun d => if d.party.toNat = me then { d with raised := true } else d
    waiters := if p.waiters.contains s.cur then p.waiters else p.waiters ++ [s.cur] })
  let s := if p.held then s else s.perchCheck line
  match Store.get none s.releases s.cur with
  | some how => s.retireWait line b how
  | none => s.waitFor (.perch line)

/-- `pwait` (R274). -/
def execPwait (g : Guard) (line : BitVec 6) (b : BitVec 4) (s : State) : Out :=
  s.guarded g fun s =>
    match Store.get none s.releases s.cur with
    | some how => s.retireWait line b how
    | none => match s.perchOf line with
      | some p => if p.rank = s.c.rank then s.perchWait line b p else .next (s.modC fun c => c.wb b true)
      | none => .next (s.modC fun c => c.wb b true)

/-- `gwait` (R275): a barrier of the group's members. -/
def execGwait (g : Guard) (grp : BitVec 6) (s : State) : Out :=
  s.guarded g fun s =>
    match Store.get none (s.rank s.c.rank).groups grp.toNat with
    | none => s.illegal
    | some x =>
      if !x.members.contains s.c.party then s.illegal
      else match Store.get none s.releases s.cur with
        | some how => s.retireWait x.line 0 how
        -- its arrival is a release arrival at chip scope (R206), behind the accesses po-before it, not those of its own bundle (R187)
        | none => if (s.waitsOf s.cur).any (· < s.issueRef) then s.stalled .hold else match s.perchOf x.line with
          | none =>
            s.perchWait x.line 0
              ⟨s.c.rank, 0, 4, x.members.map fun m => ⟨BitVec.ofNat 16 m, 0, false, some grp.toNat⟩, [], false, s.time.toNat⟩
          | some p => if p.rank = s.c.rank then s.perchWait x.line 0 p else s.waitFor (.arm x.line)

/-! ## Waits (R276) -/

/-- `waitt` (R276). -/
def execWaitt (g : Guard) (t : BitVec 6) (s : State) : Out :=
  s.guarded g fun s => if s.rd.rs t ≤ s.time then .next (s.modC fun c => { c with wait := none }) else s.waitFor (.time (s.rd.rs t))

/-- `waitv` (R276): at its issue it reads the version at the line's slice, with the line's open entries applied (R204, R305). -/
def execWaitv (g : Guard) (a v : BitVec 6) (s : State) : Out :=
  s.guarded g fun s => s.checked [a] fun s =>
    match s.check s.c (s.rd.rs a) 0 1 .read true with
    | .error t => s.trap t
    | .ok loc =>
      let want := (s.rd.rs v).extractLsb' 0 48
      if s.behind s.feq s.cur [lineOf loc] then s.stalled .hold
      else
        let s := s.flush [lineOf loc]
        if s.version (lineOf loc) ≠ want then .next (s.modC fun c => { c with wait := none })
        else s.waitFor (.version (lineOf loc) want)

/-- `waitc.src` (R276). -/
def execWaitcSrc (g : Guard) (k n : BitVec 6) (s : State) : Out :=
  s.guarded g fun s => s.checked [k] fun s =>
    match s.check s.c (s.rd.rs k) 0 8 .read true with
    | .error t => s.trap t
    | .ok loc => s.reading [(loc, 8)] fun s =>
      let want := (s.rd.rs n).extractLsb' 0 32
      if want ≤ srcOf (BitVec.ofNat 64 (s.numNow loc 8)) then .next (s.modC fun c => { c with wait := none })
      else s.waitFor (.src loc want)

/-- `waitc.land` (R276). -/
def execWaitcLand (g : Guard) (k n : BitVec 6) (s : State) : Out :=
  s.guarded g fun s => s.checked [k] fun s =>
    match s.check s.c (s.rd.rs k) 0 8 .read true with
    | .error t => s.trap t
    | .ok loc => s.reading [(loc, 8)] fun s =>
      let want := (s.rd.rs n).extractLsb' 0 31
      if want ≤ landOf (BitVec.ofNat 64 (s.numNow loc 8)) then .next (s.modC fun c => { c with wait := none })
      else s.waitFor (.land loc want)

/-- Does a wait's condition hold (R276)? -/
def State.waitMet (s : State) (key : Nat) (c : Ctx) (w : Wait) : Bool :=
  match w with
  -- in the cycle after device time reaches it
  | .time t => decide (t < s.time)
  | .version l v => s.version l ≠ v
  | .src o n => n ≤ srcOf (BitVec.ofNat 64 (s.numNow o 8))
  | .land o n => n ≤ landOf (BitVec.ofNat 64 (s.numNow o 8))
  | .perch l => (Store.get none s.releases key).isSome || (match s.perchOf l with | some p => p.rank ≠ c.rank | none => true)
  | .arm l => match s.perchOf l with
    | some p => p.rank = c.rank
    | none => true
  | .swap => true

/-- The condition of the wait in which the strand of a sequencer is held is found to hold: the wait ends, and its bundle
issues afresh (R276, R104). -/
def execWaitConditionMet (seq : Nat) (s : State) : Out :=
  match (s.seqOf seq).active with
  | none => .next s
  | some sl =>
    let key := 8 * seq + sl
    let c := s.ctx key
    match c.wait with
    | none => .next s
    | some w => if s.waitMet key c w then .next (s.modCtx key fun c => { c with wait := none }) else .next s

/-! ## Flag fence, engine claim, format selection (R277 to R279) -/

/-- Has every earlier drain converted its last element (R215)? -/
def Ctx.drainsDone (c : Ctx) : Bool := c.mops.all fun m => match m.instr with
  | .mdrain .. => false
  | _ => true

/-- `tfence` (R215, R277). -/
def execTfence (g : Guard) (s : State) : Out :=
  s.guarded g fun s =>
    if !s.rd.digitsDone || !s.rd.drainsDone then s.stalled .fence
    else
      let raised := s.rd.asticky.extractLsb' 0 5 &&& s.rd.asticky.extractLsb' 8 5
      if raised = 0 then .next s else .next (s.takeTrap ⟨0x10, 1, 0xFF, raised.setWidth 32, 0⟩ false)

/-- The strand of this rank on sequencer j of this core. -/
def State.sibling (s : State) (j : Nat) : Ctx := s.ctx (8 * (s.c.seq / 4 * 4 + j) + s.cur % 8)

/-- Has another sequencer of this core an M or K operation of this rank in flight: the former owner, which `mrel` does not wait for
(R278)? -/
def State.formerBusy (s : State) : Bool :=
  (List.range 4).any fun j => j ≠ s.c.seq % 4 && !(s.sibling j).mops.isEmpty

/-- `mclaim` (R278, R137). -/
def execMclaim (g : Guard) (b : BitVec 4) (s : State) : Out :=
  s.guarded g fun s =>
    let k := BitVec.ofNat 2 (s.c.seq % 4)
    let m := s.mownOf s.c.core s.c.rank
    if (s.rank s.c.rank).prot && s.c.seq % 2 = 1 then s.notOwner
    else if m = (1#1 ++ k : BitVec 3) then .next (s.modC fun c => c.wb b true)
    else if m.extractLsb' 0 2 = k || !m.getLsbD 2 then
      if s.formerBusy then s.stalled .hold
      else .next ((s.setMown s.c.core s.c.rank (1#1 ++ k : BitVec 3)).modC fun c => c.wb b true)
    else .next (s.modC fun c => c.wb b false)

/-- `mrel` (R278). -/
def execMrel (g : Guard) (s : State) : Out :=
  s.guarded g fun s =>
    if (s.mownOf s.c.core s.c.rank).extractLsb' 0 2 ≠ BitVec.ofNat 2 (s.c.seq % 4) then s.notOwner
    else .next (s.setMown s.c.core s.c.rank 0)

/-- `setft` (R279): from the next bundle on. -/
def execSetft (g : Guard) (base : BitVec 6) (level : BitVec 3) (s : State) : Out :=
  s.guarded g fun s => .next (s.modC fun c => { c with ftBase := base, ftLevel := level })

end Sys2Proof.Machine
end

