-- ==== Sys2Proof/Machine/Scruple.lean ====
section
/-!
DEFINITION. Scruple.lean: the Scruple unit (R366 to R368) and what every X slot shares (R351 to R353).
-/
namespace Sys2Proof.Machine

/-! ## The X slot (R351 to R353) -/

/-- An X slot behind the checks of its completion object: none for s0 (R351, R352). -/
def State.command (s : State) (co : BitVec 6) (k : State → Option Nat → Out) : Out :=
  let s' := s.modC fun c => { c with mark := true }
  if co = 0 then k s' none
  else match s.check s.c (s.rd.rs co) 0 8 .write true with
    | .error t => s.trap t
    | .ok loc => k s' (some loc)

/-- ALIGN of a value that is not a multiple of n; none is a failure (R353). -/
def State.aligned (s : State) (n : Nat) (va : DWord) (k : Unit → Out) : Out :=
  if va.toNat % n ≠ 0 then s.trap (mkTrap 0x08 0 0 va) else k ()

/-! ## Counting (R366) -/

/-- The bin of a value; none for a NaN. -/
def histBin (ebase : Int) (v : FVal) : Option Nat :=
  match v with
  | .nan _ _ => none
  | .inf _ => some 31
  | v => if v.isZero then some 0
    else some (min 31 (max 1 (((Ex.val v).log2 - ebase + 1).toNat)))

/-- A 32-bit counter, saturating. -/
def bump32 (w : Word) : Word := if w = 0xFFFFFFFF then w else w + 1

def Scruple.count (x : Scruple) (w : Word) : Scruple :=
  match histBin x.ebase.toInt (decodeF 0 false 0 w).v with
  | none => x
  | some b => { x with counts := Store.set 0 x.counts b (bump32 (Store.get 0 x.counts b)), total := bump32 x.total }

/-- Words counted in every slot of a core that is on and selects them. -/
def State.histCount (s : State) (core rank : Nat) (sel : Scruple → Bool) (ws : List Word) : State :=
  (List.range 16).foldl (fun s t =>
    let x := s.scr core rank t
    if x.on && sel x then s.setScr core rank t (ws.foldl Scruple.count x) else s) s

/-- The words that a `vst` or `vst.cnt` of the running sequencer stores (R366). -/
def State.histStore (s : State) (ws : List Word) : State :=
  if s.scruple.isEmpty then s else s.histCount s.c.core s.c.rank (fun x => x.vst && x.owner = s.c.seq % 4) ws

/-- The slots that count an `mdrain` of the running strand from a bank: those that are on at its issue, for `hist.on` and
`hist.off` take effect for instructions in later bundles (R366). -/
def State.histSlots (s : State) (bank : BitVec 3) : List (Nat × Nat) :=
  if s.scruple.isEmpty then []
  else (List.range 16).filterMap fun t =>
    let x := s.scr s.rd.core s.rd.rank t
    if x.on && x.drain && x.bank = bank then some (t, x.gen) else none

/-- The elements that an `mdrain` reads, counted in its slots (R366); a slot that a later `hist.on` cleared counts it no more. -/
def State.histDrain (s : State) (slots : List (Nat × Nat)) (ws : List Word) : State :=
  slots.foldl (fun s t =>
    let x := s.scr s.c.core s.c.rank t.1
    if x.gen = t.2 then s.setScr s.c.core s.c.rank t.1 (ws.foldl Scruple.count x) else s) s

/-! ## The commands (R366 to R368) -/

/-- `hist.on` (R366). -/
def execHistOn (t : BitVec 4) (p q : BitVec 6) (s : State) : Out :=
  let w := s.rd.rs p
  let e := (s.rd.rs q).toInt
  s.checked [p, q] fun s =>
    if w &&& ~~~0x8F ≠ 0 || decide (e < -160 ∨ 127 < e) then s.illegal
    else
    let x := s.scr s.c.core s.c.rank t.toNat
    .next ((s.setScr s.c.core s.c.rank t.toNat
      ⟨s.c.seq % 4, [], 0, BitVec.ofInt 16 e, true, w.getLsbD 3, w.getLsbD 7, w.extractLsb' 0 3, x.scale, x.gen + 1⟩).modC
        fun c => { c with mark := true })

/-- `hist.off` (R366): the counts stay. -/
def execHistOff (t : BitVec 4) (s : State) : Out :=
  .next ((s.setScr s.c.core s.c.rank t.toNat { s.scr s.c.core s.c.rank t.toNat with on := false }).modC
    fun c => { c with mark := true })

/-- The 256 bytes of a snapshot (R367). -/
def Scruple.image (x : Scruple) : List Byte :=
  (List.range 32).flatMap (fun b => Decode.leBytes 4 (Store.get 0 x.counts b).toNat)
    ++ Decode.leBytes 4 x.total.toNat ++ [x.scale]
    ++ [BitVec.ofNat 8 ((if x.on then 1 else 0) + (if x.drain then 2 else 0) + (if x.vst then 4 else 0))]
    ++ Decode.leBytes 2 x.ebase.toNat ++ [x.bank.setWidth 8] ++ List.replicate 119 0

/-- `hist.rd` (R367): the snapshot is taken once every earlier counted instruction has passed its counting point. The range is checked
by the engine: one that is not device memory ends the operation failed. -/
def execHistRd (t : BitVec 4) (p co : BitVec 6) (s : State) : Out :=
  let va := s.rd.rs p
  s.checked [p, co] fun s => s.aligned 256 va fun _ => s.command co fun s co =>
    match s.check s.c va 0 256 .write false with
    | .error _ => .next (s.signalAfter co 1 1 true)
    | .ok loc =>
      if isDev loc then .next ((s.touch s.c va).dueAfter (.histSnapshot s.c.core s.c.rank t.toNat loc co))
      else .next (s.signalAfter co 1 1 true)

/-- The snapshot and its two write events (R367); the engine's request departs (R82, R113). -/
def execHistSnapshot (core rank slot loc : Nat) (co : Option Nat) (s : State) : Out :=
  let lines := linesOf loc 256
  if !(s.heldLines lines).isEmpty then .next (s.snoop lines [.histSnapshot core rank slot loc co])
  else .next ((((s.signal co 1 0 false).write loc (s.scr core rank slot).image).departOf rank lines true).signal co 0 1 false)

/-- The top exponent of a target format (R368). -/
def topExp (f : Nat) : Int := ([0, 15, 127, 8, 15, 2] : List Int).getD f 0

/-- SCALE as `hscale` chooses it (R368). -/
def Scruple.rescale (x : Scruple) (q : Nat) (f : Nat) : BitVec 8 :=
  let lim := q * x.total.toNat / 65536
  let above (b : Nat) : Nat := ((List.range 32).map fun i => if b < i then (Store.get 0 x.counts i).toNat else 0).sum
  let b := (firstFrom (fun b => decide (above b ≤ lim)) 31 0).getD 31
  if x.total = 0 || b = 0 then 127
  else
    let emax : Int := x.ebase.toInt + (min b 31 : Nat) - 1
    BitVec.ofInt 8 (min 254 (max 0 (127 + topExp f - emax - 1)))

/-- `hscale` (R368). -/
def execHscale (t : BitVec 4) (p q : BitVec 6) (s : State) : Out :=
  let w := s.rd.rs p
  let f := (s.rd.rs q).toNat
  s.checked [p, q] fun s =>
    if w.extractLsb' 16 48 ≠ 0 || decide (f < 1 ∨ 5 < f) then s.illegal
    else
      let x := s.scr s.c.core s.c.rank t.toNat
      .next ((s.setScr s.c.core s.c.rank t.toNat { x with scale := x.rescale (w.extractLsb' 0 16).toNat f }).modC
        fun c => { c with mark := true })

end Sys2Proof.Machine
end

