-- ==== Sys2Proof/Machine/Access.lean ====
section
/-!
DEFINITION. Access.lean: the A-slot instructions of 16 (R291 to R312) and `tlbinv` (R380), and the events by which their
accesses land. An access performs when its bundle commits, or, where it waits on a full/empty bit or behind an earlier access
of its sequencer, once that wait ends (log 2).
-/
namespace Sys2Proof.Machine

/-! ## Addresses and lanes (R291, R292) -/

def State.ea (s : State) (a : Addr) : DWord := s.rd.rs a.base + a.disp.signExtend 64

/-- The lanes of a mask. -/
def lanesOf (m : BitVec 16) : List Nat := (List.range 16).filter m.getLsbD

/-- The enabled lanes of a plain form with their addresses. -/
def laneAddrs (m : BitVec 16) (f : Nat → DWord) : List (Nat × DWord) := (lanesOf m).map fun l => (l, f l)

/-- The lanes that a predicate field enables. -/
def State.enabled (s : State) (m : LaneSel) : BitVec 16 := s.rd.sel m.pred m.inv

/-- Lane l of a contiguous vector: EA + 4l (R292). -/
def wordAt (ea : DWord) (l : Nat) : DWord := ea + BitVec.ofNat 64 (4 * l)

/-- The locations of a list of lane accesses, or the first lane's fault (R94). -/
def State.locate (s : State) (align : Nat) (a : Acc) (ver : Bool) : List (Nat × DWord) → Except TrapInfo (List (Nat × Nat))
  | [] => .ok []
  | (l, ea) :: r => match s.check s.c ea l align a ver with
    | .error t => .error t
    | .ok loc => match State.locate s align a ver r with
      | .error t => .error t
      | .ok m => .ok ((l, loc) :: m)

/-- The TLBs after a list of lane accesses (R91, R93). -/
def State.touchAll (s : State) (l : List (Nat × DWord)) : State := l.foldl (fun s e => s.touch s.c e.2) s

/-- The lines of locations, each once. -/
def linesOfLocs (l : List Nat) : List Nat := (l.map lineOf).eraseDups

/-! ## Which accesses may perform (R131, R132) -/

/-- Is a line full, or one without a full/empty bit, or one of those that a fill has released (R132, R133)? -/
def State.open_ (s : State) (freed : List Nat) (line : Nat) : Bool := !isCs (128 * line) || s.isFull line || freed.contains line

/-- May an access in flight, or the read of a copy, perform: nothing ahead of it, its full/empty bits as it needs them, the lines
`freed` taken as full (R132, R133, R356), and for a reduction its slot come (R82)? A `stfe` is a release: every earlier access of its
strand goes before it (R196, R300). -/
def State.readyBut (s : State) (freed : List Nat) (id : Nat) : Bool :=
  match s.inFlightLines id with
  | none => !s.opWaits id && match s.copies.find? fun c => c.id = id with
    | some c => c.segs.all fun g => (linesOf g.1 g.2.2).all (s.open_ freed)
    | none => true
  | some (k, ls) =>
    let ahead := s.feq.takeWhile (· ≠ id)
    !s.behind ahead k ls && match Store.get none s.pend id with
      | some (.store _ ls whileFull _ _) => !(whileFull && (ls.any s.isFull || (s.waitsOf k).any ahead.contains))
      | some (.clrfe ..) => true
      | some (.red _ _ t) => decide (t ≤ s.time.toNat)
      | some (.event _ n ev) => !s.opWaits id && s.drainsPast n ev
      | _ => ls.all (s.open_ freed)

def State.ready (s : State) (id : Nat) : Bool := s.readyBut [] id

/-- The first waiting access whose wait is over is served before anything else (R130, R131, R133); one that waits for the host to give
up a line waits on (R41). -/
def State.served (s : State) : State :=
  let may (id : Nat) : Bool := s.ready id && !(s.writeLines id).any fun l => s.host.biWait.any fun w => w.1 = l
  match s.feq.find? may with
  | some id => s.dueNow (.clusterStoreAccess id)
  | none => s

/-! ## Loads (R134, R293) -/

/-- The entry of a load in a context's queues, changed. -/
def landIn (ref : Nat) (f : QEntry → QEntry) (m : Store (List QEntry)) : Store (List QEntry) :=
  m.map fun (e : Nat × List QEntry) => (e.1, e.2.map fun x => if x.ref = ref then f x else x)

/-- The data of a load: lanes and poison marks. A marked lane of `pf` lands zero (R216). -/
def State.loadData (s : State) (l : Load) : List Word × BitVec 16 :=
  match l.scalar with
  | some (loc, n, signed) =>
    let v : DWord := BitVec.ofNat 64 (s.num loc n)
    let v : DWord := if signed && v.getLsbD (8 * n - 1) then v ||| ~~~(BitVec.ofNat 64 (2 ^ (8 * n) - 1)) else v
    ((List.range 16).map fun i => if i % 2 = 0 then v.extractLsb' 0 32 else v.extractLsb' 32 32,
      if s.marked loc then 0xFFFF else 0)
  | none =>
    let mark (i : Nat) : Bool := match l.lanes.getD i none with
      | some loc => s.marked loc
      | none => false
    ((List.range 16).map fun i => match l.lanes.getD i none with
      | some loc => if l.pf && mark i then 0 else BitVec.ofNat 32 (s.num loc 4)
      | none => 0,
     (List.range 16).foldl (fun m i => if !l.pf && mark i then m ||| BitVec.twoPow 16 i else m) 0)

/-- A load's data lands in its entry, in the context and in its snapshot (R218). `ldv` sets its watch slot with it (R301), in the
snapshot where that holds its entry (log 27); `ldfe` empties its line (R300). An entry that is there no more drops the data
(R140, R312). -/
def State.land (s : State) (id : Nat) (l : Load) : State :=
  let lines := match s.inFlightLines id with
    | some (_, ls) => ls
    | none => []
  let s := s.flush lines
  let s := lines.foldl (fun s x => if isHost (128 * x) && !Store.get false s.host.cachedSet x then s.sliceUse x false else s) s
  let (ws, poison) := s.loadData l
  let put (x : QEntry) : QEntry := { x with ref := 0, words := ws, poison }
  let c := s.ctx l.key
  let landed (r : Regs) : Regs := { r with q := landIn id put r.q }
  let watch (r : Regs) : Regs := match l.watch with
    | some (w, line) => { r with w := Store.set none r.w w.toNat (some ⟨line, s.version line⟩) }
    | none => r
  let back (r : Snap) : Snap :=
    { r with toRegs := if (Store.get [] r.q l.q.toNat).any fun x => x.ref = id then watch (landed r.toRegs) else landed r.toRegs }
  let s := s.setCtx l.key
    { c with toRegs := watch (landed c.toRegs), snap := c.snap.map back, mark := c.mark || (c.live && l.ldfe.isSome) }
  let s := match l.ldfe with
    | some line => { s with full := Store.set false s.full line false }
    | none => s
  { s with loads := Store.set none s.loads id none }

/-- A load lands. The fill that an `ldfe` takes releases the plain loads that wait on its line as well (R133). -/
def State.landed (s : State) (id : Nat) (l : Load) : State :=
  let t := (s.land id l).unpark id
  match l.ldfe with
  | none => t
  | some line => s.feq.foldl (fun t j => match Store.get none t.loads j with
    | some m => if m.ldfe.isNone && m.lines.contains line && t.readyBut [line] j then (t.land j m).unpark j else t
    | none => t) t

/-- A load that must wait joins those that wait; behind a waiting `ldfe`, an acquire, waits what its strand accesses after it (R196,
R300). -/
def State.parkLoad (s : State) (id : Nat) : State :=
  match Store.get none s.loads id with
  | some l => if l.ldfe.isSome then (s.park id).after [id] l.key else s.park id
  | none => s.park id

/-- The data of a load lands, or the load waits on an empty line (R132, R134). -/
def execLoadLanding (id : Nat) (s : State) : Out :=
  match Store.get none s.loads id with
  | none => .next s
  | some l => if s.ready id then .next (s.landed id l) else .next (s.parkLoad id)

/-- A load enters its queue (R134, R135): the 17th entry is ILLEGAL, this bundle's pop counted first. -/
def State.enqueue (s : State) (q : BitVec 2) (dist : Nat) (l : Load) (s' : State) : Out :=
  let n := (s.rd.queue q).length - (if s.pops.getLsbD q.toNat then 1 else 0)
  if 16 ≤ n then s.illegal
  else
    let (id, s') := s'.take
    let s' := s'.modC fun c => c.setQueue q (c.queue q ++ [⟨id, List.replicate 16 0, 0, 0, [], max dist 1⟩])
    let s' := { s' with loads := Store.set none s'.loads id (some l) }
    .next ((s'.due (.loadLanding id)).depart l.lines.eraseDups false)

def blankLoad (key : Nat) (q : BitVec 2) : Load := ⟨key, q, List.replicate 16 none, none, false, none, none⟩

/-- Sixteen lanes' locations from a list of some. -/
def spread (ls : List (Nat × Nat)) : List (Option Nat) :=
  (List.range 16).map fun l => (ls.find? fun e => e.1 = l).map (·.2)

/-- Does a load of this queue have no room (R135)? -/
def State.fullQueue (s : State) (q : BitVec 2) : Bool :=
  decide (16 ≤ (s.rd.queue q).length - (if s.pops.getLsbD q.toNat then 1 else 0))

/-- A vector load of the lanes at these addresses. -/
def State.vload (s : State) (regs : List (BitVec 6)) (q : BitVec 2) (dist align : Nat) (ver : Bool) (l : List (Nat × DWord))
    (f : List (Nat × Nat) → Load → Load) : Out :=
  s.checked regs fun s =>
    if s.fullQueue q then s.illegal
    else match s.locate align .read ver l with
      | .error t => s.trap t
      | .ok ls => s.enqueue q dist (f ls { blankLoad s.cur q with lanes := spread ls }) (s.touchAll l)

/-- `ld` (R296). -/
def execLd (a : Addr) (q : BitVec 2) (land : BitVec 6) (size : BitVec 2) (signed : Bool) (s : State) : Out :=
  let n := 2 ^ size.toNat
  s.vload [a.base] q land.toNat n false [(0, s.ea a)] fun ls l =>
    { l with lanes := List.replicate 16 none, scalar := ls.head?.map fun e => (e.2, n, signed) }

/-- `vld` (R297). -/
def execVld (a : Addr) (q : BitVec 2) (land : BitVec 6) (m : LaneSel) (s : State) : Out :=
  s.vload [a.base] q land.toNat 4 false (laneAddrs (s.enabled m) (wordAt (s.ea a))) fun _ l => l

/-- `pf` (R297): a lane that would fault makes no access and lands zero. -/
def execPf (a : Addr) (q : BitVec 2) (land : BitVec 6) (m : LaneSel) (s : State) : Out :=
  let good := (laneAddrs (s.enabled m) (wordAt (s.ea a))).filter fun e => (s.check s.c e.2 e.1 4 .read false).isOk
  s.vload [a.base] q land.toNat 4 false good fun _ l => { l with pf := true }

/-- `vldw` (R298): lanes outside the plane land zero. -/
def execVldw (a : Addr) (q : BitVec 2) (land : BitVec 6) (m : LaneSel) (s : State) : Out :=
  let g := s.rd.rs (a.base + 1)
  let x0 := (s.rd.rs (a.base + 2)).extractLsb' 0 32
  let y := ((s.rd.rs (a.base + 2)).extractLsb' 32 32).toInt
  let pitch : Int := (g.extractLsb' 48 16).toNat
  let w : Int := (g.extractLsb' 32 16).toNat
  let h : Int := (g.extractLsb' 16 16).toNat
  if g.extractLsb' 0 16 ≠ 0 then s.checked [a.base, a.base + 1, a.base + 2] State.illegal
  else
    let inside := (lanesOf (s.enabled m)).filter fun (l : Nat) =>
      let x := x0.toInt + (l : Int)
      decide (0 ≤ x ∧ x < w ∧ 0 ≤ y ∧ y < h)
    let at_ (l : Nat) : DWord := s.ea a + BitVec.ofInt 64 (4 * (y * pitch + (x0.toInt + (l : Int))))
    s.vload [a.base, a.base + 1, a.base + 2] q land.toNat 4 false (inside.map fun l => (l, at_ l)) fun _ l => l

/-- The index of a lane, from the low bits of its index word (R299). -/
def gatherIndex (g : GIndex) (w : Word) : DWord :=
  match g.width.toNat with
  | 0 => if g.signed then (w.extractLsb' 0 8).signExtend 64 else (w.extractLsb' 0 8).zeroExtend 64
  | 1 => if g.signed then (w.extractLsb' 0 16).signExtend 64 else (w.extractLsb' 0 16).zeroExtend 64
  | _ => if g.signed then w.signExtend 64 else w.zeroExtend 64

/-- The sixteen addresses of a gather form (R299). -/
def gatherAddrs (base : DWord) (g : GIndex) (ix : List Word) : List (Nat × DWord) :=
  (List.range 16).map fun l => (l, base + (gatherIndex g (ix.getD l 0) <<< g.scale.toNat))

/-- `vgth` (R299). -/
def execVgth (base : BitVec 6) (ix : Opnd) (q : BitVec 2) (land : BitVec 4) (g : GIndex) (s : State) : Out :=
  match s.rd.source 9 ix with
  | .illegal => s.checked [base] State.illegal
  | .freeze => s.stalled .freeze
  -- marked index words name no address, so that the base's residue alone, and a full queue, go before POISON (R210)
  | .poison m bad =>
    if anyBad bad then .next (s.rewindFrom 1)
    else s.checked [base] fun s => if s.fullQueue q then s.illegal else s.poisonTrap m
  | .ok ws bad =>
    if anyBad bad then .next (s.rewindFrom 1)
    else s.vload [base] q land.toNat 4 false (gatherAddrs (s.rd.rs base) g ws) fun _ l => l

/-- `ldfe` (R300): the line is checked whatever the predicate. -/
def execLdfe (a : Addr) (q : BitVec 2) (land : BitVec 6) (m : LaneSel) (s : State) : Out :=
  let ea := s.ea a
  s.checked [a.base] fun s =>
    if s.fullQueue q then s.illegal
    else if !inAperture ea.toNat then s.trap (mkTrap 0x08 0 0 ea)
    else match s.check s.c ea 0 64 .read false with
      | .error t => s.trap t
      | .ok loc =>
        let ls := (lanesOf (s.enabled m)).map fun l => (l, loc + 4 * l)
        s.enqueue q land.toNat { blankLoad s.cur q with lanes := spread ls, ldfe := some (lineOf loc) } s

/-- `ldv` (R301): data and version together, into the entry and the watch slot. -/
def execLdv (a : Addr) (q : BitVec 2) (land : BitVec 6) (w : BitVec 3) (s : State) : Out :=
  s.vload [a.base] q land.toNat 64 true [(0, s.ea a)] fun ls l => match ls.head? with
    | some (_, loc) => { l with lanes := (List.range 16).map (fun i => some (loc + 4 * i)), watch := some (w, lineOf loc) }
    | none => l

/-- `lqadv` (R312): the bundle pops the entry, which must be poppable. -/
def execLqadv (q : BitVec 2) (s : State) : Out :=
  match s.rd.queue q with
  | e :: _ => if e.ripe then .next s else s.illegal
  | [] => s.illegal

/-! ## Stores (R295 to R299) -/

/-- A store's lines written, each as one event, and its counted arrival made due (R189, R295, R205). -/
def State.applyStore (s : State) (lines : List Nat) (pieces : List (Nat × List Byte))
    (count : Option (Nat × BitVec 6 × BitVec 16 × Nat)) : State :=
  let s := (s.writeAll pieces).fill lines
  match count with
  | some (rank, line, party, n) => s.due (.countedDecrement rank line party n)
  | none => s

/-- An access of the running strand that must wait. -/
def State.parkNew (s : State) (p : Pending) : State :=
  let (id, s) := s.take
  { s with pend := Store.set none s.pend id (some p) }.park id

/-- A write of the running strand: it waits at its slice for the lines the host holds (R41), behind earlier accesses (R131), or, as
`stfe`, for its line to be empty and for every earlier access of its strand (R300); otherwise it performs. The strand goes on. A
write of no line does nothing. -/
def State.store (s : State) (lines : List Nat) (whileFull : Bool) (pieces : List (Nat × List Byte))
    (count : Option (Nat × BitVec 6 × BitVec 16 × Nat)) : Out :=
  if lines.isEmpty then .next s
  else
    let s := ((s.depart lines true).snoop lines []).modC fun c => { c with mark := true }
    if !(s.heldLines lines).isEmpty || s.behind s.feq s.cur lines || (whileFull && (lines.any s.isFull || s.waitingFor s.cur)) then
      .next (s.parkNew (.store s.cur lines whileFull pieces count))
    else .next (s.applyStore lines pieces count)

/-- A meaning behind its data operand and its addresses: residues first, then the address fault, then poison (R210, R217). -/
def State.withData (s : State) (regs : List (BitVec 6)) (d : Opnd) (m : BitVec 16) (at_ : Except TrapInfo (List (Nat × Nat)))
    (k : List (Nat × Nat) → List Word → Out) : Out :=
  let worst (bad : List (BitVec 4)) : Bool := regs.any s.rd.sBad || (lanesOf m).any fun l => bad.getD l 0 ≠ 0
  match s.rd.source 9 d with
  | .illegal => s.checked regs State.illegal
  | .freeze => s.stalled .freeze
  | .poison p bad =>
    if worst bad then .next (s.rewindFrom 1)
    else match at_ with
      | .error t => s.trap t
      | .ok _ => s.poisonTrap p
  | .ok ws bad =>
    if worst bad then .next (s.rewindFrom 1)
    else match at_ with
      | .error t => s.trap t
      | .ok ls => k ls ws

/-- The words of enabled lanes at their locations. -/
def wordPieces (ls : List (Nat × Nat)) (ws : List Word) : List (Nat × List Byte) :=
  ls.map fun e => (e.2, Decode.leBytes 4 (ws.getD e.1 0).toNat)

/-- The words of enabled lanes stored, and counted in histograms as they are (R297, R366). -/
def State.storeWords (s : State) (ls : List (Nat × Nat)) (ws : List Word) (count : Option (Nat × BitVec 6 × BitVec 16 × Nat)) : Out :=
  (s.histStore (ls.map fun e => ws.getD e.1 0)).store (linesOfLocs (ls.map (·.2))) false (wordPieces ls ws) count

/-- The residue of the word of a scalar that an access of n bytes writes: its low half alone, unless n is 8 (R217). -/
def Ctx.dataBad (c : Ctx) (i : BitVec 6) (n : Nat) : Bool :=
  i ≠ 0 && (Store.get 0 c.bad (2 * i.toNat) ≠ 0 || (n = 8 && Store.get 0 c.bad (2 * i.toNat + 1) ≠ 0))

/-- `st` (R296). -/
def execSt (a : Addr) (d : BitVec 6) (size : BitVec 2) (s : State) : Out :=
  let n := 2 ^ size.toNat
  if s.rd.sBad a.base || s.rd.dataBad d n then .next (s.rewindFrom 1)
  else match s.check s.c (s.ea a) 0 n .write false with
    | .error t => s.trap t
    | .ok loc => (s.touch s.c (s.ea a)).store [lineOf loc] false [(loc, Decode.leBytes n (s.rd.rs d).toNat)] none

/-- `vst` (R297). -/
def execVst (a : Addr) (d : Opnd) (m : LaneSel) (s : State) : Out :=
  let l := laneAddrs (s.enabled m) (wordAt (s.ea a))
  s.withData [a.base] d (s.enabled m) (s.locate 4 .write false l) fun ls ws =>
    (s.touchAll l).storeWords ls ws none

/-- `vst.cnt` (R297, R311): 4 bytes counted for each enabled lane. -/
def execVstCnt (a : Addr) (d : Opnd) (line : BitVec 6) (m : LaneSel) (s : State) : Out :=
  let w := s.rd.rs (a.base + 1)
  let l := laneAddrs (s.enabled m) (wordAt (s.ea a))
  s.withData [a.base, a.base + 1] d (s.enabled m)
    (if w.extractLsb' 0 48 ≠ 0 then .error s.illegalTrap else s.locate 4 .write false l)
    fun ls ws => (s.touchAll l).storeWords ls ws (some (s.c.rank, line, w.extractLsb' 48 16, 4 * ls.length))

/-- `vsct` (R299): lane l's data is lane l of v(k + 1); the higher lane's data stands where two name one word. -/
def execVsct (base : BitVec 6) (ix : BitVec 8) (g : GIndex) (s : State) : Out :=
  match s.rd.source 9 (.v ix) with
  | .ok xs bad =>
    let l := gatherAddrs (s.rd.rs base) g xs
    if anyBad bad then .next (s.rewindFrom 1)
    else s.withData [base] (.v (ix + 1)) 0xFFFF (s.locate 4 .write false l) fun ls ws =>
      (s.touchAll l).store (linesOfLocs (ls.map (·.2))) false (wordPieces ls ws) none
  | _ => s.checked [base] State.illegal

/-! ## Full/empty (R300) -/

/-- `stfe`: waits while the line is full, then writes and fills it. -/
def execStfe (a : Addr) (d : Opnd) (m : LaneSel) (s : State) : Out :=
  let ea := s.ea a
  let line : Except TrapInfo Nat :=
    if !inAperture ea.toNat then .error (mkTrap 0x08 0 0 ea) else s.check s.c ea 0 64 .write false
  let at_ : Except TrapInfo (List (Nat × Nat)) := match line with
    | .error t => .error t
    | .ok loc => .ok ((0, loc) :: (lanesOf (s.enabled m)).map fun l => (l, loc + 4 * l))
  s.withData [a.base] d (s.enabled m) at_ fun ls ws =>
    s.store ((ls.take 1).map fun e => lineOf e.2) true (wordPieces (ls.drop 1) ws) none

/-- `clrfe`: empties the line of EA without waiting. -/
def execClrfe (a : Addr) (s : State) : Out :=
  let ea := s.ea a &&& ~~~0x7F
  s.checked [a.base] fun s =>
    if !inAperture ea.toNat then s.trap (mkTrap 0x08 0 0 (s.ea a))
    else match s.check s.c ea 0 1 .write false with
      | .error t => s.trap { t with fva := s.ea a }
      | .ok loc =>
        let s := s.modC fun c => { c with mark := true }
        .next (if s.behind s.feq s.cur [lineOf loc] then s.parkNew (.clrfe s.cur (lineOf loc))
          else { s with full := Store.set false s.full (lineOf loc) false })

/-! ## Versions (R302, R303) -/

/-- The open reduction entries of every slice applied (R305). -/
def State.flushAll (s : State) : State := s.wq.foldl State.applyEntry { s with wq := [] }

/-- The watch slots of a mask. -/
def Ctx.watches (c : Ctx) (mask : BitVec 8) : List (Nat × Option Watch) :=
  ((List.range 8).filter mask.getLsbD).map fun k => (k, Store.get none c.w k)

/-- Is a watch slot valid, and its line at the version it recorded? -/
def State.unchanged (s : State) (w : Option Watch) : Bool :=
  match w with
  | some w => s.version w.line = w.ver
  | none => false

/-- An answer on its way to a scalar predicate or a scalar (R294). -/
def State.answer (s : State) (p : Pending) : State :=
  let (id, s) := s.take
  { s with pend := Store.set none s.pend id (some p) }.due (.memoryAnswer id)

/-- The lines that valid watch slots name, each once. -/
def watchLines (ws : List (Nat × Option Watch)) : List Nat := (ws.filterMap fun w => w.2.map (·.line)).eraseDups

/-- `vset.chk` (R302): each check is a request to its line's slice (R82). -/
def execVsetChk (b : BitVec 4) (mask : BitVec 8) (s : State) : Out :=
  if s.waitingFor s.cur then s.stalled .hold
  else
    let s := s.flushAll
    let slots := s.rd.watches mask
    .next ((s.depart (watchLines slots) false).answer (.answerB s.cur b.toNat (slots.all fun w => s.unchanged w.2)))

/-- `vset.st` (R302, R303): the other lines first, then the stored line's check and write as one event. -/
def execVsetSt (base : BitVec 6) (b : BitVec 4) (d : Opnd) (mask : BitVec 8) (s : State) : Out :=
  let ea := s.rd.rs base
  let at_ : Except TrapInfo (List (Nat × Nat)) := match s.check s.c ea 0 64 .write true with
    | .error t => .error t
    | .ok loc => .ok [(0, loc)]
  s.withData [base] d 0xFFFF at_ fun ls ws =>
    if s.waitingFor s.cur then s.stalled .hold
    else
      let loc := (ls.headD (0, 0)).2
      let line := lineOf loc
      let f := (s.touch s.c ea).flushAll
      let slots := s.rd.watches mask
      match slots.find? (fun w => match w.2 with | some x => x.line = line | none => false) with
      | none => .next (f.answer (.answerB s.cur b.toNat false))
      | some (t, _) =>
        let data := ws.flatMap fun w => Decode.leBytes 4 w.toNat
        let v := f.version line
        let f := f.depart (watchLines (slots.filter fun w => w.1 ≠ t)) false
        if slots.all fun w => w.1 = t || f.unchanged w.2 then
          let f := (f.depart [line] true).snoop [line] []
          if !(f.heldLines [line]).isEmpty then
            .next ((f.modC fun c => { c with mark := true }).parkNew (.vset s.cur b.toNat loc data t ((slots.find? (·.1 = t)).bind
              (·.2.map (·.ver)) |>.getD 0)))
          else if f.unchanged ((slots.find? (·.1 = t)).bind (·.2)) then
            let f := (f.write loc data).modC fun c => { c with w := Store.set none c.w t (some ⟨line, v + 1⟩), mark := true }
            .next (f.answer (.answerB s.cur b.toNat true))
          else .next (f.answer (.answerB s.cur b.toNat false))
        else .next (f.answer (.answerB s.cur b.toNat false))

/-- The version that a `casv` finds, and the state after it: the line is written where the version is the one wanted. -/
def State.casv (s : State) (loc : Nat) (want : DWord) (data : List Byte) : DWord × State :=
  let s := s.flush [lineOf loc]
  let found : DWord := (s.version (lineOf loc)).zeroExtend 64
  (found, if found = want then s.write loc data else s)

/-- A fence: the reductions of the slices stand in memory, and what the strand accesses after it waits behind its waiting
accesses; ordering it more than its scope asks is allowed (R193, log 2). -/
def State.fence (s : State) : State := s.flushAll.after (s.waitsOf s.cur) s.cur

/-- `casv` (R303). Behind a waiting access of its strand it waits with it, for on success it is a release; what follows it then waits
behind it, for it is an acquire (R203). -/
def execCasv (a : Addr) (v : BitVec 6) (d : Opnd) (s : State) : Out :=
  let ea := s.ea a
  let at_ : Except TrapInfo (List (Nat × Nat)) := match s.check s.c ea 0 64 .write true with
    | .error t => .error t
    | .ok loc => .ok [(0, loc)]
  s.withData [a.base] d 0xFFFF at_ fun ls ws =>
    let loc := (ls.headD (0, 0)).2
    let line := lineOf loc
    let data := ws.flatMap fun w => Decode.leBytes 4 w.toNat
    let f := ((((s.touch s.c ea).depart [line] true).snoop [line] []).fence).modC fun c => { c with mark := true }
    if s.waitingFor s.cur || !(s.heldLines [line]).isEmpty then
      let f := f.parkNew (.casv s.cur v.toNat loc (s.rd.rs v) data)
      .next (f.after [f.nextRef - 1] s.cur)
    else
      let (found, f) := f.casv loc (s.rd.rs v) data
      .next (f.answer (.answerS s.cur v.toNat found))

/-! ## Far atomics (R304) -/

/-- The new value of an atomic; none where a `.cas` fails. -/
def amoNew {n : Nat} (op : AmoOp) (x y z : BitVec n) : Option (BitVec n) :=
  match op with
  | .add => some (x + y)
  | .and => some (x &&& y)
  | .or => some (x ||| y)
  | .xor => some (x ^^^ y)
  | .min => some (if x.sle y then x else y)
  | .max => some (if x.sle y then y else x)
  | .minu => some (if x.ule y then x else y)
  | .maxu => some (if x.ule y then y else x)
  | .swap => some y
  | .cas => if x = y then some z else none

/-- An atomic performed: the old value and the state after it. -/
def State.amo (s : State) (op : AmoOp) (wide : Bool) (loc : Nat) (y z : DWord) : DWord × State :=
  let s := s.flush [lineOf loc]
  if wide then
    let x : DWord := BitVec.ofNat 64 (s.num loc 8)
    match amoNew op x y z with
    | some v => (x, s.write loc (Decode.leBytes 8 v.toNat))
    | none => (x, s)
  else
    let x : Word := BitVec.ofNat 32 (s.num loc 4)
    match amoNew op x (y.extractLsb' 0 32) (z.extractLsb' 0 32) with
    | some v => (x.zeroExtend 64, s.write loc (Decode.leBytes 4 v.toNat))
    | none => (x.zeroExtend 64, s)

/-- `amo` (R304): the answer of the word's home writes s[O]. -/
def execAmo (a : Addr) (op : AmoOp) (wide : Bool) (o : BitVec 6) (s : State) : Out :=
  let n := if wide then 8 else 4
  if s.rd.sBad a.base || s.rd.dataBad o n || (op = .cas && s.rd.dataBad (o + 1) n) then .next (s.rewindFrom 1)
  else match s.check s.c (s.ea a) 0 n .rw false with
    | .error t => s.trap t
    | .ok loc =>
      if s.marked loc then s.poisonTrap 1
      else
        let s := ((s.touch s.c (s.ea a)).depart [lineOf loc] true).modC fun c => { c with mark := true }
        .next (s.answer (.amo s.cur op wide loc (s.rd.rs o) (s.rd.rs (o + 1)) o.toNat))

/-- A scalar written by memory answer `id` (R294), and in the snapshot where the access was issued before it (R218, log 27). -/
def State.answerS (s : State) (id key r : Nat) (v : DWord) : State :=
  s.modCtx key fun c =>
    let i := BitVec.ofNat 6 r
    { c.ws i v with snap := c.snap.map fun x =>
        if i = 0 || decide (c.point ≤ id) then x
        else { x with s := Store.set 0 x.s r v, sbad := Store.clear x.sbad (2 * r) 2, stw := Store.clear x.stw (2 * r) 2 } }

def State.answerB (s : State) (id key b : Nat) (v : Bool) : State :=
  s.modCtx key fun c =>
    let i := BitVec.ofNat 4 b
    { c.wb i v with snap := c.snap.map fun x =>
        if i = 0 || decide (c.point ≤ id) then x else { x with b := if v then x.b ||| BitVec.twoPow 16 b else x.b &&& ~~~(BitVec.twoPow 16 b) } }

/-- A reduction arrives at its slice's write queue: merged into the open entry of its kind, or in an entry of its own (R305).
An entry that finds all 64 in use has the oldest applied first (log 2). -/
def State.reduce (s : State) (e : WqEntry) : State :=
  let same (x : WqEntry) : Bool := x.kind = e.kind && x.lines = e.lines && x.base = e.base
  let join (x : WqEntry) : WqEntry := { x with adds := x.adds ++ e.adds, ranks := (x.ranks ++ e.ranks).eraseDups }
  if s.wq.any same then { s with wq := s.wq.map fun x => if same x then join x else x }
  else
    let s := s.flush e.lines
    let here := s.wq.filter fun x => sliceOf (x.lines.headD 0) = sliceOf (e.lines.headD 0)
    let s := match here with
      | x :: _ => if 64 ≤ here.length then s.flush x.lines else s
      | [] => s
    { s with wq := s.wq ++ [{ e with at_ := s.time.toNat }] }

/-- An effect of a strand has performed: its next bundle sets the rewind point (R218). -/
def State.performedBy (s : State) (key : Nat) : State := s.modCtx key fun c => { c with mark := c.mark || c.live }

/-- The check and the write of a `vset.st` that has waited for the host to give up its line, as one event (R302). -/
def State.vset (s : State) (key b loc : Nat) (data : List Byte) (slot : Nat) (want : BitVec 48) (id : Nat) : State :=
  let s := s.flush [lineOf loc]
  if s.version (lineOf loc) = want then
    (((s.write loc data).modCtx key fun c => { c with w := Store.set none c.w slot (some ⟨lineOf loc, want + 1⟩) }).performedBy
      key).answerB id key b true
  else s.answerB id key b false

/-- An access in flight that may perform does so. -/
def State.perform (s : State) (id : Nat) : State :=
  match Store.get none s.pend id with
  | some p =>
    let s := { s with pend := Store.set none s.pend id none }
    match p with
    | .answerS k r v => s.answerS id k r v
    | .answerB k b v => s.answerB id k b v
    | .store k lines _ pieces count => (s.applyStore lines pieces count).performedBy k
    | .amo k op wide loc y z r =>
      let (x, s) := s.amo op wide loc y z
      (s.performedBy k).answerS id k r x
    | .casv k r loc want data =>
      let (x, s) := s.casv loc want data
      (s.performedBy k).answerS id k r x
    | .vset k b loc data slot want => s.vset k b loc data slot want id
    | .clrfe k line => { s with full := Store.set false s.full line false }.performedBy k
    | .red k es _ => (es.foldl State.reduce s).performedBy k
    | .event k _ ev => (s.due ev).performedBy k
  | none => match Store.get none s.loads id with
    | some l => s.landed id l
    | none => s

/-- An access in flight that may perform does so; it waits at its slice while the host holds a line that it writes (R41). -/
def State.performed (s : State) (id : Nat) : Out :=
  if (s.heldLines (s.writeLines id)).isEmpty then .next ((s.perform id).unpark id)
  else .next ((s.park id).snoop (s.writeLines id) [])

/-- The answer of a line's home returns (R294, R302 to R304); an `amo` first waits while its line is empty (R132). -/
def execMemoryAnswer (id : Nat) (s : State) : Out :=
  if s.ready id then s.performed id else .next (s.park id)

/-- A cluster-store slice serves an access that waited, once its wait is over (R131, R133). -/
def execClusterStoreAccess (id : Nat) (s : State) : Out :=
  if s.feq.contains id && s.ready id then
    if s.copies.any fun c => c.id = id then .next ((s.unpark id).due (.copySourceRelease id))
    else s.performed id
  else .next s

/-- The loads and atomics of the running strand that are due perform before an X slot of their bundle (R187). -/
def State.readsDone (s : State) : State :=
  let idOf (i : Instr) : Option Nat := match i with
    | .loadLanding id | .memoryAnswer id => if (s.inFlightOf s.cur).contains id then some id else none
    | _ => none
  (s.agenda.filterMap idOf).foldl (fun s id =>
    if s.ready id && (s.heldLines (s.writeLines id)).isEmpty then (s.perform id).unpark id else s.parkLoad id)
    { s with agenda := s.agenda.filter fun i => (idOf i).isNone }

/-! ## Reductions (R305 to R308) -/

/-- Reductions of the running strand that go to one slice reach it in their slot (R82), or wait with an access that goes before them
(R193), or for the host to give up a line (R41). -/
def State.sendRed (s : State) (es : List WqEntry) : State :=
  let lines := es.flatMap (·.lines)
  let t := s.slotAt s.c.cluster (sliceOf (lines.headD 0))
  let s := (s.depart lines true).snoop lines []
  if s.behind s.feq s.cur lines || !(s.heldLines lines).isEmpty || decide (s.time.toNat < t) then s.parkNew (.red s.cur es t)
  else es.foldl State.reduce s

/-- Reductions of the running strand, slice by slice. -/
def State.sendReds (s : State) (es : List WqEntry) : State :=
  let j (e : WqEntry) : Nat := sliceOf (e.lines.headD 0)
  ((es.map j).eraseDups.foldl (fun s n => s.sendRed (es.filter fun e => j e = n)) s).modC fun c => { c with mark := true }

/-- The locations of a list of lane accesses, or the lowest faulting lane's fault, an access to the aperture among the faults (R94,
R305). -/
def State.locateRed (s : State) (align : Nat) (l : List (Nat × DWord)) : Except TrapInfo (List (Nat × Nat)) :=
  let far := l.takeWhile fun e => !inAperture e.2.toNat
  match s.locate align .write false far, l.drop far.length with
  | .ok _, (i, ea) :: _ => .error (mkTrap 0x08 i (lanes8 i) ea)
  | r, _ => r

/-- A reduction in which lane l adds to the element at `step` × l (R306, R307). -/
def State.redLanes (s : State) (a : Addr) (d : Opnd) (m : LaneSel) (kind step : Nat) : Out :=
  let en := s.enabled m
  let l := laneAddrs en fun i => s.ea a + BitVec.ofNat 64 (step * i)
  let at_ := s.locateRed step l
  s.withData [a.base] d en at_ fun ls ws =>
    let lines := linesOfLocs (ls.map (·.2))
    if lines.isEmpty then .next s
    else
      let r := s.rank s.c.rank
      let add (e : Nat × Nat) : Nat × Word × BitVec 16 :=
        (e.2, ws.getD e.1 0, if kind = 2 then srBits r.key (s.ea a + BitVec.ofNat 64 (step * e.1)) r.step else 0)
      .next ((s.touchAll l).sendReds (lines.map fun line =>
        ⟨kind, [s.c.rank], [line], 0, 0, 0, (ls.filter fun e => lineOf e.2 = line).map add, s.time.toNat⟩))

/-- A reduction into a BDX superblock (R306, R308): the superblock begins at EA - j, and lane l adds to element 16j + l. A fault names the
lowest enabled lane, with the start of the piece that faults as its VA, or EA for the aperture (DESIGN CHOICE, log 79). -/
def State.redBlock (s : State) (a : Addr) (d : Opnd) (m : LaneSel) (f : Nat) : Out :=
  let en := s.enabled m
  let ea := s.ea a
  let j := (ea.extractLsb' 0 4).toNat
  let base := ea - BitVec.ofNat 64 j
  let n := (bdxOf f).size
  let lane := (lanesOf en).headD 0
  let at_ : Except TrapInfo (List (Nat × Nat)) :=
    if en = 0 then .ok []
    else if inAperture base.toNat || inAperture (base + BitVec.ofNat 64 (n - 1)).toNat then
      .error (mkTrap 0x08 lane (lanes8 lane) ea)
    else match s.pieces s.c .write base n with
      | .ok ps => .ok ps
      | .error t => match s.check s.c t.fva lane 1 .write false with
        | .error t => .error t
        | .ok _ => .error t
  s.withData [a.base] d en at_ fun ps ws =>
    match ps with
    | [] => .next s
    | (loc, k) :: rest =>
      let loc2 := (rest.headD (0, 0)).1
      let lines := linesOf loc k ++ linesOf loc2 (n - k)
      .next ((s.touch s.c base).sendReds
        [⟨f - 3, [s.c.rank], lines, loc, k, loc2, (lanesOf en).map fun l => (16 * j + l, ws.getD l 0, 0), s.time.toNat⟩])

/-- `red.add.f32` (R306). -/
def execRedAddF32 (a : Addr) (d : Opnd) (m : LaneSel) (s : State) : Out := s.redLanes a d m 0 4
/-- `red.add.bf16` (R306). -/
def execRedAddBf16 (a : Addr) (d : Opnd) (m : LaneSel) (s : State) : Out := s.redLanes a d m 1 2
/-- `red.add.bf16.sr` (R306). -/
def execRedAddBf16Sr (a : Addr) (d : Opnd) (m : LaneSel) (s : State) : Out := s.redLanes a d m 2 2
/-- `red.add.bdx8` (R306, R308). -/
def execRedAddBdx8 (a : Addr) (d : Opnd) (m : LaneSel) (s : State) : Out := s.redBlock a d m 6
/-- `red.add.bdx4` (R306, R308). -/
def execRedAddBdx4 (a : Addr) (d : Opnd) (m : LaneSel) (s : State) : Out := s.redBlock a d m 7
/-- `red.max.f32` (R306). -/
def execRedMaxF32 (a : Addr) (d : Opnd) (m : LaneSel) (s : State) : Out := s.redLanes a d m 5 4
/-- `red.add.s32` (R306). -/
def execRedAddS32 (a : Addr) (d : Opnd) (m : LaneSel) (s : State) : Out := s.redLanes a d m 6 4

/-- A write queue applies the open entries of a line (R305). -/
def execWriteQueueApply (line : Nat) (s : State) : Out := .next (s.flush [line])

/-! ## Paired store (R309) -/

/-- Bytes of an element of `pstore`: 4, 2, 2, 1. -/
def pairWidth (fmt : BitVec 2) : Nat := ([4, 2, 2, 1] : List Nat).getD fmt.toNat 1

/-- `pstore` (R309): an 8 × 8 block and its transpose, in one commit. -/
def execPstore (a : Addr) (d : BitVec 8) (fmt : BitVec 2) (s : State) : Out :=
  let w := pairWidth fmt
  if s.rd.win ≤ d.toNat + 3 then s.checked [a.base, a.base + 1] State.illegal
  else
    let ent (r : Nat) : Nat := s.rd.entry (d.toNat + r / 2)
    let el (r c : Nat) : List Byte := Decode.leBytes w ((s.rd.rv (ent r) (8 * (r % 2) + c)).toNat % 2 ^ (8 * w))
    let bad := (List.range 8).any fun r => (List.range 8).any fun c => decide (s.rd.rvBad (ent r) (8 * (r % 2) + c) ≠ 0)
    let p := s.ea a
    let t := s.rd.rs (a.base + 1)
    if bad || s.rd.sBad a.base || s.rd.sBad (a.base + 1) then .next (s.rewindFrom 1)
    else match s.check s.c p 0 (64 * w) .write true with
      | .error e => s.trap e
      | .ok lp => match s.check s.c t 0 (64 * w) .write true with
        | .error e => s.trap e
        | .ok lt =>
          let lines := (linesOf lp (64 * w) ++ linesOf lt (64 * w)).eraseDups
          let plain := (List.range 8).flatMap fun r => (List.range 8).flatMap fun c => el r c
          let transposed := (List.range 8).flatMap fun c => (List.range 8).flatMap fun r => el r c
          ((s.touch s.c p).touch s.c t).store lines false [(lp, plain), (lt, transposed)] none

/-! ## Fences, drains, arrivals (R310, R311) -/

/-- `fence.rel` (R193, R310). -/
def execFenceRel (_scope : BitVec 3) (s : State) : Out := .next s.fence
/-- `fence.acq` (R193, R310). -/
def execFenceAcq (_scope : BitVec 3) (s : State) : Out := .next s.fence
/-- `fence.sc` (R193, R310). -/
def execFenceSc (_scope : BitVec 3) (s : State) : Out := .next s.fence

/-- Every dirty host line is written back (R194); the shared cache holds it on, clean. -/
def State.writeBackAll (s : State) : State :=
  s.host.cached.foldl (fun s e =>
    let s := s.writeBack e.1
    { s with
      slices := Store.set [] s.slices (sliceSet e.1)
        ((Store.get [] s.slices (sliceSet e.1)).map fun x => if x.1 = e.1 then (x.1, false) else x)
      host := { s.host with cached := Store.set false s.host.cached e.1 false } }) s

/-- What a drain waits for (R194): the strand is held while one of its accesses from before the bundle waits; with `wb`, at chip and job
scope, the dirty host lines are written back, and it is held until the host has completed each write-back, those under way already
among them. -/
def State.drained (s : State) (wb : Bool) (k : State → Out) : Out :=
  if (s.waitsOf s.cur).any (· < s.issueRef) then s.stalled .hold
  else
    let s := s.flushAll
    let waits (s : State) (w : Option (List Nat)) : State :=
      { s with host := { s.host with wbWait := Store.set none s.host.wbWait s.cur w } }
    let dirty := (s.host.cached.filter (·.2)).map (·.1)
    if !wb then k s
    else match Store.get none s.host.wbWait s.cur with
      | some [] => k (waits s none)
      | some _ => s.stalled .hold
      | none =>
        let all := (dirty ++ s.host.wbOut).eraseDups
        if all.isEmpty then k s else (waits s.writeBackAll (some all)).stalled .hold

/-- `drain` (R194, R310). -/
def execDrain (scope : BitVec 3) (s : State) : Out := s.drained (decide (4 ≤ scope.toNat)) .next

/-- An arrival of s[C][47:0] bytes for the PARTY in s[C][63:48] (R311), which waits behind the accesses that a fence of its strand
orders before it (R206). -/
def State.arrival (s : State) (c line : BitVec 6) : State :=
  let w := s.rd.rs c
  let s := s.modC fun c => { c with mark := true }
  let party := w.extractLsb' 48 16
  let n := (w.extractLsb' 0 48).toNat
  if s.behind s.feq s.cur [] then s.parkNew (.store s.cur [] false [] (some (s.c.rank, line, party, n)))
  else s.due (.countedDecrement s.c.rank line party n)

/-- `arrive` (R311). -/
def execArrive (c line : BitVec 6) (_scope : BitVec 3) (s : State) : Out := s.checked [c] fun s => .next (s.arrival c line)

/-- `arrive.rel` (R206, R311): a release fence, then the arrival. -/
def execArriveRel (c line : BitVec 6) (_scope : BitVec 3) (s : State) : Out :=
  s.checked [c] fun s => .next (s.fence.arrival c line)

/-- A counted write's decrement (R205, R311, R224). -/
def execCountedDecrement (rank : Nat) (line : BitVec 6) (party : BitVec 16) (bytes : Nat) (s : State) : Out :=
  .next (s.countDown rank line party bytes)

/-- Requests of a rank depart to the slices: its calendar bytes and energy are charged (R82, R113), and each slice serves its line
(R76). -/
def execRequestDeparture (rank : Nat) (req : Request) (s : State) : Out :=
  let s := (s.charge rank 1 (128 * req.lines.length)).charge rank 2 (8 * req.lines.length)
  .next (req.lines.foldl (fun s l => s.sliceUse l req.write) s)

/-! ## Translation invalidation (R380) -/

/-- A context selector (R380): k0 and tag, or why it is refused. -/
def State.selector (s : State) (w : DWord) : Except Bool (Nat × Nat) :=
  let k := (w.extractLsb' 8 5).toNat
  let t := (w.extractLsb' 0 3).toNat
  if w &&& ~~~0x1F07 ≠ 0 || decide (4 < t) || (t = 4 && k ≠ 0) || (decide (t < 4) && !s.isDom k) then .error false
  else if decide (t < 4) && s.secureCluster k && !s.secure then .error true
  else .ok (k, t)

/-- The TLBs without the entries that satisfy p. -/
def State.dropTlb (s : State) (p : TlbEntry → Bool) : State :=
  let f (m : Store (List TlbEntry)) : Store (List TlbEntry) :=
    (m.map fun (e : Nat × List TlbEntry) => (e.1, e.2.filter fun x => !p x)).filter fun e => e.2 ≠ []
  { s with tlb1 := f s.tlb1, tlb2 := f s.tlb2 }

/-- `tlbinv` behind its checks: level, selector, the address where it names one, and the drain it begins with (R210, R380). -/
def State.tlbinv (s : State) (sel : DWord) (at_ : Option TrapInfo) (k : Nat → State → Out) : Out :=
  if !s.rd.sv then s.priv 0x28
  else match s.selector sel with
    | .error true => s.worldTrap 10 (sel.extractLsb' 8 5).toNat
    | .error false => s.illegal
    | .ok (k0, t) => match at_ with
      | some f => s.trap f
      | none => s.drained true (k (if t = 4 then 4 else 8 * k0 + t))

/-- `tlbinv.page` (R380); an EA at or above 2^52 is a failed walk (R291). -/
def execTlbinvPage (a : Addr) (s : State) : Out :=
  let va := (s.ea a &&& ~~~0xFFFF).toNat
  let at_ := if decide (2 ^ 52 ≤ (s.ea a).toNat) then some (mkTrap 0x09 0 0xFF00 (s.ea a)) else none
  s.checked [a.base] fun s => s.tlbinv (s.rd.rs (a.base + 1)) at_ fun tag s =>
    .next (s.dropTlb fun e => e.tag = tag && decide (e.va ≤ va ∧ va < e.va + e.size))

/-- `tlbinv.ctx` (R380). -/
def execTlbinvCtx (base : BitVec 6) (s : State) : Out :=
  s.checked [base] fun s => s.tlbinv (s.rd.rs base) none fun tag s => .next (s.dropTlb fun e => e.tag = tag)

/-- `tlbinv.all` (R380). -/
def execTlbinvAll (s : State) : Out :=
  if !s.rd.sv then s.priv 0x28
  else s.drained true fun s => .next { s with tlb1 := [], tlb2 := [] }

end Sys2Proof.Machine
end

