-- ==== Sys2Proof/Machine/Issue.lean ====
section
/-!
DEFINITION. Issue.lean: the issue of a D slot (R313 to R317): formats, operands, ports, frames, landing cycle.
-/
namespace Sys2Proof.Machine

/-- Digit count n of a landing format (R167, R316). -/
def digitCount (f : Nat) : Nat :=
  match f with
  | 0 => 6
  | 1 => 3
  | 2 => 2
  | _ => 1

/-- A D slot's OP admits its own chain precision in MINOR[3:0] (R169). -/
def hasCpo (op : Nat) : Bool := (1 ≤ op && op ≤ 7) || op = 0x0D || op = 0x0E

/-- The chain precision of an operation (R169). -/
def chainPrec (c : Ctx) (op f : Nat) (minor : BitVec 5) : Nat :=
  let o := minor.toNat % 16
  if hasCpo op && o ≠ 0 then o else if c.chp ≠ 0 then c.chp.toNat else digitCount f + 1

/-- The effective rounding mode (R143). -/
def Ctx.mode (c : Ctx) (rm : BitVec 2) : Nat := if rm = 3 then c.drm else rm.toNat

/-- The lanes in which a D slot acts (R314). -/
def Ctx.dLanes (c : Ctx) (d : DSlot) : BitVec 16 := c.sel d.pred d.pn

/-- Does the slot land a register, a predicate or a discarded result? -/
def dLands (d : DSlot) : Bool := !Decode.isPort d.dst || d.landTo ≠ .none

/-- The operand that names where a register result lands. -/
def dTarget (d : DSlot) : Opnd := if Decode.isPort d.dst then d.landTo else d.dst

/-- The random words of a D slot (R160, R317): sixteen of the stream where its rounding is stochastic and it lands a register. -/
def State.draws (s : State) (mode : Nat) (d : DSlot) : List Word × State :=
  if mode = 2 && Decode.isReg (dTarget d) then
    (draw (s.rank s.rd.rank).key s.c.stream 16, s.modC fun y => { y with stream := y.stream + 16 })
  else ([], s)

/-- `vsel` and the permutes move whole words: their format forms a literal alone, and the lane number is an integer to them (R329,
R330). -/
def readFmt (op f : Nat) (o : Opnd) : Nat := if (op = 0x26 || (0x30 ≤ op && op ≤ 0x33)) && o = .lane then 9 else f

/-- How a bundle finds a chain port it names (R168). -/
inductive PortCase where
  | go
  | illegal
  | wait
  deriving DecidableEq, Repr

/-- A source port (R168): it needs a producer whose consuming bundle has not issued, and its first digit. -/
def Ctx.srcPort (c : Ctx) (k : BitVec 3) : PortCase :=
  match Store.get none c.ports k.toNat with
  | none => .illegal
  | some p =>
    if p.consumed then .illegal
    else match findOp c.dops p.prod with
      | some o => if o.age < delay o.op.toNat then .wait else .go
      | none => .wait     -- an `mdrain` whose value has not entered the port yet (R347)

/-- A destination port (R168). -/
def Ctx.dstPort (c : Ctx) (k : BitVec 3) : PortCase :=
  match Store.get none c.ports k.toNat with
  | none => .go
  | some p => if p.consumed then .wait else .illegal

def portCase (c : Ctx) (src : Bool) (o : Opnd) : PortCase :=
  match o with
  | .port k => if src then c.srcPort k else c.dstPort k
  | _ => .go

/-- All the ports of a slot. -/
def Ctx.portCases (c : Ctx) (d : DSlot) : PortCase :=
  let l := [portCase c true d.sa, portCase c true d.sb, portCase c true d.sc, portCase c false d.dst]
  if l.contains .illegal then .illegal else if l.contains .wait then .wait else .go

/-- The number of a source port's producer. -/
def Ctx.producer (c : Ctx) (o : Opnd) : Option Nat :=
  match o with
  | .port k => (Store.get none c.ports k.toNat).map (·.prod)
  | _ => none

/-- What the sources of a D slot read: the words of SA, SB and SC, and how their residues differ from them; `sh` are the powers of two
by which the words of SA count (R347), none: 0. -/
structure Ins where
  a : List Word
  b : List Word
  c : List Word
  aBad : List (BitVec 4)
  bBad : List (BitVec 4)
  cBad : List (BitVec 4)
  sh : List Int
  deriving DecidableEq, Repr

/-- A D slot up to its operands: format and row (R155, R254), ports (R168), the entries it names (R124), the words it reads. A literal
and the lane number are formed by the slot's format, whatever format the operation reads them in (R237). In a chain wait the digit
units run on, with what `rfi` or a swap has restored (R169). -/
def State.dslot (s : State) (op : Nat) (d : DSlot) (k : Resolved → List Nat → Ins → Out) : Out :=
  match s.resolve d.fmt, Decode.dRow op d.minor with
  | some r, some row =>
    if !(row.fmts.contains r.fmt) then s.illegal
    else if Decode.isPort d.dst && decide (4 < r.fmt) then s.illegal
    else
      let target := dTarget d
      let ents := if Decode.isReg target then s.rd.entries target else some []
      match ents, s.rd.portCases d with
      | none, _ => s.illegal
      | _, .illegal => s.illegal
      | _, .wait => (s.modC fun c => { c with fresh := false }).stalled .hold
      | some es, .go =>
        s.read (readFmt op r.fmt d.sa) d.sa fun a aBad =>
          s.read (readFmt op r.fmt d.sb) d.sb fun b bBad =>
            s.read (readFmt op r.fmt d.sc) d.sc fun c cBad => k r es ⟨a, b, c, aBad, bBad, cBad, []⟩
  | _, _ => s.illegal

/-- An operation joins those in flight; its source ports gain a user, its destination port a producer (R168). -/
def Ctx.addOp (c : Ctx) (o : DOp) : Ctx :=
  let use (ports : Store (Option Port)) (x : Opnd) : Store (Option Port) := match x with
    | .port k => match Store.get none ports k.toNat with
      | some p => if p.users.contains o.ref then ports
          else Store.set none ports k.toNat (some { p with consumed := true, users := p.users ++ [o.ref] })
      | none => ports
    | _ => ports
  let ports := use (use (use c.ports o.sa) o.sb) o.sc
  let ports := match o.dst with
    | .port k => Store.set none ports k.toNat (some ⟨o.ref, false, []⟩)
    | _ => ports
  { c with ports, dops := c.dops ++ [o] }

/-- A blank operation of a slot. -/
def mkOp (ref op : Nat) (d : DSlot) (r : Resolved) (es : List Nat) : DOp where
  ref := ref
  op := BitVec.ofNat 6 op
  fmt := r.fmt
  minor := d.minor
  rm := 0
  sat := d.sat
  kill := d.kill
  cp := 0
  ftz := false
  xv := r.xv
  mn := r.xv.getLsbD 8
  sa := d.sa
  sb := d.sb
  sc := d.sc
  dst := d.dst
  landTo := d.landTo
  dstEnts := es
  pa := none
  pb := none
  pc := none
  cin := 0
  age := 0
  last := 0
  land := none
  lanes := []
  fixed := true
  out := []
  badOut := []
  landed := false
  done := false

/-- Integer rows, permutes, predicate logic and moves: the result of each enabled lane is fixed at issue and lands after L
cycles (R316). -/
def State.issueFixed (s : State) (op : Nat) (d : DSlot) (r : Resolved) (es : List Nat) (L : Nat) (en : BitVec 16)
    (out : List LaneOut) : State :=
  let (ref, s) := s.take
  let lanes := (List.range 16).map fun l =>
    { DLane.none with en := en.getLsbD l, flags := (out.getD l (0, 0, 0)).2.2 }
  s.modC (·.addOp { mkOp ref op d r es with
    land := some L, lanes, out := out.map (·.1), badOut := out.map (·.2.1) })

/-- A lane of an online or deciding operation at issue: class and flags (R165, R171, R319), frame, latched words with their residues.
Words are latched in every lane (R314). -/
def issueLane (op : Nat) (d : DSlot) (a b c : View) (en sign : Bool) (wa wb wc : Word) (bad : BitVec 12) (rnd : BitVec 16) : DLane :=
  if !en then { DLane.none with a := wa, b := wb, c := wc, bad }
  else
    let base : DLane := { DLane.none with en := true, a := wa, b := wb, c := wc, bad, rnd, ce := 0 }
    if op = 0x0A then
      let nan := a.v.isNan || b.v.isNan
      let m := d.minor.toNat % 8
      let inv := if 2 ≤ m && m ≤ 5 then nan else a.snan || b.snan
      { base with flags := if inv then flInv else 0 }
    else if op = 0x0B || op = 0x0C then base
    else
      let k := classify op a b c sign
      if k.cls ≠ 0 then { base with cls := k.cls, neg := k.neg, pay := k.pay, flags := k.fl }
      else
        let ce := frameOf (resultBound op a b c)
        if !Decode.isPort d.dst then { base with ce, flags := k.fl }
        else if 2047 < ce then { base with cls := 2, pay := 0x400000, flags := k.fl ||| flOf ||| flInv }
        else if ce < -2048 then { base with ce := -2048, zero := true, flags := k.fl ||| flUf ||| flNx }
        else { base with ce, flags := k.fl }

/-- An online or deciding operation issues (R165 to R177, R316 to R322). `wordFmt` is the format of its register words. -/
def State.issueOnline (s : State) (op : Nat) (d : DSlot) (r : Resolved) (es : List Nat) (x : Ins) : State :=
  let c := s.rd
  let (ref, s) := s.take
  let mode := c.mode d.rm
  -- `vsr` brings its random bits with it (R326)
  let (rnds, s) := if op = 0x12 then ([], s) else s.draws mode d
  let o : DOp := { mkOp ref op d r es with
    rm := mode
    cp := chainPrec c op r.fmt d.minor
    ftz := c.ftz
    -- a `dcvt` into another format reads FP4 codes by the context's XV (R147, log 41)
    xv := if op = 0x0F && r.fmt ≠ 5 then c.xv else r.xv
    pa := c.producer d.sa
    pb := c.producer d.sb
    pc := c.producer d.sc
    fixed := false }
  let view (p : Option Nat) (ws : List Word) (l : Nat) : View := o.view c.dops l p (ws.getD l 0) 0
  let en := c.dLanes d
  let views (l : Nat) : View × View × View :=
    (o.view c.dops l o.pa (x.a.getD l 0) (x.sh.getD l 0), view o.pb x.b l, view o.pc x.c l)
  let lanes := (List.range 16).map fun l =>
    let (a, b, cc) := views l
    let rnd : BitVec 16 := if op = 0x12 then (x.b.getD l 0).extractLsb' 16 16 else (rnds.getD l 0).extractLsb' 16 16
    let sign := Config.openSign (s.rank c.rank).key (s.rank c.rank).step c.pc l (x.b.getD l 0)
    let bad : BitVec 12 := x.cBad.getD l 0 ++ x.bBad.getD l 0 ++ x.aBad.getD l 0
    { issueLane op d a b cc (en.getLsbD l) sign (x.a.getD l 0) (x.b.getD l 0) (x.c.getD l 0) bad rnd with sh := x.sh.getD l 0 }
  let ports := [o.pa, o.pb, o.pc].filterMap id
  let cin := ((ports.filterMap (findOp c.dops)).map (·.cp)).foldl max 0
  let δ := delay op
  let n := digitCount r.fmt
  let L := if ports.isEmpty then δ + n else max (δ + o.cp) cin
  let last := ((List.range 16).map fun l =>
    if en.getLsbD l then
      (let (a, b, cc) := views l; let k := lanes.getD l DLane.none; lastStep op k.cls k.ce a b cc + 1) else 0).foldl max 0
  let L := if ports.isEmpty then L else max L last
  s.modC (·.addOp { o with lanes, cin, land := if dLands d then some L else none, last := max (δ + o.cp) last })

/-- The meaning of an online or deciding D slot (R318 to R322, R325, R326). -/
def State.online (s : State) (op : Nat) (d : DSlot) : Out :=
  s.dslot op d fun r es x => .next (s.issueOnline op d r es x)

/-- The meaning of a row whose lanes are computed at issue. `f` gives lane l. -/
def State.fixedRow (s : State) (op : Nat) (d : DSlot) (L : Nat → Nat) (en : BitVec 16 → BitVec 16)
    (f : Resolved → Ins → Nat → LaneOut) : Out :=
  s.dslot op d fun r es x =>
    .next (s.issueFixed op d r es (L r.fmt) (en (s.rd.dLanes d)) ((List.range 16).map (f r x)))

end Sys2Proof.Machine
end

