-- ==== Sys2Proof/Machine/Frame.lean ====
section
/-!
DEFINITION. Frame.lean: reading a trap frame back (R213, R181 to R183), and `rfi` (R375).
-/
namespace Sys2Proof.Machine

/-- Bits lo to lo + n - 1 of a number. -/
def cutBits (x lo n : Nat) : Nat := x / 2 ^ lo % 2 ^ n

/-- A two's complement field. -/
def signed (x n : Nat) : Int := if x < 2 ^ (n - 1) then x else (x : Int) - 2 ^ n

/-! ## The chain image (R181 to R183) -/

/-- One record of a port's header: an operation's KILL, SAT, RM, FMT and OP, its CP, source codes, and DST or LANDTO code. -/
structure OpHead where
  op : Nat
  fmt : Nat
  rm : Nat
  sat : Bool
  kill : Bool
  cp : Nat
  srcs : Nat
  dst : Nat
  deriving DecidableEq, Repr

def opHead (h lo : Nat) : OpHead where
  op := cutBits h lo 6
  fmt := cutBits h (lo + 6) 4
  rm := cutBits h (lo + 10) 2
  sat := cutBits h (lo + 12) 1 = 1
  kill := cutBits h (lo + 13) 1 = 1
  cp := cutBits h (lo + 14) 4
  srcs := cutBits h (lo + 18) 24
  dst := cutBits h (lo + 42) 8

/-- A port's block of the image: header and lane records. -/
structure PortImage where
  head : Nat
  lanes : List (List Byte)
  deriving DecidableEq, Repr

def portImage (bs : List Byte) (k : Nat) : PortImage :=
  let b := (bs.drop (1040 * k)).take 1040
  ⟨field b 0 16, (List.range 16).map fun l => (b.drop (16 + 64 * l)).take 64⟩

def PortImage.val (p : PortImage) : Bool := p.head % 2 = 1
def PortImage.lat (p : PortImage) : Bool := cutBits p.head 2 1 = 1
def PortImage.prod (p : PortImage) : OpHead := opHead p.head 8
def PortImage.lander (p : PortImage) : OpHead := opHead p.head 64

/-- The OPs that can read or write a port (R254). -/
def portOps : List Nat := [1, 2, 3, 4, 5, 6, 7, 0x0A, 0x0B, 0x0C, 0x0D, 0x0E, 0x0F, 0x10, 0x12]

/-- The checks of R183 on a lane record: reserved bits, CLASS, STEP, EMIT and TAKEN. -/
def laneOk (limit δ : Nat) (b : List Byte) : Bool :=
  let ctr := field b 0x1C 4
  let vw := field b 0x1A 2
  let step := cutBits ctr 0 5
  let emit := cutBits ctr 5 4
  field b 0x38 8 = 0 && cutBits ctr 26 6 = 0 && cutBits vw 15 1 = 0 && cutBits vw 12 2 ≠ 3 && decide (step ≤ limit)
    && decide (emit ≤ step - δ) && decide (cutBits ctr 9 4 ≤ emit)

/-- Does a port's block pass the checks of R183? -/
def PortImage.ok (p : PortImage) : Bool :=
  let δ := delay p.prod.op
  cutBits p.head 114 14 = 0 && cutBits p.head 58 6 = 0 && cutBits p.head 3 5 = 0
    && (!p.val || portOps.contains p.prod.op) && (!p.lat || portOps.contains p.lander.op)
    && p.lanes.all (laneOk (p.prod.cp + δ) δ)

/-- The residues of latched words, which an image has no field for, where it leaves the words as they were; else they agree. -/
def DLane.keptBad (d : DLane) (a b c : Nat) : BitVec 12 :=
  if d.a.toNat = a ∧ d.b.toNat = b ∧ d.c.toNat = c then d.bad else 0

/-- A lane of a restored producer: what the record holds, on what is kept of the operation. -/
def laneOfRecord (d : DLane) (b : List Byte) : DLane :=
  let ctr := field b 0x1C 4
  let vw := field b 0x1A 2
  let z := field b 0x10 10
  let cls := cutBits vw 12 2
  let digits : List Int := if cls = 0 then (List.range (cutBits ctr 5 4)).map fun k => signed (cutBits z (5 * k) 5) 5 else []
  { d with
    en := cutBits ctr 22 1 = 1
    canc := cutBits ctr 24 1 = 1
    taken := cutBits ctr 9 4
    cls := BitVec.ofNat 2 cls
    neg := cutBits vw 14 1 = 1
    ce := signed (cutBits vw 0 12) 12
    pay := if cls = 2 then BitVec.ofNat 23 z else d.pay
    digits
    resBad := cls = 0 && cutBits ctr 13 4 ≠ two (digits.foldl (· + ·) 0 % 15) 4
    a := BitVec.ofNat 32 (field b 0x20 4)
    b := BitVec.ofNat 32 (field b 0x24 4)
    c := BitVec.ofNat 32 (field b 0x28 4)
    bad := d.keptBad (field b 0x20 4) (field b 0x24 4) (field b 0x28 4)
    sh := if d.a.toNat = field b 0x20 4 then d.sh else 0 }

/-- A lane of a restored lander. -/
def laneOfLander (d : DLane) (b : List Byte) : DLane :=
  let ctr := field b 0x1C 4
  { d with
    en := cutBits ctr 23 1 = 1
    kdec := cutBits ctr 25 1 = 1
    a := BitVec.ofNat 32 (field b 0x2C 4)
    b := BitVec.ofNat 32 (field b 0x30 4)
    c := BitVec.ofNat 32 (field b 0x34 4)
    bad := d.keptBad (field b 0x2C 4) (field b 0x30 4) (field b 0x34 4) }

/-- An operand code of the image. -/
def codeOpnd (c : Nat) : Opnd := (Decode.opnd (BitVec.ofNat 8 c) (some 0)).getD .none

/-- The number of the restored producer of the port that a code names. -/
def linkOf (base : Nat) (o : Opnd) : Option Nat := match o with
  | .port k => some (base + 2 * k.toNat)
  | _ => none

/-- What a restored image does not record, by place in the image (log 17): MINOR and the lanes' random bits. -/
structure Unrecorded where
  minor : Nat → BitVec 5
  random : Nat → Nat → BitVec 16

/-- The unrecorded parts of an image that the running strand's `rfi` restores. -/
def State.unrecorded (s : State) : Unrecorded :=
  let r := s.rank s.c.rank
  ⟨Config.heldMinor r.key r.step s.rd.pc, Config.heldRandom r.key r.step s.rd.pc⟩

/-- A restored operation: what its header and lanes hold, on the operation that was held, or, where none was, on a blank one
whose unrecorded parts are free (log 17). `link` gives the restored number of a producer that was held; a source whose code the image
changes is the producer that it names, but for an operation that has run to its end, whose ports are other producers' by now (R168,
R184). What the image changes of CP or of the destination acts anew. -/
def restoreOp (c : Ctx) (base place : Nat) (link : Nat → Option Nat) (free : Unrecorded) (h : OpHead) (dst landTo : Opnd)
    (held : Option DOp) (lane : DLane → List Byte → DLane) (age : Nat) (recs : List (List Byte)) : DOp :=
  let sa := codeOpnd (h.srcs % 256)
  let sb := codeOpnd (h.srcs / 256 % 256)
  let sc := codeOpnd (h.srcs / 65536)
  let target := if Decode.isPort dst then landTo else dst
  let ents := (c.entries target).getD []
  let blank : DOp :=
    { mkOp 0 h.op ⟨0, 0, false, false, dst, sa, sb, sc, landTo, 0, false, free.minor place⟩ ⟨h.fmt, c.xv, none⟩ ents with
      ftz := c.ftz
      fixed := false
      cp := h.cp
      lanes := (List.range 16).map fun l => { DLane.none with rnd := free.random place l } }
  let o := held.getD blank
  let done := Decode.isPort dst && decide (delay h.op + h.cp ≤ age)
  let linked (x was : Opnd) (p : Option Nat) : Option Nat :=
    if held.isSome && x = was then p.bind link else if done then none else linkOf base x
  { o with
    ref := base + place, op := BitVec.ofNat 6 h.op, fmt := h.fmt, rm := h.rm, sat := h.sat, kill := h.kill, cp := h.cp
    sa := sa, sb := sb, sc := sc, dst := dst, landTo := landTo
    dstEnts := if o.dst = dst && o.landTo = landTo then o.dstEnts else ents
    land := if target = .none then none else some (o.land.getD 0)
    last := if o.cp = h.cp && o.land.isSome = (target ≠ .none) then o.last else 0
    pa := linked sa o.sa o.pa, pb := linked sb o.sb o.pb, pc := linked sc o.sc o.pc
    age := if held.isSome && decide (o.age = age ∨
        ((if o.producer then delay h.op + h.cp else min 31 o.last) ≤ age ∧ age ≤ o.age)) then o.age else age
    lanes := (List.range 16).map fun l => lane (o.lane l) (recs.getD l []) }

/-- A restored operation that was not held, with its last step and its landing cycle (R167, R175). -/
def timeOp (ops : List DOp) (o : DOp) : DOp :=
  if o.last ≠ 0 then o
  else
    let cin := (([o.pa, o.pb, o.pc].filterMap fun p => p.bind (findOp ops)).map (·.cp)).foldl max 0
    let last := ((List.range 16).map fun l =>
      if (o.lane l).en then
        (let (a, b, c) := o.views ops l; lastStep o.op.toNat (o.lane l).cls (o.lane l).ce a b c + 1) else 0).foldl max 0
    let own := delay o.op.toNat + o.cp
    { o with cin, last := max own last, land := o.land.map fun _ => max (max own cin) last }

/-- The chain operations and ports of an image; `held` are those that were held when its frame was written, `base` the first
free operation number (sixteen are used), `free` what it does not record. -/
def restoreChains (c : Ctx) (base : Nat) (free : Unrecorded) (held : List DOp × Store (Option Port)) (bs : List Byte) : Ctx :=
  let was : Ctx := { c with dops := held.1, ports := held.2 }
  let heldAt (k : Nat) : Option DOp :=
    (Store.get none held.2 k).bind fun x => (findOp held.1 x.prod).filter fun o => o.op.toNat = (portImage bs k).prod.op
  -- producers that have left their ports and whose digits an operation still names go on beside the image (R182)
  let kept := held.1.filter fun o => o.producer && held.2.all fun e => match e.2 with
    | some x => x.prod ≠ o.ref
    | none => true
  let link (r : Nat) : Option Nat :=
    match (List.range 8).find? fun k => (portImage bs k).val && (heldAt k).map (·.ref) = some r with
    | some k => some (base + 2 * k)
    | none => (kept.findIdx? fun o => o.ref = r).map (base + 16 + ·)
  let port (k : Nat) : List DOp :=
    let p := portImage bs k
    if !p.val then []
    else
      let steps (lo : Nat) : Nat := (p.lanes.map fun b => cutBits (field b 0x1C 4) lo 5).foldl max 0
      let hl := (landerOf was k).filter fun o => o.op.toNat = p.lander.op
      let pr := restoreOp c base (2 * k) link free p.prod (.port (BitVec.ofNat 3 k)) (codeOpnd p.prod.dst) (heldAt k)
        laneOfRecord (steps 0) p.lanes
      let dst := if p.lander.op = 0x0A then .pred (BitVec.ofNat 4 p.lander.dst) else codeOpnd p.lander.dst
      let la := restoreOp c base (2 * k + 1) link free p.lander dst .none hl laneOfLander (steps 17) p.lanes
      pr :: if p.lat then [la] else []
  let ops := (List.range 8).flatMap port
  let beside := kept.zipIdx.map fun u =>
    { u.1 with ref := base + 16 + u.2, pa := u.1.pa.bind link, pb := u.1.pb.bind link, pc := u.1.pc.bind link }
  let ops := ops.map (timeOp (ops ++ beside))
  -- a port's record names one lander; any other that was held goes on from what was held (log 17)
  let whole (p : Option Nat) : Bool := (p.bind link).isSome = p.isSome
  let rest := held.1.filter fun u => u.chained && !u.producer && !u.landed
    && (List.range 8).all (fun k => (landerOf was k).map (·.ref) ≠ some u.ref)
    && whole u.pa && whole u.pb && whole u.pc
  let ops := ops ++ beside ++ rest.zipIdx.map fun u =>
    { u.1 with ref := base + 16 + kept.length + u.2, pa := u.1.pa.bind link, pb := u.1.pb.bind link, pc := u.1.pc.bind link }
  let ports : Store (Option Port) := ((List.range 8).filter fun k => (portImage bs k).val).map fun k =>
    let users := (ops.filter fun u => uses u (base + 2 * k)).map (·.ref)
    let gone := match Store.get none held.2 k with
      | some x => x.consumed
      | none => false
    (k, some ⟨base + 2 * k, !users.isEmpty || gone, users⟩)
  -- results of the handler that are in flight land at their cycles (R173)
  { c with dops := c.dops ++ ops, ports }

/-! ## Queues and loops (R213) -/

/-- A queue record: none where VALID is 0. -/
def queueEntry (b : List Byte) : Option QEntry :=
  let d := field b 64 16
  if d % 2 = 0 then none
  else
    let ws := (List.range 16).map fun l => BitVec.ofNat 32 (field b (4 * l) 4)
    let bad := (List.range 16).map fun l => put (cutBits d (32 + 4 * l) 4 ^^^ (residue (ws.getD l 0)).toNat) (4 * l)
    some ⟨0, ws, BitVec.ofNat 16 (cutBits d 16 16), BitVec.ofNat 64 bad.sum, [], cutBits d 1 6⟩

/-- Reserved bits of a queue record: [15:7] and [127:96]. -/
def queueClean (b : List Byte) : Bool := let d := field b 64 16; cutBits d 7 9 = 0 && cutBits d 96 32 = 0

/-- The sixteen records of a queue: none where a VALID entry follows an invalid one. -/
def queueOf (bs : List Byte) (q : Nat) : Option (List QEntry) :=
  let recs := (List.range 16).map fun i => (bs.drop (80 * (16 * q + i))).take 80
  let es := recs.map queueEntry
  let n := (es.takeWhile (·.isSome)).length
  if recs.all queueClean && (es.drop n).all (·.isNone) then some (es.filterMap id) else none

/-- A loop record with the ROT kept for it: its last bundle is found by reading the headers of its body (log 11). -/
def State.loopOf (s : State) (b : List Byte) (rot : BitVec 5) : Except TrapInfo Loop :=
  let w := BitVec.ofNat 64 (field b 8 8)
  let start : DWord := (w.extractLsb' 0 52).zeroExtend 64
  let len := w.extractLsb' 52 10
  match s.bundleFrom 4096 (len.toNat - 1) start with
  | .error t => .error t
  | .ok (stop, _) => .ok ⟨BitVec.ofNat 32 (field b 0 4), BitVec.ofNat 32 (field b 4 4), start, len, stop, rot⟩

def State.loopsOf (s : State) (bs : List Byte) (rots : List (BitVec 5)) : Nat → Except TrapInfo (List Loop)
  | 0 => .ok []
  | n + 1 => match State.loopsOf s bs rots n, s.loopOf ((bs.drop (16 * n)).take 16) (rots.getD n 0) with
    | .ok l, .ok x => .ok (l ++ [x])
    | .error t, _ => .error t
    | _, .error t => .error t

/-! ## Return (R375) -/

/-- The checks of a frame under R213 and R183: reserved fields zero, DEPTH and WCFG in range, queues and chains well formed. -/
def frameOk (win0 : Nat) (f : List Byte) : Bool :=
  let w := BitVec.ofNat 32 (field f 0x84 4)
  let win := (w.extractLsb' 16 11).toNat
  let loopClean (k : Nat) : Bool := cutBits (field f (0x20 + 16 * k + 8) 8) 62 2 = 0
  let chains := (f.drop 0x1500).take 8320
  field f 0x81 3 = 0 && field f 0x88 120 = 0 && decide (field f 0x80 1 ≤ 6) && (List.range 6).all loopClean
    && w.extractLsb' 27 5 = 0 && w.extractLsb' 10 6 = 0 && winOk win && decide (win ≤ win0)
    && decide ((w.extractLsb' 0 10).toNat < max 1 win)
    && (List.range 4).all (fun q => (queueOf ((f.drop 0x100).take 5120) q).isSome)
    && (List.range 8).all fun k => (portImage chains k).ok

/-- The context as a frame restores it at level `lvl`, its loops found (R375). -/
def restoreFrame (c : Ctx) (lvl : Bool) (f : List Byte) (loops : List Loop) (base : Nat) (free : Unrecorded) : Ctx :=
  let epc := BitVec.ofNat 64 (field f 0 8)
  let c := { c with
    loops
    wcfg := BitVec.ofNat 32 (field f 0x84 4)
    q := ((List.range 4).map fun q => (q, (queueOf ((f.drop 0x100).take 5120) q).getD [])).filter fun e => e.2 ≠ [] }
  let c := restoreChains c base free ((if lvl then c.heldSv else c.held).getD ([], [])) ((f.drop 0x1500).take 8320)
  { c with
    sv := field f 0x0B 1 = 1
    held := if lvl then c.held else none
    heldSv := if lvl then none else c.heldSv
    tstat := if lvl then c.tstat &&& 1 else c.tstat &&& 2
    npc := epc
    fresh := true
    mark := true
    snap := none }

/-- A double trap taken at the running bundle, once loads, answers and engine operations in flight have ended (R211, R212). -/
def State.takeDouble (s : State) (t : TrapInfo) : State :=
  if s.trapWaits true then { s.snoop (s.frameLines true) [] with stall := some .freeze }
  else
    let s := s.modC (Ctx.settle s.staged)
    s.doubleTrap t (s.epcOf t)

/-- Does a chain image carry a RES that differs from that of its digits (R183)? -/
def imageResBad (bs : List Byte) : Bool :=
  (List.range 8).any fun k => (portImage bs k).val && (portImage bs k).lanes.any fun b => (laneOfRecord DLane.none b).resBad

/-- A context restored at a swap-in, a recall or the end of a migration: where its chain image fails R183, its first bundle takes
ILLEGAL. -/
def Ctx.imageChecked (c : Ctx) : Ctx :=
  if c.ports.isEmpty || (List.range 8).all (fun k => (portImage (chainImage c) k).ok) then c
  else { c with due := some (mkTrap 0x01 0xFF 0xFF 0, false) }

/-- `rfi` (R375). Its own level's handler ends: the frame is read, checked and restored, and execution resumes at EPC. A RES that
disagrees rewinds the handler (R219). -/
def execRfi (g : Guard) (s : State) : Out :=
  s.guarded g fun s =>
    let lvl := s.rd.sv
    if !s.rd.tstat.getLsbD (if lvl then 1 else 0) then s.illegal
    else
      let fp := (if lvl then s.rd.tfpSv else s.rd.tfp) &&& ~~~0xFF
      match s.pieces s.rd .read fp 13696 with
      | .error t => .next (s.takeDouble t)
      | .ok ps => s.reading ps fun s =>
        let f := s.readPieces ps
        let plev := field f 0x0B 1
        if (if lvl then 1 else 0) < plev then s.priv 0x22
        else if !frameOk s.c.win0 f then s.illegal
        else
          -- the headers of the loop bodies are fetched at the level that is returned to (R267, R372)
          let at_ := s.modC fun c => { c with sv := plev = 1 }
          match at_.loopsOf ((f.drop 0x20).take 96) (if lvl then s.c.rotsSv else s.c.rots) (field f 0x80 1) with
          | .error t => s.trap t
          | .ok loops =>
            if imageResBad ((f.drop 0x1500).take 8320) then .next (s.rewindFrom 4)
            else
            let held := ((if lvl then s.c.heldSv else s.c.held).getD ([], [])).1.length
            let c := restoreFrame s.c lvl f loops s.nextRef s.unrecorded
            .next { s with c, nextRef := s.nextRef + 16 + held, jumped := true, staged := false }

end Sys2Proof.Machine
end

