-- ==== Sys2Proof/Machine/Links.lean ====
section
/-!
DEFINITION. Links.lean: what the engines and the League need of the fabric: the endpoint-to-chip map (R30), channels, flits and
transfers (R21, R23, R28), and the handshake timeout (R38).
-/
namespace Sys2Proof.Machine

/-! ## The endpoint-to-chip map (R30, R31) -/

/-- Where the entry of a virtual rank stands; EPMAP_BASE ignores its low 19 bits (R38). -/
def State.mapLoc (s : State) (rank : Nat) : Nat := s.fab.epmap.toNat / 2 ^ 19 * 2 ^ 19 + 8 * rank

def State.mapEntry (s : State) (rank : Nat) : DWord := BitVec.ofNat 64 (Decode.leNat (s.bytesNow (s.mapLoc rank) 8))

def entState (e : DWord) : Nat := (e.extractLsb' 0 2).toNat
def entChan (e : DWord) : BitVec 8 := e.extractLsb' 8 8
def entEpoch (e : DWord) : BitVec 16 := e.extractLsb' 48 16
def entChip (e : DWord) : BitVec 12 := e.extractLsb' 16 12
def entDomain (e : DWord) : BitVec 5 := e.extractLsb' 2 5

def State.chan (s : State) (ch : BitVec 8) : Chan := Store.get Chan.reset s.fab.chans ch.toNat
def State.setChan (s : State) (ch : BitVec 8) (c : Chan) : State :=
  { s with fab := { s.fab with chans := Store.set Chan.reset s.fab.chans ch.toNat c } }

/-- A failure of a transfer is entered in FAB_ERR (R34). -/
def State.fabErr (s : State) (code : Nat) (ch : BitVec 8) (co : DWord) : State :=
  { s with fab := { s.fab with err := BitVec.ofNat 4 code ++ (ch ++ co.extractLsb' 0 52 : BitVec 60) } }

/-- Has FAB_TIMEOUT passed since a cycle? 0 is treated as 1 (R38). -/
def State.timedOut (s : State) (since : Nat) : Bool := decide (since + max 1 s.fab.timeout.toNat ≤ s.time.toNat)

/-! ## Flits (R21, R23) -/

def State.port (s : State) (p : Nat) : SPort := Store.get SPort.reset s.fab.ports p
def State.setPort (s : State) (p : Nat) (x : SPort) : State :=
  { s with fab := { s.fab with ports := Store.set SPort.reset s.fab.ports p x } }

/-- Ports that are up, as a mask. -/
def State.upPorts (s : State) : BitVec 16 :=
  (List.range 16).foldl (fun m p => if (s.port p).up then m ||| BitVec.twoPow 16 p else m) 0

/-- PORTS_UP of a channel (R26): its ports that are up. -/
def State.portsUp (s : State) (ch : BitVec 8) : BitVec 16 := (s.chan ch).cports &&& s.upPorts

/-- Flits of n bytes: packets of at most 256 bytes, each a header flit and its payload flits of 32 bytes (R21). -/
def flitsOf (n : Nat) : Nat := (n + 255) / 256 + (n + 31) / 32

/-- Flits leave a port and stay in its replay buffer until they are acknowledged (R23); those of the time tree are of no channel. -/
def State.portSend (s : State) (p : Nat) (ch : Option (BitVec 8)) (n : Nat) : State :=
  let x := s.port p
  s.setPort p { x with
    replay := x.replay ++ (List.range n).map fun i => (x.sent + i, ch)
    sent := x.sent + n
    ackAt := if x.replay.isEmpty then s.time.toNat else x.ackAt }

/-- Flits leave over a channel, on its lowest port that is up. -/
def State.sendFlits (s : State) (ch : BitVec 8) (n : Nat) : State :=
  match (List.range 16).find? (s.portsUp ch).getLsbD with
  | some p => s.portSend p (some ch) n
  | none => s

/-- One flit leaves over each port of a mask that is up: a message that goes out on every port of a channel (R27). -/
def State.sendEach (s : State) (ports : BitVec 16) (ch : BitVec 8) : State :=
  ((List.range 16).filter (ports &&& s.upPorts).getLsbD).foldl (fun s p => s.portSend p (some ch) 1) s

/-- Channels in numeric order that satisfy p. -/
def State.chansWith (s : State) (p : Chan → Bool) : List (BitVec 8) :=
  (s.fab.chans.filter fun e => p e.2).map fun e => BitVec.ofNat 8 e.1

/-- A message of one flit to the chip that has sent something: over the channel end whose peer it is, where there is one (R23). -/
def State.sendBack (s : State) (node : BitVec 12) (m : OutMsg) : State :=
  match s.chansWith fun c => (c.st = .opened || c.st = .fencing) && c.peer = node with
  | ch :: _ => (s.send m).sendFlits ch 1
  | [] => s.send m

/-- Does a channel end admit what a source sends under a generation (R29)? -/
def State.admits (s : State) (m : MsgSrc) : Bool :=
  s.fab.chans.any fun e => (e.2.st = .opened || e.2.st = .fencing) && e.2.admits && e.2.peer = m.node && e.2.gen = m.gen

/-- A message of the League to a node, as one flit over the channel that reaches it: it leaves only while that is OPEN, and carries
its PGEN (R28, R29). -/
def State.leagueSend (s : State) (node : BitVec 12) (what : String) (rank : Nat) (entry : DWord) : State :=
  match s.chansWith fun c => c.st = .opened && c.peer = node with
  | ch :: _ => (s.send (.league node (s.chan ch).pgen what rank entry)).sendFlits ch 1
  | [] => s

/-! ## Transfers as packets (R21, R29, R30) -/

/-- A list cut into runs of n elements, at least one; `fuel` bounds them. -/
def runsOf {α : Type} (n : Nat) : Nat → List α → List (List α)
  | 0, l => [l]
  | fuel + 1, l => if l.length ≤ n then [l] else l.take n :: runsOf n fuel (l.drop n)

/-- One part of a transfer leaves as a packet, under the next number of its channel (R23), for a domain of the other chip. -/
def State.sendPacket (s : State) (x : Xfer) (dom : BitVec 5) (part : Nat) (last : Bool) (body : Payload) : State :=
  let c := s.chan x.chan
  let p : Packet := ⟨s.fab.node, x.gen, dom, x.dest, x.epoch, c.psent, x.id, part, last, body⟩
  ((s.setChan x.chan { c with psent := c.psent + 1 }).send (.packet x.chan p)).sendFlits x.chan (flitsOf body.size)

/-- A transfer is issued: it is in flight, and leaves as one packet for each of its parts (R21). -/
def State.sendXfer (s : State) (x : Xfer) (dom : BitVec 5) (parts : List Payload) : State :=
  parts.zipIdx.foldl (fun s b => s.sendPacket x dom b.2 (b.2 + 1 = parts.length) b.1)
    { s with fab := { s.fab with xfers := s.fab.xfers ++ [x] } }

end Sys2Proof.Machine
end

