-- ==== Sys2Proof/Machine/Matrix.lean ====
section
/-!
DEFINITION. Matrix.lean: the M-slot and K-slot instructions of 18 (R334 to R350). An instruction issues once its waits are over
and joins the operations in flight; `State.engineCycle` runs them, cycle by cycle, at the times of R337.
-/
namespace Sys2Proof.Machine

/-! ## Exact sums and products (R343) -/

/-- A sum: a NaN or opposite infinities give the canonical NaN. -/
def addX (x y : FVal) : FVal :=
  match x, y with
  | .nan _ _, _ => .cnan
  | _, .nan _ _ => .cnan
  | .inf a, .inf b => if a = b then .inf a else .cnan
  | .inf a, _ => .inf a
  | _, .inf b => .inf b
  | x, y => addFin x y

/-- A product: a NaN or ∞ × 0 gives the canonical NaN. -/
def mulX (x y : FVal) : FVal :=
  match x, y with
  | .nan _ _, _ => .cnan
  | _, .nan _ _ => .cnan
  | .inf a, y => if y.isZero then .cnan else .inf (a != y.neg)
  | x, .inf b => if x.isZero then .cnan else .inf (x.neg != b)
  | x, y => mulFin x y

def sumX (l : List FVal) : FVal := l.foldl addX (.fin false 0 0)

def f32Val (w : Word) : FVal := (decodeF 0 false 0 w).v

/-! ## Row images (R335) -/

/-- Entries of a row image, or of a group of four rows of a block format. -/
def perRow (f : Nat) : Nat := Decode.imageEntries f (if Decode.isBlock f then 4 else 1)

/-- The bytes of entry words. -/
def bytesOf (ws : List Word) : List Byte := ws.flatMap fun w => Decode.leBytes 4 w.toNat

/-- The words of bytes. -/
def wordsOf (bs : List Byte) : List Word := (List.range (bs.length / 4)).map fun i => BitVec.ofNat 32 (field bs (4 * i) 4)
where
  field (bs : List Byte) (off n : Nat) : Nat := Decode.leNat ((bs.drop off).take n)

/-- An element of an engine: a NaN is the canonical NaN, a zero has exponent 0, and a Scruple scale multiplies it (R340). -/
def engineElem (scale : BitVec 8) (v : FVal) : FVal :=
  match v with
  | .nan _ _ => .cnan
  | v => if scale = 255 then .cnan
    else match v with
      | .fin n m e => if m = 0 then .fin n 0 0 else .fin n m (e + 127 - scale.toNat)
      | v => v

/-- Row j of the rows whose image words are given: 64 elements (R335, R340). -/
def rowElems (f : Nat) (xv : BitVec 9) (scale : BitVec 8) (ws : List Word) (j : Nat) : List FVal :=
  let bs := bytesOf ws
  (List.range 64).map fun n =>
    let code (x : Nat) : FVal := (decodeF f false xv (BitVec.ofNat 32 x)).v
    engineElem scale (match f with
      | 1 | 2 => code ((byteAt bs (2 * n)).toNat + 256 * (byteAt bs (2 * n + 1)).toNat)
      | 5 => code (if n % 2 = 0 then (byteAt bs (n / 2)).toNat % 16 else (byteAt bs (n / 2)).toNat / 16)
      | 6 | 7 => bdxElem f bs (64 * (j % 4) + n)
      | _ => code (byteAt bs n).toNat)

/-- The window entry n entries after the first, wrapped (R124). -/
def MOp.ent (o : MOp) (n : Nat) : Nat := (o.entry + n) % max 1 o.win

/-- The image words of row j as the window holds them, or zeros for the operand `zero`. -/
def rowWords (c : Ctx) (o : MOp) (j : Nat) : List Word :=
  let g := perRow o.fmt
  let first := if Decode.isBlock o.fmt then g * (j / 4) else g * j
  if o.zero then List.replicate (16 * g) 0 else (List.range g).flatMap fun i => c.rvs (o.ent (first + i))

/-! ## Timing (R337) -/

/-- ρ, the rows per cycle of `mma`. -/
def rho (f : Nat) : Nat :=
  match f with
  | 1 | 2 => 1
  | 3 | 4 | 6 => 2
  | _ => 4

def ceilDiv (a b : Nat) : Nat := (a + b - 1) / b

/-- The ports of the engine. -/
inductive EPort where
  | none | load | stream | drain | k
  deriving DecidableEq, Repr

def ePort : EOp → EPort
  | .mload .. => .load
  | .mma .. => .stream
  | .mclr .. | .mdrain .. | .mchk .. => .drain
  | .kread .. | .kwrite .. | .kadd .. | .kreadck .. => .k
  | _ => .none

def bankOf : EOp → Option (BitVec 3)
  | .mma _ b _ _ _ _ _ _ | .mclr b _ | .mdrain _ b _ _ _ _ _ | .mchk b _ _ _ | .kread b _ _ _ | .kwrite b _ _ _ | .kadd b _ _ _
  | .kreadck b _ _ => some b
  | _ => none

def writesBank : EOp → Bool
  | .mma .. | .mclr .. | .kwrite .. | .kadd .. => true
  | _ => false

/-- Cycles its port is held. -/
def MOp.held (o : MOp) : Nat :=
  match o.instr with
  | .mload _ _ _ rows _ => rows.toNat
  | .mma _ _ _ _ _ _ _ rows => ceilDiv rows.toNat (rho o.fmt)
  | .mdrain _ _ (.port _) _ _ _ _ => 1
  | .mdrain _ _ _ rows _ _ _ => rows.toNat
  | .mchk .. => 16
  | _ => 1

/-- Cycles after which it has read its bank. -/
def MOp.reads (o : MOp) : Nat :=
  match o.instr with
  | .kread .. | .kadd .. | .kreadck .. => 5
  | _ => o.held

/-- The last cycle after issue in which it acts. -/
def MOp.last (o : MOp) : Nat :=
  match o.instr with
  | .mload _ _ _ rows _ => rows.toNat + 1
  | .mma .. => o.held + 11
  | .mclr .. | .kwrite .. => 1
  | .mdrain _ _ (.port _) _ _ _ _ => 6
  | .mdrain _ _ _ rows _ _ _ => rows.toNat + 4
  | .mchk .. => 19
  | _ => 4

/-- An `mma` that has rows to read. -/
def MOp.streams (o : MOp) : Bool := match o.instr with
  | .mma .. => decide (o.age < o.held)
  | _ => false

/-- An `mload` of a plane. -/
def MOp.loads (o : MOp) (plane : Nat) : Bool := match o.instr with
  | .mload .. => o.plane = plane
  | _ => false

/-- Do the operations in flight let an instruction issue (R337)? `plane` is the active plane. -/
def mayIssue (ops : List MOp) (i : EOp) (plane : Nat) : Bool :=
  let onBank := ops.filter fun o => (bankOf o.instr).isSome && bankOf o.instr = bankOf i
  let chained := match i, onBank.getLast? with
    | .mma .., some o => (match o.instr with | .mma .. => true | _ => false)
    | _, _ => false
  let port := ops.all fun o => ePort i = .none || ePort o.instr ≠ ePort i || decide (o.held ≤ o.age)
  let banks := chained || onBank.all fun o => !writesBank o.instr && (!writesBank i || decide (o.reads ≤ o.age))
  let planes := match i with
    | .mload _ p _ _ _ => p.toNat ≠ plane || !ops.any MOp.streams
    | .mma .. => !ops.any (MOp.loads · plane)
    | .mswap => !ops.any fun o => o.loads 0 || o.loads 1 || o.streams
    | _ => true
  port && banks && planes

/-! ## Issue (R336, R337) -/

def State.myEngine (s : State) : Engine := s.engine s.c.core s.c.rank
def State.modEngine (s : State) (f : Engine → Engine) : State := s.setEngine s.c.core s.c.rank (f s.myEngine)

def Engine.plane (e : Engine) : Nat := if e.active then 1 else 0

/-- A blank operation. -/
def mkMOp (ref : Nat) (i : EOp) : MOp :=
  ⟨ref, i, 0, 127, 0, 0, true, 1, 0, 0, 0, [], [], false, [], 0, [], 0⟩

/-- An M or K slot: owner, bank mask, format, range, then the waits (R336, R337): for a bank that a swap still fills (R107), and for a
former owner's operations among them (R278). `src`
is its vector operand with the entries it takes for a format; `k` takes the resolved format and the first entry. -/
def State.engineSlot (s : State) (i : EOp) (fmt : BitVec 4) (formats : List Nat) (src : Opnd) (entries : Nat → Nat)
    (ok : Nat → Bool) (k : State → Resolved → Nat → Out) : Out :=
  let m := s.mownOf s.rd.core s.rd.rank
  if m.extractLsb' 0 2 ≠ BitVec.ofNat 2 (s.rd.seq % 4) then s.notOwner
  else if (match bankOf i with | some b => !s.rd.banks.getLsbD b.toNat | none => false) then s.notOwner
  else match s.resolve fmt with
    | none => s.illegal
    | some r =>
      if !formats.contains r.fmt || !ok r.fmt then s.illegal
      else
        let first : Option Nat := match src with
          | .v v => if v.toNat + entries r.fmt ≤ min 224 s.rd.win then some (s.rd.entry v.toNat) else none
          | .uni u => some ((s.rd.rs (8 + u.setWidth 6)).toNat % 2 ^ 32 % max 1 s.rd.win)
          | _ => some 0
        match first with
        | none => s.illegal
        | some e =>
          let q := s.seqOf s.rd.seq
          if (match bankOf i with | some b => q.both.getLsbD b.toNat && decide (s.time.toNat < q.bothAt) | none => false) then
            s.stalled .freeze
          else if mayIssue s.rd.mops i s.myEngine.plane && !s.formerBusy then k s r e
          else s.stalled .hold

/-- Cycles that an operation has left to run (R338). -/
def MOp.left (o : MOp) : Nat := o.last - o.age

/-- An operation joins those in flight. -/
def State.addMOp (s : State) (o : MOp) : State := s.modC fun c => { c with mops := c.mops ++ [o] }

/-- The scale of a format-table entry with SCEN, or 127 (R340, R346). -/
def State.scruScale (s : State) (r : Resolved) : Option (BitVec 8) :=
  r.scale.map fun t => (s.scr s.rd.core s.rd.rank t.toNat).scale

/-- An operation of a slot with its latched operands. -/
def State.newMOp (s : State) (i : EOp) (r : Resolved) (entry : Nat) (src : Opnd) : MOp × State :=
  let (ref, s) := s.take
  ({ mkMOp ref i with
      fmt := r.fmt, xv := r.xv, scale := (s.scruScale r).getD 127, entry, zero := src = .zero, win := s.rd.win,
      ftz := s.rd.ftz, plane := s.myEngine.plane }, s)

def mmaFormats : List Nat := [1, 2, 3, 4, 5, 6, 7]
def drainFormats : List Nat := [0, 1, 2, 3, 4, 5, 6, 7, 8, 9, 10, 11, 12, 13]

/-- `mload` (R340). -/
def execMload (fmt : BitVec 4) (plane : BitVec 1) (src : Opnd) (rows : BitVec 8) (row0 : BitVec 6) (s : State) : Out :=
  let i : EOp := .mload fmt plane src rows row0
  s.engineSlot i fmt mmaFormats src (Decode.imageEntries · rows.toNat)
    (fun f => !Decode.isBlock f || (row0.toNat % 4 = 0 && rows.toNat % 4 = 0)) fun s r e =>
      let (o, s) := s.newMOp i r e src
      .next (s.addMOp { o with plane := plane.toNat })

/-- `mswap` (R341): the shadow plane becomes the active one, with its configuration. -/
def execMswap (s : State) : Out :=
  s.engineSlot .mswap 0 [0] .none (fun _ => 0) (fun _ => true) fun s _ _ =>
    .next (s.modEngine fun e => { e with active := !e.active })

/-- `mcfg` (R342): the configuration of the shadow plane. -/
def execMcfg (neg trans : Bool) (s : State) : Out :=
  s.engineSlot (.mcfg neg trans) 0 [0] .none (fun _ => 0) (fun _ => true) fun s _ _ =>
    .next (s.modEngine fun e =>
      { e with cfg := Store.set 0 e.cfg (1 - e.plane) (BitVec.ofBool neg ++ BitVec.ofBool trans : BitVec 2) })

/-- W' of a plane (R342): keys 64 × k + n. -/
def Engine.weights (e : Engine) : Store FVal :=
  let g := Store.get 0 e.cfg e.plane
  let base := 4096 * e.plane
  let at_ (k n : Nat) : FVal :=
    let v := Store.get (FVal.fin false 0 0) e.planes (base + (if g.getLsbD 0 then 64 * n + k else 64 * k + n))
    if g.getLsbD 1 then v.negate else v
  if !g.getLsbD 0 && !g.getLsbD 1 then
    (e.planes.filter fun x => decide (base ≤ x.1 ∧ x.1 < base + 4096)).map fun (x : Nat × FVal) => (x.1 - base, x.2)
  else Store.run (FVal.fin false 0 0) 0 ((List.range 64).flatMap fun k => (List.range 64).map (at_ k))

/-- `mma` (R343, R344). -/
def execMma (fmt : BitVec 4) (bank : BitVec 3) (ck acc : Bool) (src : Opnd) (rmask cmask : BitVec 6) (rows : BitVec 8)
    (s : State) : Out :=
  let i : EOp := .mma fmt bank ck acc src rmask cmask rows
  s.engineSlot i fmt mmaFormats src (Decode.imageEntries · rows.toNat)
    (fun f => !Decode.isBlock f || rows.toNat % 4 = 0) fun s r e =>
      let (o, s) := s.newMOp i r e src
      .next (s.addMOp { o with rmask := s.rd.rs rmask, cmask := s.rd.rs cmask, wts := s.myEngine.weights })

/-- `mclr` (R345). -/
def execMclr (bank : BitVec 3) (ck : Bool) (s : State) : Out :=
  s.engineSlot (.mclr bank ck) 0 [0] .none (fun _ => 0) (fun _ => true) fun s r e =>
    let (o, s) := s.newMOp (.mclr bank ck) r e .none
    .next (s.addMOp o)

/-- The D slot that an `mdrain` to a port stands for: a `dcvt` from FP32 (R347). -/
def drainSlot (p : BitVec 3) : DSlot := ⟨0, 0, false, false, .port p, .zero, .none, .none, .none, 0, false, 0⟩

/-- `mdrain` (R346, R347). -/
def execMdrain (fmt : BitVec 4) (bank : BitVec 3) (dst : Opnd) (rows : BitVec 8) (scale : BitVec 8) (sr clip : Bool)
    (s : State) : Out :=
  let i : EOp := .mdrain fmt bank dst rows scale sr clip
  s.engineSlot i fmt drainFormats dst (Decode.imageEntries · rows.toNat)
    (fun f => !Decode.isBlock f || rows.toNat % 4 = 0) fun s r e =>
      let (o, s) := s.newMOp i r e dst
      let o := { o with scale := (s.scruScale r).getD scale, hist := s.histSlots bank }
      match dst with
      | .port p =>
        let ps := (List.range 4).map fun j => p + BitVec.ofNat 3 j
        let cases := ps.map fun q => s.rd.dstPort q
        if cases.contains .illegal then s.illegal
        else if cases.contains .wait then s.stalled .hold
        else .next ((s.modC fun c => { c with
          ports := ps.foldl (fun m q => Store.set none m q.toNat (some ⟨o.ref, false, []⟩)) c.ports }).addMOp o)
      | _ =>
        let n := 64 * rows.toNat
        let (rnd, s) := if sr then
            (draw (s.rank s.rd.rank).key s.c.stream n, s.modC fun c => { c with stream := c.stream + BitVec.ofNat 64 n })
          else ([], s)
        .next (s.addMOp { o with rnd })

/-- `mchk` (R348). -/
def execMchk (bank : BitVec 3) (r : BitVec 6) (tol : BitVec 6) (b : BitVec 4) (s : State) : Out :=
  s.engineSlot (.mchk bank r tol b) 0 [0] .none (fun _ => 0) (fun _ => true) fun s f e =>
    let (o, s) := s.newMOp (.mchk bank r tol b) f e .none
    .next (s.addMOp o)

/-- A K slot (R349). -/
def State.kSlot (s : State) (i : EOp) (v : Opnd) : Out :=
  s.engineSlot i 0 [0] v (fun _ => 4) (fun _ => true) fun s r e =>
    let (o, s) := s.newMOp i r e v
    .next (s.addMOp o)

/-- `kread` (R349). -/
def execKread (bank : BitVec 3) (index : BitVec 6) (v : Opnd) (col : Bool) (s : State) : Out :=
  s.kSlot (.kread bank index v col) v
/-- `kwrite` (R349). -/
def execKwrite (bank : BitVec 3) (index : BitVec 6) (v : Opnd) (col : Bool) (s : State) : Out :=
  s.kSlot (.kwrite bank index v col) v
/-- `kadd` (R349). -/
def execKadd (bank : BitVec 3) (index : BitVec 6) (v : Opnd) (col : Bool) (s : State) : Out :=
  s.kSlot (.kadd bank index v col) v
/-- `kreadck` (R349). -/
def execKreadck (bank : BitVec 3) (v : Opnd) (col : Bool) (s : State) : Out := s.kSlot (.kreadck bank v col) v

/-! ## Banks -/

/-- The key of element (r, n) of a bank. -/
def accKey (b : BitVec 3) (r n : Nat) : Nat := 4096 * b.toNat + 64 * r + n

def Engine.elem (e : Engine) (b : BitVec 3) (r n : Nat) : Word := Store.get 0 e.acc (accKey b r n)

/-- A row of a bank, and a row or column as the K slot numbers it. -/
def Engine.row (e : Engine) (b : BitVec 3) (r : Nat) : List Word := Store.getRange 0 e.acc (accKey b r 0) 64
def Engine.line (e : Engine) (b : BitVec 3) (j : Nat) (col : Bool) : List Word :=
  if col then (List.range 64).map fun r => e.elem b r j else e.row b j

def Engine.setLine (e : Engine) (b : BitVec 3) (j : Nat) (col : Bool) (ws : List Word) : Engine :=
  if col then { e with acc := (List.range 64).foldl (fun m r => Store.set 0 m (accKey b r j) (ws.getD r 0)) e.acc }
  else { e with acc := Store.setRange 0 e.acc (accKey b j 0) ws }

def Engine.setCkv (e : Engine) (b : BitVec 3) (v : Bool) : Engine :=
  { e with ckv := if v then e.ckv ||| BitVec.twoPow 8 b.toNat else e.ckv &&& ~~~(BitVec.twoPow 8 b.toNat) }

/-- One row of a product added into its bank (R343). -/
def Engine.mmaRow (e : Engine) (b : BitVec 3) (acc : Bool) (o : MOp) (r : Nat) (a : List FVal) : Engine :=
  let w (k n : Nat) : FVal := Store.get (FVal.fin false 0 0) o.wts (64 * k + n)
  let one (n : Nat) (x : Word) : Word :=
    if !o.cmask.getLsbD n then x
    else
      let old : FVal := if acc then f32Val x else .fin false 0 0
      roundF32 ((a.zipIdx.map fun t => mulX t.1 (w t.2 n)).foldl addX old)
  if !o.rmask.getLsbD r then e
  else { e with acc := Store.setRange 0 e.acc (accKey b r 0) ((e.row b r).zipIdx.map fun x => one x.2 x.1) }

/-- The checksums of an `mma` with CK (R344). -/
def Engine.checksums (e : Engine) (b : BitVec 3) (o : MOp) (rows : List (List FVal)) : Engine :=
  let w (k n : Nat) : FVal := Store.get (FVal.fin false 0 0) o.wts (64 * k + n)
  let R := (List.range rows.length).filter o.rmask.getLsbD
  let C := (List.range 64).filter o.cmask.getLsbD
  let a (r k : Nat) : FVal := (rows.getD r []).getD k (.fin false 0 0)
  let WC := (List.range 64).map fun k => sumX (C.map fun n => w k n)
  let AC := (List.range 64).map fun k => sumX (R.map fun r => a r k)
  let key (i : Nat) : Nat := 64 * b.toNat + i
  let put (m : Store Word) (i : Nat) (t : FVal) : Store Word :=
    Store.set 0 m (key i) (roundF32 (addX (f32Val (Store.get 0 m (key i))) t))
  { e with
    cr := R.foldl (fun m r => put m r (sumX (WC.zipIdx.map fun x => mulX (a r x.2) x.1))) e.cr
    cc := C.foldl (fun m n => put m n (sumX (AC.zipIdx.map fun x => mulX x.1 (w x.2 n)))) e.cc }

/-! ## Draining (R346) -/

/-- Top: the largest finite value of a format, or the upper end of an integer range. -/
def topOf (f : Nat) : FVal :=
  if isInt f then .ofInt (intMax f) 0
  else if Decode.isBlock f then bdxInf (bdxOf f) (.inf false)
  else match f with
    | 5 => .fin false 6 0
    | _ => (decodeIeee f (BitVec.ofNat 32 (maxCode f))).v

/-- The lower end of the clip: -Top, or the lower end of an integer range. -/
def bottomOf (f : Nat) : FVal := if isInt f then .ofInt (intMin f) 0 else (topOf f).negate

/-- An element after the first two steps of R346; FTZ reads a subnormal one as zero (R145, R336). -/
def drainVal (f : Nat) (ftz : Bool) (scale : BitVec 8) (clip : Bool) (w : Word) : FVal :=
  let x : FVal := if scale = 255 then .cnan else (decodeF 0 ftz 0 w).v.scale ((scale.toNat : Int) - 127)
  if !clip || x.isNan then x else minVal (maxVal x (bottomOf f)) (topOf f)

/-- Elements of w bits packed into words, the first in the low bits (R151). -/
def packWords (w : Nat) (l : List Nat) : List Word :=
  let n := 32 / w
  (List.range (l.length / n)).map fun i =>
    BitVec.ofNat 32 ((List.range n).map fun j => (l.getD (n * i + j) 0 % 2 ^ w) <<< (w * j)).sum

def pad (n : Nat) (ws : List Word) : List Word := ws ++ List.replicate (n - ws.length) 0

/-- Rows converted to their image (R346): its entry words and the flags. A block format takes four rows, any other one. -/
def drainImage (o : MOp) (sr clip : Bool) (rows : List (List Word)) (first : Nat) : List Word × Fl :=
  let f := o.fmt
  let mode := if sr then 2 else 0
  let bits (i : Nat) : BitVec 16 := (o.rnd.getD (64 * first + i) 0).extractLsb' 16 16
  let vs := (rows.flatMap id).zipIdx.map fun x => (drainVal f o.ftz o.scale clip x.1, bits x.2)
  -- a NaN whose quiet bit is clear is consumed (R142)
  let inv : Fl := if o.scale ≠ 255 && (rows.flatMap id).any fun w => (decodeF 0 false 0 w).snan then flInv else 0
  if Decode.isBlock f then
    let (bs, fl) := bdxEncode f mode vs
    (pad (16 * perRow f) (wordsOf bs), inv ||| fl)
  else
    let out := vs.map fun x =>
      if isInt f then floatToInt f mode clip x.2 x.1 else roundTo f mode clip o.ftz (o.xv.getLsbD 8) x.2 (.val x.1)
    let w := match f with
      | 0 | 8 | 9 => 32
      | 1 | 2 | 10 | 13 => 16
      | 5 => 4
      | _ => 8
    (pad (16 * perRow f) (packWords w (out.map fun x => x.1.toNat)), out.foldl (fun a x => a ||| x.2) inv)

/-! ## Checking (R348) -/

/-- Does a row or column disagree with its checksum? -/
def mismatch (xs : List Word) (ck : Word) (tol : Nat) : Bool :=
  let vs := xs.map f32Val
  let c := f32Val ck
  let s := sumX vs
  if vs.any FVal.isNan || c.isNan || s.isNan then true
  else if s.isInf || c.isInf then !(s.isInf && c.isInf && s.neg = c.neg)
  else
    let t := sumX (vs.map fun v => if v.neg then v.negate else v)
    let d := addFin c s.negate
    let d := if d.neg then d.negate else d
    ltVal (t.scale (-(tol : Int))) d

def maskOf (l : List Bool) : DWord := BitVec.ofNat 64 ((l.zipIdx.map fun x => if x.1 then 2 ^ x.2 else 0).sum)

/-- The two masks and the status of `mchk`. -/
def Engine.check (e : Engine) (b : BitVec 3) (tol : Nat) : DWord × DWord × Bool :=
  let rm := maskOf ((List.range 64).map fun r => mismatch (e.row b r) (Store.get 0 e.cr (64 * b.toNat + r)) tol)
  let cm := maskOf ((List.range 64).map fun n => mismatch (e.line b n true) (Store.get 0 e.cc (64 * b.toNat + n)) tol)
  if e.ckv.getLsbD b.toNat then (rm, cm, rm = 0 && cm = 0) else (~~~0, ~~~0, false)

/-! ## A cycle of the engine (R337) -/

/-- The rows of an operation that fall in a cycle: those whose time, in rows of ρ per cycle, is `t` cycles. -/
def rowsAt (n rate t : Nat) : List Nat := (List.range n).filter fun r => r / rate = t

def MOp.get (o : MOp) (j : Nat) : List Word := o.words.getD j []

/-- `kadd` of one element: a zero addend leaves its bits (R349). -/
def kaddElem (x a : Word) : Word := if (f32Val a).isZero then x else roundF32 (addX (f32Val x) (f32Val a))

/-- Four entries' words from the operand of a K slot. -/
def fourEntries (c : Ctx) (o : MOp) : List Word := (List.range 4).flatMap fun j => c.rvs (o.ent j)

/-- What an operation reads, and what it does to the engine, in the cycle `age` after its issue. -/
def MOp.act (o : MOp) (c : Ctx) (e : Engine) : MOp × Engine :=
  match o.instr with
  | .mload _ _ _ rows row0 =>
    let o1 := if o.age < rows.toNat then { o with words := o.words ++ [rowWords c o o.age] } else o
    if 2 ≤ o.age ∧ o.age < rows.toNat + 2 then
      let j := o.age - 2
      (o1, { e with planes := Store.setRange (FVal.fin false 0 0) e.planes (4096 * o.plane + 64 * (row0.toNat + j))
                      (rowElems o.fmt o.xv o.scale (o1.get j) j) })
    else (o1, e)
  | .mma _ b ck acc _ _ _ rows =>
    let rate := rho o.fmt
    let o1 := { o with words := o.words ++ (rowsAt rows.toNat rate o.age).map (rowWords c o) }
    let elems (r : Nat) : List FVal := rowElems o.fmt o.xv o.scale (o1.get r) r
    let e := if 12 ≤ o.age then (rowsAt rows.toNat rate (o.age - 12)).foldl (fun e r => e.mmaRow b acc o r (elems r)) e else e
    if o.age = o.last then
      if !ck then (o1, e.setCkv b false)
      else if e.ckv.getLsbD b.toNat then (o1, e.checksums b o ((List.range rows.toNat).map elems))
      else (o1, e)
    else (o1, e)
  | .mclr b ck =>
    if o.age = 1 then
      let e := { e with acc := Store.clear e.acc (accKey b 0 0) 4096 }
      let e := if ck then { e with cr := Store.clear e.cr (64 * b.toNat) 64, cc := Store.clear e.cc (64 * b.toNat) 64 } else e
      (o, e.setCkv b ck)
    else (o, e)
  | .mdrain _ b dst rows _ _ _ => match dst with
    | .port _ => (if o.age = 0 then { o with words := [e.row b (rows.toNat - 1)] } else o, e)
    | _ => (if o.age < rows.toNat then { o with words := o.words ++ [e.row b o.age] } else o, e)
  | .mchk b _ tol _ =>
    if o.age = 0 then
      let (rm, cm, ok) := e.check b tol.toNat
      ({ o with words := [[rm.extractLsb' 0 32, rm.extractLsb' 32 32, cm.extractLsb' 0 32, cm.extractLsb' 32 32,
          if ok then 1 else 0]] }, e)
    else (o, e)
  | .kwrite b ix _ col =>
    if o.age = 1 then (o, (e.setLine b ix.toNat col (fourEntries c o)).setCkv b false) else (o, e)
  | .kadd b ix _ col =>
    if o.age = 4 then
      let a := fourEntries c o
      (o, e.setLine b ix.toNat col ((e.line b ix.toNat col).zipIdx.map fun x => kaddElem x.1 (a.getD x.2 0)))
    else (o, e)
  | _ => (o, e)

/-- Four entries take 64 words. -/
def putFour (o : MOp) (c : Ctx) (ws : List Word) : Ctx :=
  (List.range 4).foldl (fun c j => c.wvs (o.ent j) ((ws.drop (16 * j)).take 16)) c

/-- What an operation lands in the window, to be seen from the next cycle on. -/
def MOp.lands (o : MOp) (c : Ctx) (e : Engine) : MOp × Ctx :=
  match o.instr with
  | .mdrain _ _ dst rows _ sr clip => match dst with
    | .port _ => (o, c)
    | _ =>
      if o.age < 5 then (o, c)
      else
        let r := o.age - 5
        let g := perRow o.fmt
        let put (ws : List Word) (n : Nat) (c : Ctx) : Ctx :=
          (List.range g).foldl (fun c j => c.wvs (o.ent (n + j)) ((ws.drop (16 * j)).take 16)) c
        if rows.toNat ≤ r then (o, c)
        else if Decode.isBlock o.fmt then
          if r % 4 = 3 then
            let (ws, fl) := drainImage o sr clip ((List.range 4).map fun j => o.get (r - 3 + j)) (r - 3)
            ({ o with fl := o.fl ||| fl }, put ws (g * (r / 4)) c)
          else (o, c)
        else
          let (ws, fl) := drainImage o sr clip [o.get r] r
          ({ o with fl := o.fl ||| fl }, put ws (g * r) c)
  | .kread b ix _ col => if o.age = 3 then (o, putFour o c (e.line b ix.toNat col)) else (o, c)
  | .kreadck b _ col =>
    if o.age = 3 then (o, putFour o c (Store.getRange 0 (if col then e.cc else e.cr) (64 * b.toNat) 64)) else (o, c)
  | _ => (o, c)

/-- What an operation does to its strand's registers, in the snapshot too where it was issued before it (R218, log 27). -/
def State.inBoth (s : State) (ref : Nat) (f : State → State) : State :=
  let t := f s
  match s.c.snap with
  | some r =>
    if ref < s.c.point then
      let u := f { t with c := t.c.restore r }
      { u with c := { t.c with snap := (u.c.snapshot 0).snap } }
    else t
  | none => t

/-- What a lane of a port carries of an element, exactly: a word and the power of two by which it counts, 0 where FP32 holds the value
(R347, log 44). -/
def MOp.drained (o : MOp) (clip : Bool) (w : Word) : Word × Int :=
  if o.scale ≠ 255 && (f32Val w).isNan then (w, 0)
  else
    let v := drainVal 0 o.ftz o.scale clip w
    let x := roundF32 v
    if v.isNan || v.isInf || ((decodeF 0 o.ftz 0 x).v = f32Val x && eqVal v (f32Val x)) then (x, 0)
    else (w, (o.scale.toNat : Int) - 127)

/-- The values of a port `mdrain` enter their four ports, each as a `dcvt` from FP32 issued six cycles after it, whose first digit a
bundle of that cycle finds (R347). -/
def State.drainPorts (s : State) (o : MOp) (p : BitVec 3) (clip : Bool) : State :=
  let t := (List.range 4).foldl (fun s j =>
    let xs := (List.range 16).map fun l => o.drained clip ((o.get 0).getD (16 * j + l) 0)
    s.issueOnline 0x0F (drainSlot (p + BitVec.ofNat 3 j)) ⟨0, s.c.xv, none⟩ []
      ⟨xs.map (·.1), [], [], [], [], [], xs.map (·.2)⟩) { s with old := none }
  { t with old := s.old }

/-- An M or K operation completes (R336, R337, R348): `mchk` writes its scalars and predicate, `mdrain` enters its flags. -/
def State.opDone (s : State) (ref : Nat) : State :=
  match s.c.mops.find? fun o => o.ref = ref with
  | none => s
  | some o =>
    let s := s.modC fun c => { c with mops := c.mops.filter fun x => x.ref ≠ ref }
    match o.instr with
    | .mchk _ r _ b =>
      let w (j : Nat) : Word := (o.get 0).getD j 0
      s.inBoth ref fun s => s.modC fun c => ((c.ws r (w 1 ++ w 0 : BitVec 64)).ws (r + 1) (w 3 ++ w 2 : BitVec 64)).wb b (w 4 = 1)
    | .mdrain .. => s.inBoth ref fun s => s.modC fun c => c.flag o.fl
    | _ => s

/-- An M or K operation completes (R337). -/
def execMatrixOperationComplete (id : Nat) (s : State) : Out := .next (s.opDone id)

/-- A charge of 64 units for each row step of an `mma` (R113). -/
def mmaSteps (ops : List MOp) : Nat := (ops.filter MOp.streams).length

/-- One cycle of the operations of the running context: reads and bank writes, and ports. -/
def State.engineCycle (s : State) : State :=
  if s.c.mops.isEmpty then s
  else
    let s := s.charge s.c.rank 2 (64 * mmaSteps s.c.mops)
    let s := s.c.mops.foldl (fun s o => match o.instr with
      | .mdrain _ b (.port _) rows _ _ _ => if o.age = 0 then s.histDrain o.hist (s.myEngine.row b (rows.toNat - 1)) else s
      | .mdrain _ b _ rows _ _ _ => if o.age < rows.toNat then s.histDrain o.hist (s.myEngine.row b o.age) else s
      | _ => s) s
    let step (x : List MOp × Engine) (o : MOp) : List MOp × Engine := let (o, e) := o.act s.c x.2; (x.1 ++ [o], e)
    let (ops, e) := s.c.mops.foldl step ([], s.myEngine)
    let s := if e = s.myEngine then s else s.setEngine s.c.core s.c.rank e
    { s with c := { s.c with mops := ops } }

/-- The landings at the end of a cycle: those of the M and K slots, and, where the digit units run, those of the D slots, in order
of issue (R173, R238), with the stage predicates of the running bundle's loop last (R266); then M and K operations that are done
complete, and those that drain to ports enter them in the next cycle. -/
def State.landings (s : State) (digits : Bool) : State :=
  let e := s.myEngine
  let land (x : List MOp × Ctx) (o : MOp) : List MOp × Ctx :=
    let (o, c) := o.lands (if digits then landDue x.2 (x.2.dops.filter fun d => decide (d.ref < o.ref)) else x.2) e
    (x.1 ++ [o], c)
  let (ops, c) := s.c.mops.foldl land ([], s.c)
  let c : Ctx := { c with mops := ops.map fun (o : MOp) => { o with age := o.age + 1 } }
  let c := if digits then c.landings else c
  let c := if s.staged then c.stages else c
  let s := (ops.filter fun o => decide (o.last ≤ o.age)).foldl (fun s o => s.opDone o.ref) { s with c }
  ops.foldl (fun s o => match o.instr with
    | .mdrain _ _ (.port p) _ _ _ clip => if o.age = 5 then s.inBoth o.ref fun s => s.drainPorts o p clip else s
    | _ => s) s

end Sys2Proof.Machine
end

