-- ==== Sys2Proof/Machine/Vector.lean ====
section
/-!
DEFINITION. Vector.lean: integer rows, cross-lane operations, predicate logic and moves of the D slots (R328 to R333).
-/
namespace Sys2Proof.Machine

/-- An integer row of two operands: its exact result, fitted by SAT (R328). -/
def State.intRow (s : State) (op : Nat) (d : DSlot) (f : Nat → Int → Int → Int) : Out :=
  s.fixedRow op d (fun _ => 1) id fun r x l =>
    (fitI r.fmt d.sat (f r.fmt (decodeI r.fmt (x.a.getD l 0)) (decodeI r.fmt (x.b.getD l 0))), 0, 0)

/-- A bitwise row: the width's bits, extended again. -/
def State.bitRow (s : State) (op : Nat) (d : DSlot) (f : Word → Word → Word) : Out :=
  s.fixedRow op d (fun _ => 1) id fun r x l => (fitI r.fmt false (f (x.a.getD l 0) (x.b.getD l 0)).toNat, 0, 0)

/-- `vadd` (R328). -/
def execVadd (d : DSlot) (s : State) : Out := s.intRow 0x18 d fun _ a b => a + b
/-- `vsub` (R328). -/
def execVsub (d : DSlot) (s : State) : Out := s.intRow 0x19 d fun _ a b => a - b
/-- `vmul` (R328). -/
def execVmul (d : DSlot) (s : State) : Out := s.intRow 0x1A d fun _ a b => a * b

/-- p / 2^w rounded to nearest, ties to even, or down (R328). -/
def shiftRound (p : Int) (w : Nat) (floor : Bool) : Int :=
  let q := p / 2 ^ w
  let rem := p - q * 2 ^ w
  if floor then q
  else if 2 * rem > 2 ^ w || (2 * rem = 2 ^ w && q % 2 = 1) then q + 1 else q

/-- `vmulh` (R328): the double-width product shifted right by the width; RM 1 takes the floor. -/
def execVmulh (d : DSlot) (s : State) : Out :=
  s.intRow 0x1B d fun f a b => shiftRound (a * b) (intWidth f) (d.rm = 1)

/-- `vand` (R328). -/
def execVand (d : DSlot) (s : State) : Out := s.bitRow 0x1C d fun a b => a &&& b
/-- `vor` (R328). -/
def execVor (d : DSlot) (s : State) : Out := s.bitRow 0x1D d fun a b => a ||| b
/-- `vxor` (R328). -/
def execVxor (d : DSlot) (s : State) : Out := s.bitRow 0x1E d fun a b => a ^^^ b
/-- `vandn` (R328). -/
def execVandn (d : DSlot) (s : State) : Out := s.bitRow 0x1F d fun a b => a &&& ~~~b

/-- A shift row: the count is lane l of SB as an unsigned 32-bit word (R328). -/
def State.shiftRow (s : State) (op : Nat) (d : DSlot) (f : Nat → Int → Nat → Int) : Out :=
  s.fixedRow op d (fun _ => 1) id fun r x l =>
    (fitI r.fmt d.sat (f r.fmt (decodeI r.fmt (x.a.getD l 0)) (x.b.getD l 0).toNat), 0, 0)

/-- `vshl` (R328): 0 when the count reaches the width. -/
def execVshl (d : DSlot) (s : State) : Out :=
  s.shiftRow 0x20 d fun f a k => if intWidth f ≤ k then 0 else a * 2 ^ k

/-- `vshr` (R328): logical. -/
def execVshr (d : DSlot) (s : State) : Out :=
  s.shiftRow 0x21 d fun f a k => if intWidth f ≤ k then 0 else (a % 2 ^ intWidth f) / 2 ^ k

/-- `vsar` (R328): floor division; the sign fills when the count reaches the width; a z format acts as `vshr`. -/
def execVsar (d : DSlot) (s : State) : Out :=
  s.shiftRow 0x22 d fun f a k => if intWidth f ≤ k then (if a < 0 then -1 else 0) else a / 2 ^ k

/-- `vmin` (R328). -/
def execVmin (d : DSlot) (s : State) : Out := s.intRow 0x23 d fun _ a b => min a b
/-- `vmax` (R328). -/
def execVmax (d : DSlot) (s : State) : Out := s.intRow 0x24 d fun _ a b => max a b

/-- The conditions of `vcmp` (R329). -/
def condInt (k : Nat) (a b : Int) : Bool :=
  match k with
  | 0 => a = b
  | 1 => a ≠ b
  | 2 => a < b
  | 3 => a ≤ b
  | 4 => b < a
  | _ => b ≤ a

/-- `vcmp` (R329). -/
def execVcmp (d : DSlot) (s : State) : Out :=
  s.fixedRow 0x25 d (fun _ => 1) id fun r x l =>
    (if condInt d.minor.toNat (decodeI r.fmt (x.a.getD l 0)) (decodeI r.fmt (x.b.getD l 0)) then 1 else 0, 0, 0)

/-- `vsel` (R329): the word and its residue. -/
def execVsel (d : DSlot) (s : State) : Out :=
  s.fixedRow 0x26 d (fun _ => 1) id fun _ x l =>
    if x.c.getD l 0 ≠ 0 then (x.a.getD l 0, x.aBad.getD l 0, 0) else (x.b.getD l 0, x.bBad.getD l 0, 0)

/-- Leading zeros of x within w bits. -/
def clzNat (x : Nat) (w : Nat) : Nat := if x = 0 then w else w - 1 - x.log2

/-- Set bits of x among its low n bits. -/
def popNat (x : Nat) : Nat → Nat
  | 0 => 0
  | n + 1 => popNat x n + if x.testBit n then 1 else 0

/-- `vclz` (R328). -/
def execVclz (d : DSlot) (s : State) : Out :=
  s.intRow 0x27 d fun f a _ => clzNat (a % 2 ^ intWidth f).toNat (intWidth f)
/-- `vpopc` (R328). -/
def execVpopc (d : DSlot) (s : State) : Out :=
  s.intRow 0x28 d fun f a _ => popNat (a % 2 ^ intWidth f).toNat (intWidth f)
/-- `vabs` (R328). -/
def execVabs (d : DSlot) (s : State) : Out := s.intRow 0x29 d fun _ a _ => a.natAbs
/-- `vneg` (R328). -/
def execVneg (d : DSlot) (s : State) : Out := s.intRow 0x2A d fun _ a _ => -a

/-- A permute: lane l takes a word of SA or SB with its residue (R330). `f` gives the operand (true: SB) and the lane. -/
def State.permute (s : State) (op : Nat) (d : DSlot) (f : Ins → Nat → Bool × Nat) : Out :=
  s.fixedRow op d (fun _ => 2) id fun _ x l =>
    let (fromB, j) := f x l
    if fromB then (x.b.getD (j % 16) 0, x.bBad.getD (j % 16) 0, 0) else (x.a.getD (j % 16) 0, x.aBad.getD (j % 16) 0, 0)

/-- `vperm` (R330). -/
def execVperm (d : DSlot) (s : State) : Out := s.permute 0x30 d fun x l => (false, (x.b.getD l 0).toNat)
/-- `vrot` (R330). -/
def execVrot (d : DSlot) (s : State) : Out := s.permute 0x31 d fun x l => (false, l + (x.b.getD 0 0).toNat)
/-- `vbcast` (R330). -/
def execVbcast (d : DSlot) (s : State) : Out := s.permute 0x32 d fun x _ => (false, (x.b.getD 0 0).toNat)

/-- The shuffles of MINOR 0 to 4 (R330). -/
def shuffle (form l : Nat) : Bool × Nat :=
  match form with
  | 0 => (l % 2 = 1, l / 2)
  | 1 => (l % 2 = 1, 8 + l / 2)
  | 2 => if l < 8 then (false, 2 * l) else (true, 2 * (l - 8))
  | 3 => if l < 8 then (false, 2 * l + 1) else (true, 2 * (l - 8) + 1)
  | _ => (false, 15 - l)

/-- `vshuf` (R330). -/
def execVshuf (d : DSlot) (s : State) : Out := s.permute 0x33 d fun _ l => shuffle d.minor.toNat l

/-- A node of a reduction tree: a word with the flags so far, or Absent (R331, R359). -/
abbrev Node := Option (Word × Fl)

def nodeOp (f : Word → Word → Word × Fl) (x y : Node) : Node :=
  match x, y with
  | none, y => y
  | x, none => x
  | some (a, fa), some (b, fb) => let (w, fl) := f a b; some (w, fa ||| fb ||| fl)

/-- One level of the tree: neighbours joined, the lower on the left. -/
def treeLevel (f : Node → Node → Node) : List Node → List Node
  | x :: y :: rest => f x y :: treeLevel f rest
  | [x] => [x]
  | [] => []

/-- The tree over 2^k leaves (R331, R359). -/
def tree (f : Node → Node → Node) : Nat → List Node → Node
  | 0, l => l.headD none
  | k + 1, l => tree f k (treeLevel f l)

/-- An FP32 sum of a tree node: RNE, a NaN operand's first (R331, R359), under FTZ or not (R145). -/
def addF32 (ftz : Bool) (a b : Word) : Word × Fl :=
  let x := decodeF 0 false 0 a
  let y := decodeF 0 false 0 b
  let fl : Fl := if x.snan || y.snan then flInv else 0
  let inv : Fl := match x.v, y.v with
    | .inf m, .inf n => if m = n then 0 else flInv
    | _, _ => 0
  let (w, f) := roundTo 0 0 false ftz false 0 (.val (redSum x.v y.v))
  (w, fl ||| inv ||| f)

/-- The larger or smaller of two FP32 words by R320. -/
def pickF32 (mx : Bool) (a b : Word) : Word × Fl :=
  let x := decodeF 0 false 0 a
  let y := decodeF 0 false 0 b
  let fl : Fl := if x.snan || y.snan then flInv else 0
  ((roundTo 0 0 false false false 0 (.val (if mx then maxVal x.v y.v else minVal x.v y.v))).1, fl)

/-- A tree over exact integers. -/
def treeInt (f : Int → Int → Int) (l : List (Option Int)) : Option Int :=
  l.foldl (fun a x => match a, x with
    | none, x => x
    | a, none => a
    | some a, some x => some (f a x)) none

/-- The float reduction of the enabled lanes: FP32 nodes, then one rounding to FMT (R331). -/
def redFloat (r : Resolved) (c : Ctx) (mode : Nat) (sat : Bool) (op : Nat) (en : BitVec 16) (ws : List Word) (rnd : BitVec 16) :
    Option (Word × Fl) :=
  let leaf (l : Nat) : Node :=
    if en.getLsbD l then
      let d := decodeF r.fmt c.ftz r.xv (ws.getD l 0)
      some ((roundTo 0 0 false false false 0 (.val d.v)).1, if d.snan then flInv else 0)
    else none
  let f := nodeOp (match op with
    | 0 => addF32 c.ftz
    | 1 => pickF32 true
    | _ => pickF32 false)
  match tree f 4 ((List.range 16).map leaf) with
  | none => none
  | some (w, fl) =>
    let (v, fl') := roundTo r.fmt mode sat c.ftz (r.xv.getLsbD 8) rnd (.val (decodeF 0 false 0 w).v)
    some (v, fl ||| fl')

/-- The integer reduction of the enabled lanes (R331). Sums, maxima and minima of at most 16 values are the same in any
order. -/
def redInt (f op : Nat) (sat : Bool) (en : BitVec 16) (ws : List Word) : Option Word :=
  (treeInt (fun a b => match op with
    | 0 => a + b
    | 1 => max a b
    | _ => min a b)
    ((List.range 16).map fun l => if en.getLsbD l then some (decodeI f (ws.getD l 0)) else none)).map (fitI f sat)

/-- `vred` (R331): lane 0 takes the result; with every lane disabled nothing is written. -/
def execVred (d : DSlot) (s : State) : Out :=
  s.dslot 0x34 d fun r es x =>
    let c := s.rd
    let en := c.dLanes d
    let op := d.minor.toNat
    let mode := c.mode d.rm
    let (rnds, s) := s.draws mode d
    if isFloat r.fmt then
      match redFloat r c mode d.sat op en x.a ((rnds.getD 0 0).extractLsb' 16 16) with
      | none => .next s
      | some (w, fl) => .next (s.issueFixed 0x34 d r es 12 1 [(w, 0, fl)])
    else match redInt r.fmt op d.sat en x.a with
      | none => .next s
      | some w => .next (s.issueFixed 0x34 d r es 4 1 [(w, 0, 0)])

/-- A predicate operation (R332). -/
def State.predRow (s : State) (op : Nat) (d : DSlot) (f : Bool → Bool → Bool) : Out :=
  s.fixedRow op d (fun _ => 1) id fun _ x l => (if f (x.a.getD l 0 ≠ 0) (x.b.getD l 0 ≠ 0) then 1 else 0, 0, 0)

/-- `pand` (R332). -/
def execPand (d : DSlot) (s : State) : Out := s.predRow 0x38 d fun a b => a && b
/-- `por` (R332). -/
def execPor (d : DSlot) (s : State) : Out := s.predRow 0x39 d fun a b => a || b
/-- `pxor` (R332). -/
def execPxor (d : DSlot) (s : State) : Out := s.predRow 0x3A d fun a b => a != b
/-- `pandn` (R332). -/
def execPandn (d : DSlot) (s : State) : Out := s.predRow 0x3B d fun a b => a && !b

/-- Is a word non-zero in a format (R332), and what flag does its reading set (R142, R145)? -/
def nonZero (f : Nat) (ftz : Bool) (xv : BitVec 9) (w : Word) : Bool × Fl :=
  if isFloat f then (let x := decodeF f ftz xv w; (!x.v.isZero, if x.snan then flInv else 0))
  else if isInt f then (decodeI f w ≠ 0, 0)
  else (w ≠ 0, 0)

/-- `ptest` (R332). -/
def execPtest (d : DSlot) (s : State) : Out :=
  s.fixedRow 0x3C d (fun _ => 1) id fun r x l =>
    let (b, fl) := nonZero r.fmt s.rd.ftz r.xv (x.a.getD l 0)
    (if b then 1 else 0, 0, fl)

/-- `vmov` (R333): the word with its residue. -/
def execVmov (d : DSlot) (s : State) : Out :=
  s.fixedRow 0x3E d (fun _ => 1) id fun _ x l => (x.a.getD l 0, x.aBad.getD l 0, 0)

/-- `vmovi` (R333): the literal's word. -/
def execVmovi (d : DSlot) (s : State) : Out :=
  s.fixedRow 0x3F d (fun _ => 1) id fun _ x l => (x.a.getD l 0, 0, 0)

end Sys2Proof.Machine
end

