-- ==== Sys2Proof/Machine/Engine.lean ====
section
/-!
DEFINITION. Engine.lean: the engine commands of 19 and the events of their operations: copies (R355, R356), collectives (R357
to R360, R404, R31), decoder records (R361 to R365), the stream count (R369), and the X form of `launch` (R270).
-/
namespace Sys2Proof.Machine

/-- The operation of a rank that is ENDING ends failed at once (R61). -/
def State.ending (s : State) (rank : Nat) : Bool := (s.rank rank).st = .ending

/-- The lines of a list of pieces, each once. -/
def pieceLines (ps : List (Nat × Nat)) : List Nat := (ps.flatMap fun p => linesOf p.1 p.2).eraseDups

/-! ## Copies (R355, R356) -/

/-- Source and destination pieces of one length, cut where either is cut; `fuel` bounds the pieces. -/
def zipPieces : Nat → List (Nat × Nat) → List (Nat × Nat) → List (Nat × Nat × Nat)
  | 0, _, _ => []
  | fuel + 1, (a, n) :: as, (b, m) :: bs =>
    let k := min n m
    (a, b, k) :: zipPieces fuel (if n = k then as else (a + k, n - k) :: as) (if m = k then bs else (b + k, m - k) :: bs)
  | _, _, _ => []

/-- One row of a copy checked by the copy unit (R356 step 1). -/
def State.copyRow (s : State) (c : Ctx) (src dst : DWord) (n : Nat) : Option (List (Nat × Nat × Nat)) :=
  match s.pieces c .read src n, s.pieces c .write dst n with
  | .ok as, .ok bs => some (zipPieces (as.length + bs.length) as bs)
  | _, _ => none

/-- The rows of a copy; none where the translation pass fails. -/
def State.copySegs (s : State) (c : Ctx) (src dst : DWord) (w sp dp : Nat) : Nat → Option (List (Nat × Nat × Nat))
  | 0 => some []
  | h + 1 => match State.copySegs s c src dst w sp dp h,
      s.copyRow c (src + BitVec.ofNat 64 (sp * h)) (dst + BitVec.ofNat 64 (dp * h)) w with
    | some l, some r => some (l ++ r)
    | _, _ => none

/-- The TLBs after the translation pass of a row (R91). -/
def State.touchRun (s : State) (c : Ctx) (va : DWord) (n : Nat) : State :=
  (List.range ((n + va.toNat % 65536 + 65535) / 65536)).foldl (fun s i =>
    s.touch c ((va &&& ~~~0xFFFF) + BitVec.ofNat 64 (65536 * i))) s

/-- A copy of h rows of w bytes behind its checks at issue (R355): the copy unit takes four copies per core (R353), and its
own checks fail the copy before it writes anything. -/
def State.copy (s : State) (p co : BitVec 6) (cnt : Bool) (src dst : DWord) (w h sp dp : Nat) : Out :=
  let pc := s.rd.rs (p + 1)
  s.command co fun s co =>
    if 4 ≤ (s.copies.filter fun c => c.core = s.c.core).length then s.stalled .hold
    else if w * h = 0 then .next (s.signalAfter co 1 1 false)
    else if s.ending s.c.rank then .next (s.signalAfter co 1 1 true)
    else
      let segs := s.copySegs s.c src dst w sp dp h
      let s := (List.range h).foldl (fun s i =>
        (s.touchRun s.c (src + BitVec.ofNat 64 (sp * i)) w).touchRun s.c (dst + BitVec.ofNat 64 (dp * i)) w) s
      let (id, s) := s.take
      let c : Copy := ⟨id, s.c.core, s.c.rank, segs.getD [], false, [], co,
        if cnt then some (pc.extractLsb' 0 6) else none, pc.extractLsb' 48 16, w * h, segs.isNone⟩
      .next (({ s with copies := s.copies ++ [c] }.after (s.waitsOf s.cur) (opAgent id)).due (.copySourceRelease id))

/-- The reserved bits of a counted copy's s[P + 1] (R355). -/
def State.cntClean (s : State) (p : BitVec 6) (cnt : Bool) : Bool := !cnt || (s.rd.rs (p + 1)).extractLsb' 6 42 = 0

/-- `cp` (R355). -/
def execCp (p q co : BitVec 6) (_scope : BitVec 3) (cnt : Bool) (s : State) : Out :=
  let dst := s.rd.rs p
  let src := s.rd.rs q
  let n := s.rd.rs (q + 1)
  s.checked ([p, q, q + 1, co] ++ if cnt then [p + 1] else []) fun s =>
    if n.extractLsb' 32 32 ≠ 0 || !s.cntClean p cnt then s.illegal
    else s.aligned 4 dst fun _ => s.aligned 4 src fun _ => s.aligned 4 n fun _ => s.copy p co cnt src dst n.toNat 1 0 0

/-- `cp2d` (R355). -/
def execCp2d (p q co : BitVec 6) (_scope : BitVec 3) (cnt : Bool) (s : State) : Out :=
  let dst := s.rd.rs p
  let src := s.rd.rs q
  let w := (s.rd.rs (q + 1)).extractLsb' 32 32
  let h := (s.rd.rs (q + 1)).extractLsb' 0 32
  let sp := (s.rd.rs (q + 2)).extractLsb' 32 32
  let dp := (s.rd.rs (q + 2)).extractLsb' 0 32
  s.checked ([p, q, q + 1, q + 2, co] ++ if cnt then [p + 1] else []) fun s =>
    if !s.cntClean p cnt || (decide (1 < h.toNat) && decide (dp < w)) then s.illegal
    else s.aligned 4 dst fun _ => s.aligned 4 src fun _ => s.aligned 4 (w.zeroExtend 64) fun _ =>
      s.aligned 4 (if 1 < h.toNat then sp.zeroExtend 64 else 0) fun _ =>
        s.aligned 4 (if 1 < h.toNat then dp.zeroExtend 64 else 0) fun _ =>
          s.copy p co cnt src dst w.toNat h.toNat sp.toNat dp.toNat

def State.copyOf (s : State) (id : Nat) : Option Copy := s.copies.find? fun c => c.id = id
def State.dropCopy (s : State) (id : Nat) : State := { s with copies := s.copies.filter fun c => c.id ≠ id }
def State.setCopy (s : State) (c : Copy) : State := { s with copies := s.copies.map fun x => if x.id = c.id then c else x }

/-- The source of a copy is read whole (R356): its bytes, and for each whether its granule is marked. -/
def State.readSegs (s : State) (segs : List (Nat × Nat × Nat)) : List (Nat × List Byte × List Bool) :=
  segs.map fun g => (g.2.1, s.bytesNow g.1 g.2.2, (List.range g.2.2).map fun i => s.marked (g.1 + i))

/-- The source of a copy is released (R356): SRC rises. A failed translation pass ends it (R353); an empty cluster-store line
holds its read (R132). -/
def execCopySourceRelease (id : Nat) (s : State) : Out :=
  match s.copyOf id with
  | none => .next s
  | some c =>
    if !s.ready id then .next (s.park id)
    else if c.fail then .next ((s.dropCopy id).signal c.co 1 1 true)
    else
      let s := s.departOf c.rank (pieceLines (c.segs.map fun g => (g.1, g.2.2))) false
      .next (((s.setCopy { c with read := true, data := s.readSegs c.segs }).signal c.co 1 0 false).due (.copyLanding id))

/-- The marks that written bytes bring with them (R216). -/
def State.markBytes (s : State) (loc : Nat) (marks : List Bool) : State :=
  (marks.zipIdx.filter (·.1)).foldl (fun s m =>
    let l := lineOf (loc + m.2)
    { s with poison := Store.set 0 s.poison l (Store.get 0 s.poison l ||| BitVec.twoPow 16 ((loc + m.2) % 128 / 8)) }) s

/-- The writes of a copy: one write event on each line, with the marks of the source (R356, R216). -/
def State.landSegs (s : State) (data : List (Nat × List Byte × List Bool)) : State :=
  data.foldl (fun s d => s.markBytes d.1 d.2.2) (s.writeAll (data.map fun d => (d.1, d.2.1)))

/-- Bytes with their marks cut over pieces. -/
def cutRuns : List (Nat × Nat) → List Byte → List Bool → List (Nat × List Byte × List Bool)
  | [], _, _ => []
  | (loc, n) :: ps, bs, ms => (loc, bs.take n, ms.take n) :: cutRuns ps (bs.drop n) (ms.drop n)

/-- The marks of the bytes of some pieces. -/
def State.marksOf (s : State) (ps : List (Nat × Nat)) : List Bool :=
  if s.poison.isEmpty then [] else ps.flatMap fun p => (List.range p.2).map fun i => s.marked (p.1 + i)

/-- A copy lands (R356): its writes, then its counted arrival, then LAND. -/
def execCopyLanding (id : Nat) (s : State) : Out :=
  match s.copyOf id with
  | none => .next s
  | some c =>
    let lines := pieceLines (c.data.map fun d => (d.1, d.2.1.length))
    if !c.read then .next s
    else if !(s.heldLines lines).isEmpty then .next (s.snoop lines [.copyLanding id])
    else
      let s := (((s.dropCopy id).landSegs c.data).departOf c.rank lines true).charge c.rank 2 (16 * lines.length)
      let s := match c.line with
        | some l => s.countDown c.rank l c.party c.bytes
        | none => s
      .next (s.signal c.co 0 1 false)

/-- `launch` in the X slot (R270). -/
def execLaunchX (p : BitVec 6) (s : State) : Out := s.launch p false
/-- `launch.after` in the X slot (R270). -/
def execLaunchAfterX (p : BitVec 6) (s : State) : Out := s.launch p true

/-- The M and K operations of the running context run to their end; `fuel` bounds their cycles. -/
def State.runEngine : Nat → State → State
  | 0, s => s
  | fuel + 1, s => if s.c.mops.isEmpty then s else State.runEngine fuel (s.engineCycle.landings false)

/-- The M and K operations of a strand that leaves its sequencer complete (R106 cycles 1 to 15, R338). -/
def State.finishOps (s : State) (key : Nat) : State :=
  if (s.ctx key).mops.isEmpty then s else ((s.focus key).runEngine 512).focus s.cur

/-- `exit` (R140, R271): the strand ends. Its M and K operations complete first, so that its banks keep their values (log 26). -/
def execExit (g : Guard) (s : State) : Out := s.guarded g fun s => .next ((s.runEngine 512).endStrand s.cur false)

/-- `seed` (R369). -/
def execSeed (p : BitVec 6) (s : State) : Out :=
  s.checked [p] fun s => .next (s.modC fun c => { c with stream := s.rd.rs p, mark := true })

/-! ## Collectives (R357 to R360, R404) -/

/-- A descriptor of R357. -/
structure CDesc where
  sbuf : DWord
  dbuf : DWord
  count : Nat
  tag : Nat
  base : Nat
  nr : Nat
  stride : Nat
  root : Nat
  clean : Bool
  deriving DecidableEq, Repr

def cdescOf (bs : List Byte) : CDesc where
  sbuf := BitVec.ofNat 64 (field bs 0 8)
  dbuf := BitVec.ofNat 64 (field bs 8 8)
  count := field bs 16 4
  tag := field bs 20 4
  base := field bs 24 4
  nr := field bs 28 4
  stride := field bs 32 4
  root := field bs 36 4
  clean := field bs 40 24 = 0

/-- Bytes of an element: 2 for BF16 sums, 4 otherwise (R357). -/
def collWidth (op minor : Nat) : Nat := if op ≤ 1 ∧ minor = 1 then 2 else 4

/-- Bytes of SBUF and of DBUF (R360). -/
def CDesc.sizes (d : CDesc) (op minor : Nat) : Nat × Nat :=
  let n := collWidth op minor * d.count
  (n, match op with
    | 1 => n / d.nr
    | 2 => n * d.nr
    | _ => n)

/-- The party that a rank is in a collective. -/
def CDesc.partyOf (d : CDesc) (rank : Nat) : Option Nat :=
  if rank < d.base then none
  else if d.nr = 1 then (if rank = d.base then some 0 else none)
  else
    let j := (rank - d.base) / d.stride
    if (rank - d.base) % d.stride = 0 ∧ j < d.nr then some j else none

/-- The fields that R357 admits, but for the issuer's party. -/
def CDesc.ok (d : CDesc) (op minor v : Nat) : Bool :=
  let (ns, nd) := d.sizes op minor
  let a := d.sbuf.toNat
  let b := d.dbuf.toNat
  d.clean && decide (1 ≤ d.count ∧ d.count ≤ 2 ^ 28) && decide (1 ≤ d.nr ∧ d.nr ≤ 65536)
    && (d.nr = 1 || d.stride ≠ 0) && decide (d.base + d.stride * (d.nr - 1) < v)
    && (op ≠ 1 || d.count % d.nr = 0) && decide (d.root < d.nr)
    && (if a = b then op = 0 else decide (a + ns ≤ b ∨ b + nd ≤ a))

/-- The parties one edge away in the tree: the parent, which is 0 for a `bc` root, and the children (R404). -/
def treeParent (p : Nat) : Nat := (List.range 17).foldl (fun q l => if q % 2 ^ (l + 1) ≠ 0 ∧ q = p then p - 2 ^ l else q) p

/-- The children of a party, lowest level first: p + 2^(l-1) while p is a multiple of 2^l (R404). -/
def treeChildren (p nr : Nat) : List Nat :=
  ((List.range 16).filter fun l => p % 2 ^ (l + 1) = 0 && decide (p + 2 ^ l < nr)).map fun l => p + 2 ^ l

/-- The parties whose map entries a party reads: all it shares an edge with. -/
def collNeighbours (op root p nr : Nat) : List Nat :=
  ((if p = 0 then [] else [treeParent p]) ++ treeChildren p nr
    ++ (if op = 3 ∧ p = root ∧ p ≠ 0 then [0] else []) ++ (if op = 3 ∧ p = 0 ∧ root ≠ 0 then [root] else [])).eraseDups

def State.coll (s : State) (id : Nat) : Option Coll := s.colls.find? fun c => c.id = id
def State.setColl (s : State) (c : Coll) : State := { s with colls := s.colls.map fun x => if x.id = c.id then c else x }
def State.dropColl (s : State) (id : Nat) : State := { s with colls := s.colls.filter fun c => c.id ≠ id }

/-- The parties of a collective that are in flight on this chip (R358: TAG, BASE, NR, STRIDE). -/
def State.parties (s : State) (tag base nr stride : Nat) : List Coll :=
  s.colls.filter fun x => x.tag = tag && x.base = base && x.parties = nr && x.stride = stride && !x.landed

/-- The record of another party of the same collective on this chip, of the same exchange. -/
def State.mate (s : State) (c : Coll) (party : Nat) : Option Coll :=
  (s.parties c.tag c.base c.parties c.stride).find? fun x => x.party = party && x.group = c.group

/-- Does a party read its SBUF (R360)? -/
def Coll.reads (c : Coll) : Bool := c.op ≠ 3 || c.party = c.root

/-- What a party says of itself for the exchange (R358). -/
def Coll.check (c : Coll) : Check := ⟨c.tag, c.base, c.parties, c.stride, c.party, c.op, c.minor, c.count, c.root, c.ok⟩

/-- Do the parties agree with party 0, the lowest that is there, and have the engine's checks of every one passed (R358)? -/
def agree : List Check → Bool
  | [] => true
  | k :: ks =>
    let f := ks.foldl (fun f x => if x.party < f.party then x else f) k
    (k :: ks).all fun x => x.ok && x.op = f.op && x.minor = f.minor && x.count = f.count && x.root = f.root

/-- Is a check one of the parties that match these numbers (R358)? -/
def isOf (k : Check) (tag base nr stride : Nat) : Bool := k.tag = tag && k.base = base && k.parties = nr && k.stride = stride

/-- Once every party of a collective has said what the others compare, those of this chip and those of other chips, those apart whose
entries a party of this chip found absent at its issue (R31), the exchange is due at each party of this chip (R358). The first word
of each party of another chip is used up. -/
def State.exchange (s : State) (tag base nr stride : Nat) : State :=
  let here := (s.parties tag base nr stride).filter fun x => x.told && x.group = 0
  let far := s.fab.checks.filter fun k => isOf k tag base nr stride
  let said := here.map Coll.check ++ far.filter fun k => !here.any fun x => x.party = k.party
  if here ≠ [] && here.all fun x => (List.range nr).all fun q => x.gone.contains q || said.any fun k => k.party = q then
    let firsts := said.eraseDupsBy fun a b => a.party == b.party
    let (n, s) := s.take
    let s := { s with
      colls := s.colls.map fun x => if here.any fun y => y.id = x.id then { x with group := n } else x
      fab := { s.fab with checks := firsts.foldl List.erase s.fab.checks } }
    here.foldl (fun s x => s.due (.collParameterExchange x.id (agree firsts))) s
  else s

/-! ### Edges (R31, R404) -/

/-- The entry that a party read at issue for another; of those not kept it is local. -/
def Coll.entryOf (c : Coll) (q : Nat) : DWord := ((c.nbrs.find? fun n => n.1 = q).map (·.2)).getD 1

/-- A failure reaches another party of the collective (R360): here, or on the chip that its entry names. -/
def State.failAt (s : State) (c : Coll) (q : Nat) : State :=
  match s.mate c q with
  | some x => s.due (.collLanding x.id true)
  | none => match entState (c.entryOf q) with
    | 2 | 3 => s.sendBack (entChip (c.entryOf q)) (.collFail (entChip (c.entryOf q)) c.tag c.base c.parties c.stride q)
    | _ => s

/-- What depends on a transfer toward the party `to_` that has failed (R360, R404): that party's DBUF, and, since all that goes up
reaches every DBUF, the sender's own with an edge up. -/
def State.edgeLost (s : State) (c : Coll) (to_ : Nat) (down : Bool) : State :=
  let s := s.failAt c to_
  if down then s else s.due (.collLanding c.id true)

/-- The failure of an edge that is not sent: FAB_ERR, and what depends on it (R34). -/
def State.edgeFails (s : State) (c : Coll) (to_ : Nat) (down : Bool) (code : Nat) (ch : BitVec 8) : State :=
  (s.fabErr code ch c.coVa).edgeLost c to_ down

/-- Data sent along an edge to the party `to_`, or with no data what the party says of itself for the exchange, by the map entry `e` of
its rank: in chip memory, over a channel, held back, or failed (R31). -/
def State.edge (s : State) (id to_ : Nat) (down : Bool) (data : Option CWords) (e : DWord) : State :=
  match s.coll id with
  | none => s
  | some c =>
    let what : XferWhat := if data.isSome then .edge id to_ down else .check id to_
    let parts : List Payload := match data with
      | some ws => (runsOf 64 (ws.length / 64) ws).map (.coll c.tag c.base c.parties c.stride c.party down)
      | none => [.check c.check]
    let fails (code : Nat) : State :=
      if data.isSome then s.edgeFails c to_ down code (entChan e) else (s.fabErr code (entChan e) c.coVa).failAt c to_
    match entState e with
    | 1 => match s.mate c to_, data with
      | some x, some ws => s.due (.collEdgeArrival x.id c.party down ws)
      | _, _ => s
    | 2 =>
      let ch := entChan e
      match (s.chan ch).st with
      | .opened =>
        let (n, s) := s.take
        s.sendXfer ⟨n, ch, (s.chan ch).pgen, c.base + c.stride * to_, entEpoch e, c.coVa, what, s.time.toNat⟩ (entDomain e) parts
      | .fencing | .fenced => fails 1
      | _ => fails 4
    | 3 => s.setColl { c with waits := c.waits ++ [⟨to_, down, data⟩] }
    | _ => fails 3

/-- Can an edge that waits go on: its entry is held no more (R31)? -/
def State.edgeReady (s : State) (c : Coll) (w : CWait) : Bool := entState (s.mapEntry (c.base + c.stride * w.party)) ≠ 3

/-- The parties to which a party says what they compare: of each other chip the lowest that its entries name there, and each whose
entry is held (R31, R358). -/
def Coll.hearers (c : Coll) : List (Nat × DWord) :=
  (c.nbrs.filter fun e => entState e.2 = 2).eraseDupsBy (fun a b => entChip a.2 == entChip b.2)
    ++ c.nbrs.filter fun e => entState e.2 = 3

/-- A party says what the others compare, once the accesses po-before its command have performed (R200, R358). -/
def State.announce (s : State) (id : Nat) : State :=
  match s.coll id with
  | none => s
  | some c =>
    if c.told || s.opWaits id then s
    else
      let s := s.setColl { c with told := true }
      (c.hearers.foldl (fun s e => s.edge id e.1 false none e.2) s).exchange c.tag c.base c.parties c.stride

/-! ### The commands -/

/-- A collective command behind its checks (R357, R358, R353). A failure of one without a completion object enters FAB_ERR with CO 0,
of which R34 says nothing (DESIGN CHOICE, log 73). -/
def State.collective (s : State) (p co : BitVec 6) (op minor : Nat) : Out :=
  let va := s.rd.rs p
  s.checked [p, co] fun s => s.aligned 64 va fun _ =>
    match s.pieces s.c .read va 64 with
    | .error t => s.trap t
    | .ok ps => s.reading ps fun s =>
      let d := cdescOf (s.readPieces ps)
      match d.partyOf s.c.rank with
      | none => s.illegal
      | some me =>
        if !d.ok op minor (s.rank s.c.rank).vhdr then s.illegal
        else s.aligned 128 d.sbuf fun _ => s.aligned 128 d.dbuf fun _ => s.command co fun s co' =>
          let mine := s.colls.filter fun c => c.rank = s.c.rank
          if mine.any fun c => c.tag = d.tag then s.stalled .hold
          else if 16 ≤ mine.length then s.stalled .hold
          else if s.ending s.c.rank then .next (s.signalAfter co' 1 1 true)
          else
            let (ns, nd) := d.sizes op minor
            let reads := op ≠ 3 || me = d.root
            let sp := if reads then s.pieces s.c .read d.sbuf ns else .ok []
            let dp := s.pieces s.c .write d.dbuf nd
            let ok := sp.isOk && dp.isOk
            let s := if reads then s.touchRun s.c d.sbuf ns else s
            let s := s.touchRun s.c d.dbuf nd
            let (id, s) := s.take
            let entries := (List.range d.nr).map fun q => (q, s.mapEntry (d.base + d.stride * q))
            let nbrs := entries.filter fun e => (collNeighbours op d.root me d.nr).contains e.1 || entState e.2 ≠ 1
            let gone := (entries.filter fun e => entState e.2 = 0 && e.1 ≠ me).map (·.1)
            let get (x : Except TrapInfo (List (Nat × Nat))) : List (Nat × Nat) := match x with
              | .ok l => l
              | .error _ => []
            let c : Coll := {
              id := id, told := false, group := 0, rank := s.c.rank, op := op, minor := minor, tag := d.tag, base := d.base, parties := d.nr
              stride := d.stride, root := d.root, count := d.count, party := me, nbrs := nbrs, gone := gone, spieces := get sp
              dpieces := get dp, ok := ok, co := co', coVa := if co = 0 then 0 else s.rd.rs co, started := false
              srcUp := !reads, own := none, ins := [], sentUp := false, result := none, sentDown := false
              waits := [], landed := false }
            let s := if reads then s else s.signalAfter co' 1 0 false
            .next (({ s with colls := s.colls ++ [c] }.after (s.waitsOf s.cur) (opAgent id)).announce id)

/-- `coll.ar` (R357 to R360). -/
def execCollAr (p co : BitVec 6) (op : CollOp) (s : State) : Out :=
  s.collective p co 0 (match op with | .addF32 => 0 | .addBf16 => 1 | .maxF32 => 2 | .addS32 => 3)
/-- `coll.rs` (R357 to R360). -/
def execCollRs (p co : BitVec 6) (op : CollOp) (s : State) : Out :=
  s.collective p co 1 (match op with | .addF32 => 0 | .addBf16 => 1 | .maxF32 => 2 | .addS32 => 3)
/-- `coll.ag` (R357 to R360). -/
def execCollAg (p co : BitVec 6) (s : State) : Out := s.collective p co 2 0
/-- `coll.bc` (R357 to R360). -/
def execCollBc (p co : BitVec 6) (s : State) : Out := s.collective p co 3 0

/-! ### Values of the tree (R359) -/

/-- The 32-bit words, or the BF16 values as FP32 words, that a party's SBUF brings, each with the mark of its granule. -/
def leafWords (op minor : Nat) (bs : List Byte) (marks : List Bool) : CWords :=
  let w := collWidth op minor
  (List.range (bs.length / w)).map fun i =>
    let x := BitVec.ofNat 32 (field bs (w * i) w)
    (if w = 2 then x <<< 16 else x, marks.getD (w * i) false)

/-- Op of R359 on two nodes' elements, the lower party's on the left. -/
def collOp (minor : Nat) (x y : Word) : Word :=
  match minor with
  | 2 => (pickF32 true x y).1
  | 3 => x + y
  | _ => (addF32 false x y).1

/-- Final of R359: the bytes of the elements in DBUF. -/
def finalBytes (op minor : Nat) (ws : List Word) : List Byte :=
  ws.flatMap fun w =>
    if collWidth op minor = 2 then Decode.leBytes 2 (roundTo 2 0 false false false 0 (.val (decodeF 0 false 0 w).v)).1.toNat
    else Decode.leBytes 4 w.toNat

/-- The node that a party has formed from its own words and its children's: sums, or for `ag` the words of its subtree. A sum of a
marked word is marked (R35). -/
def Coll.node (c : Coll) (own : CWords) : CWords :=
  (treeChildren c.party c.parties).foldl (fun n q =>
    let x := (c.ins.find? fun e => e.1 = q).map (·.2) |>.getD []
    if c.op = 2 then n ++ x else List.zipWith (fun a b => (collOp c.minor a.1 b.1, a.2 || b.2)) n x) own

/-- Have all of a party's children sent their nodes? -/
def Coll.childrenIn (c : Coll) : Bool := (treeChildren c.party c.parties).all fun q => c.ins.any fun e => e.1 = q

/-- What a party sends down to its child q: all it holds, or for `rs` the elements of the child's subtree (R404). Its own
holding begins with its own portion. -/
def Coll.downTo (c : Coll) (q : Nat) (r : CWords) : CWords :=
  if c.op = 1 then
    let m := c.count / c.parties
    (r.drop (m * (q - c.party))).take (m * min (q - c.party) (c.parties - q))
  else r

/-- What a party's DBUF receives of what it holds (R360). -/
def Coll.mine (c : Coll) (r : CWords) : CWords := if c.op = 1 then r.take (c.count / c.parties) else r

/-! ### The sweeps (R404) -/

/-- Edges that wait read their entries once more, and go by what they find (R31). A party whose DBUF is written ends with its last
edge. -/
def State.collRetry (s : State) (id : Nat) : State :=
  match s.coll id with
  | none => s
  | some c =>
    let s' := s.setColl { c with waits := c.waits.filter fun w => !s.edgeReady c w }
    let s' := (c.waits.filter (s.edgeReady c)).foldl (fun t w =>
      t.edge id w.party w.down w.data (s.mapEntry (c.base + c.stride * w.party))) s'
    match s'.coll id with
    | some c => if c.landed && c.waits.isEmpty then s'.dropColl id else s'.announce id
    | none => s'

/-- A collective that can go on with an edge, or with what it says of itself. -/
def State.collAgain (s : State) : Option Nat :=
  (s.colls.find? fun c => c.waits.any (s.edgeReady c) || (!c.told && !s.opWaits c.id)).map (·.id)

/-- A party goes on as far as what it holds allows: its node up, or, at party 0 or with the data from above, its landing and the edges
down, from the top level (R404). -/
def State.collGo (s : State) (id : Nat) : State :=
  match s.coll id with
  | none => s
  | some c =>
    let down (s : State) (c : Coll) (r : CWords) : State :=
      if c.sentDown then s
      else
        let s := (s.setColl { c with result := some r, sentDown := true }).due (.collLanding id false)
        (treeChildren c.party c.parties).reverse.foldl (fun s q => s.edge id q true (some (c.downTo q r)) (c.entryOf q)) s
    if !c.started then s
    else match c.result, c.own with
    | some r, _ => down s c r
    | none, none => s
    | none, some own =>
      if c.op = 3 then
        if c.party = 0 then down s c own
        else if c.sentUp then s
        else (s.setColl { c with sentUp := true }).edge id 0 false (some own) (c.entryOf 0)
      else if !c.childrenIn || c.sentUp then s
      else
        let n := c.node own
        if c.party = 0 then down s c n
        else (s.setColl { c with sentUp := true }).edge id (treeParent c.party) false (some n) (c.entryOf (treeParent c.party))

/-- A collective ends at a party: LAND, and SRC with it if it has not risen, with FAIL where it failed (R358, R360). Edges that still
wait keep its record (R31). -/
def State.collEnd (s : State) (c : Coll) (fail : Bool) : State :=
  let s := if fail || c.waits.isEmpty then s.dropColl c.id else s.setColl { c with landed := true }
  -- the exchange of one that ends before it is over
  let s := if c.group ≠ 0 then s
    else { s with fab := { s.fab with checks := s.fab.checks.filter fun k => !isOf k c.tag c.base c.parties c.stride } }
  s.signal c.co (if c.srcUp then 0 else 1) 1 fail

/-- The absent parties whose data a party's DBUF needs over an edge of its own: those edges fail (R31, R404). -/
def Coll.cutFrom (c : Coll) : List Nat :=
  (if c.op ≠ 3 then treeChildren c.party c.parties
   else if c.party ≠ 0 then [treeParent c.party]
   else if c.root ≠ 0 then [c.root] else []).filter fun q => entState (c.entryOf q) = 0

/-- The parties' exchange (R358): on any difference, or where a party's checks failed, the collective ends failed. A party that
needs data from an absent one fails with STALE (R31). -/
def execCollParameterExchange (id : Nat) (same : Bool) (s : State) : Out :=
  match s.coll id with
  | none => .next s
  | some c =>
    if c.started then .next s
    else if !same || !c.ok then .next (s.collEnd c true)
    else
      let s := s.setColl { c with started := true }
      let s := if c.reads then s.due (.collSourceRelease id) else s.collGo id
      match c.cutFrom with
      | [] => .next s
      | q :: _ => .next ((s.fabErr 3 (entChan (c.entryOf q)) c.coVa).due (.collLanding id true))

/-- A party's SBUF has been read: SRC (R360). -/
def execCollSourceRelease (id : Nat) (s : State) : Out :=
  match s.coll id with
  | none => .next s
  | some c =>
    if !c.started || c.own.isSome then .next s
    else
      let own := leafWords c.op c.minor (s.readPieces c.spieces) (s.marksOf c.spieces)
      let s := s.departOf c.rank (pieceLines c.spieces) false
      .next (((s.setColl { c with own := some own, srcUp := true }).signal c.co (if c.srcUp then 0 else 1) 0 false).collGo id)

/-- What an edge brings arrives at a party: a child's node, or the data from above (R404). A `bc` root's words reach party 0
upward. -/
def execCollEdgeArrival (id party : Nat) (down : Bool) (data : CWords) (s : State) : Out :=
  match s.coll id with
  | none => .next s
  | some c =>
    if c.result.isSome then .next s
    else if down || c.op = 3 then .next ((s.setColl { c with result := some data }).collGo id)
    else if c.ins.any fun e => e.1 = party then .next s
    else .next ((s.setColl { c with ins := c.ins ++ [(party, data)] }).collGo id)

/-- The edges that a party has still to send: its node up, or a `bc` root's words to party 0, and what goes down (R404). -/
def Coll.owed (c : Coll) : List Nat :=
  (if c.party ≠ 0 ∧ !c.sentUp ∧ (c.op ≠ 3 ∨ c.party = c.root) then [if c.op = 3 then 0 else treeParent c.party] else [])
    ++ (if c.sentDown then [] else treeChildren c.party c.parties)

/-- The parties whose DBUF depends on what a failed party would have sent, those apart to which it has sent it (R360, R404). -/
def State.collSpread (s : State) (c : Coll) : State :=
  (c.owed ++ c.waits.map (·.party)).foldl (fun s q => s.failAt c q) s

/-- A party's DBUF has been written, or has failed (R360); a failure may come from a party of another chip. -/
def execCollLanding (id : Nat) (failed : Bool) (s : State) : Out :=
  match s.coll id with
  | none => .next s
  | some c =>
    if c.landed then .next s
    else if failed then .next ((s.collSpread c).collEnd c true)
    else match c.result with
      | none => .next s
      | some r =>
        let lines := pieceLines c.dpieces
        if !(s.heldLines lines).isEmpty then .next (s.snoop lines [.collLanding id false])
        else
          let ws := c.mine r
          let bs := finalBytes c.op c.minor (ws.map (·.1))
          let marks := ws.flatMap fun x => List.replicate (collWidth c.op c.minor) x.2
          .next (((s.landSegs (cutRuns c.dpieces bs marks)).departOf c.rank lines true).collEnd c false)

/-! ## AV1 decoders (R361 to R365) -/

/-- A decoder record of R361. -/
structure DecBlock where
  bits : DWord
  len : Nat
  sample : Nat
  ofmt : Nat
  flags : BitVec 8
  ctx : DWord
  out : DWord
  pitch : Nat
  x0 : Nat
  y0 : Nat
  w : Nat
  h : Nat
  party : BitVec 16
  line : Nat
  mask : DWord
  stat : DWord
  clean : Bool
  deriving DecidableEq, Repr

def decBlockOf (bs : List Byte) : DecBlock where
  bits := BitVec.ofNat 64 (field bs 0 8)
  len := field bs 8 4
  sample := field bs 12 2
  ofmt := field bs 14 1
  flags := BitVec.ofNat 8 (field bs 15 1)
  ctx := BitVec.ofNat 64 (field bs 16 8)
  out := BitVec.ofNat 64 (field bs 24 8)
  pitch := field bs 32 4
  x0 := field bs 36 2
  y0 := field bs 38 2
  w := field bs 40 2
  h := field bs 42 2
  party := BitVec.ofNat 16 (field bs 44 2)
  line := field bs 46 1
  mask := BitVec.ofNat 64 (field bs 48 8)
  stat := BitVec.ofNat 64 (field bs 56 8)
  clean := field bs 47 1 = 0 && field bs 64 64 = 0

/-- Bytes of an output element. -/
def DecBlock.width (d : DecBlock) : Nat := if d.ofmt = 2 then 1 else 2

def DecBlock.counted (d : DecBlock) : Bool := d.flags.getLsbD 0
def DecBlock.waitin (d : DecBlock) : Bool := d.flags.getLsbD 1
def DecBlock.chroma (d : DecBlock) : Bool := d.flags.getLsbD 2

/-- The fields that R361 admits. -/
def DecBlock.ok (d : DecBlock) : Bool :=
  d.clean && decide (1 ≤ d.len ∧ d.len ≤ 2 ^ 24) && decide (d.sample ≤ 4095) && decide (d.ofmt ≤ 3)
    && d.flags.extractLsb' 3 5 = 0 && d.pitch % 256 = 0 && d.x0 % 2 = 0 && d.y0 % 2 = 0
    && decide (2 ≤ d.w ∧ d.w ≤ 4096 ∧ 2 ≤ d.h ∧ d.h ≤ 4096) && d.w % 2 = 0 && d.h % 2 = 0
    && decide (d.w * d.width ≤ d.pitch) && decide (d.line ≤ 63)

/-- Bytes of the output window from OUT on (R363). -/
def DecBlock.span (d : DecBlock) : Nat :=
  if d.chroma then 5 * d.pitch * d.h / 4 + d.pitch / 2 * (d.h / 2 - 1) + d.w / 2 * d.width
  else d.pitch * (d.h - 1) + d.w * d.width

/-- N of R363. -/
def DecBlock.bytes (d : DecBlock) : Nat := let n := d.w * d.h * d.width; if d.chroma then n + n / 2 else n

def State.decQ (s : State) (d : BitVec 4) : List DecRec := Store.get [] s.decs d.toNat
def State.setDecQ (s : State) (d : BitVec 4) (l : List DecRec) : State := { s with decs := Store.set [] s.decs d.toNat l }

/-- `dec` (R361). -/
def execDec (d : BitVec 4) (p co : BitVec 6) (s : State) : Out :=
  let va := s.rd.rs p
  s.checked [p, co] fun s =>
  if s.world.decoders.getLsbD d.toNat && !s.secure then s.worldTrap 1 d.toNat
  else s.aligned 128 va fun _ =>
    match s.pieces s.c .read va 128 with
    | .error t => s.trap t
    | .ok ps => s.reading ps fun s =>
      let bs := s.readPieces ps
      let b := decBlockOf bs
      if !b.ok then s.illegal
      else if !inAperture b.out.toNat then s.trap (mkTrap 0x08 0 0 b.out)
      else s.aligned 4096 b.ctx fun _ => s.aligned 8 b.mask fun _ => s.aligned 64 b.stat fun _ => s.command co fun s co =>
        let q := s.decQ d
        if 4 ≤ q.length then s.stalled .hold
        else if s.ending s.c.rank then .next (s.signalAfter co 1 1 true)
        else
          let (id, s) := s.take
          let r : DecRec := ⟨id, bs, s.c.rank, s.c.seq, s.c.sv, co, false, false, false, false, false⟩
          let s := (s.setDecQ d (q ++ [r])).after (s.waitsOf s.cur) (opAgent id)
          .next (if q.isEmpty then s.due (.decoderRecordStart d) else s)

/-- The context by which a decoder translates: that of the strand that gave the record. -/
def DecRec.as (r : DecRec) : Ctx := { Ctx.reset with live := true, seq := r.seq, rank := r.rank, sv := r.sv }

/-- The pieces of each region of a record, as the decoder's own checks find them (R363 step 1): CTX, OUT, MASK, STAT. -/
def State.decRegions (s : State) (r : DecRec) : Option (List (List (Nat × Nat))) :=
  let b := decBlockOf r.block
  let c := r.as
  let word := b.mask + BitVec.ofNat 64 (8 * (b.sample / 64))
  match s.pieces c .read b.bits b.len, s.pieces c .rw b.ctx 4096, s.pieces c .write b.out b.span, s.pieces c .rw word 8,
    s.pieces c .write b.stat 64 with
  | .ok _, .ok x, .ok o, .ok m, .ok t =>
    match s.pieces c .rw (BitVec.ofNat 64 (field (s.readPieces x) 0 8)) (9 * 2 ^ 25) with
    | .ok _ => some [x, o, m, t]
    | .error _ => none
  | _, _, _, _, _ => none

/-- The TLBs after the decoder's checks of a record (R91). -/
def State.touchRegions (s : State) (r : DecRec) : State :=
  let b := decBlockOf r.block
  let c := r.as
  ((((s.touchRun c b.bits b.len).touchRun c b.ctx 4096).touchRun c (b.mask + BitVec.ofNat 64 (8 * (b.sample / 64))) 8).touchRun
    c b.stat 64)

/-- The lines of a record's bitstream. -/
def State.bitLines (s : State) (r : DecRec) : List Nat :=
  match s.pieces r.as .read (decBlockOf r.block).bits (decBlockOf r.block).len with
  | .ok ps => pieceLines ps
  | .error _ => []

/-- The head of a decoder's queue changed. -/
def State.modHead (s : State) (d : BitVec 4) (f : DecRec → DecRec) : State :=
  match s.decQ d with
  | r :: rs => s.setDecQ d (f r :: rs)
  | [] => s

/-- Is the wait of a decoder's head record over, with WAITIN: has its counter been zero in a phase that the rank has armed, since the
decoder's checks passed (R363 step 2)? -/
def State.decWaited (s : State) (d : BitVec 4) (r : DecRec) : Bool :=
  let b := decBlockOf r.block
  !b.waitin || r.met || match s.perchOf (BitVec.ofNat 6 b.line) with
    | some p => p.rank = r.rank && p.dests.any fun x => x.party = BitVec.ofNat 16 (0x8000 + d.toNat) && x.left = 0
    | none => false

/-- Can the record at the head of a decoder go on to its checks, which come after the accesses po-before its command (R200), or from
them to its start? -/
def State.decReady (s : State) (d : BitVec 4) : Bool :=
  match s.decQ d with
  | r :: _ => !r.started && !s.opWaits r.id && (!r.checked || s.decWaited d r)
  | [] => false

/-- A decoder ends its head record, and the next one may start. -/
def State.decEnd (s : State) (d : BitVec 4) : State := s.setDecQ d ((s.decQ d).drop 1)

/-- The decoder's part of a line raised (R274, R363 step 2). -/
def State.decRaise (s : State) (d : BitVec 4) (r : DecRec) : State :=
  let b := decBlockOf r.block
  let line := BitVec.ofNat 6 b.line
  match s.perchOf line with
  | some p =>
    if b.waitin && !r.met && p.rank = r.rank then
      let up (x : Dest) : Dest := if x.party = BitVec.ofNat 16 (0x8000 + d.toNat) then { x with raised := true } else x
      (s.setPerch line (some { p with dests := p.dests.map up })).perchCheck line
    else s
  | none => s

/-- A decoder takes up the record at its head (R363 steps 1 and 2, R364): its checks, of which a failed one ends the record failed;
then, with WAITIN, its wait; then it starts. -/
def execDecoderRecordStart (d : BitVec 4) (s : State) : Out :=
  match s.decQ d with
  | [] => .next s
  | r :: _ =>
    if !s.decReady d then .next s
    else match s.decRegions r with
      | none => .next ((s.decEnd d).signal r.co 1 1 true)
      | some rs =>
        let s := if r.checked then s else (s.touchRegions r).modHead d fun r => { r with checked := true }
        if !s.decWaited d r then .next s
        else
          let st := (s.readPieces (rs.headD [])).getD 8 0
          .next (((s.decRaise d r).modHead d fun r => { r with started := true, busy := st.getLsbD 0 }).due (.decoderSourceRelease d))

/-- Bytes written over pieces at an offset, as pieces of their own. -/
def subPieces : List (Nat × Nat) → Nat → List Byte → List (Nat × List Byte)
  | [], _, _ => []
  | (loc, n) :: ps, off, bs =>
    if n ≤ off then subPieces ps (off - n) bs
    else if bs.isEmpty then []
    else (loc + off, bs.take (n - off)) :: subPieces ps 0 (bs.drop (n - off))

/-- A write of bytes at an offset of some pieces, one event on each line. -/
def State.writeAt (s : State) (ps : List (Nat × Nat)) (off : Nat) (bs : List Byte) : State := s.writeAll (subPieces ps off bs)

/-- The bitstream has been read: SRC; decoding begins, with BUSY set (R363 step 3, R364). -/
def execDecoderSourceRelease (d : BitVec 4) (s : State) : Out :=
  match s.decQ d with
  | [] => .next s
  | r :: _ => match s.decRegions r with
    | some (x :: _) =>
      if !r.started || r.srcUp then .next s
      else
        let up (s : State) : State :=
          ((s.modHead d fun r => { r with srcUp := true }).departOf r.rank (s.bitLines r) false).signal r.co 1 0 false
        if r.busy then .next (up s)
        else
          let st := (s.readPieces x).getD 8 0
          let line := linesOf ((x.headD (0, 0)).1 + 8) 1
          s.unheld line (.decoderSourceRelease d) fun s => .next (((up s).writeAt x 8 [st ||| 1]).departOf r.rank line true)
    | _ => .next (if r.started && !r.srcUp then (s.modHead d fun r => { r with srcUp := true }).signal r.co 1 0 false else s)

/-- A sample as OFMT writes it (R363). -/
def sampleBytes (ofmt depth s : Nat) : List Byte :=
  let q : Ex := if s = 0 then .val (.fin false 0 0) else .quo false s (2 ^ depth - 1) 0
  match ofmt with
  | 0 => Decode.leBytes 2 (roundTo 1 0 false false false 0 q).1.toNat
  | 1 => Decode.leBytes 2 (roundTo 2 0 false false false 0 q).1.toNat
  | 2 => [BitVec.ofNat 8 (if depth = 10 then min 255 ((s + 2) / 4) else s)]
  | _ => Decode.leBytes 2 s

/-- A row of a window: samples outside the decoded plane are zero (R363 step 5). -/
def planeRow (ofmt depth pw ph : Nat) (plane : List Nat) (x0 y w : Nat) : List Byte :=
  (List.range w).flatMap fun i =>
    sampleBytes ofmt depth (if x0 + i < pw ∧ y < ph then plane.getD (pw * y + x0 + i) 0 else 0)

/-- The window of a frame, as offsets from OUT with their bytes (R363 step 5); zero where `blank`. -/
def DecBlock.window (b : DecBlock) (f : Frame) (blank : Bool) : List (Nat × List Byte) :=
  let fw := if blank then 0 else f.width.toNat
  let fh := if blank then 0 else f.height.toNat
  let dep := f.depth.toNat
  let luma := (List.range b.h).map fun r => (b.pitch * r, planeRow b.ofmt dep fw fh f.luma b.x0 (b.y0 + r) b.w)
  let chroma (base : Nat) (pl : List Nat) : List (Nat × List Byte) := (List.range (b.h / 2)).map fun r =>
    (base + b.pitch / 2 * r, planeRow b.ofmt dep ((fw + 1) / 2) ((fh + 1) / 2) pl (b.x0 / 2) (b.y0 / 2 + r) (b.w / 2))
  luma ++ if b.chroma then chroma (b.pitch * b.h) f.chromaU ++ chroma (5 * b.pitch * b.h / 4) f.chromaV else []

/-- STATUS of a frame (R364): what the decoding found, or BUSY, or a reference with no frame, or a tainted one. -/
def frameStatus (busy : Bool) (f : Frame) (taint rvalid : BitVec 8) : Nat :=
  if busy then 4
  else if f.status = 3 then 3
  else if f.status ≠ 0 || !f.shown || f.refs &&& ~~~rvalid ≠ 0 then 1
  else if f.refs &&& taint ≠ 0 then 2
  else 0

/-- A decoder has decoded a frame (R363 steps 5 to 9, R364, R365): window, mask, context, status record, counted bytes, LAND. -/
def execDecoderFrameDone (d : BitVec 4) (f : Frame) (s : State) : Out :=
  match s.decQ d with
  | [] => .next s
  | r :: _ => match s.decRegions r with
    | some [x, o, m, t] =>
      if !r.srcUp then .next s
      else
        let b := decBlockOf r.block
        let lines := pieceLines (x ++ o ++ m ++ t)
        if !(s.heldLines lines).isEmpty then .next (s.snoop lines [.decoderFrameDone d f])
        else
          let cx := s.readPieces x
          let taint := cx.getD 9 0
          let rvalid := cx.getD 10 0
          let st := frameStatus r.busy f taint rvalid
          let rows := (b.window f (decide (3 ≤ st))).flatMap fun (w : Nat × List Byte) => subPieces o w.1 w.2
          let landed := pieceLines (rows.map fun w => (w.1, w.2.length))
          let s := (s.writeAll rows).departOf r.rank (landed ++ (if st = 0 then [] else pieceLines m) ++ pieceLines t
            ++ if st = 4 then [] else pieceLines x) true
          let s := s.charge r.rank 2 (16 * landed.length)
          let word := (s.readPieces m)
          let i := b.sample % 64
          let s := if st = 0 then s
            else s.writeAt m 0 (word.set (i / 8) (word.getD (i / 8) 0 &&& ~~~(BitVec.twoPow 8 (i % 8))))
          let frames := field cx 12 4 + (if f.shown && decide (st < 3) then 1 else 0)
          let s := if st = 4 then s
            else
              let refresh := if st = 3 then 0 else f.refresh
              let taint := if st = 0 then taint &&& ~~~refresh else taint ||| refresh
              let seq : BitVec 8 := (cx.getD 8 0 &&& 2) ||| if f.seqHdr then 2 else 0
              s.writeAt x 8 ([seq, taint, rvalid ||| refresh, cx.getD 11 0] ++ Decode.leBytes 4 frames
                ++ (Config.decoderState (cx.drop 16) (f.luma ++ f.chromaU ++ f.chromaV) ++ List.replicate 4080 0).take 4080)
          let rec_ := Decode.leBytes 4 st ++ Decode.leBytes 4 frames ++ Decode.leBytes 2 f.width.toNat
            ++ Decode.leBytes 2 f.height.toNat ++ Decode.leBytes 2 f.badTiles.toNat ++ [f.depth, f.ftype]
            ++ Decode.leBytes 8 s.time.toNat ++ Decode.leBytes 2 (f.grain.toNat % 4) ++ List.replicate 6 0
            ++ (f.grainBits ++ List.replicate 32 0).take 32
          let s := s.writeAt t 0 rec_
          let s := if b.counted then s.countDown r.rank (BitVec.ofNat 6 b.line) b.party b.bytes else s
          .next ((s.decEnd d).signal r.co 0 1 false)
    | _ => .next (if r.srcUp then (s.decEnd d).signal r.co 0 1 true else s)

/-! ## Operations of a rank (R61, R64) -/

/-- The snapshot that an event will write for a rank, with its completion object (R367). -/
def snapshotOf (rank : Nat) : Instr → Option (Option Nat)
  | .histSnapshot _ r _ _ co => if r = rank then some co else none
  | _ => none

/-- The rank of the strand, live or exited, that a key names. -/
def State.rankOfKey (s : State) (key : Nat) : Nat := (keyRank key).getD (s.ctx key).rank

/-- What the commands of a rank's strands start once accesses before them have performed, by number (R98, R200). -/
def State.eventsOf (s : State) (rank : Nat) : List (Nat × Instr) :=
  s.pend.filterMap fun e => match e.2 with
    | some (.event k _ ev) => if s.rankOfKey k = rank then some (e.1, ev) else none
    | _ => none

/-- Has a rank an engine operation in flight, a League operation apart (R64)? -/
def State.engineBusy (s : State) (rank : Nat) : Bool :=
  s.copies.any (fun c => c.rank = rank) || s.colls.any (fun c => c.rank = rank)
    || s.decs.any (fun e => e.2.any fun r => r.rank = rank) || !(s.eventsOf rank).isEmpty
    || s.agenda.any (fun i => (snapshotOf rank i).isSome) || s.host.biWait.any fun w => w.2.any fun i => (snapshotOf rank i).isSome

/-- The snapshots of a rank that are still to be written end failed (R61). -/
def State.stopSnapshots (s : State) (rank : Nat) : State :=
  let parked : List (Nat × Instr) := (s.eventsOf rank).filter fun e => (snapshotOf rank e.2).isSome
  let cos : List (Option Nat) := s.agenda.filterMap (snapshotOf rank) ++ (s.host.biWait.flatMap fun w => w.2.filterMap (snapshotOf rank))
    ++ parked.filterMap fun e => snapshotOf rank e.2
  let keep (l : List Instr) : List Instr := l.filter fun i => (snapshotOf rank i).isNone
  let s : State := { s with agenda := keep s.agenda, host := { s.host with biWait := s.host.biWait.map fun w => (w.1, keep w.2) } }
  cos.foldl (fun s co => s.signal co 1 1 true) (s.cancel (parked.map (·.1)))

/-- Every engine operation of an ending rank ends failed (R61): what has not risen of SRC rises with LAND. A collective that has landed
has only edges to give up. -/
def State.stopEngines (s : State) (rank : Nat) : State :=
  let s := s.stopSnapshots rank
  let s := (s.copies.filter fun c => c.rank = rank).foldl (fun s c =>
    ((s.dropCopy c.id).unpark c.id).signal c.co (if c.read then 0 else 1) 1 true) s
  let s := (s.colls.filter fun c => c.rank = rank).foldl (fun s c =>
    if c.landed then (s.collSpread c).dropColl c.id else (s.collSpread c).collEnd c true) s
  s.decs.foldl (fun s e => e.2.foldl (fun s r =>
    if r.rank = rank then
      let d := BitVec.ofNat 4 e.1
      (s.setDecQ d ((s.decQ d).filter fun x => x ≠ r)).signal r.co (if r.srcUp then 0 else 1) 1 true
    else s) s) s

end Sys2Proof.Machine
end

