-- ==== Sys2Proof/Machine/Fabric.lean ====
section
/-!
DEFINITION. Fabric.lean: the events of 02: ports and flits (R23, R24), channels (R25 to R28), packets (R29, R32, R35), transfers
(R32 to R34), and device time across chips (R36, R37).
-/
namespace Sys2Proof.Machine

/-! ## Transfers (R32 to R34) -/

/-- A League operation of a rank learns of a transfer of its own that has failed (R34). -/
def State.leagueFailed (s : State) (rank op code : Nat) : State :=
  if (s.rank rank).league.any fun l => l.id = op then
    s.modRank rank fun r => { r with league := r.league.map fun l => { l with failed := some code } }
  else s

/-- A transfer ends failed (R34): FAB_ERR, and what depends on it. -/
def State.xferFails (s : State) (x : Xfer) (code : Nat) : State :=
  let s := s.fabErr code x.chan x.co
  match x.what with
  | .edge id party down => match s.coll id with
    | some c => s.edgeLost c party down
    | none => s
  | .check id party => match s.coll id with
    | some c => s.failAt c party
    | none => s
  | .league rank op => s.leagueFailed rank op code

def State.xfer (s : State) (id : Nat) : Option Xfer := s.fab.xfers.find? fun x => x.id = id
def State.dropXfer (s : State) (id : Nat) : State :=
  { s with fab := { s.fab with xfers := s.fab.xfers.filter fun x => x.id ≠ id } }

/-! ## Channels (R27) -/

/-- FENCING ends once the peer's markers have come on every up port and every transfer issued before it has ended (R27). -/
def State.fenceCheck (s : State) (ch : BitVec 8) : State :=
  let c := s.chan ch
  if c.st = .fencing && s.portsUp ch &&& ~~~c.markers = 0 && !(s.fab.xfers.any fun x => x.chan = ch) then
    s.setChan ch { c with st := .fenced }
  else s

/-- A channel end enters FENCING, its own marker sent on every up port (R27). -/
def State.toFencing (s : State) (ch : BitVec 8) : State :=
  let c := s.chan ch
  (((s.setChan ch { c with st := .fencing, since := s.time.toNat }).send (.fenceMarker ch)).sendEach c.cports ch).fenceCheck ch

/-- A transfer ends, and with it perhaps the fencing of its channel. -/
def State.endXfer (s : State) (id : Nat) (code : Option Nat) : State :=
  match s.xfer id with
  | none => s
  | some x =>
    let s := s.dropXfer id
    (match code with
      | some k => s.xferFails x k
      | none => s).fenceCheck x.chan

/-- The OPEN of a channel end, on every port of the channel (R27). -/
def State.sendOpen (s : State) (ch : BitVec 8) (reply : Bool) : State :=
  let c := s.chan ch
  (s.send (.openMsg ch s.fab.node c.peer c.gen reply)).sendEach c.cports ch

/-- A write of CHAN_CFG on the selected channel (R25). -/
def execChanCfgWrite (val : DWord) (s : State) : Out :=
  let ch := s.fab.chanSel
  let c := s.chan ch
  if c.st = .closed then
    .next (s.setChan ch { c with peer := val.extractLsb' 52 12, cports := val.extractLsb' 36 16, domains := val.extractLsb' 12 24 })
  else .next (s.setChan ch { c with lastErr := 1 })

/-- Is a channel's configuration one that OPEN admits, for a supervisor of a world (R27)? -/
def State.cfgOk (s : State) (ch : BitVec 8) (secure : Bool) : Bool :=
  let c := s.chan ch
  c.cports ≠ 0 && c.peer ≠ s.fab.node
    && !(s.fab.chans.any fun e => e.1 ≠ ch.toNat && e.2.st ≠ .closed && e.2.peer = c.peer)
    && (List.range 16).all (fun p => !c.cports.getLsbD p || s.world.wports.getLsbD p = secure)
    && (List.range 24).all (fun k => !c.domains.getLsbD k || s.secureCluster k = secure)

/-- OPEN (R27). -/
def execChanCmdOpen (secure : Bool) (s : State) : Out :=
  let ch := s.fab.chanSel
  let c := s.chan ch
  if c.st ≠ .closed then .next (s.setChan ch { c with lastErr := 1 })
  else if !s.cfgOk ch secure then .next (s.setChan ch { c with lastErr := 6 })
  else
    .next ((s.setChan ch { c with
      st := .opening, lastErr := 0, since := s.time.toNat, markers := 0 }).sendOpen ch false)

/-- FENCE (R27). -/
def execChanCmdFence (s : State) : Out :=
  let ch := s.fab.chanSel
  let c := s.chan ch
  if c.st = .opened then .next ((s.setChan ch { c with lastErr := 0 }).toFencing ch)
  else .next (s.setChan ch { c with lastErr := 1 })

/-- UNMAP (R27). -/
def execChanCmdUnmap (s : State) : Out :=
  let ch := s.fab.chanSel
  let c := s.chan ch
  if c.st = .fenced then .next (s.setChan ch { c with st := .closed, gen := c.gen + 1, admits := false, lastErr := 0 })
  else .next (s.setChan ch { c with lastErr := 1 })

/-- A write of FAB_NODE (R38). -/
def execFabNodeWrite (node : BitVec 12) (s : State) : Out :=
  if s.fab.chans.all fun e => e.2.st = .closed then .next { s with fab := { s.fab with node } } else .next s

/-- An OPEN arrives (R27). -/
def execOpenArrival (src dst : BitVec 12) (gen : BitVec 16) (reply : Bool) (s : State) : Out :=
  match s.chansWith fun c => (c.st = .opening || c.st = .opened) && c.peer = src with
  | [] => .next s
  | ch :: _ =>
    let c := s.chan ch
    if c.st = .opening then
      if dst ≠ s.fab.node then .next (s.setChan ch { c with st := .closed, lastErr := 4 })
      else if s.portsUp ch = 0 then .next s
      else .next ((s.setChan ch { c with st := .opened, pgen := gen, admits := true, psent := 0, pgot := [] }).sendOpen ch true)
    else if dst ≠ s.fab.node then .next s
    else if gen ≠ c.pgen then .next (s.toFencing ch)
    else if reply then .next s
    else .next (s.sendOpen ch true)

/-- An end in OPENING repeats its request every 10 µs (R27). -/
def State.openRepeat (s : State) (ch : BitVec 8) : State :=
  let c := s.chan ch
  if c.st = .opening && decide (c.since < s.time.toNat) && (s.time.toNat - c.since) % 40000 = 0 then s.sendOpen ch false else s

def execOpenRepeat (ch : BitVec 8) (s : State) : Out := .next (s.openRepeat ch)

/-- FAB_TIMEOUT passes in OPENING (R27). -/
def State.openingTimeout (s : State) (ch : BitVec 8) : State :=
  let c := s.chan ch
  if c.st = .opening && s.timedOut c.since then s.setChan ch { c with st := .closed, lastErr := 3 } else s

def execOpeningTimeout (ch : BitVec 8) (s : State) : Out := .next (s.openingTimeout ch)

/-- A fence marker arrives from the peer on a port (R27). -/
def execFenceMarkerArrival (ch : BitVec 8) (port : BitVec 4) (s : State) : Out :=
  let c := s.chan ch
  let mark (s : State) : State :=
    let c := s.chan ch
    (s.setChan ch { c with markers := c.markers ||| BitVec.twoPow 16 port.toNat }).fenceCheck ch
  match c.st with
  | .opened => .next (mark (s.toFencing ch))
  | .fencing => .next (mark s)
  | _ => .next s

/-- FAB_TIMEOUT passes after FENCING was entered (R27). -/
def State.fencingTimeout (s : State) (ch : BitVec 8) : State :=
  let c := s.chan ch
  if c.st = .fencing && s.timedOut c.since then s.setChan ch { c with st := .fenced, lastErr := 3 } else s

def execFencingTimeout (ch : BitVec 8) (s : State) : Out := .next (s.fencingTimeout ch)

/-! ## The time tree (R36, R37) -/

/-- The neighbours that name a root, as root node, hops and port, over the ports that are up. -/
def State.timeNbrs (s : State) : List (Nat × Nat × Nat) :=
  ((List.range 16).filter fun p => (s.port p).up && (s.port p).nhops ≠ 0xFF).map fun p =>
    ((s.port p).nroot.toNat, (s.port p).nhops.toNat, p)

/-- The first of a list of neighbours: the lowest root node, then the fewest hops, then the lowest port (R36). -/
def nearest : List (Nat × Nat × Nat) → Option (Nat × Nat × Nat)
  | [] => none
  | x :: xs => match nearest xs with
    | none => some x
    | some y => some (if y.1 < x.1 || y.1 = x.1 && (decide (y.2.1 < x.2.1) || y.2.1 = x.2.1 && decide (y.2.2 < x.2.2)) then y else x)

/-- The parent of this chip in the time tree, as root, hops and port; none at the root and where no root is in reach (R36). A chip
with ROOT set follows another root of a lower node number. -/
def State.parent (s : State) : Option (Nat × Nat × Nat) :=
  match nearest s.timeNbrs with
  | some x => if s.fab.root && decide (s.fab.node.toNat ≤ x.1) then none else some x
  | none => none

/-- HOPS as the ports stand: 0 at the root, 0xFF where none is in reach (R37). -/
def State.hopsNow (s : State) : BitVec 8 :=
  match s.parent with
  | some x => if x.2.1 < 254 then BitVec.ofNat 8 (x.2.1 + 1) else 0xFF
  | none => if s.fab.root then 0 else 0xFF

/-- The place in the tree found again after a change of a port, of a neighbour or of ROOT. -/
def State.rehop (s : State) : State := { s with fab := { s.fab with hops := s.hopsNow } }

/-- The time flits of this chip, over every port that is up (R22, R36): its hops, and the root it follows. -/
def State.timeFlits (s : State) : State :=
  let root := match s.parent with
    | some x => BitVec.ofNat 12 x.1
    | none => s.fab.node
  ((List.range 16).filter fun p => (s.port p).up).foldl (fun s p =>
    (s.portSend p none 1).send (.timeFlit (BitVec.ofNat 4 p) s.fab.hops root)) s

/-! ## Ports (R23, R24) -/

/-- A port goes down (R23): what its replay buffer holds is resent on the lowest other up port of each channel; a channel end
with no port left is FENCED, with PORTS_DOWN, and its transfers fail with LINK_DOWN (R27). ALERT_STAT.LINK is set (R20). -/
def State.portDown (s : State) (p : BitVec 4) : State :=
  let x := s.port p.toNat
  if !x.up then s.setPort p.toNat { x with training := false }
  else
    let s := (s.setPort p.toNat { x with
      up := false, training := false, fell := true, replay := [], replays := 0, tryAt := s.time.toNat + 4000000, nhops := 0xFF }).rehop
    let s := { s with pwr := { s.pwr with alert := s.pwr.alert ||| 8 } }
    let hit := s.chansWith fun c => (c.st = .opened || c.st = .fencing) && c.cports.getLsbD p.toNat
    -- failover of the unacknowledged flits; those of the time tree were for the port's own neighbour
    let s := x.replay.foldl (fun s f => match f.2.bind fun ch => (List.range 16).find? (s.portsUp ch).getLsbD with
      | some q => (s.portSend q f.2 1).send (.flits (BitVec.ofNat 4 q) [((s.port q).sent, f.2)])
      | none => s) s
    hit.foldl (fun s ch =>
      let c := s.chan ch
      if s.portsUp ch = 0 then
        let lost := s.fab.xfers.filter fun t => t.chan = ch
        lost.foldl (fun s t => (s.dropXfer t.id).xferFails t 5) (s.setChan ch { c with st := .fenced, lastErr := 5 })
      else s.fenceCheck ch) s

/-- The other end acknowledges flits up to a sequence number (R23). -/
def execFlitAck (port : BitVec 4) (seqNo : Nat) (s : State) : Out :=
  let x := s.port port.toNat
  .next (s.setPort port.toNat { x with
    replay := x.replay.filter fun f => decide (seqNo < f.1), replays := 0, ackAt := s.time.toNat })

/-- A flit in the replay buffer is resent (R23); the sixteenth replay of one takes the port down. -/
def execFlitReplay (port : BitVec 4) (s : State) : Out :=
  let x := s.port port.toNat
  if !x.up || x.replay.isEmpty then .next s
  else
    let s := (s.setPort port.toNat { x with replays := x.replays + 1 }).send (.flits port (x.replay.take 1))
    if 16 ≤ x.replays + 1 then .next (s.portDown port) else .next s

/-- A port goes down (R23). -/
def execPortDown (port : BitVec 4) (s : State) : Out := .next (s.portDown port)

/-- Training of a port that is down and not held starts (R24). -/
def State.retrain (s : State) (port : BitVec 4) : State :=
  let x := s.port port.toNat
  if x.up || x.held then s else s.setPort port.toNat { x with training := true }

/-- A port retrains on its own (R24). -/
def execPortRetrain (port : BitVec 4) (s : State) : Out := .next (s.retrain port)

/-- A trained port is up (R24): the channel ends that name it have it among PORTS_UP, and it carries no flit of before. -/
def execPortUp (port : BitVec 4) (s : State) : Out :=
  let x := s.port port.toNat
  if !x.training then .next s
  else
    .next (s.setPort port.toNat
      { x with up := true, training := false, fell := false, replay := [], replays := 0, ackAt := s.time.toNat, nhops := 0xFF })

/-- PORT_CMD with RETRAIN (R24). -/
def execPortCmdRetrain (port : BitVec 4) (s : State) : Out := .next (s.retrain port)

/-- PORT_CMD with HOLDSET and HOLD (R24). -/
def execPortCmdHold (port : BitVec 4) (s : State) : Out :=
  let s := s.portDown port
  .next (s.setPort port.toNat { s.port port.toNat with held := true, training := false })

/-- PORT_CMD with HOLDSET alone (R24): "releases it to retrain". When it trains then the spec does not say: the model keeps its own
attempts of 1 ms and then every 100 ms, and makes one that came due while it was held in the next cycle (DESIGN CHOICE, log 63). -/
def execPortCmdRelease (port : BitVec 4) (s : State) : Out :=
  .next (s.setPort port.toNat { s.port port.toNat with held := false })

/-! ## Packets (R29, R32, R35) -/

/-- A context of a rank at its own level, by which what arrives for it translates. -/
def State.asRank (s : State) (rank : Nat) : Ctx :=
  { Ctx.reset with live := true, rank, seq := 32 * (s.rank rank).dom.toNat }

/-- Does a channel end admit what a source sends under a generation for a domain (R29)? -/
def State.admitsTo (s : State) (m : MsgSrc) (dom : BitVec 5) : Bool :=
  s.fab.chans.any fun e => (e.2.st = .opened || e.2.st = .fencing) && e.2.admits && e.2.peer = m.node && e.2.gen = m.gen
    && e.2.domains.getLsbD dom.toNat

/-- Does a channel end admit a packet of at most 256 bytes (R21, R29)? -/
def State.admitted (s : State) (p : Packet) : Bool := decide (p.body.size ≤ 256) && s.admitsTo ⟨p.src, p.gen⟩ p.dom

/-- The channel end by which a packet is admitted (R29). -/
def State.endOf (s : State) (p : Packet) : Option (BitVec 8) :=
  (s.chansWith fun c => (c.st = .opened || c.st = .fencing) && c.peer = p.src).head?

/-- A packet that its channel end has accepted before, by its number: a duplicate (R23). -/
def State.seen (s : State) (p : Packet) : Bool :=
  match s.endOf p with
  | some ch => (s.chan ch).pgot.contains p.seqNo
  | none => false

/-- A part of a transfer is accepted, with the words it brings: the transfer as far as it has come (R35). -/
def InXfer.take (x : InXfer) (p : Packet) (words : List (Word × Bool)) : InXfer :=
  { x with parts := x.parts ++ [(p.part, words)], size := if p.last then some (p.part + 1) else x.size }

/-- Every part of a transfer has been accepted: the words of all of them in order. -/
def InXfer.whole (x : InXfer) : Option (List (Word × Bool)) :=
  match x.size with
  | none => none
  | some n =>
    ((List.range n).mapM fun i => (x.parts.find? fun e => e.1 = i).map (·.2)).map List.flatten

/-- A packet is accepted: its number is noted, and its transfer is so far (R23, R35). -/
def State.accept (s : State) (p : Packet) : State × Option (List (Word × Bool)) :=
  let words := match p.body with
    | .coll _ _ _ _ _ _ ws => ws
    | _ => []
  let s := match s.endOf p with
    | some ch => s.setChan ch { s.chan ch with pgot := (s.chan ch).pgot ++ [p.seqNo] }
    | none => s
  let mine (x : InXfer) : Bool := x.src = p.src && x.id = p.xfer
  let x := ((s.fab.ins.find? mine).getD ⟨p.src, p.xfer, [], none⟩).take p words
  let rest := s.fab.ins.filter fun x => !mine x
  match x.whole with
  | some ws => ({ s with fab := { s.fab with ins := rest } }, some ws)
  | none => ({ s with fab := { s.fab with ins := rest ++ [x] } }, none)

/-- A transfer lands whole (R35): its counted bytes, or the words of its edge, or what a migration brings; then it is acknowledged. -/
def State.landXfer (s : State) (p : Packet) (words : List (Word × Bool)) : State :=
  let s := match p.body with
    | .data _ _ _ (some l) party n => s.countDown p.rank l party n
    | .data .. => s
    | .coll tag base nr stride party down _ =>
      match (s.parties tag base nr stride).find? fun (c : Coll) => c.rank = p.rank with
      | some c => s.dueNow (.collEdgeArrival c.id party down words)
      | none => s
    | .check c => { s with fab := { s.fab with checks := s.fab.checks ++ [c] } }.exchange c.tag c.base c.parties c.stride
    | .league _ (some m) =>
      if (s.rank p.rank).st = RankState.incoming then
        { s with fab := { s.fab with arrived := Store.set none s.fab.arrived p.rank (some m) } }
      else s
    | .league _ none => s
  s.sendBack p.src (.ack p.src p.xfer)

/-- League traffic of a rank has come from its source (R68). -/
def State.leagueKept (s : State) (rank : Nat) : State :=
  if (s.rank rank).st = .incoming then
    s.modRank rank fun r => { r with league := r.league.map fun l => { l with kept := s.time.toNat } }
  else s

/-- A packet arrives in good flits, which are acknowledged (R23): it is rejected (R29), or a duplicate, or rejected (R32, R49), or
accepted: its bytes are written with their marks, once the host has given up their lines (R41), and its transfer lands with the last
of its parts (R35). A packet with a bad CRC is as if it had not come, and its sender sends it again. The STALE test of R32 is not made
of League traffic, whose rank has no local entry at its destination before the commit (DEDUCED, log 69). -/
def execPacketArrival (a : Arrival) (s : State) : Out :=
  if !a.crcOk then .next s
  else
    let p := a.packet
    let good (s : State) : State := s.send (.flitAck a.port a.flit)
    let reject (stale : Bool) : Out := .next ((good s).sendBack p.src (.reject p.src p.xfer stale))
    let land (s : State) : Out := match s.accept p with
      | (s, some ws) => .next (s.landXfer p ws)
      | (s, none) => .next s
    if !s.admitted p then reject false
    else if s.seen p then .next (good s)
    else match p.body with
      | .league .. => land ((good s).leagueKept p.rank)
      | body =>
        let e := s.mapEntry p.rank
        if entState e ≠ 1 || entEpoch e ≠ p.epoch then reject true
        else match body with
          | .data va bytes poison .. =>
            match s.pieces (s.asRank p.rank) .write (BitVec.ofNat 64 va) bytes.length with
            | .error _ => reject false
            | .ok ps =>
              let marks := (List.range bytes.length).map fun i => poison.getLsbD (i / 8)
              s.unheld (pieceLines ps) (.packetArrival a) fun s => land ((good s).landSegs (cutRuns ps bytes marks))
          | _ => land (good s)

/-- The end-to-end acknowledgement ends a transfer (R32). -/
def execTransferAcknowledged (id : Nat) (s : State) : Out := .next (s.endXfer id none)

/-- A rejection ends a transfer failed (R32, R34). -/
def execRejectionArrival (id : Nat) (stale : Bool) (s : State) : Out := .next (s.endXfer id (some (if stale then 3 else 2)))

/-- FAB_TIMEOUT passes after a transfer was issued (R32, R34). -/
def State.transferTimeout (s : State) (id : Nat) : State :=
  match s.xfer id with
  | some x => if s.timedOut x.at_ then s.endXfer id (some 6) else s
  | none => s

def execTransferTimeout (id : Nat) (s : State) : Out := .next (s.transferTimeout id)

/-! ## Device time (R36, R37) -/

/-- The offset of an exchange with the parent (R36, R37): it is this chip's lead, so a positive one holds a count and a negative one
advances time by two, at most once in 4,096 cycles. Four exchanges running within 8 cycles set LOCK. -/
def State.disciplined (s : State) (offset : BitVec 16) : State :=
  let near := decide (-8 ≤ offset.toInt ∧ offset.toInt ≤ 8)
  let good := if near then s.fab.good + 1 else 0
  let lock := near && (s.fab.lock || decide (4 ≤ good))
  let slew := offset ≠ 0 && decide (s.fab.slewAt + 4096 ≤ s.time.toNat)
  let gap : Int := s.time.toNat - s.fab.slewAt
  let rate := if slew && s.fab.slewAt ≠ 0 then (if 0 < offset.toInt then gap else -gap) else s.fab.rate
  { s with fab := { s.fab with
    offset, exchangeAt := s.time.toNat, good, lock, rate
    rateAt := if s.fab.lock && !lock then s.time.toNat + rate.natAbs else s.fab.rateAt
    slewAt := if slew then s.time.toNat else s.fab.slewAt
    hold := s.fab.hold || slew && decide (0 < offset.toInt)
    skip := s.fab.skip || slew && decide (offset.toInt < 0) } }

/-- Time flits have been exchanged over a port that is up (R36): what the neighbour says of itself is kept, and the offset counts
where the neighbour is the parent. -/
def execTimeExchange (port : BitVec 4) (offset : BitVec 16) (nbr : TimeNbr) (s : State) : Out :=
  let x := s.port port.toNat
  if !x.up then .next s
  else
    let s := (s.setPort port.toNat { x with nhops := nbr.hops, nroot := nbr.root }).rehop
    if s.parent.any fun y => y.2.2 = port.toNat then .next (s.disciplined offset) else .next s

/-- LOCK clears when no exchange with the parent has come for 100 µs (R37); the root has none to wait for. -/
def State.timeLockLoss (s : State) : State :=
  if s.fab.lock && !(s.fab.root && s.parent.isNone) && decide (s.fab.exchangeAt + 400000 ≤ s.time.toNat) then
    { s with fab := { s.fab with lock := false, good := 0, rateAt := s.time.toNat + s.fab.rate.natAbs } }
  else s

/-- A chip that has lost LOCK keeps counting at its last disciplined rate (R6, R37): it corrects device time as often, and in the same
direction, as its last two corrections while it was disciplined lay apart (DESIGN CHOICE, log 62). -/
def State.coast (s : State) : State :=
  let f := s.fab
  if f.lock || f.rate = 0 || (f.root && s.parent.isNone) || decide (s.time.toNat < max f.rateAt (f.slewAt + 4096)) then s
  else { s with fab := { f with
    hold := f.hold || decide (0 < f.rate), skip := f.skip || decide (f.rate < 0)
    slewAt := s.time.toNat, rateAt := s.time.toNat + f.rate.natAbs } }

def execTimeLockLoss (s : State) : Out := .next s.timeLockLoss

/-! ## What passes of itself with time -/

/-- The ports and channels as a cycle passes (R23, R24, R27, R32, R36, R37): a port without acknowledgement for 10 µs goes down; one
that is down trains again after 1 ms and then every 100 ms; every 1 µs time flits leave; requests repeat; handshakes and transfers
time out. -/
def State.fabricTick (s : State) : State :=
  let t := s.time.toNat
  let s := (List.range 16).foldl (fun s p =>
    let x := s.port p
    if x.up then
      if !x.replay.isEmpty && decide (x.ackAt + 40000 ≤ t) then s.portDown (BitVec.ofNat 4 p) else s
    else if !x.held && decide (x.tryAt ≤ t) then
      (s.setPort p { x with tryAt := t + 400000000 }).retrain (BitVec.ofNat 4 p)
    else s) s
  let s := if t % 4000 = 0 then s.timeFlits else s
  let s := (s.chansWith fun c => c.st = .opening).foldl (fun s ch => (s.openRepeat ch).openingTimeout ch) s
  let s := (s.chansWith fun c => c.st = .fencing).foldl State.fencingTimeout s
  let s := (s.fab.xfers.map (·.id)).foldl State.transferTimeout s
  s.timeLockLoss.coast

end Sys2Proof.Machine
end

