-- ==== Sys2Proof/Machine/Records.lean ====
section
/-!
DEFINITION. Records.lean: command tables as the serving supervisor keeps them (R42 to R47): the record being executed and its
completion.
-/
namespace Sys2Proof.Machine

def State.cmdt (s : State) (t : Nat) : Cmdt := Store.get Cmdt.reset s.host.cmdts t
def State.setCmdt (s : State) (t : Nat) (c : Cmdt) : State :=
  { s with host := { s.host with cmdts := Store.set Cmdt.reset s.host.cmdts t c } }

/-- The device address of a table. -/
def Cmdt.addr (c : Cmdt) : Nat := 4096 * c.base.toNat

/-- SLOTS of a table, by its host line (R43, R44). -/
def State.tableSlots (s : State) (c : Cmdt) : Nat := 2 ^ (s.bytesNow (c.addr + 6) 1 |>.headD 0).toNat

/-- Where the record with a sequence number stands (R43). -/
def State.recordLoc (s : State) (c : Cmdt) (p : Nat) : Nat := c.addr + 0x100 + 128 * (p % max 1 (s.tableSlots c))

/-- A record has ended: its STATUS and DETAIL are to be written. -/
def State.recDone (s : State) (t : Nat) (status detail : Nat) : State :=
  s.setCmdt t { s.cmdt t with done := some (status, detail) }

/-- A record ends with status n of the loader or the League engine (R45, R70). -/
def State.recStatus (s : State) (t : Nat) (n detail : Nat) : State := s.recDone t (if n = 0 then 0 else 0x100 + n) detail

/-- STATE and ERR written into a table's device line (R44). -/
def State.writeState (s : State) (t st : Nat) (err : Option Nat) : State :=
  let c := s.cmdt t
  let s := s.setCmdt t { c with state := BitVec.ofNat 2 st }
  match err with
  | some e => s.writeNow (c.addr + 0x84) [BitVec.ofNat 8 st, BitVec.ofNat 8 e]
  | none => s.writeNow (c.addr + 0x84) [BitVec.ofNat 8 st]

/-- Stop (R46): STATE 2, ERR, and CMDT_ERR. -/
def State.stopTable (s : State) (t e : Nat) : State :=
  let s := s.writeState t 2 (some e)
  { s with host := { s.host with cmdtErr := BitVec.ofNat 32 (t + 16 * e) } }

/-- The lines that the completion of a table's record writes. -/
def State.doneLines (s : State) (t : Nat) : List Nat :=
  let c := s.cmdt t
  [lineOf c.rcd, lineOf (c.home + 0x80)]

/-- A table starts afresh (R46): CONS := PROD, ERR := 0, STATE := serving. -/
def State.cmdtStart (s : State) (t : Nat) : State :=
  let c := s.cmdt t
  let s := s.flush [lineOf c.addr]
  let prod : Word := BitVec.ofNat 32 (s.num (c.addr + 8) 4)
  let s := s.setCmdt t { c with
    en := true, cons := prod, state := 1, busy := false, again := false, done := none, batch := none, waits := none }
  s.writeNow (c.addr + 0x80) (Decode.leBytes 4 prod.toNat ++ [1, 0])

/-- The completion of a record (R46): STATUS and DETAIL, DONE_TIME, CONS, and its MSI-X where it asks for it; a table that has
been disabled meanwhile becomes idle, and starts afresh where it has been enabled again. A line that the host holds is snooped first
(R41). R45 gives VECTOR 0 to 63: of a higher one the model takes the remainder modulo 64 (DESIGN CHOICE, log 31). -/
def State.finishRecord (s : State) (t : Nat) : State :=
  let c := s.cmdt t
  match c.done with
  | none => s
  | some (st, det) =>
    if !(s.heldLines (s.doneLines t)).isEmpty then s.snoop (s.doneLines t) []
    else
      let s := (s.write (c.rcd + 0x60) (Decode.leBytes 4 st ++ Decode.leBytes 4 det)).write (c.rcd + 0x68)
        (Decode.leBytes 8 s.time.toNat)
      let s := s.write (c.home + 0x80) (Decode.leBytes 4 (c.cons + 1).toNat)
      let s := s.setCmdt t { c with cons := c.cons + 1, busy := false, again := false, done := none, waits := none }
      let fl := (s.bytes (c.rcd + 6) 2)
      let s := if (fl.headD 0).getLsbD 0 then s.send (.msix ((fl.getD 1 0).toNat % 64)) else s
      if c.en && !c.again then s
      else
        let s := (s.setCmdt t { s.cmdt t with state := 0 }).writeNow (c.home + 0x84) [0]
        if c.again && c.en then s.cmdtStart t else s

/-- The record that a table's server takes next (R45). -/
def State.cmdRecord (s : State) (t : Nat) (loc : Nat) : CmdRec :=
  let arg (i : Nat) : DWord := BitVec.ofNat 64 (s.num (loc + 0x10 + 8 * i) 8)
  ⟨BitVec.ofNat 2 t, false, BitVec.ofNat 32 (s.num (loc + 8) 4), BitVec.ofNat 32 (s.num (loc + 12) 4), arg 0, arg 1, arg 2, arg 3, arg 4,
    none⟩

end Sys2Proof.Machine
end

