-- ==== Sys2Proof/Machine/Placement.lean ====
section
/-!
DEFINITION. Placement.lean: rank images (R54 to R57), domains and the binder (R58 to R60, R83), cluster-store allotments (R128),
runs of memory and page tables (R89, R90), and the moving of lines with all that stands beside them (R66).
-/
namespace Sys2Proof.Machine

/-! ## Positions and latencies (R8, R83) -/

def domClusters (k0 sx sy : Nat) : List Nat := (List.range (sx * sy)).map fun l => k0 + l % max 1 sx + 6 * (l / max 1 sx)

def Rank.domain (r : Rank) : List Nat := domClusters r.dom.toNat r.shapeX r.shapeY

def gap (a b : Nat) : Nat := (a - b) + (b - a)

/-- Hops between two positions (column, row), and 1 where they lie on two dies. -/
def meshWay (c r c' r' : Nat) : Nat × Nat := (gap c c' + gap r r', if c / 3 = c' / 3 then 0 else 1)

/-- HitLat(k, j) (R83, R85): cluster k stands at column k mod 6, row k div 6; slice j as R83 places it. -/
def hitLat (k j : Nat) : Nat :=
  let i := j % 32
  let w := meshWay (k % 6) (k / 6) (3 * (j / 32) + i / 4 % 3) (i % 4)
  48 + 64 + 8 * w.1 + 24 * w.2

/-- NetLat(k, m) (R83). -/
def netLat (k m : Nat) : Nat :=
  let w := meshWay (k % 6) (k / 6) (m % 6) (m / 6)
  if k = m then 20 else 40 + 8 * w.1 + 24 * w.2

/-- Does a placement meet the DISTANCE table (R59)? -/
def binds (cl : List Nat) (dist : List Byte) : Bool :=
  let L := cl.length
  let at_ (i : Nat) : Nat := (dist.getD i 0).toNat
  cl.zipIdx.all fun k => (List.range 64).all (fun j => decide (hitLat k.1 j ≤ at_ (64 * k.2 + j)))
    && cl.zipIdx.all fun m => decide (netLat k.1 m.1 ≤ at_ (64 * L + L * k.2 + m.2))

/-! ## Domains (R58, R60, R18, R127) -/

/-- The other ranks whose domains share a cluster with a list of clusters. -/
def State.sharing (s : State) (rank : Nat) (cl : List Nat) : List (Nat × Rank) :=
  s.ranks.filter fun e => e.1 ≠ rank && e.2.placed && e.2.domain.any cl.contains

/-- Status n of a placement of a rank into the domain k0 by a supervisor of a world, 0 where it passes: BAD_SHAPE (R58), BAD_DISTANCE
(R59), FENCED_CLUSTER, DOMAIN_BUSY (R60, R127), in this order (log 21). -/
def State.placeStatus (s : State) (rank k0 sx sy mib : Nat) (prot secure : Bool) (dist : List Byte) : Nat :=
  let cl := domClusters k0 sx sy
  let near := s.sharing rank cl
  if !decide (k0 < 24 ∧ k0 % 6 + sx ≤ 6 ∧ k0 / 6 + sy ≤ 4) || cl.any (fun k => s.secureCluster k != secure) then 3
  else if !binds cl dist then 4
  else if cl.any fun k => !s.pwr.pass.getLsbD k then 5
  else if near.any (fun e => e.2.dom.toNat ≠ k0 || e.2.shapeX ≠ sx || e.2.shapeY ≠ sy || e.2.prot != prot)
      || decide (4 ≤ near.length) || decide (16 < mib + (near.map fun e => e.2.csMib).sum) then 6
  else 0

/-- The lowest free rank slot of a domain (R91). -/
def State.freeSlot (s : State) (rank k0 : Nat) : Nat :=
  let used := ((s.ranks.filter fun e => e.1 ≠ rank && e.2.placed && e.2.dom.toNat = k0).map fun e => e.2.slot)
  ((List.range 4).find? fun i => !used.contains i).getD 0

/-! ## Moving entries of tables -/

/-- The table `dst` with its keys from b holding what `src` holds from a, n keys. -/
def Store.graft {α : Type} (dst src : Store α) (a b n : Nat) : Store α :=
  dst.filter (fun e => e.1 < b) ++ (src.filter (fun e => a ≤ e.1 ∧ e.1 < a + n)).map (fun e => (e.1 - a + b, e.2))
    ++ dst.filter (fun e => b + n ≤ e.1)

/-- n bytes from a brought to b, with their marks, and with the full/empty bits of cluster-store lines; a and b are
multiples of 128. -/
def State.carry (s : State) (a b n : Nat) : State :=
  { s with mem := Store.graft s.mem s.mem a b n
           poison := Store.graft s.poison s.poison (a / 128) (b / 128) (n / 128)
           full := if isCs b then Store.graft s.full s.full (a / 128) (b / 128) (n / 128) else s.full }

/-- Versions of n bytes of lines from a brought to b (R66). -/
def State.carryVer (s : State) (a b n : Nat) : State :=
  { s with ver := Store.graft s.ver s.ver (a / 128) (b / 128) (n / 128) }

/-- n bytes from a location at zero, without marks, their cluster-store lines empty; no version moves. -/
def State.blank (s : State) (a n : Nat) : State :=
  { s with mem := Store.clear s.mem a n, poison := Store.clear s.poison (a / 128) (n / 128)
           full := if isCs a then Store.clear s.full (a / 128) (n / 128) else s.full }

/-- The reductions that write queues hold for a run of memory, or that are on their way there, are applied before it gets a new owner
(R51, R305). -/
def State.flushRun (s : State) (a n : Nat) : State :=
  let hit (ls : List Nat) : Bool := ls.any fun l => decide (a ≤ 128 * l + 127 ∧ 128 * l < a + n)
  let late := s.pend.filterMap fun e => match e.2 with
    | some (.red _ es _) => if es.any fun x => hit x.lines then some e.1 else none
    | _ => none
  let s := late.foldl (fun s id => (s.perform id).unpark id) s
  s.flush ((s.wq.filter fun x => hit x.lines).flatMap (·.lines))

/-- Zeroing of device memory (R51): one write event on each line. -/
def State.zero (s : State) (a n : Nat) : State := ((s.flushRun a n).blank a n).bumpRun (a / 128) (n / 128)

/-! ## Locations of what is in flight, when lines move -/

/-- A context whose recorded locations follow their lines (R66). -/
def Ctx.relocate (f : Nat → Nat) (c : Ctx) : Ctx :=
  let line (l : Nat) : Nat := f (128 * l) / 128
  { c with
    w := c.w.map fun e => (e.1, e.2.map fun x => { x with line := line x.line })
    wait := c.wait.map fun w => match w with
      | .version l v => .version (line l) v
      | .src o n => .src (f o) n
      | .land o n => .land (f o) n
      | w => w }

/-- Accesses and engine operations in flight whose recorded locations follow their lines. -/
def State.relocate (s : State) (f : Nat → Nat) : State :=
  let line (l : Nat) : Nat := f (128 * l) / 128
  let runs (ps : List (Nat × Nat)) : List (Nat × Nat) := ps.map fun p => (f p.1, p.2)
  { s with
    loads := s.loads.map fun e => (e.1, e.2.map fun l => { l with
      lanes := l.lanes.map fun x => x.map f
      scalar := l.scalar.map fun x => (f x.1, x.2)
      ldfe := l.ldfe.map line })
    pend := s.pend.map fun e => (e.1, e.2.map fun p => match p with
      | .store k ls w ps n => .store k (ls.map line) w (ps.map fun x => (f x.1, x.2)) n
      | .amo k op wide loc y z r => .amo k op wide (f loc) y z r
      | .casv k r loc want data => .casv k r (f loc) want data
      | .vset k b loc data t v => .vset k b (f loc) data t v
      | .clrfe k l => .clrfe k (line l)
      | .red k es t => .red k (es.map fun e => { e with
          lines := e.lines.map line, base := f e.base, base2 := f e.base2, adds := if e.kind = 3 ∨ e.kind = 4 then e.adds
            else e.adds.map fun a => (f a.1, a.2) }) t
      | p => p)
    copies := s.copies.map fun c => { c with
      segs := c.segs.map fun g => (f g.1, f g.2.1, g.2.2)
      data := c.data.map fun d => (f d.1, d.2) }
    colls := s.colls.map fun c => { c with spieces := runs c.spieces, dpieces := runs c.dpieces } }

/-! ## Cluster-store allotments (R128) -/

def mib (n : Nat) : Nat := n * 2 ^ 20

/-- The lowest free run of n MiB among allotments (start, MiB), sorted by start; none where no run is long enough. -/
def lowestRun (n : Nat) : Nat → List (Nat × Nat) → Option Nat
  | at_, [] => if at_ + mib n ≤ mib 16 then some at_ else none
  | at_, (b, m) :: rest => if at_ + mib n ≤ b then some at_ else lowestRun n (max at_ (b + mib m)) rest

/-- An element put into a sorted list, before those of the same key, and a list sorted by key. -/
def insertBy {α : Type} (key : α → Nat) (x : α) : List α → List α
  | [] => [x]
  | y :: l => if key x ≤ key y then x :: y :: l else y :: insertBy key x l

def sortBy {α : Type} (key : α → Nat) (l : List α) : List α := l.foldr (insertBy key) []

/-- The allotments of the other ranks of a domain, by start. -/
def State.allotments (s : State) (rank k0 : Nat) : List (Nat × Rank) :=
  sortBy (fun e => e.2.csBase) (s.ranks.filter fun e => e.1 ≠ rank && e.2.placed && e.2.dom.toNat = k0)

/-- The allotments of a list of ranks moved together from `at_` up, each with its lines and full/empty bits. -/
def State.pack (s : State) : Nat → List (Nat × Rank) → State
  | _, [] => s
  | at_, (i, r) :: rest =>
    let f (loc : Nat) : Nat :=
      if r.domain.any fun k => decide (csBaseLoc k + r.csBase ≤ loc ∧ loc < csBaseLoc k + r.csBase + mib r.csMib) then loc - r.csBase + at_
      else loc
    let s := r.domain.foldl (fun s k => s.carry (csBaseLoc k + r.csBase) (csBaseLoc k + at_) (mib r.csMib)) s
    let s := if r.csBase = at_ then s else s.relocate f
    State.pack (s.modRank i fun r => { r with csBase := at_ }) (at_ + mib r.csMib) rest

/-- A free allotment of n MiB in a domain, the residents' moved together where no run is long enough, with the machine after it. -/
def State.allot (s : State) (rank k0 n : Nat) : Nat × State :=
  let as := s.allotments rank k0
  match lowestRun n 0 (as.map fun e => (e.2.csBase, e.2.csMib)) with
  | some b => (b, s)
  | none => (mib (as.map fun e => e.2.csMib).sum, s.pack 0 as)

/-- A rank's cluster-store lines at zero and empty (R51). -/
def State.blankCs (s : State) (r : Rank) : State :=
  r.domain.foldl (fun s k => s.blank (csBaseLoc k + r.csBase) (mib r.csMib)) s

/-! ## Runs of memory (R61, R71; log 19) -/

/-- Runs that ranks hold or move to. -/
def State.runs (s : State) : List (Nat × Nat) :=
  s.ranks.flatMap fun e => (e.2.base, e.2.bytes) :: match e.2.league with
    | some l => [l.run]
    | none => []

/-- May a run of n bytes at b serve a rank: in its tier, held by no other rank, and of regions that its world may write? -/
def State.runOk (s : State) (secure : Bool) (hi n b : Nat) : Bool :=
  decide (b + n ≤ hi) && s.runs.all (fun r => r.2 = 0 || decide (b + n ≤ r.1 ∨ r.1 + r.2 ≤ b))
    && (List.range (n / 2 ^ 21 + 1)).all fun i => s.worldOk secure (b + 2 ^ 21 * i) true

/-- A run of n bytes at a 2 MiB boundary: first from the upper half of the tier, then from any part of the tier in which no byte
other than zero stands. -/
def State.findRun (s : State) (secure : Bool) (lo mid hi n : Nat) : Option Nat :=
  let ends := s.runs.map fun r => (r.1 + r.2 + 2 ^ 21 - 1) / 2 ^ 21 * 2 ^ 21
  match ((mid :: ends).filter fun b => mid ≤ b).find? (s.runOk secure hi n) with
  | some b => some b
  | none => ((lo :: ends).filter fun b => lo ≤ b).find? fun b =>
      s.runOk secure hi n b && !(s.mem.any fun c => decide (b ≤ c.1 ∧ c.1 < b + n))

def State.hbmRun (s : State) (secure : Bool) (n : Nat) : Option Nat := s.findRun secure (2 ^ 21) (2 ^ 38) (2 ^ 39) n

def State.tierRun (s : State) (secure : Bool) (n : Nat) : Option Nat :=
  let t := 0x10000000000
  s.findRun secure t (t + s.tierGiB * 2 ^ 29) (t + s.tierGiB * 2 ^ 30) n

/-! ## The pages of a rank (R66, R89, R90) -/

/-- The indices of a table's entries of which some byte is not zero; n entries. -/
def State.tableIdx (s : State) (table n : Nat) : List Nat :=
  ((s.mem.filter fun (c : Nat × Byte) => decide (table ≤ c.1 ∧ c.1 < table + 8 * n)).map fun c => (c.1 - table) / 8).eraseDups

/-- The pages that a table at a level maps, for VAs from `va` up, each leaf as pages of 64 KiB; `fuel` counts the levels left. -/
def State.leaves (s : State) : Nat → Nat → Nat → Nat → List Page
  | 0, _, _, _ => []
  | fuel + 1, lvl, table, va =>
    (s.tableIdx table (if lvl = 0 then 2 ^ 13 else if lvl = 3 then 2 ^ 5 else 2 ^ 9)).flatMap fun i =>
      let p := pteOf (BitVec.ofNat 64 (s.num (table + 8 * i) 8))
      let size := leafSize lvl
      if !p.valid || !p.clean then []
      else if p.leaf then
        if lvl = 0 || p.pa % size ≠ 0 || !s.backed p.pa size then []
        else (List.range (size / 65536)).map fun k => ⟨va + size * i + 65536 * k, p.pa + 65536 * k, 65536, p.perm⟩
      else if lvl = 3 then [] else State.leaves s fuel (lvl + 1) p.pa (va + size * i)

/-- The pages of a rank's address space, as its tables map them (R66). -/
def State.mapped (s : State) (rank : Nat) : List Page :=
  let root := (s.rank rank).ptRoot.toNat / 65536 * 65536 % 2 ^ 52
  if root = 0 then (s.rank rank).pages else s.leaves 4 0 root 0

/-- The addresses of some pages, each once. -/
def pageAddrs (pages : List Page) : List Nat := (pages.map (·.pa)).eraseDups

/-- Pages at their places in a run: every mapped line moves, those of host memory among them (R66). -/
def repage (pages : List Page) (at_ : Nat) : List Page :=
  let ds := pageAddrs pages
  pages.map fun p => { p with pa := at_ + 65536 * ds.idxOf p.pa }

/-- The old pages, each with its new place. -/
def moves (old new : List Page) : List (Page × Page) := old.zip new

/-- Where a location of one of the old pages stands among the new ones. -/
def movePage (old new : List Page) (loc : Nat) : Nat :=
  match (moves old new).find? fun p => decide (p.1.pa ≤ loc ∧ loc < p.1.pa + p.1.size) with
  | some p => p.2.pa + (loc - p.1.pa)
  | none => loc

/-! ## Page tables (R89, R90) -/

/-- Adjacent repeats of a list dropped, then all others. -/
def distinct : List Nat → List Nat
  | a :: b :: l => if a = b then distinct (b :: l) else a :: distinct (b :: l)
  | l => l

/-- The tables that pages need below the root: the spans they serve, by level 1 to 3. -/
def tableSpans (vas : List Nat) : List Nat × List Nat × List Nat :=
  let at_ (n : Nat) : List Nat := (distinct (vas.map (· / n))).eraseDups
  (at_ (2 ^ 39), at_ (2 ^ 30), at_ (2 ^ 21))

/-- Bytes of the tables of some pages, a multiple of 64 KiB: the root, then 4 KiB for each table below it. -/
def tableBytes (vas : List Nat) : Nat :=
  let (a, b, c) := tableSpans vas
  (65536 + 4096 * (a.length + b.length + c.length) + 65535) / 65536 * 65536

/-- The entries of the tables that stand at `base`: location and value. -/
def tableEntries (base : Nat) (pages : List Page) : List (Nat × Nat) :=
  let (a, b, c) := tableSpans (pages.map (·.va))
  let l1 (v : Nat) : Nat := base + 65536 + 4096 * a.idxOf v
  let l2 (v : Nat) : Nat := base + 65536 + 4096 * (a.length + b.idxOf v)
  let l3 (v : Nat) : Nat := base + 65536 + 4096 * (a.length + b.length + c.idxOf v)
  a.map (fun v => (base + 8 * v, l1 v + 1)) ++ b.map (fun v => (l1 (v / 2 ^ 9) + 8 * (v % 2 ^ 9), l2 v + 1))
    ++ c.map (fun v => (l2 (v / 2 ^ 9) + 8 * (v % 2 ^ 9), l3 v + 1))
    ++ pages.map (fun p => (l3 (p.va / 2 ^ 21) + 8 * (p.va / 2 ^ 16 % 2 ^ 5), p.pa + 4 * p.perm.toNat + 3))

/-- A rank's tables written at the start of its run, and PT_ROOT. -/
def State.buildTables (s : State) (rank : Nat) : State :=
  let r := s.rank rank
  let s := (tableEntries r.base r.pages).foldl (fun s e => s.write e.1 (Decode.leBytes 8 e.2)) s
  s.modRank rank fun r => { r with ptRoot := BitVec.ofNat 64 r.base }

/-! ## Rank images (R54 to R57) -/

/-- A directory entry (R55). -/
structure Sect where
  kind : Nat
  flags : BitVec 16
  off : Nat
  size : Nat
  va : Nat
  mem : Nat
  clean : Bool
  deriving DecidableEq, Repr

/-- An image's header (R54) and directory. -/
structure Image where
  v : Nat
  job : Word
  sx : Nat
  sy : Nat
  stepline : BitVec 8
  mib : Nat
  prot : Bool
  seed : DWord
  sects : List Sect
  deriving DecidableEq, Repr

def sectOf (bs : List Byte) : Sect :=
  ⟨field bs 0 2, BitVec.ofNat 16 (field bs 2 2), field bs 8 8, field bs 16 8, field bs 24 8, field bs 32 8, field bs 4 4 = 0⟩

def Sect.mapped (x : Sect) : Bool := x.kind = 1 || x.kind = 2

/-- The conditions of R55 on one entry of an image of `len` bytes; file bytes beyond the image (log 21) and mapped bytes beyond the 52
bits of a VA (DEDUCED, log 77) are refused too. -/
def Sect.ok (x : Sect) (len : Nat) : Bool :=
  x.clean && decide (1 ≤ x.kind ∧ x.kind ≤ 5) && x.flags.extractLsb' 4 12 = 0 && decide (x.off + x.size ≤ len)
    && if x.mapped then x.va % 65536 = 0 && x.mem % 65536 = 0 && decide (x.size ≤ x.mem ∧ x.va + x.mem ≤ 2 ^ 52)
        && (!x.flags.getLsbD 3 || x.size = 0)
      else x.va = 0 && x.mem = 0

/-- The header and directory of the image at a device address; none where they break R54 or R55. -/
def State.image (s : State) (loc len : Nat) : Option Image :=
  let h := s.bytesNow loc 64
  let n := field h 6 2
  let sects := (List.range n).map fun i => sectOf (s.bytesNow (loc + 64 + 40 * i) 40)
  let img : Image := ⟨field h 8 4, BitVec.ofNat 32 (field h 12 4), field h 16 1, field h 17 1, BitVec.ofNat 8 (field h 18 1),
    field h 19 1, field h 20 4 = 1, BitVec.ofNat 64 (field h 24 8), sects⟩
  let apart (a b : Sect) : Bool := decide (a.va + a.mem ≤ b.va ∨ b.va + b.mem ≤ a.va)
  let count (k : Nat) : Nat := (sects.filter fun x => x.kind = k).length
  let L := img.sx * img.sy
  let dist := (sects.find? fun x => x.kind = 3).map (·.size)
  let fmt := (sects.find? fun x => x.kind = 5).map (·.size)
  if decide (64 ≤ len) && field h 0 4 = 0x4B4E4152 && field h 4 2 = 1 && decide (1 ≤ n ∧ n ≤ 64 ∧ 64 + 40 * n ≤ len)
      && decide (1 ≤ img.v ∧ img.v ≤ 65536 ∧ 1 ≤ img.sx ∧ img.sx ≤ 6 ∧ 1 ≤ img.sy ∧ img.sy ≤ 4)
      && decide (img.stepline.toNat ≤ 63 ∧ 1 ≤ img.mib ∧ img.mib ≤ 16) && decide (field h 20 4 ≤ 1) && field h 32 32 = 0
      && sects.all (fun x => x.ok len) && count 3 = 1 && count 4 = 1 && count 5 = 1 && decide (1 ≤ count 1)
      && decide ((sects.filter fun x => x.mapped && x.mem ≠ 0).Pairwise fun a b => apart a b = true)
      && dist = some (64 * L + L * L) && fmt = some 512 then some img
  else none

/-- The bundles with SEG in the file bytes of a CODE section at `loc`: VA and COST, found by stepping from header to header
(R227, R229); `fuel` bounds the words. -/
def State.segBundles (s : State) (loc va size : Nat) : Nat → Nat → List (Nat × Nat)
  | 0, _ => []
  | fuel + 1, at_ =>
    if size < at_ + 4 then []
    else
      let w := s.num (loc + at_) 4
      if w = 0 then State.segBundles s loc va size fuel (at_ / 64 * 64 + 64)
      else
        let rest := State.segBundles s loc va size fuel (at_ + sizeOf (BitVec.ofNat 32 w))
        if w.testBit 8 then (va + at_, w / 65536) :: rest else rest

/-- The SEGMENT section of an image; none where it breaks R57. -/
def State.segTable (s : State) (loc : Nat) (img : Image) : Option (List SegEnt) :=
  let segs := img.sects.flatMap fun x => if x.kind = 1 then s.segBundles (loc + x.off) x.va x.size (x.size / 4 + 1) 0 else []
  match img.sects.find? fun x => x.kind = 4 with
  | none => none
  | some x =>
    let rows := (List.range (x.size / 16)).map fun i => s.bytesNow (loc + x.off + 16 * i) 16
    let ok (b : List Byte) : Bool := decide (field b 10 2 ≤ 1) && field b 12 4 = 0 && segs.contains (field b 0 8, field b 8 2)
    if x.size % 16 = 0 && rows.all ok && decide ((rows.map fun b => field b 0 8).Pairwise (· < ·)) && rows.length = segs.length then
      some (rows.map fun b => ⟨BitVec.ofNat 52 (field b 0 8), BitVec.ofNat 16 (field b 8 2), field b 10 2 = 1⟩)
    else none

/-- The 64 KiB pages of the mapped sections, from a first physical address up. -/
def pagesOf (sects : List Sect) (pa : Nat) : List Page :=
  let vs := (sects.filter Sect.mapped).flatMap fun x => (List.range (x.mem / 65536)).map fun i => (x.va + 65536 * i, x.flags.extractLsb' 0 3)
  vs.zipIdx.map fun e => ⟨e.1.1, pa + 65536 * e.2, 65536, e.1.2.setWidth 4⟩

end Sys2Proof.Machine
end

