-- ==== Sys2Proof/Machine/Scheduler.lean ====
section
/-!
DEFINITION. Scheduler.lean: grants (R99 to R102), pre-emption points (R104, R105), the shadow swap with its spill and fill (R106 to
R108), timetables (R109 to R112) and token buckets (R113 to R117).
-/
namespace Sys2Proof.Machine

/-! ## Pre-emption points (R104) -/

/-- The header of the bundle at a VA as a context would fetch it, pad words passed over (R229); `fuel` bounds them. -/
def State.headerAt (s : State) (c : Ctx) : Nat → DWord → Option Word
  | 0, _ => none
  | fuel + 1, va => match s.check c va 0 4 .fetch false with
    | .error _ => none
    | .ok loc =>
      let w : Word := BitVec.ofNat 32 (Decode.leNat (s.bytesNow loc 4))
      if w = 0 then State.headerAt s c fuel (va + 64 - (va &&& 63)) else some w

/-- The header of a strand's next bundle. -/
def State.nextHeader (s : State) (c : Ctx) : Word := (s.headerAt c 4096 c.pc).getD 0

def isSeg (w : Word) : Bool := w.getLsbD 8
def isPpt (w : Word) : Bool := w.getLsbD 10

/-- Does a strand stand at a pre-emption point (R104), which its next bundle has not passed (R133, R221, R277, R378)? -/
def State.atPoint (s : State) (c : Ctx) : Bool :=
  !c.live || c.due.isNone && !c.past && (c.wait.isSome || c.bound || (let w := s.nextHeader c; isSeg w || isPpt w))

/-- Has everything landed that must land before a strand leaves its sequencer (R106), and has no M or K operation more than 15 cycles
left to run (R338)? -/
def State.quiet (s : State) (key : Nat) (c : Ctx) : Bool :=
  !c.inFlight && !s.answersDue key && c.mops.all fun o => decide (o.left ≤ 15)

/-- The queues that a strand's next bundle pops (R135). -/
def State.nextPops (s : State) (c : Ctx) : List (BitVec 2) :=
  match s.check c c.pc 0 4 .fetch false with
  | .error _ => []
  | .ok loc => match Decode.bundle (s.bytesNow loc (64 - c.pc.toNat % 64)) with
    | .bundle b =>
      let m := b.slots.foldl (fun m x => m ||| popsOf x.2) (0 : BitVec 4)
      ((List.range 4).filter m.getLsbD).map (BitVec.ofNat 2)
    | _ => []

/-- Is a strand held in a wait whose condition is not met? -/
def State.unmet (s : State) (key : Nat) : Bool :=
  match (s.ctx key).wait with
  | some w => !s.waitMet key (s.ctx key) w
  | none => false

/-! ## Grants (R99 to R102) -/

/-- Effective priority of a launch (R101). -/
def State.priority (s : State) (l : Launch) : Nat := l.prio - (s.time.toNat - l.at_) / max 1 s.sched.ageStep.toNat

/-- Does the LAND half of a launch's AFTER_CO stand at AFTER_N or above (R99)? -/
def State.depNow (s : State) (l : Launch) : Bool :=
  decide (l.afterN ≤ (landOf (BitVec.ofNat 64 (Decode.leNat (s.bytesNow l.afterCo 8)))).toNat)

/-- Is the dependence of a launch met, or has it been (R99)? -/
def State.depMet (s : State) (l : Launch) : Bool := !l.after || l.met || s.depNow l

/-- The dependences of the queued launches sampled, after each change (R99): one that has been met stays so. -/
def State.sampleDeps (s : State) : State :=
  (s.ranks.filter fun e => e.2.queue.any fun l => l.after && !l.met && s.depNow l).foldl (fun t e =>
    t.modRank e.1 fun r => { r with queue := r.queue.map fun l => { l with met := l.met || (l.after && s.depNow l) } }) s

/-- The lowest strand of a launch that waits for a logical core (R96, R101), in a rank of n logical cores. -/
def Launch.strandFor (l : Launch) (n lcore : Nat) : Option Nat :=
  let g := (lcore + n - l.core0) % n + n * Store.get 0 l.granted lcore
  if g < l.cx * l.cy * l.cz then some g else none

/-- The launch whose strand a logical core is given next: lowest effective priority, then first in the queue (R101). -/
def State.chooseLaunch (s : State) (r : Rank) (lcore : Nat) : Option Launch :=
  let n := 8 * r.clusters
  let ok := r.queue.filter fun l => s.depMet l && (l.strandFor n lcore).isSome
  ok.foldl (fun best l => match best with
    | some b => if s.priority l < s.priority b then some l else some b
    | none => some l) none

/-- Does a rank take grants: HOT, or on the way to a step boundary that has not come (R61, R64)? -/
def Rank.grants (r : Rank) : Bool :=
  match r.st, r.league with
  | .hot, _ => true
  | .parking, some l | .outgoing, some l => !r.heldRelease && (l.step = .precopy || l.step = .quiesce)
  | _, _ => false

/-- Is a sequencer free for a rank (R101)? -/
def State.freeFor (s : State) (r : Rank) (seq : Nat) : Bool := !(s.ctx (8 * seq + r.slot)).live && !(r.prot && seq % 2 = 1)

/-- The sequencers and rank slots for which grants are due at the end of a cycle, by rank, logical core and sequencer: those that were
free before the cycle (R102). -/
def State.grantsDue (s : State) : List (Nat × Nat) :=
  s.ranks.flatMap fun e =>
    let r := e.2
    if r.queue.isEmpty || !r.grants then []
    else (List.range (8 * r.clusters)).flatMap fun lc =>
      if (s.chooseLaunch r lc).isNone then []
      else ((List.range 4).map fun j => 4 * r.coreAt lc + j).filterMap fun q =>
        if s.freeFor r q && decide ((s.seqOf q).freedAt ≤ s.time.toNat - 1) then some (q, r.slot) else none

/-- The banks that a launch declares at zero, with zero checksums (R96). -/
def Engine.zeroBanks (e : Engine) (banks : BitVec 8) : Engine :=
  (List.range 8).foldl (fun e b =>
    if banks.getLsbD b then
      { e with
        acc := Store.clear e.acc (4096 * b) 4096
        cr := Store.clear e.cr (64 * b) 64
        cc := Store.clear e.cc (64 * b) 64
        ckv := e.ckv &&& ~~~(BitVec.twoPow 8 b) }
    else e) e

/-- A sequencer that is free for the rank of a slot is given a waiting strand, whose context is built (R96, R101). -/
def State.grant (s : State) (seq slot : Nat) : State :=
  match s.ranks.find? fun e => e.2.placed && e.2.slot = slot && e.2.domain.contains (seq / 32) with
  | none => s
  | some (rank, r) =>
    let cl := seq / 32 - r.dom.toNat
    let lcore := 8 * (cl % 6 + r.shapeX * (cl / 6)) + seq / 4 % 8
    if !s.freeFor r seq || !r.grants then s
    else match s.chooseLaunch r lcore with
      | none => s
      | some l =>
        let n := 8 * r.clusters
        let g := (l.strandFor n lcore).getD 0
        let granted := Store.set 0 l.granted lcore (Store.get 0 l.granted lcore + 1)
        let all := decide ((granted.map (·.2)).sum = l.cx * l.cy * l.cz)
        let s := s.modRank rank fun r => { r with
          queue := if all then r.queue.filter fun x => x.id ≠ l.id
            else r.queue.map fun x => if x.id = l.id then { x with granted } else x }
        let c := s.newCtx rank seq lcore l.win
        let c := { c with pc := l.entry, npc := l.entry, launch := l.id, banks := l.banks
                          stream := l.stream + BitVec.ofNat 64 (g * 2 ^ 32) }
        let c := (((c.ws 1 (BitVec.ofNat 64 (g % l.cx))).ws 2 (BitVec.ofNat 64 (g / l.cx % l.cy))).ws 3
          (BitVec.ofNat 64 (g / (l.cx * l.cy)))).ws 4 l.recVA
        let c := l.args.zipIdx.foldl (fun c a => c.ws (BitVec.ofNat 6 (16 + a.2)) a.1) c
        let core := seq / 4
        let s := s.setEngine core rank ((s.engine core rank).zeroBanks l.banks)
        s.setCtx (8 * seq + slot) c

def execStrandGrant (seq slot : Nat) (s : State) : Out := .next (s.grant seq slot)

/-! ## The shadow swap (R106 to R108) -/

/-- Spill of a context (R107). -/
def State.spillTime (s : State) (key : Nat) : Nat :=
  let c := s.ctx key
  let e := if !c.resident && (s.mownOf c.core c.rank).extractLsb' 0 2 = BitVec.ofNat 2 (c.seq % 4) then 1024 else 0
  64 + 2 * c.win + 512 * popByte c.banks + e

/-- May the swap to a chosen context begin: it stands in the shadow, no spill or fill runs, and the active strand is at a
pre-emption point with its loads landed (R106, R108)? -/
def State.swapReady (s : State) (seq : Nat) : Bool :=
  let q := s.seqOf seq
  q.swapTo.isNone && !q.spilling && q.filling.isNone && q.want.isSome && q.want = q.shadow
    && match q.active with
      | some a => let k := 8 * seq + a; s.atPoint (s.ctx k) && s.quiet k (s.ctx k)
      | none => true

/-- The swap begins (R106): register landings complete, chains hold their state. -/
def State.swapBegin (s : State) (seq : Nat) : State :=
  if !s.swapReady seq then s
  else
    let q := s.seqOf seq
    let s := match q.active with
      | some a => s.modCtx (8 * seq + a) (Ctx.settle false)
      | none => s
    s.modSeq seq fun q => { q with swapTo := q.want, want := none, swapAt := s.time.toNat + 48 }

def execSwapBegin (seq : Nat) (s : State) : Out := .next (s.swapBegin seq)

/-- The rank slot that a sequencer's timetable runs, its index, and the first cycle of it and of the next (R110). -/
def Timetable.now (t : Timetable) (time : Nat) : Nat × Nat × Nat × Nat :=
  let period := 16 * (t.slots.map (·.2)).sum
  let off := if period = 0 then 0 else (time - t.start) % period
  let base := time - off
  let rec go : Nat → Nat → List (Nat × Nat) → Nat × Nat × Nat × Nat
    | k, b, [] => (0, k, b, b)
    | k, b, (r, len) :: rest => if off < b + 16 * len - base then (r, k, b, b + 16 * len) else go (k + 1) (b + 16 * len) rest
  go 0 base t.slots

/-- The domain in which a sequencer stands: its lowest cluster, and its clusters. -/
def State.domainAt (s : State) (seq : Nat) : Option (Nat × List Nat) :=
  (s.ranks.find? fun e => e.2.placed && e.2.domain.contains (seq / 32)).map fun e => (e.2.dom.toNat, e.2.domain)

/-- The timetable by which a sequencer runs: it follows timetable mode, and a table is in effect (R117). -/
def State.tableOf (s : State) (seq : Nat) : Option Timetable :=
  match s.domainAt seq with
  | some (k, _) => if (s.seqOf seq).mode then (s.domOf k).tt else none
  | none => none

/-- The swap ends (R106): the incoming context is active and takes a rewind snapshot with its first bundle (R218); the outgoing
one stands in the shadow and its spill begins. MINRES runs from the swap's beginning, 48 cycles ago (R115); a bank that both declare is
spilled with the one and then filled for the other (R107, log 67). -/
def State.swapComplete (s : State) (seq : Nat) : State :=
  let q := s.seqOf seq
  match q.swapTo with
  | none => s
  | some w =>
    let t := s.time.toNat
    let spill := (q.active.map fun a => s.spillTime (8 * seq + a)).getD 0
    let both := (s.ctx (8 * seq + w)).banks &&& match q.active with
      | some a => (s.ctx (8 * seq + a)).banks
      | none => q.lastBanks
    let early := match s.tableOf seq with
      | some tt => (tt.now t).1 ≠ w && w ≠ 4
      | none => false
    let s := s.modCtx (8 * seq + w) fun c => { c.imageChecked with mark := true, fresh := true, snap := none }
    s.modSeq seq fun q => { q with
      active := some w, shadow := q.active, swapTo := none, lastSlot := w, swapInAt := t, minres := spill, early, lastBanks := 0
      both, bothAt := t + spill + 512 * popByte both, spilling := decide (0 < spill), spillAt := t + spill }

def execSwapComplete (seq : Nat) (s : State) : Out := .next (s.swapComplete seq)

/-- The spill of the shadow ends, and the shadow is clean (R107). -/
def State.spillEnd (s : State) (seq : Nat) : State := s.modSeq seq fun q => { q with spilling := false }
def execSpillEnd (seq : Nat) (s : State) : Out := .next (s.spillEnd seq)

/-- The fill of the shadow ends (R108). -/
def State.fillEnd (s : State) (seq slot : Nat) : State :=
  s.modSeq seq fun q => if q.filling = some slot then { q with filling := none, shadow := some slot } else q
def execFillEnd (seq slot : Nat) (s : State) : Out := .next (s.fillEnd seq slot)

/-- A fill of the shadow from a save area begins, after its spill (R108). -/
def State.fillBegin (s : State) (seq slot : Nat) : State :=
  let q := s.seqOf seq
  if q.spilling || q.filling.isSome || q.shadow = some slot then s
  else s.modSeq seq fun q => { q with filling := some slot, fillAt := s.time.toNat + s.spillTime (8 * seq + slot), shadow := none }

/-! ## Token buckets (R113 to R116) -/

/-- Are all the buckets of a rank non-empty (R113)? -/
def State.funded (s : State) (rank : Nat) : Bool :=
  let r := s.rank rank
  (List.range 3).all fun b => let k := s.bucket r.dom.toNat r.slot b; k.rate = 0xFFFFFFFF || decide (0 < k.level)

/-- A bucket after a refill. -/
def Bucket.refill (k : Bucket) : Bucket := { k with level := min k.depth.toNat (k.level + k.rate.toNat) }

/-- The domains that exist, by lowest cluster. -/
def State.domains (s : State) : List Nat := ((s.ranks.filter fun e => e.2.placed).map fun e => e.2.dom.toNat).eraseDups

/-- Every 1,024 cycles each level of a domain's ranks rises by RATE, up to DEPTH (R113). -/
def State.bucketRefill (s : State) : State :=
  s.domains.foldl (fun s k =>
    (List.range 12).foldl (fun s i => s.setBucket k (i / 3) (i % 3) (s.bucket k (i / 3) (i % 3)).refill) s) s

def execBucketRefill (s : State) : Out := .next s.bucketRefill

/-- MINRES after a swap-in has passed (R115). -/
def State.minresExpiry (s : State) (seq : Nat) : State :=
  s.modSeq seq fun q => if q.swapInAt + q.minres ≤ s.time.toNat then { q with minres := 0 } else q

def execMinresExpiry (seq : Nat) (s : State) : Out := .next (s.minresExpiry seq)

/-- The levels of a rank that has moved start full (R66). -/
def State.fullBuckets (s : State) (rank : Nat) : State :=
  let r := s.rank rank
  (List.range 3).foldl (fun s b =>
    let k := s.bucket r.dom.toNat r.slot b
    s.setBucket r.dom.toNat r.slot b { k with level := k.depth.toNat }) s

/-- A write of TB_CFG (R116): DEPTH and RATE of the selected bucket, its level clipped to the new range. -/
def execTbCfgWrite (val : DWord) (s : State) : Out :=
  let b := (s.sched.tbSel.extractLsb' 0 2).toNat
  let slot := (s.sched.tbSel.extractLsb' 2 2).toNat
  let k := s.sched.domSel.toNat
  if b = 3 || !s.isDom k then .next s
  else
    let d : Word := val.extractLsb' 32 32
    .next (s.setBucket k slot b
      ⟨max (-(d.toNat : Int)) (min d.toNat (s.bucket k slot b).level), val.extractLsb' 0 32, d⟩)

/-- Where MODE is 0, the table of a domain goes once none of its sequencers runs by it any more (R117, log 59). -/
def State.dropTable (s : State) (k : Nat) (clusters : List Nat) : State :=
  if (s.domOf k).mode || s.seqs.any fun e => e.2.mode && e.2.active.isSome && clusters.contains (e.1 / 32) then s
  else s.modDom k fun d => { d with tt := none, pending := none }

/-- A write of DOM_CFG (R117); a DOM_SEL that is no domain's lowest cluster ignores it (R116). -/
def execDomCfgWrite (val : DWord) (s : State) : Out :=
  let k := s.sched.domSel.toNat
  match s.ranks.find? fun e => e.2.placed && e.2.dom.toNat = k with
  | some (_, r) => .next ((s.modDom k fun d => { d with mode := val.getLsbD 0, hard := val.getLsbD 1 }).dropTable k r.domain)
  | none => .next s

/-- A sequencer follows DOM_CFG from its next pre-emption point on, or at once where it has no active strand (R117). -/
def State.adopt (s : State) (seq : Nat) : State :=
  match s.domainAt seq with
  | none => s
  | some (k, clusters) =>
    let d := s.domOf k
    let q := s.seqOf seq
    let free := match q.active with
      | some a => s.atPoint (s.ctx (8 * seq + a))
      | none => true
    if (q.mode = d.mode && q.hard = d.hard) || !free then s
    else (s.modSeq seq fun q => { q with mode := d.mode, hard := d.hard }).dropTable k clusters

/-- A timetable slot boundary of a domain (R111): a table that waits takes effect at a period's end. -/
def State.timetableSlotStart (s : State) (k : Nat) : State :=
  match (s.domOf k).tt, (s.domOf k).pending with
  | some t, some p =>
    let (_, i, b, _) := t.now s.time.toNat
    if b = s.time.toNat && i = 0 then s.modDom k fun d => { d with tt := some { p with start := s.time.toNat }, pending := none } else s
  | _, _ => s

def execTimetableSlotStart (dom : BitVec 5) (s : State) : Out := .next (s.timetableSlotStart dom.toNat)

/-! ## Which context a sequencer runs (R112, R114) -/

/-- What a sequencer does in its turn. -/
inductive Plan where
  | go                        -- its active strand issues
  | hold                      -- nothing issues
  | switch (slot : Nat) (idle : Bool)  -- it switches to this slot; `idle`: its active strand issues no more meanwhile
  | leave                     -- its active context is swapped out, and it idles (HARD, R114)
  deriving DecidableEq, Repr

/-- The strand in a slot of a sequencer may run: it is there, and in no unmet wait; `funded` asks for non-empty buckets too. -/
def State.qualifies (s : State) (seq : Nat) (funded : Bool) (slot : Nat) : Bool :=
  let k := 8 * seq + slot
  let c := s.ctx k
  c.live && !s.unmet k && (!funded || c.resident || s.funded c.rank)

/-- The choice of R114: the first slot after the current one, in cyclic order. -/
def State.choose (s : State) (seq : Nat) (cur n : Nat) (funded : Bool) : Option Nat :=
  ((List.range n).map fun i => (cur + 1 + i) % 5).find? (s.qualifies seq funded)

/-- Token-bucket mode (R114, R115). -/
def State.tokenPlan (s : State) (seq : Nat) : Plan :=
  let q := s.seqOf seq
  match q.active with
  | some a =>
    let c := s.ctx (8 * seq + a)
    let dry := !c.resident && !s.funded c.rank && q.minres = 0
    if s.unmet (8 * seq + a) || dry then
      match s.choose seq a 4 true with
      | some w => .switch w false
      | none => if q.hard then .leave else .go
    else .go
  | none => match s.choose seq q.lastSlot 5 true with
    | some w => .switch w false
    | none => if q.hard then .hold
      else match s.choose seq q.lastSlot 5 false with
        | some w => .switch w false
        | none => .hold

/-- Is the next segment of a strand DEFERRED, and of at most n cycles (R112)? -/
def State.deferredFits (s : State) (key n : Nat) : Bool :=
  let c := s.ctx key
  (s.rank c.rank).segs.any fun e => e.addr.toNat = c.pc.toNat && e.deferred && decide (16 * e.cost.toNat ≤ n)

/-- The slots that go on from index i with one rank slot: their length in units of 16 cycles, and the rank slot after them; `fuel`
bounds them (R111). -/
def Timetable.onward (t : Timetable) (r : Nat) : Nat → Nat → Nat × Nat
  | 0, _ => (0, r)
  | fuel + 1, i =>
    let (r', len) := t.slots.getD (i % max 1 t.slots.length) (r, 0)
    if r' ≠ r then (0, r') else let (n, z) := Timetable.onward t r fuel (i + 1); (len + n, z)

/-- The length of the slots that end before index i, counted downward, with one rank slot; `fuel` bounds them (R111). -/
def Timetable.before (t : Timetable) (r : Nat) : Nat → Nat → Nat
  | 0, _ => 0
  | fuel + 1, i =>
    let (r', len) := t.slots.getD ((i + t.slots.length - 1) % max 1 t.slots.length) (r, 0)
    if r' ≠ r then 0 else len + Timetable.before t r fuel (i + t.slots.length - 1)

/-- The slot that a sequencer's timetable runs, adjacent slots of one rank slot taken as one (R111): the rank slot, that of the next
slot, the first cycle of it and of the next. -/
def Timetable.merged (t : Timetable) (time : Nat) : Nat × Nat × Nat × Nat :=
  let (r, i, b, e) := t.now time
  let n := t.slots.length
  let (on, next) := t.onward r (n - 1) (i + 1)
  (r, next, max t.start (b - 16 * t.before r (n - 1) i), e + 16 * on)

/-- A segment has been entered: the first of the running slot on this sequencer is noted once its SEG bundle has issued (R112). -/
def State.noteEntry (s : State) (seq : Nat) : State :=
  match s.tableOf seq with
  | none => s
  | some t =>
    let (r, _, b, _) := t.merged s.time.toNat
    if (s.seqOf seq).active = some r then s.modSeq seq fun q => { q with entered := b + 1, early := false } else s

/-- Timetable mode (R112). The next slot's context is filled into the shadow as soon as the shadow is clean (R108). -/
def State.tablePlan (s : State) (seq : Nat) (t : Timetable) : Plan × State :=
  let now := s.time.toNat
  let (r, next, b, e) := t.merged now
  let ready (w : Nat) : Bool := (s.ctx (8 * seq + w)).live
  let s := if next ≠ r && ready next && (s.seqOf seq).active ≠ some next then s.fillBegin seq next else s
  let q := s.seqOf seq
  -- the switch to the next slot, at the later of the switch point and 48 cycles before its start; a place of its own is taken up then
  let toNext : Plan :=
    if next = r || (q.active.isNone && q.lastSlot = next) then .hold
    else if ready next && (decide (e ≤ now + 48) || (!q.spilling && q.filling.isNone && q.shadow = some next
        && decide (now + 48 ≤ e) && s.deferredFits (8 * seq + next) (e - now - 48))) then .switch next true
    else .hold
  match q.active with
  | none => (if ready r && (q.lastSlot = r || decide (now + 48 < e)) then .switch r true else toNext, s)
  | some a =>
    let key := 8 * seq + a
    let c := s.ctx key
    let seg := isSeg (s.nextHeader c)
    if a = 4 then (s.tokenPlan seq, s)
    else if a ≠ r then
      if q.early && a = next then
        (if seg && !s.deferredFits key (e - now) || s.unmet key then .hold else .go, s)
      else if seg || s.unmet key then (if ready r then .switch r true else .hold, s)
      else (.go, s)
    else if s.unmet key then (toNext, s)
    else if seg then
      let cost := 16 * ((s.nextHeader c).toNat / 65536)
      (if cost ≤ e - now || q.entered ≠ b + 1 then .go else toNext, s)
    else (.go, s)

/-- A sequencer that is to switch to a slot. With the context in the shadow, and no spill or fill running, the swap begins at the
active strand's pre-emption point, which is frozen there until its loads have landed (R106, R136); before that the strand runs on
(R108), or, at a switch point of a timetable, is idle (R112). A place of its own, where no other context has been brought in since, is
taken up at once. -/
def State.switchTo (s : State) (seq w : Nat) (idle : Bool) : Option Stall × State :=
  let q := s.seqOf seq
  if q.active.isNone && q.lastSlot = w then
    (none, s.modSeq seq fun q => { q with
      active := some w, want := none, lastBanks := 0, shadow := if q.shadow = some w then none else q.shadow })
  else
    let s := ((s.modSeq seq fun q => { q with want := some w }).fillBegin seq w).swapBegin seq
    let q := s.seqOf seq
    if q.swapTo.isSome then (some .hold, s)
    else match q.active with
      | none => (some .hold, s)
      | some a =>
        let here := q.shadow = some w && !q.spilling && q.filling.isNone
        (if here && s.atPoint (s.ctx (8 * seq + a)) then some .freeze else if idle then some .hold else none, s)

/-- Is the context of a sequencer's active strand being saved for a park or a migration (R66)? It is frozen at its point (R136, R338). -/
def State.saving (s : State) (seq : Nat) : Bool :=
  match (s.seqOf seq).active with
  | some a =>
    let c := s.ctx (8 * seq + a)
    c.live && !c.resident && s.atPoint c && match (s.rank c.rank).st, (s.rank c.rank).league with
      | .parking, some l | .outgoing, some l => l.step = .snapshot
      | _, _ => false
  | none => false

/-- A context goes away from its sequencer: the cycle's digit step, then what completes of itself; its chains hold (R106, R180). -/
def State.putAway (s : State) (key : Nat) : State :=
  let s := s.finishOps key
  let (c, n) := (s.ctx key).lastCycle false
  (s.setCtx key { c.settle false with mark := true, fresh := true, snap := none }).modSeq c.seq fun q =>
    { q with chkills := q.chkills + BitVec.ofNat 64 n }

/-- A sequencer's turn before it issues: its spill, fill and swap go on, and it may switch. The answer says how its active strand is
kept from issuing, if it is. A sequencer that a debugger has stopped does not switch (R378). -/
def State.turn (s : State) (seq : Nat) : Option Stall × State :=
  let t := s.time.toNat
  let q := s.seqOf seq
  let s := if q.spilling && decide (q.spillAt ≤ t) then s.spillEnd seq else s
  let s := match q.filling with
    | some w => if q.fillAt ≤ t then s.fillEnd seq w else s
    | none => s
  let s := if q.swapTo.isSome && decide (q.swapAt ≤ t) then s.swapComplete seq else s
  let s := if q.minres ≠ 0 then s.minresExpiry seq else s
  if (s.seqOf seq).swapTo.isSome || (s.seqOf seq).stopped || s.saving seq then (some .freeze, s)
  else
    let s := s.adopt seq
    let (p, s) := match s.tableOf seq with
      | some tt => s.tablePlan seq tt
      | none => (s.tokenPlan seq, s)
    let q := s.seqOf seq
    match p with
    | .go => (none, s.modSeq seq fun q => { q with want := none })
    | .hold => (some .hold, s)
    | .leave =>
      let a := q.active.getD 0
      let k := 8 * seq + a
      if !s.atPoint (s.ctx k) || q.spilling || q.filling.isSome then (none, s)
      else if !s.quiet k (s.ctx k) then (some .freeze, s)
      else
        (some .hold, (s.putAway k).modSeq seq fun q => { q with
          active := none, shadow := some a, lastSlot := a, lastBanks := (s.ctx k).banks, spilling := true
          spillAt := t + s.spillTime k })
    | .switch w idle => s.switchTo seq w idle

end Sys2Proof.Machine
end

