-- ==== Sys2Proof/Machine/League.lean ====
section
/-!
DEFINITION. League.lean: the residency of ranks (R61 to R66), the loader (R54 to R60), park and recall (R71), migration (R67, R68), the
end of a rank (R62), and `migr` (R370). An operation is asked for by a command record or by a `migr` command (`EndOp`).
-/
namespace Sys2Proof.Machine

/-! ## The end of an operation (R45, R70, R370) -/

def League.who (l : League) : EndOp := ⟨l.rcd, l.co, l.rblk, l.coVa⟩

/-- Nobody of this chip asks for an operation. -/
def EndOp.nobody : EndOp := ⟨none, none, none, 0⟩

/-- A record of a command table asks. -/
def EndOp.record (t : Nat) : EndOp := ⟨some t, none, none, 0⟩

/-- Who asks by a record, or by a `migr` command. -/
def whoOf (r : CmdRec) : EndOp := (r.mig.map (·.1)).getD (.record r.table.toNat)

/-- No operation: the fields of a new one are set from it. -/
def League.new (step : LeagueStep) (w : EndOp) (now : Nat) : League where
  id := 0
  step := step
  round := 0
  node := 0
  chan := 0
  dom := 0
  sent := []
  chips := []
  waiting := []
  before := 0
  rcd := w.rcd
  co := w.co
  rblk := w.rblk
  coVa := w.coVa
  at_ := now
  kept := now
  late := none
  run := (0, 0)
  bytes := 0
  failed := none

/-- An operation ends with status n for the one who asked for it: its record's STATUS and DETAIL, or its result block and then
LAND, with FAIL where n ≠ 0 (R370). Both wait where the host holds a line of either (R41). -/
def State.report (s : State) (w : EndOp) (n detail : Nat) : State :=
  let s := match w.rcd with
    | some t => s.recStatus t n detail
    | none => s
  match w.rblk with
  | some loc =>
    let bs := Decode.leBytes 4 n ++ Decode.leBytes 4 detail ++ Decode.leBytes 8 s.time.toNat
    let ls := linesOf loc 16 ++ w.co.toList.flatMap fun o => linesOf o 8
    if (s.heldLines ls).isEmpty then (s.write loc bs).signal w.co 0 1 (n ≠ 0)
    else s.snoop ls (.sharedCacheAccess (.write loc bs) :: w.co.toList.map fun o => .sharedCacheAccess (.signal o 0 1 (n ≠ 0)))
  | none => s.signal w.co 0 1 (n ≠ 0)

/-- An operation on a rank ends with status n, which RANK_STAT.LAST takes (R70). -/
def State.leagueDone (s : State) (rank n detail : Nat) (w : EndOp) : State :=
  let s := if (s.rank rank).st = .absent then s else s.modRank rank fun r => { r with last := BitVec.ofNat 8 n }
  s.report w n detail

/-- An operation refused before it starts: SRC rises at once (R370). -/
def State.leagueRefuse (s : State) (rank n detail : Nat) (w : EndOp) : State := (s.signal w.co 1 0 false).leagueDone rank n detail w

/-- The operation of a rank changed. -/
def State.modLeague (s : State) (rank : Nat) (f : League → League) : State :=
  s.modRank rank fun r => { r with league := r.league.map f }

/-! ## Messages and map entries (R30, R68) -/

/-- A transfer of n bytes of League traffic toward the destination of a migration, in packets that bring 256 bytes of it each (R21, R68,
R69). On a channel in FENCING or FENCED, or not OPEN, it fails at once (R28, R31, R34). -/
def State.leagueXfer (s : State) (rank n : Nat) (moved : Option Moved) : State :=
  match (s.rank rank).league with
  | none => s
  | some l =>
    let fails (code : Nat) : State := (s.fabErr code l.chan l.coVa).leagueFailed rank l.id code
    match (s.chan l.chan).st with
    | .opened =>
      let (x, s) := s.take
      let s := s.modLeague rank fun l => { l with kept := s.time.toNat }
      s.sendXfer ⟨x, l.chan, (s.chan l.chan).pgen, rank, entEpoch (s.mapEntry rank), l.coVa, .league rank l.id, s.time.toNat⟩ l.dom
        ((List.range (max 1 ((n + 255) / 256))).map fun k => .league k moved)
    | .fencing | .fenced => fails 1
    | _ => fails 4

/-- Is a transfer of a rank's League operation outstanding? -/
def State.leagueInFlight (s : State) (rank : Nat) : Bool :=
  (s.rank rank).league.any fun l => s.fab.xfers.any fun x => x.what = .league rank l.id

def State.setMapEntry (s : State) (rank : Nat) (e : DWord) : State := s.writeNow (s.mapLoc rank) (Decode.leBytes 8 e.toNat)

/-- An entry of R30: STATE, DOMAIN, CHAN, CHIP, EPOCH. -/
def mkEntry (st : Nat) (dom : BitVec 5) (chan : BitVec 8) (chip : BitVec 12) (epoch : BitVec 16) : DWord :=
  BitVec.ofNat 64 (st + 4 * dom.toNat + 2 ^ 8 * chan.toNat + 2 ^ 16 * chip.toNat + 2 ^ 48 * epoch.toNat)

def held (e : DWord) : DWord := e ||| 3

/-- The chips that the entries of other ranks in given states name (R68, R62), each once. -/
def State.chipsOf (s : State) (rank : Nat) (states : List Nat) : List (BitVec 12) :=
  let base := s.mapLoc 0
  let idx := distinct ((s.mem.filter fun (c : Nat × Byte) => decide (base ≤ c.1 ∧ c.1 < base + 2 ^ 19)).map fun c => (c.1 - base) / 8)
  (((idx.filter fun (r : Nat) => r ≠ rank && states.contains (entState (s.mapEntry r))).map fun r => entChip (s.mapEntry r)).filter
    fun n => n ≠ s.fab.node).eraseDups

/-! ## The loader (R61) -/

/-- Is a record of a non-secure table refused for what it names (R45): a secure rank, a secure domain, an address in a secure
region? -/
def State.recWorld (s : State) (t rank : Nat) (clusters : List Nat) (lo n : Nat) : Bool :=
  let r := s.rank rank
  !(s.cmdt t).secure
    && ((r.st ≠ .absent && s.secureCluster r.dom.toNat) || clusters.any s.secureCluster
      || (n ≠ 0 && (List.range (n / 2 ^ 21 + 2)).any fun i =>
          let a := min (lo + 2 ^ 21 * i) (lo + n - 1); s.secureRegion a || s.inBitmap a))

/-- LOAD_RANK (R45, R54 to R61): on checks that pass, the rank is LOADING, its pages are allocated in HBM4E, and the section copy
begins. The spec gives no order between WORLD and the checks of the loader: a non-secure record that names a secure domain reports
the rank's state, the image, V and JOB first, and WORLD before the placement's own statuses (DESIGN CHOICE, log 21). -/
def State.loadRank (s : State) (r : CmdRec) : State :=
  let t := r.table.toNat
  let rank := r.rank.toNat
  let img := r.a0.toNat
  let len := r.a1.toNat
  let w := EndOp.record t
  if 65535 < rank || r.a3 &&& 3 ≠ 0 || r.a4 &&& 0xFFF ≠ 0 || decide (2 ^ 51 < img + len) then s.recDone t 2 0
  else if s.recWorld t rank [] img len then s.recDone t 3 0
  else if (s.rank rank).st ≠ .absent then s.leagueRefuse rank 8 0 w
  else match s.image img len with
    | none => s.leagueRefuse rank 2 0 w
    | some i => match s.segTable img i with
      | none => s.leagueRefuse rank 2 0 w
      | some segs =>
        let sec := (s.cmdt t).secure
        let dist := match i.sects.find? fun x => x.kind = 3 with
          | some x => s.bytesNow (img + x.off) x.size
          | none => []
        let fmt := match i.sects.find? fun x => x.kind = 5 with
          | some x => (List.range 64).map fun k => BitVec.ofNat 64 (Decode.leNat (s.bytesNow (img + x.off + 8 * k) 8))
          | none => []
        let n := if r.a2.toNat < 24 then s.placeStatus rank r.a2.toNat i.sx i.sy i.mib i.prot sec dist else 3
        let vas := (pagesOf i.sects 0).map (·.va)
        let tabs := tableBytes vas
        let bytes := tabs + 65536 * vas.length
        if i.v ≤ rank then s.recDone t 2 0
        else if i.job ≠ r.job then s.leagueRefuse rank 2 0 w
        else if s.ranks.any fun e => e.2.st ≠ .absent && e.2.job ≠ i.job then s.leagueRefuse rank 9 0 w
        else if s.recWorld t rank (domClusters r.a2.toNat i.sx i.sy) 0 0 then s.recDone t 3 0
        else if n ≠ 0 then s.leagueRefuse rank n 0 w
        else match s.hbmRun sec bytes with
          | none => s.leagueRefuse rank 7 0 w
          | some base =>
            let k0 := r.a2.toNat
            let slot := s.freeSlot rank k0
            let (cs, s) := s.allot rank k0 i.mib
            let key := mix64 (i.seed + 0x9E3779B97F4A7C15 * BitVec.ofNat 64 (rank + 1))
            let s := s.modRank rank fun _ => { Rank.reset with
              st := .loading, dom := BitVec.ofNat 5 k0, vhdr := i.v, job := i.job, shapeX := i.sx, shapeY := i.sy
              stepline := i.stepline, csMib := i.mib, prot := i.prot, slot := slot, key := key
              fmt := Store.setRange 0 [] 0 fmt, segs := segs, csBase := cs, arg3 := r.a3, arg4 := r.a4
              pages := pagesOf i.sects (base + tabs), image := img, base := base, bytes := bytes, dist := dist
              league := some { League.new .load w s.time.toNat with run := (img, len) } }
            (s.blankCs (s.rank rank)).due (.loadCopyEnd rank)

def execLoadRank (r : CmdRec) (s : State) : Out := .next (s.loadRank r)

/-- What the section copy writes: the location and bytes of each mapped section's file. -/
def State.sectionPieces (s : State) (r : Rank) (len : Nat) : List (Nat × List Byte) :=
  match s.image r.image len with
  | none => []
  | some i => i.sects.filterMap fun x =>
      if x.mapped && x.size ≠ 0 then (r.pages.find? fun p => p.va = x.va).map fun p => (p.pa, s.bytesNow (r.image + x.off) x.size)
      else none

/-- The section copy ends (R61): the sections, each line a write event; the rank is HOT with STEP 0, and its own entry is local,
with EPOCH + 1. -/
def execLoadCopyEnd (rank : Nat) (s : State) : Out :=
  let r := s.rank rank
  match r.st, r.league with
  | .loading, some l =>
    let ps := s.sectionPieces r l.run.2
    let lines := linesOf (s.mapLoc rank) 8 ++ s.heldIn r.base r.bytes
    if !(s.heldLines lines).isEmpty then .next (s.snoop lines [.loadCopyEnd rank])
    else
      let s := s.zero r.base r.bytes
      let s := (s.writeAll ps).buildTables rank
      let e := s.mapEntry rank
      let s := s.setMapEntry rank (mkEntry 1 r.dom (entChan e) s.fab.node (entEpoch e + 1))
      let s := s.modRank rank fun r => { r with st := .hot, step := 0, league := none, image := 0 }
      .next (s.leagueDone rank 0 0 l.who)
  | _, _ => .next s

/-- START_RANK (R45): the launch record at a VA of the rank is read through its tables, and queued. -/
def execStartRank (r : CmdRec) (s : State) : Out :=
  let t := r.table.toNat
  let rank := r.rank.toNat
  if s.recWorld t rank [] 0 0 then .next (s.recDone t 3 0)
  else if (s.rank rank).st ≠ .hot then .next (s.recDone t 0x108 0)
  else match s.launchCheck (s.asRank rank) r.a0 false with
    | .error f => .next (s.recDone t 2 f.cause.toNat)
    | .ok (bs, co, ac) =>
      let x := recOf bs
      let bad := s.refuses rank x
      .next ((s.queueLaunch rank r.a0 false x co ac).recDone t (if bad then 2 else 0) 0)

/-! ## What a rank leaves, and what it takes with it (R66) -/

/-- The cores of a rank in order of logical core. -/
def Rank.cores (r : Rank) : List (Nat × Nat) := (List.range (8 * r.clusters)).map fun l => (l, r.coreAt l)

/-- The saved context that holds the matrix engine of a logical core: that of the sequencer which owns it (R66, R137). -/
def State.holder (s : State) (rank lcore core : Nat) : Option Ctx :=
  (s.rank rank).saved.find? fun c => c.lcore = lcore && c.seq % 4 = ((s.mownOf core rank).extractLsb' 0 2).toNat

/-- What a core holds for a rank (R66): the engine where a context holds it, with the banks of that context's mask, and the Scruple
slots. -/
def State.coreSave (s : State) (rank lcore core : Nat) : CoreSave :=
  let scr := (List.range 16).foldl (fun m i => Store.set Scruple.reset m i (s.scr core rank i)) []
  match s.holder rank lcore core with
  | some c => ⟨lcore, (s.engine core rank).zeroBanks (~~~c.banks), s.mownOf core rank, scr⟩
  | none => ⟨lcore, Engine.reset, 0, scr⟩

/-- What a core holds for a rank goes. -/
def State.dropCores (s : State) (rank : Nat) : State :=
  (s.rank rank).cores.foldl (fun s c =>
    let s := (s.setEngine c.2 rank Engine.reset).setMown c.2 rank 0
    (List.range 16).foldl (fun s i => s.setScr c.2 rank i Scruple.reset) s) s

/-- What a core held is put where its logical core now stands. -/
def State.putCores (s : State) (rank : Nat) (l : List CoreSave) : State :=
  l.foldl (fun s c =>
    let core := (s.rank rank).coreAt c.lcore
    let s := (s.setEngine core rank c.engine).setMown core rank c.mown
    c.scr.foldl (fun s e => s.setScr core rank e.1 e.2) s) s

/-- The strand of a key is taken off its sequencer, without an end (R66). -/
def State.lift (s : State) (key : Nat) : State :=
  let c := s.ctx key
  let s := s.setCtx key { Ctx.reset with seq := c.seq }
  let drop (e : Nat × Option Perch) : Nat × Option Perch :=
    (e.1, e.2.map fun p => { p with waiters := p.waiters.filter (· ≠ key) })
  let s := { s with releases := Store.set none s.releases key none, perch := s.perch.map drop }
  s.modSeq c.seq fun q => { q with
    active := if q.active = some (key % 8) then none else q.active
    lastSlot := if q.active = some (key % 8) then key % 8 else q.lastSlot
    shadow := if q.shadow = some (key % 8) then none else q.shadow }

/-- The saved contexts of a rank placed on its sequencers (R61): each takes a rewind snapshot with its first bundle (R218). -/
def State.putStrands (s : State) (rank : Nat) : State :=
  let r := s.rank rank
  let s := r.saved.foldl (fun s c =>
    let seq := 4 * r.coreAt c.lcore + c.seq % 4
    s.setCtx (8 * seq + r.slot) { c.imageChecked with seq, mark := true, fresh := true, snap := none }) s
  s.modRank rank fun r => { r with saved := [] }

/-- The held release of the STEPLINE completes on the rank's own strands where it resumes (R63, R66): STEP advances and each held
`pwait` retires as a clean release. No line of the rank is armed there, so groups left by all are gone (R275). -/
def State.completeStep (s : State) (rank : Nat) : State :=
  let s := s.modRank rank fun r => { r with groups := dropEmpty (fun _ => true) r.groups }
  let r := s.rank rank
  if !r.heldRelease then s
  else
    let line : BitVec 6 := r.stepline.setWidth 6
    let ks := (s.strands rank).filter fun e => e.2.wait = some (.perch line)
    let s := ks.foldl (fun s e => { s with releases := Store.set none s.releases e.1 (some .clean) }) s
    s.modRank rank fun r => { r with heldRelease := false, step := r.step + 1 }

/-- The perch lines that a rank has armed are disarmed. -/
def State.disarm (s : State) (rank : Nat) : State :=
  { s with perch := s.perch.filter fun e => match e.2 with
    | some p => p.rank ≠ rank
    | none => true }

/-- The held release of a rank that runs on where it is (R64): the line is released, for the strands that were saved meanwhile too. -/
def State.freeStep (s : State) (rank : Nat) : State :=
  let r := s.rank rank
  if !r.heldRelease then s
  else
    let line : BitVec 6 := r.stepline.setWidth 6
    let s := s.modRank rank fun r => { r with heldRelease := false }
    match s.perchOf line with
    | some p =>
      if p.rank = rank then
        s.release line { p with
          held := false
          waiters := ((s.strands rank).filter fun e => e.2.wait = some (.perch line)).map (·.1) } false
      else s
    | none => s

/-- What a rank holds of its domain goes, with its translations: its cluster-store lines are zeroed and empty, and so are the windows
that its strands have left (R51, R140). -/
def State.vacateDomain (s : State) (rank : Nat) : State :=
  let r := s.rank rank
  let left (c : Ctx) : Bool := !c.live && c.rank = rank
  let s := { s with c := if left s.c then Ctx.reset else s.c, ctxs := s.ctxs.filter fun e => !left e.2 }
  (((s.blankCs r).dropCores rank).disarm rank).dropTlb fun e => e.tag = 8 * r.dom.toNat + r.slot

/-- The run of memory that a rank holds is zeroed (R51), and the pages of the chip that it has had outside it, which no other rank
holds. -/
def State.vacateRun (s : State) (rank : Nat) (pages : List Page) : State :=
  let r := s.rank rank
  let inRun (b : Nat × Nat) (a : Nat) : Bool := b.2 ≠ 0 && decide (b.1 ≤ a ∧ a < b.1 + b.2)
  let out := (pageAddrs pages).filter fun a => isDev a && !(s.runs.any fun b => inRun b a)
  let s := if r.bytes = 0 then s else s.zero r.base r.bytes
  out.foldl (fun s a => s.zero a 65536) s

/-- The lines that vacating a rank's run and its pages writes, where the host holds them (R41), with that of its map entry. -/
def State.vacateLines (s : State) (rank : Nat) : List Nat :=
  let ds := pageAddrs (s.mapped rank)
  linesOf (s.mapLoc rank) 8 ++ s.heldIn (s.rank rank).base (s.rank rank).bytes
    ++ (s.host.held.filter fun e => e.2 && ds.contains (128 * e.1 / 65536 * 65536)).map (·.1)

/-- A rank is ABSENT. -/
def State.dropRank (s : State) (rank : Nat) : State := { s with ranks := Store.clear s.ranks rank 1 }

/-- What a rank records of locations follows its pages (R66). -/
def Rank.relocate (r : Rank) (f : Nat → Nat) : Rank :=
  { r with
    queue := r.queue.map fun l => { l with afterCo := f l.afterCo }
    lives := r.lives.map fun l => { l with co := f l.co }
    saved := r.saved.map (Ctx.relocate f) }

/-! ## Quiescence (R64) -/

/-- Is a memory-side reduction or an atomic of a rank pending, of a strand that has exited too? -/
def State.redPending (s : State) (rank : Nat) : Bool :=
  s.wq.any (fun e => e.ranks.contains rank) || s.pend.any fun e => match e.2 with
    | some (.red _ es _) => es.any fun x => x.ranks.contains rank
    | some (.amo k ..) | some (.casv k ..) | some (.vset k ..) => s.rankOfKey k = rank
    | _ => false

/-- Is a rank quiescent at the release of its STEPLINE (R64)? -/
def State.quiescent (s : State) (rank : Nat) : Bool :=
  let r := s.rank rank
  s.perch.all (fun e => match e.2 with
      | some p => p.rank ≠ rank || (p.dests.all (fun d => d.left = 0) && e.1 = r.stepline.toNat)
      | none => true)
    && !s.engineBusy rank && !s.redPending rank

/-- The accesses of a rank's exited strands that have not performed (R271). -/
def State.orphans (s : State) (rank : Nat) : List Nat :=
  (s.loads.filter fun e => match e.2 with
      | some l => keyRank l.key = some rank
      | none => false).map (·.1)
    ++ (s.pend.filter fun e => match e.2 with
      | some (.event ..) => false
      | some p => keyRank p.key = some rank
      | none => false).map (·.1)

/-- A rank with no strand, no queued launch and no engine operation is quiescent at once (R61). -/
def State.still (s : State) (rank : Nat) : Bool :=
  (s.strands rank).isEmpty && (s.rank rank).queue.isEmpty && !s.engineBusy rank

/-! ## Failure before the commit (R61, R68) -/

/-- A move of a rank is given up before its commit: the destination is told, held entries are restored, and the rank is HOT here. -/
def State.leagueUndo (s : State) (rank : Nat) : State :=
  let r := s.rank rank
  match r.league with
  | none => s
  | some l =>
    let wasHeld := l.step = .hold || l.step = .snapshot || l.step = .transfer
    let s := if r.st = .outgoing || l.step = .request then s.leagueSend l.node "abort" rank 0 else s
    let s := if wasHeld then
        l.chips.foldl (fun s n => s.leagueSend n "restore" rank 0) (s.setMapEntry rank l.before)
      else s
    let s := s.modRank rank fun r => { r with st := .hot, league := none }
    (s.putStrands rank).freeStep rank

def State.leagueAbort (s : State) (rank n detail : Nat) : State :=
  match (s.rank rank).league with
  | none => s
  | some l =>
    let s := s.leagueUndo rank
    if l.step = .request then s.leagueRefuse rank n detail l.who else s.leagueDone rank n detail l.who

/-! ## Steps 2 to 4 of a move (R68) -/

/-- Has a collective an edge toward a rank that it has not yet sent, by an entry that it read before the hold (R68)? -/
def Coll.owes (c : Coll) (rank : Nat) : Bool :=
  c.owed.any fun q => c.base + c.stride * q = rank && entState (c.entryOf q) ≠ 3

/-- The versions of a rank's lines as they stand (R68 step 1). -/
def State.versionsOf (s : State) (rank : Nat) : Store (BitVec 48) :=
  let ds := pageAddrs (s.mapped rank)
  s.ver.filter fun e => ds.contains (128 * e.1 / 65536 * 65536)

/-- The lines of a rank whose version differs from the one last sent (R68). -/
def State.changed (s : State) (rank : Nat) (l : League) : Nat :=
  ((s.versionsOf rank).filter fun e => Store.get 0 l.sent e.1 ≠ e.2).length

/-- The cluster-store lines of a rank that are full, by offset from its first, one logical cluster after another (R66). -/
def State.fullLines (s : State) (r : Rank) : List Nat :=
  (List.range r.clusters).flatMap fun k =>
    let lo := (csBaseLoc (r.place k) + r.csBase) / 128
    (s.full.filter fun e => decide (lo ≤ e.1 ∧ e.1 < lo + mib r.csMib / 128)).map fun e => e.1 - lo + k * (mib r.csMib / 128)

/-- All that a migration of a rank carries, once its contexts are saved (R66). -/
def State.movedOf (s : State) (rank : Nat) : Moved :=
  let pages := s.mapped rank
  let ds := pageAddrs pages
  let here (a : Nat) : Bool := ds.contains (a / 65536 * 65536)
  let r := { s.rank rank with
    pages, savedFull := s.fullLines (s.rank rank), savedCores := (s.rank rank).cores.map fun c => s.coreSave rank c.1 c.2
    overran := [] }
  let cs (k : Nat) : Nat := csBaseLoc (r.place k) + r.csBase
  { rank := r
    mem := s.mem.filter fun (c : Nat × Byte) => here c.1
    ver := s.ver.filter fun e => here (128 * e.1)
    poison := s.poison.filter fun e => here (128 * e.1)
    cs := (List.range r.clusters).map fun k => s.bytes (cs k) (mib r.csMib)
    csPoison := (List.range r.clusters).map fun k =>
      (s.poison.filter fun e => decide (cs k / 128 ≤ e.1 ∧ e.1 < (cs k + mib r.csMib) / 128)).map fun e => (e.1 - cs k / 128, e.2) }

/-- Every context of a move is saved: the transfer, or the move into the second tier, begins (R68 step 4, R71). -/
def State.snapDone (s : State) (rank : Nat) : State :=
  let r := s.rank rank
  match r.league with
  | none => s
  | some l =>
    let s' := s.modLeague rank fun l => { l with step := .transfer }
    if r.st = .outgoing then
      s'.leagueXfer rank (128 * s.changed rank l + r.clusters * mib r.csMib) (some (s.flushAll.movedOf rank))
    else s'.due (.parkComplete rank)

/-- A strand is saved (R66): one that is active leaves its sequencer as in a swap, its M and K operations run out (R338). -/
def State.saveStrand (s : State) (rank key : Nat) : State :=
  let s := if (s.seqOf (key / 8)).active = some (key % 8) then s.putAway key else s
  let c := s.ctx key
  (s.lift key).modRank rank fun r => { r with saved := r.saved ++ [c] }

/-- The snapshot (R68 step 3): every strand that stands at a pre-emption point with its loads landed is saved. -/
def State.snapshot (s : State) (rank : Nat) : State :=
  let ready := (s.strands rank).filter fun e => s.atPoint e.2 && s.quiet e.1 e.2
    && (s.seqOf (e.1 / 8)).swapTo.isNone && !s.waitingFor e.1
  let s := ready.foldl (fun s e => s.saveStrand rank e.1) s
  if (s.strands rank).isEmpty && (s.orphans rank).isEmpty then s.snapDone rank else s

/-- Every hold is answered ready: the snapshot begins. -/
def State.holdDone (s : State) (rank : Nat) : State := (s.modLeague rank fun l => { l with step := .snapshot }).snapshot rank

/-- The holds (R68 step 2): this chip's own entry, every chip that a remote entry of its map names, and the destination. -/
def State.holdStart (s : State) (rank : Nat) : State :=
  let r := s.rank rank
  match r.league with
  | none => s
  | some l =>
    let e := s.mapEntry rank
    let chips := (s.chipsOf rank [2] ++ if r.st = .outgoing then [l.node] else []).eraseDups
    let busy := s.colls.any fun c => c.owes rank
    let line := linesOf (s.mapLoc rank) 8
    if !(s.heldLines line).isEmpty then s.snoop line []
    else
      let s := (s.setMapEntry rank (held e)).modLeague rank fun l =>
        { l with step := .hold, before := e, chips := chips, waiting := chips, at_ := s.time.toNat }
      let s := chips.foldl (fun s n => s.leagueSend n "hold" rank (held e)) s
      if busy then s.leagueAbort rank 1 0
      else if chips.isEmpty then s.holdDone rank
      else s

/-- The check of R64 where it is due: at a held release of the STEPLINE, or at once for a rank that is still. -/
def State.leagueTry (s : State) (rank : Nat) : State :=
  let r := s.rank rank
  match r.league with
  | none => s
  | some l =>
    match l.failed with
    | some code => if l.step = .commit then s else s.leagueAbort rank 10 code
    | none =>
      if l.step = .request && s.timedOut l.at_ && r.st = .hot then s.leagueAbort rank 10 6
      else if !r.holdsStep then (if l.step = .snapshot then s.snapshot rank else s)
      else if r.heldRelease then (if s.quiescent rank then s.holdStart rank else s.leagueAbort rank 1 0)
      else if s.still rank then s.holdStart rank
      else s

/-! ## Park and recall (R71) -/

/-- Bytes that a rank takes in the second tier: its pages, and its cluster-store lines beside them. -/
def Rank.coldBytes (r : Rank) (pages : List Page) : Nat := 65536 * (pageAddrs pages).length + r.clusters * mib r.csMib

/-- A park begins (R61): PARKING, until the next step boundary. -/
def State.parkStart (s : State) (rank : Nat) (w : EndOp) : State :=
  let r := s.rank rank
  if r.st ≠ .hot || r.league.isSome then s.leagueRefuse rank 8 0 w
  else
    let n := r.coldBytes (s.mapped rank)
    match s.tierRun (s.secureCluster r.dom.toNat) n with
    | none => s.leagueRefuse rank 7 0 w
    | some b =>
      let s := s.signal w.co 1 0 false
      let s := s.modRank rank fun r => { r with
        st := .parking, league := some { League.new .quiesce w s.time.toNat with run := (b, n) } }
      s.leagueTry rank

/-- The chips of step 2 are sent a rank's new entry, and their acknowledgements are waited for; `dest` takes it as local (R68
step 5, R71). -/
def State.sendEntries (s : State) (rank : Nat) (e : DWord) (chips : List (BitVec 12)) : State :=
  let s := s.modLeague rank fun l => { l with step := .commit, waiting := chips, at_ := s.time.toNat }
  chips.foldl (fun s n => s.leagueSend n "entry" rank e) s

/-- Lines of pages moved to other places with versions and marks: no write events (R66). -/
def State.movePages (s : State) (old new : List Page) : State :=
  (moves old new).foldl (fun s p => (s.carry p.1.pa p.2.pa p.1.size).carryVer p.1.pa p.2.pa p.1.size) s

/-- The result of a commit: MAP_PARTIAL where a chip did not acknowledge (R70). -/
def League.outcome (l : League) : Nat × Nat :=
  match l.late with
  | some n => (11, n.toNat)
  | none => (0, 0)

/-- Every acknowledgement of a commit is in, or given up (R68, R71); the source's vacated lines are zeroed once the host has given
them up (R41, R51). -/
def State.commitDone (s : State) (rank : Nat) : State :=
  let r := s.rank rank
  match r.league with
  | none => s
  | some l =>
    let (n, d) := l.outcome
    match r.st with
    | .parking => (s.modRank rank fun r => { r with st := .cold, league := none }).leagueDone rank n d l.who
    | .recalling =>
      let s := (s.modRank rank fun r => { r with st := .hot, league := none }).fullBuckets rank
      ((s.putStrands rank).completeStep rank).leagueDone rank n d l.who
    | .outgoing =>
      if !(s.heldLines (s.vacateLines rank)).isEmpty then s.snoop (s.vacateLines rank) []
      else
        let s := ((s.vacateDomain rank).vacateRun rank (s.mapped rank)).dropRank rank
        let s := s.report l.who n d
        r.ends.foldl (fun s w => s.report w 0 0) s
    | _ => s

/-- The pages, cluster-store lines and snapshot of a parking rank are in the second tier (R71): what it held is zeroed, and its
entry is held, with EPOCH + 1, here and on the chips of step 2. -/
def execParkComplete (rank : Nat) (s : State) : Out :=
  let r := s.rank rank
  match r.st, r.league with
  | .parking, some l =>
    if l.step ≠ .transfer then .next s
    else s.unheld (s.vacateLines rank) (.parkComplete rank) fun s =>
      let s := s.flushAll
      let pages := s.mapped rank
      let n := r.coldBytes pages
      let free := s.modLeague rank fun l => { l with run := (0, 0) }
      -- what has been mapped since the park began may need a larger run
      match (if n ≤ l.run.2 then some l.run.1 else free.tierRun (s.secureCluster r.dom.toNat) n) with
      | none => .next (s.leagueAbort rank 7 0)
      | some run =>
        let new := repage pages run
        let cs0 := run + 65536 * (pageAddrs pages).length
        let full := s.fullLines r
        let cores := r.cores.map fun c => s.coreSave rank c.1 c.2
        let s := s.movePages pages new
        let s := (List.range r.clusters).foldl (fun s k =>
          s.carry (csBaseLoc (r.place k) + r.csBase) (cs0 + k * mib r.csMib) (mib r.csMib)) s
        let s := (s.vacateDomain rank).vacateRun rank pages
        let f := movePage pages new
        let s := s.modRank rank fun r => { (r.relocate f) with
          pages := new, base := run, bytes := n, savedCores := cores, savedFull := full, ptRoot := 0, overran := [] }
        let e := s.mapEntry rank
        let e := held (mkEntry 3 (entDomain e) (entChan e) (entChip e) (entEpoch e + 1))
        let s := ((s.setMapEntry rank e).modLeague rank fun l => { l with run := (0, 0) }).sendEntries rank e l.chips
        .next (if l.chips.isEmpty then s.commitDone rank else s)
  | _, _ => .next s

/-- A recall begins (R61, R71): the checks of R58 to R60 on the named domain, then RECALLING. -/
def State.recallStart (s : State) (rank k0 : Nat) (secure : Bool) (w : EndOp) : State :=
  let r := s.rank rank
  if r.st ≠ .cold || r.league.isSome then s.leagueRefuse rank 8 0 w
  else
    let n := if k0 < 24 then s.placeStatus rank k0 r.shapeX r.shapeY r.csMib r.prot secure r.dist else 3
    let bytes := tableBytes (r.pages.map (·.va)) + 65536 * (pageAddrs r.pages).length
    if n ≠ 0 then s.leagueRefuse rank n 0 w
    else match s.hbmRun secure bytes with
      | none => s.leagueRefuse rank 7 0 w
      | some b =>
        let s := s.signal w.co 1 0 false
        let slot := s.freeSlot rank k0
        let (cs, s) := s.allot rank k0 r.csMib
        let s := s.modRank rank fun r => { r with
          st := .recalling, dom := BitVec.ofNat 5 k0, slot := slot, csBase := cs
          league := some { League.new .recall w s.time.toNat with run := (b, bytes) } }
        (s.blankCs (s.rank rank)).due (.recallComplete rank)

/-- A rank's pages stand in a run of HBM4E, after its tables. -/
def State.settleRun (s : State) (rank base bytes : Nat) (pages : List Page) : State :=
  (s.modRank rank fun r => { r with pages := pages, base := base, bytes := bytes }).buildTables rank

/-- The restore of a recalled rank ends (R71): pages and cluster-store lines are back, the second tier's are zeroed, and its entry is
local here and remote on the other chips, with EPOCH + 1. -/
def execRecallComplete (rank : Nat) (s : State) : Out :=
  let r := s.rank rank
  match r.st, r.league with
  | .recalling, some l =>
    if l.step ≠ .recall then .next s
    else s.unheld (s.vacateLines rank ++ s.heldIn l.run.1 l.run.2) (.recallComplete rank) fun s =>
      let tabs := l.run.2 - 65536 * (pageAddrs r.pages).length
      let new := repage r.pages (l.run.1 + tabs)
      let cs0 := r.base + 65536 * (pageAddrs r.pages).length
      let s := (s.zero l.run.1 l.run.2).movePages r.pages new
      let s := (List.range r.clusters).foldl (fun s k =>
        s.carry (cs0 + k * mib r.csMib) (csBaseLoc (r.place k) + r.csBase) (mib r.csMib)) s
      let per := mib r.csMib / 128
      let s := r.savedFull.foldl (fun s o =>
        { s with full := Store.set false s.full ((csBaseLoc (r.place (o / per)) + r.csBase) / 128 + o % per) true }) s
      let s := s.vacateRun rank []
      let f := movePage r.pages new
      let s := (s.putCores rank r.savedCores).modRank rank fun r => { (r.relocate f) with savedCores := [], savedFull := [] }
      let s := s.settleRun rank l.run.1 l.run.2 new
      let e := s.mapEntry rank
      let chips := s.chipsOf rank [2]
      let s := s.setMapEntry rank (mkEntry 1 r.dom (entChan e) s.fab.node (entEpoch e + 1))
      let s := (s.modLeague rank fun l => { l with run := (0, 0) }).sendEntries rank
        (mkEntry 2 r.dom (entChan e) s.fab.node (entEpoch e + 1)) chips
      .next (if chips.isEmpty then s.commitDone rank else s)
  | _, _ => .next s

/-- PARK_RANK (R45, R61), or `migr.park` past its own checks (R370). -/
def execParkRank (r : CmdRec) (s : State) : Out :=
  let t := r.table.toNat
  if r.mig.isNone && s.recWorld t r.rank.toNat [] 0 0 then .next (s.recDone t 3 0) else .next (s.parkStart r.rank.toNat (whoOf r))

/-- RECALL_RANK (R45, R61), or `migr.recall` past its own checks (R370). -/
def execRecallRank (r : CmdRec) (s : State) : Out :=
  let t := r.table.toNat
  let k := s.rank r.rank.toNat
  let cl := if r.a2.toNat < 24 then domClusters r.a2.toNat k.shapeX k.shapeY else []
  if r.mig.isNone && s.recWorld t r.rank.toNat cl 0 0 then .next (s.recDone t 3 0)
  else .next (s.recallStart r.rank.toNat r.a2.toNat ((r.mig.map (·.2)).getD (s.cmdt t).secure) (whoOf r))

/-! ## Migration (R67, R68) -/

/-- Does a channel hold a secure port or domain? -/
def State.secureChan (s : State) (ports : BitVec 16) (doms : BitVec 24) : Bool :=
  (List.range 16).any (fun p => ports.getLsbD p && s.world.wports.getLsbD p)
    || (List.range 24).any fun k => doms.getLsbD k && s.secureCluster k

/-- A round of pre-copy (R68): every line in the first, then those whose version has moved since it was sent. -/
def State.precopyRound (s : State) (rank : Nat) : State :=
  match (s.rank rank).league with
  | none => s
  | some l =>
    let n := if l.round = 0 then 65536 * (pageAddrs (s.mapped rank)).length else 128 * s.changed rank l
    (s.modLeague rank fun l => { l with
      step := .precopy, round := l.round + 1, sent := s.versionsOf rank, bytes := n }).leagueXfer rank n none

/-- A migration is asked for (R67): the channel must be open, and the destination is asked to accept. -/
def State.migrateStart (s : State) (rank : Nat) (node : BitVec 12) (ch : BitVec 8) (dom : BitVec 5) (w : EndOp) : State :=
  let r := s.rank rank
  if r.st ≠ .hot || r.league.isSome then s.leagueRefuse rank 8 0 w
  else if (s.chan ch).st ≠ .opened || (s.chan ch).peer ≠ node then s.leagueRefuse rank 10 4 w
  else
    let (id, s) := s.take
    let s := s.modRank rank fun r => { r with
      league := some { League.new .request w s.time.toNat with id := id, node := node, chan := ch, dom := dom } }
    (s.leagueXfer rank 256 none).leagueSend node "request" rank (BitVec.ofNat 64 dom.toNat)

/-- MIGRATE_RANK (R45, R61), or `migr.move` past its own checks (R370). -/
def execMigrateRank (r : CmdRec) (s : State) : Out :=
  let t := r.table.toNat
  let ch := r.a1.setWidth 8
  let go := s.migrateStart r.rank.toNat (r.a0.setWidth 12) ch (r.a2.setWidth 5) (whoOf r)
  if r.mig.isSome then .next go
  else if s.recWorld t r.rank.toNat [] 0 0 then .next (s.recDone t 3 0)
  else if decide (4095 < r.a0.toNat) || decide (255 < r.a1.toNat) || decide (31 < r.a2.toNat) then .next (s.recDone t 2 0)
  else if !(s.cmdt t).secure && s.secureChan (s.chan ch).cports (s.chan ch).domains then .next (s.recDone t 3 0)
  else .next go

/-- The destination answers (R67): it accepts, and the rank is OUTGOING; or it refuses with its own n, then or, on an END_RANK there,
before the commit (R62). -/
def execDestAnswer (rank : Nat) (n : BitVec 8) (s : State) : Out :=
  let r := s.rank rank
  match r.league with
  | none => .next s
  | some l =>
    if l.step = .request && r.st = .hot then
      if n ≠ 0 then .next ((s.modRank rank fun r => { r with league := none }).leagueRefuse rank 12 n.toNat l.who)
      else
        let s := s.signal l.co 1 0 false
        .next ((s.modRank rank fun r => { r with st := .outgoing }).precopyRound rank)
    else if r.st = .outgoing && l.step ≠ .commit && n ≠ 0 then .next (s.leagueAbort rank 12 n.toNat)
    else .next s

/-- A round of pre-copy ends, its transfers ended (R68): pre-copy ends after a short round or the eighth. -/
def State.precopyRoundEnd (s : State) (rank : Nat) : State :=
  let r := s.rank rank
  match r.st, r.league with
  | .outgoing, some l =>
    if l.step ≠ .precopy || l.failed.isSome || s.leagueInFlight rank then s
    else if decide (l.bytes < 65536 * s.sched.precopyStop.toNat) || decide (8 ≤ l.round) then
      (s.modLeague rank fun l => { l with step := .quiesce }).leagueTry rank
    else s.precopyRound rank
  | _, _ => s

def execPrecopyRoundEnd (rank : Nat) (s : State) : Out := .next (s.precopyRoundEnd rank)

/-- A chip answers a hold (R68 step 2). -/
def execMapHoldAnswer (rank : Nat) (node : BitVec 12) (ready : Bool) (s : State) : Out :=
  match (s.rank rank).league with
  | none => .next s
  | some l =>
    if l.step ≠ .hold || !l.waiting.contains node then .next s
    else if !ready then .next (s.leagueAbort rank 1 0)
    else
      let rest := l.waiting.filter (· ≠ node)
      let s := s.modLeague rank fun l => { l with waiting := rest }
      .next (if rest.isEmpty then s.holdDone rank else s)

/-- No answer to a hold within FAB_TIMEOUT (R68 step 2). -/
def State.mapHoldTimeout (s : State) (rank : Nat) : State :=
  match (s.rank rank).league with
  | some l => if l.step = .hold && s.timedOut l.at_ then s.leagueAbort rank 1 0 else s
  | none => s

def execMapHoldTimeout (rank : Nat) (s : State) : Out := .next (s.mapHoldTimeout rank)

/-- The destination has everything in place (R68 step 5): its entries are sent, and the source's own names it. -/
def execMigrationDestReady (rank : Nat) (s : State) : Out :=
  let r := s.rank rank
  match r.st, r.league with
  | .outgoing, some l =>
    if l.step ≠ .transfer then .next s
    else s.unheld (linesOf (s.mapLoc rank) 8) (.migrationDestReady rank) fun s =>
      let e := s.mapEntry rank
      let entry (st : Nat) (ch : BitVec 8) : DWord := mkEntry st l.dom ch l.node (entEpoch e + 1)
      let s := (s.setMapEntry rank (entry 2 l.chan)).sendEntries rank (entry 2 (entChan e)) (l.chips.filter (· ≠ l.node))
      .next ((s.modLeague rank fun x => { x with waiting := x.waiting ++ [l.node] }).leagueSend l.node "entry" rank
        (entry 1 (entChan e)))
  | _, _ => .next s

/-- A chip acknowledges a new entry (R68 step 5). -/
def State.ackIn (s : State) (rank : Nat) (node : BitVec 12) (late : Bool) : State :=
  match (s.rank rank).league with
  | none => s
  | some l =>
    if l.step ≠ .commit || !l.waiting.contains node then s
    else
      let rest := l.waiting.filter (· ≠ node)
      let s := s.modLeague rank fun l => { l with waiting := rest, late := if late then some (l.late.getD node) else l.late }
      if rest.isEmpty then s.commitDone rank else s

def execMapAckReceived (rank : Nat) (node : BitVec 12) (s : State) : Out := .next (s.ackIn rank node false)

/-- A chip does not acknowledge within FAB_TIMEOUT (R68): MAP_PARTIAL. -/
def State.mapAckTimeout (s : State) (rank : Nat) (node : BitVec 12) : State :=
  match (s.rank rank).league with
  | some l => if s.timedOut l.at_ then s.ackIn rank node true else s
  | none => s

def execMapAckTimeout (rank : Nat) (node : BitVec 12) (s : State) : Out := .next (s.mapAckTimeout rank node)

/-- League traffic toward the destination while OUTGOING and before the commit; at a destination in INCOMING, such traffic has come
(R68). -/
def State.leagueKeepalive (s : State) (rank : Nat) : State :=
  let r := s.rank rank
  match r.st, r.league with
  | .outgoing, some l =>
    if l.step = .commit then s
    else (s.modLeague rank fun l => { l with kept := s.time.toNat }).leagueSend l.node "keepalive" rank 0
  | .incoming, _ => s.leagueKept rank
  | _, _ => s

def execLeagueKeepalive (rank : Nat) (s : State) : Out := .next (s.leagueKeepalive rank)

/-! ### The other chips of a migration -/

/-- The destination's checks of R58 to R60 on a request, and NO_MEMORY (R67): status n, and the run it reserves. -/
def State.requestStatus (s : State) (m : MigReq) (bytes : Nat) : Nat × Nat :=
  let secure := s.secureCluster m.dom.toNat
  if (s.rank m.rank).st ≠ .absent then (8, 0)
  else if s.ranks.any fun e => e.2.st ≠ .absent && e.2.job ≠ m.job then (9, 0)
  else
    let n := s.placeStatus m.rank m.dom.toNat m.shapeX m.shapeY m.csMib m.prot secure (m.dslice ++ m.dcc)
    if n ≠ 0 then (n, 0)
    else match s.hbmRun secure bytes with
      | none => (7, 0)
      | some b => (0, b)

/-- A message of the League that its channel end does not admit is rejected (R29). -/
def State.admitting (s : State) (src : MsgSrc) (k : Unit → Out) : Out :=
  if s.admits src then k () else .next (s.sendBack src.node (.reject src.node 0 false))

/-- A migration request arrives (R67): the destination reserves and zeroes the domain and is INCOMING, or refuses. The request is for
a domain, so that its channel must hold it (R29). -/
def execMigrateRequestReceived (m : MigReq) (s : State) : Out :=
  let bytes := 65536 + 65536 * ((12288 * m.pages + 65535) / 65536) + 65536 * m.pages
  let (n, b) := s.requestStatus m bytes
  if !s.admitsTo ⟨m.src, m.gen⟩ m.dom then .next (s.sendBack m.src (.reject m.src 0 false))
  else if n ≠ 0 then .next (s.leagueSend m.src "answer" m.rank (BitVec.ofNat 64 n))
  else
    let slot := s.freeSlot m.rank m.dom.toNat
    let (cs, s) := s.allot m.rank m.dom.toNat m.csMib
    let s := s.modRank m.rank fun _ => { Rank.reset with
      st := .incoming, dom := m.dom, job := m.job, shapeX := m.shapeX, shapeY := m.shapeY, csMib := m.csMib, prot := m.prot
      slot := slot, csBase := cs, base := b, bytes := bytes, dist := m.dslice ++ m.dcc
      league := some { League.new .request .nobody s.time.toNat with node := m.src, chan := m.chan, dom := m.dom } }
    .next ((s.blankCs (s.rank m.rank)).leagueSend m.src "answer" m.rank 0)

/-- A destination gives its copy up (R68, R62): its reserved domain is zeroed, and the rank is ABSENT here. -/
def State.giveUp (s : State) (rank : Nat) : State :=
  if (s.rank rank).st = .incoming then
    { ((s.vacateDomain rank).vacateRun rank []).dropRank rank with
      fab := { s.fab with arrived := Store.set none s.fab.arrived rank none } }
  else s

/-- The source's abort arrives (R68). -/
def execMigrationAbortReceived (m : RankMsg) (s : State) : Out :=
  s.admitting m.src fun _ =>
    if (s.rank m.rank).st ≠ .incoming then .next s
    else s.unheld (s.vacateLines m.rank) (.migrationAbortReceived m) fun s => .next (s.giveUp m.rank)

/-- What gives a copy up, once the host has given up the lines it holds of it (R41): until then it is tried again. -/
def State.givingUp (s : State) (rank : Nat) (k : State → State) : State :=
  if (s.heldLines (s.vacateLines rank)).isEmpty then k (s.giveUp rank) else s.snoop (s.vacateLines rank) []

/-- No League traffic from the source for FAB_TIMEOUT (R68). -/
def State.incomingTimeout (s : State) (rank : Nat) : State :=
  match (s.rank rank).st, (s.rank rank).league with
  | .incoming, some l => if s.timedOut l.kept then s.givingUp rank id else s
  | _, _ => s

def execIncomingTimeout (rank : Nat) (s : State) : Out := .next (s.incomingTimeout rank)

/-- The bytes that what a migration brings takes: its tables and its pages. -/
def Moved.bytes (m : Moved) : Nat := tableBytes (m.rank.pages.map (·.va)) + 65536 * (pageAddrs m.rank.pages).length

/-- A destination whose copy is complete answers, once (R68 step 4); where more has been mapped at the source than it has reserved and
no run holds it, it refuses. -/
def State.inPlace (s : State) (rank : Nat) : State :=
  let r := s.rank rank
  match r.league, Store.get none s.fab.arrived rank with
  | some l, some m =>
    if l.step ≠ .request then s
    else
      let ready (s : State) : State := (s.modLeague rank fun l => { l with step := .transfer }).leagueSend l.node "in place" rank 0
      if m.bytes ≤ r.bytes then ready s
      else match s.hbmRun (s.secureCluster r.dom.toNat) m.bytes with
        | some b => ready (s.modRank rank fun r => { r with base := b, bytes := m.bytes })
        | none => s.givingUp rank fun s => s.leagueSend l.node "answer" rank 7
  | _, _ => s

/-- The holds that can be answered: no transfer toward the rank is outstanding (R68 step 2). -/
def State.answerHolds (s : State) : State :=
  let done := s.fab.holds.filter fun h => !(s.fab.xfers.any fun x => x.dest = h.1)
  let s := { s with fab := { s.fab with holds := s.fab.holds.filter fun h => s.fab.xfers.any fun x => x.dest = h.1 } }
  done.foldl (fun s h => s.leagueSend h.2 "ready" h.1 0) s

/-- A hold arrives (R68 step 2): the entry is held; BUSY at once, or ready when every transfer toward the rank has ended. -/
def execMapHoldReceived (rank : Nat) (src : MsgSrc) (s : State) : Out :=
  s.admitting src fun _ => s.unheld (linesOf (s.mapLoc rank) 8) (.mapHoldReceived rank src) fun s =>
    let busy := s.colls.any fun c => c.owes rank
    let e := s.mapEntry rank
    let s := { s with fab := { s.fab with before := Store.set none s.fab.before rank (some e) } }.setMapEntry rank (held e)
    if busy then .next (s.leagueSend src.node "busy" rank 0)
    else .next ({ s with fab := { s.fab with holds := s.fab.holds ++ [(rank, src.node)] } }.answerHolds)

/-- What a migration brings is put in place at its destination (R66, R68). -/
def State.bringIn (s : State) (rank : Nat) (m : Moved) : State :=
  let r := s.rank rank
  let tabs := tableBytes (m.rank.pages.map (·.va))
  let new := repage m.rank.pages (r.base + tabs)
  let s := s.zero r.base r.bytes
  let s := (moves m.rank.pages new).foldl (fun s p =>
    let line (a : Nat) : Nat := a / 128
    { s.poke p.2.pa (Store.getRange 0 m.mem p.1.pa p.1.size) with
      ver := Store.setRange 0 s.ver (line p.2.pa) (Store.getRange 0 m.ver (line p.1.pa) (line p.1.size))
      poison := Store.setRange 0 s.poison (line p.2.pa) (Store.getRange 0 m.poison (line p.1.pa) (line p.1.size)) }) s
  let s := m.cs.zipIdx.foldl (fun s b =>
    let loc := csBaseLoc (r.place b.2) + r.csBase
    s.poke loc (b.1.take (mib r.csMib))) s
  let s := m.csPoison.zipIdx.foldl (fun s p =>
    let at_ := (csBaseLoc (r.place p.2) + r.csBase) / 128
    { s with poison := Store.setRange 0 s.poison at_ (Store.getRange 0 p.1 0 (mib r.csMib / 128)) }) s
  let per := mib r.csMib / 128
  let s := m.rank.savedFull.foldl (fun s o =>
    { s with full := Store.set false s.full ((csBaseLoc (r.place (o / per)) + r.csBase) / 128 + o % per) true }) s
  let s := s.modRank rank fun r => { (m.rank.relocate (movePage m.rank.pages new)) with
    st := .hot, last := 0, dom := r.dom, slot := r.slot, csBase := r.csBase, shapeX := r.shapeX, shapeY := r.shapeY
    csMib := r.csMib, prot := r.prot, job := r.job, dist := r.dist, league := none, image := 0
    savedCores := [], savedFull := [], ends := [] }
  let s := s.fullBuckets rank
  let s := (s.settleRun rank r.base r.bytes new).putCores rank m.rank.savedCores
  { (s.putStrands rank).completeStep rank with fab := { s.fab with arrived := Store.set none s.fab.arrived rank none } }

/-- The entry that a chip writes on receipt of another's (R62, R68): CHAN names a channel of its own, so it stays unchanged, but where
the rank is absent, and at the destination, where STATE is local and CHAN is ignored: there it is 0 (R30, R382). -/
def keepChan (old new : DWord) : DWord :=
  match entState new with
  | 0 => new
  | 1 => new &&& ~~~0xFF00
  | _ => (new &&& ~~~0xFF00) ||| (old &&& 0xFF00)

/-- The previous value of an entry that a hold has replaced is written back (R68 step 2). -/
def State.restoreEntry (s : State) (rank : Nat) : State :=
  match Store.get none s.fab.before rank with
  | none => s
  | some e =>
    let fab := { s.fab with
      before := Store.set none s.fab.before rank none
      holds := s.fab.holds.filter fun h => h.1 ≠ rank }
    { s with fab }.setMapEntry rank e

/-! ## The end of a rank (R61, R62) -/

/-- The strands of queued launches that were never granted end with the rank (R98). -/
def State.dropQueue (s : State) (rank : Nat) : State :=
  (s.rank rank).queue.foldl (fun s l =>
    let left := l.cx * l.cy * l.cz - (l.granted.map (·.2)).sum
    let s := s.modRank rank fun r => { r with
      queue := r.queue.filter fun x => x.id ≠ l.id
      lives := r.lives.map fun x => if x.id = l.id then { x with left := x.left - left + 1, failed := true } else x }
    s.launchLeft rank l.id true []) s

/-- The accesses of its exited strands that still wait are cancelled with a rank (R133). -/
def State.dropOrphans (s : State) (rank : Nat) : State :=
  let ids := s.orphans rank
  ids.foldl State.unpark (s.cancel ids)

/-- The rank enters ENDING (R61): engine operations end failed; each strand stops at its next pre-emption point. -/
def State.enterEnding (s : State) (rank : Nat) (w : EndOp) : State :=
  let s := s.signal w.co 1 0 false
  let s := s.modRank rank fun r => { r with st := .ending, league := none, ends := r.ends ++ [w] }
  let s := ((s.dropQueue rank).dropOrphans rank).stopEngines rank
  if (s.strands rank).isEmpty then s.due (.rankEndComplete rank) else s

/-- The destination of a migration takes the rank up with what has been brought (R68 step 5); an END_RANK that the source has
forwarded meanwhile ends it there (R62). -/
def State.resume (s : State) (rank : Nat) : State :=
  let ends := (s.rank rank).ends
  match Store.get none s.fab.arrived rank with
  | none => s
  | some m =>
    let s := s.bringIn rank m
    if ends.isEmpty then s else s.enterEnding rank .nobody

/-- A map entry arrives (R68): a held one is restored; or the new one is written and acknowledged, and at the destination, where
STATE is local, the rank binds and resumes with what has been brought. -/
def execMapEntryReceived (rank : Nat) (entry : DWord) (src : MsgSrc) (restore : Bool) (s : State) : Out :=
  let r := s.rank rank
  let comes := !restore && r.st = .incoming && entState entry = 1
  s.admitting src fun _ => s.unheld (linesOf (s.mapLoc rank) 8 ++ if comes then s.heldIn r.base r.bytes else [])
    (.mapEntryReceived rank entry src restore) fun s =>
    if restore then .next (s.restoreEntry rank)
    else
      let s := { s with fab := { s.fab with before := Store.set none s.fab.before rank none } }.setMapEntry rank
        (keepChan (s.mapEntry rank) entry)
      let s := if comes then s.resume rank else s
      .next (s.leagueSend src.node "ack" rank entry)

/-- END_RANK (R61, R62). -/
def State.endRank (s : State) (rank : Nat) (w : EndOp) : State :=
  let r := s.rank rank
  let who := (r.league.map League.who).getD .nobody
  match r.st with
  | .absent => s.leagueRefuse rank 8 0 w
  | .hot =>
    -- a migration that the destination has not answered yet is given up too
    match r.league with
    | some l => ((s.leagueSend l.node "abort" rank 0).leagueRefuse rank 8 0 who).enterEnding rank w
    | none => s.enterEnding rank w
  | .ending => (s.signal w.co 1 0 false).modRank rank fun r => { r with ends := r.ends ++ [w] }
  | .loading | .cold => (if r.league.isSome then s.leagueDone rank 8 0 who else s).enterEnding rank w
  | .parking =>
    if (r.league.map (·.step)) = some .commit then (s.leagueDone rank 8 0 who).enterEnding rank w
    else ((s.leagueUndo rank).leagueDone rank 8 0 who).enterEnding rank w
  | .recalling =>
    let s := match r.league with
      | some l => if l.run.2 = 0 then s else s.zero l.run.1 l.run.2
      | none => s
    (s.leagueDone rank 8 0 who).enterEnding rank w
  | .outgoing =>
    match r.league with
    | some l =>
      if l.step = .commit then
        -- the commit goes on; the record that began it ends now (R62)
        let s := s.leagueDone rank 8 0 l.who
        ((s.signal w.co 1 0 false).leagueSend l.node "end" rank 0).modRank rank fun r =>
          { r with ends := r.ends ++ [w], league := r.league.map fun l => { l with rcd := none, co := none, rblk := none, coVa := 0 } }
      else ((s.leagueUndo rank).leagueDone rank 8 0 who).enterEnding rank w
    | none => s.enterEnding rank w
  | .incoming =>
    let src := (r.league.map (·.node)).getD 0
    ((s.giveUp rank).leagueSend src "answer" rank 8).leagueRefuse rank 8 0 w

/-- The lines that an END_RANK writes at once, where the host holds them (R41, R62): those of a copy that is given up, and of the run
that a recall has moved to. -/
def State.endLines (s : State) (rank : Nat) : List Nat :=
  match (s.rank rank).st, (s.rank rank).league with
  | .incoming, _ => s.vacateLines rank
  | .recalling, some l => s.heldIn l.run.1 l.run.2
  | _, _ => []

/-- END_RANK as a record (R45), or as the source of a migration has forwarded it: the rank ends here, at once, or as soon as its entry
has come (R62); or `migr.end` past its own checks (R370). -/
def execEndRank (r : CmdRec) (s : State) : Out :=
  let t := r.table.toNat
  let rank := r.rank.toNat
  if r.fwd then
    match (s.rank rank).st with
    | .absent => .next s
    | .incoming => .next (s.modRank rank fun r => { r with ends := r.ends ++ [.nobody] })
    | _ => s.unheld (s.endLines rank) (.endRank r) fun s => .next (s.endRank rank .nobody)
  else if r.mig.isNone && s.recWorld t rank [] 0 0 then .next (s.recDone t 3 0)
  else s.unheld (s.endLines rank) (.endRank r) fun s => .next (s.endRank rank (whoOf r))

/-- Has an ENDING rank no strand any more, and nothing that has still to signal (R61)? -/
def State.ended (s : State) (rank : Nat) : Bool :=
  (s.rank rank).st = .ending && (s.strands rank).isEmpty && (s.eventsOf rank).isEmpty

/-- The last strand and operation of an ENDING rank have ended (R61, R62): what it held is zeroed, its entry is absent, here and on
every chip that a remote or held entry names, and the rank is ABSENT. -/
def execRankEndComplete (rank : Nat) (s : State) : Out :=
  let r := s.rank rank
  if !s.ended rank then .next s
  else s.unheld (s.vacateLines rank) (.rankEndComplete rank) fun s =>
    let pages := s.mapped rank
    let s := if r.ptRoot = 0 then s else s.vacateDomain rank
    let s := s.vacateRun rank pages
    let e := s.mapEntry rank
    let e := mkEntry 0 (entDomain e) (entChan e) (entChip e) (entEpoch e + 1)
    let chips := s.chipsOf rank [2, 3]
    let s := chips.foldl (fun s n => s.leagueSend n "entry" rank e) (s.setMapEntry rank e)
    let s := s.dropRank rank
    .next (r.ends.foldl (fun s w => s.report w 0 0) s)

/-- Does a strand's next bundle pop a queue whose oldest entry is a load that waits on a full/empty bit (R133)? -/
def State.popWaits (s : State) (c : Ctx) : Bool :=
  (s.nextPops c).any fun q => match c.queue q with
    | e :: _ => e.ripe && e.ref ≠ 0 && s.feq.contains e.ref
    | [] => false

/-- The strands of an ENDING rank that stand at a pre-emption point, or are frozen at the pop of a load that waits on a full/empty bit
(R133), end (R61). -/
def State.endStrands (s : State) (rank : Nat) : State :=
  (s.strands rank).foldl (fun s e => if s.atPoint e.2 || s.popWaits e.2 then s.endStrand e.1 true else s) s

/-! ## Channels and worlds named by records (R45, R48, R50) -/

/-- CHAN_STAT[15:0] of a channel (R26): LAST_ERR and STATE. -/
def State.chanStat16 (s : State) (ch : BitVec 8) : Nat :=
  let c := s.chan ch
  256 * c.lastErr.toNat + match c.st with
    | .closed => 0
    | .opening => 1
    | .opened => 2
    | .fencing => 3
    | .fenced => 4

/-- A write of CHAN_CMD (R27): 1 OPEN, 2 FENCE, 3 UNMAP; 0 does nothing, and any other code is BAD_CMD. -/
def State.chanCmd (s : State) (cmd : Nat) (secure : Bool) : Out :=
  match cmd with
  | 0 => .next s
  | 1 => execChanCmdOpen secure s
  | 2 => execChanCmdFence s
  | 3 => execChanCmdUnmap s
  | _ => .next (s.setChan s.fab.chanSel { s.chan s.fab.chanSel with lastErr := 2 })

/-- SET_CHANNEL (R45). -/
def execSetChannel (r : CmdRec) (s : State) : Out :=
  let t := r.table.toNat
  let ch := r.a0.setWidth 8
  let sec := (s.cmdt t).secure
  let c := s.chan ch
  if decide (255 < r.a0.toNat) || decide (7 < r.a2.toNat) then .next (s.recDone t 2 0)
  else if !sec && (s.secureChan c.cports c.domains
      || (c.st = .closed && s.secureChan (r.a1.extractLsb' 36 16) (r.a1.extractLsb' 12 24))) then .next (s.recDone t 3 0)
  else
    let s := { s with fab := { s.fab with chanSel := ch } }
    let s := if c.st = .closed then match execChanCfgWrite r.a1 s with
        | .next s => s
        | _ => s
      else s
    match s.chanCmd r.a2.toNat sec with
    | .next s => .next (s.recDone t 0 (s.chanStat16 ch))
    | o => o

/-! ## `migr` (R370) -/

/-- Has the League engine an operation of a rank on hand, so that it has no room for another (R353)? -/
def State.leagueFull (s : State) (rank : Nat) : Bool := (s.rank rank).league.isSome

/-- A `migr` command behind its checks: level, fields, residues, WORLD, ALIGN, and its completion object; with no room in the engine,
which holds one operation for each rank, it is frozen, `.end` apart, which abandons that operation (R62, R353; log 71). The engine
checks the result block (R353). What the command starts comes after the accesses of its strand that wait (R200). -/
def State.migr (s : State) (p q co : BitVec 6) (fields : DWord) (dom chan room : Bool) (ev : CmdRec → Instr) : Out :=
  let b := s.rd.rs q
  let rank := (b.extractLsb' 48 16).toNat
  let va := s.rd.rs p
  s.checked [p, q, co] fun s =>
  if !s.rd.sv then s.priv 0x20
  else if b &&& ~~~fields ≠ 0 then s.illegal
  else
    let r := s.rank rank
    let k0 := (b.extractLsb' 0 5).toNat
    let ch := s.chan (b.extractLsb' 16 8)
    if !s.secure && r.st ≠ .absent && s.secureCluster r.dom.toNat then s.worldTrap 7 rank
    else if !s.secure && dom && (domClusters k0 r.shapeX r.shapeY).any s.secureCluster then s.worldTrap 10 k0
    else if !s.secure && chan && s.secureChan ch.cports ch.domains then s.worldTrap 6 (b.extractLsb' 16 8).toNat
    else s.aligned 16 va fun _ =>
      let coVa : DWord := if co = 0 then 0 else s.rd.rs co
      s.command co fun s co =>
        if room && s.leagueFull rank then s.stalled .freeze
        else match s.check s.c va 0 16 .write false with
          | .error _ => .next (s.signalAfter co 1 1 true)
          | .ok loc =>
            let r : CmdRec := ⟨0, false, BitVec.ofNat 32 rank, 0, (b.extractLsb' 32 12).setWidth 64, (b.extractLsb' 16 8).setWidth 64,
              (b.extractLsb' 0 5).setWidth 64, 0, 0, some (⟨none, co, some loc, coVa⟩, s.secure)⟩
            .next ((s.touch s.c va).dueAfter (ev r))

/-- `migr.move` (R370). -/
def execMigrMove (p q co : BitVec 6) (s : State) : Out := s.migr p q co 0xFFFF0FFF00FF001F false true true .migrateRank

/-- `migr.park` (R370). -/
def execMigrPark (p q co : BitVec 6) (s : State) : Out := s.migr p q co 0xFFFF000000000000 false false true .parkRank

/-- `migr.recall` (R370). -/
def execMigrRecall (p q co : BitVec 6) (s : State) : Out := s.migr p q co 0xFFFF00000000001F true false true .recallRank

/-- `migr.end` (R370). -/
def execMigrEnd (p q co : BitVec 6) (s : State) : Out := s.migr p q co 0xFFFF000000000000 false false false .endRank

/-! ## What passes of itself -/

/-- The League's own timers and the points where its operations go on (R61, R64, R68). -/
def State.leagueTick (s : State) : State :=
  let s := s.answerHolds
  (s.ranks.map (·.1)).foldl (fun s rank =>
    let r := s.rank rank
    if r.st = .ending then
      let s := s.endStrands rank
      let again := s.ended rank && !s.agenda.contains (.rankEndComplete rank)
        && !(s.host.biWait.any fun w => w.2.contains (.rankEndComplete rank))
      if again then s.due (.rankEndComplete rank) else s
    else if r.st = .incoming then (s.inPlace rank).incomingTimeout rank
    else match r.league with
      | none => s
      | some l =>
        let s := (s.precopyRoundEnd rank).leagueTry rank
        let s := s.mapHoldTimeout rank
        let s := l.waiting.foldl (fun s n => s.mapAckTimeout rank n) s
        let s := if l.step = .commit && l.waiting.isEmpty then s.commitDone rank else s
        let quarter := max 1 (s.fab.timeout.toNat / 4)
        if r.st = .outgoing && decide (l.kept + quarter ≤ s.time.toNat) then s.leagueKeepalive rank else s) s

end Sys2Proof.Machine
end

