-- ==== Sys2Proof/Machine/Shake.lean ====
section
/-!
DEFINITION. Shake.lean: SHAKE256 with 64 bytes of output, by which R53 forms REGION_DIGEST. The spec names the function (R52) and does
not write it out: it is that of FIPS 202, on which the name rests (PRESUMED, log 83).
-/
namespace Sys2Proof.Machine

/-- The round constants of Keccak-f[1600]. -/
def keccakRounds : List (BitVec 64) := [
  0x0000000000000001, 0x0000000000008082, 0x800000000000808A, 0x8000000080008000, 0x000000000000808B, 0x0000000080000001,
  0x8000000080008081, 0x8000000000008009, 0x000000000000008A, 0x0000000000000088, 0x0000000080008009, 0x000000008000000A,
  0x000000008000808B, 0x800000000000008B, 0x8000000000008089, 0x8000000000008003, 0x8000000000008002, 0x8000000000000080,
  0x000000000000800A, 0x800000008000000A, 0x8000000080008081, 0x8000000000008080, 0x0000000080000001, 0x8000000080008008]

/-- The rotation of lane x + 5y. -/
def keccakTurns : List Nat :=
  [0, 1, 62, 28, 27, 36, 44, 6, 55, 20, 3, 10, 43, 25, 39, 41, 45, 15, 21, 8, 18, 2, 61, 56, 14]

/-- One round on the 25 lanes, lane x + 5y at that place. -/
def keccakRound (a : List (BitVec 64)) (rc : BitVec 64) : List (BitVec 64) :=
  let col := (List.range 5).map fun x => (List.range 5).foldl (fun c y => c ^^^ a.getD (x + 5 * y) 0) 0
  let a := a.zipIdx.map fun l => l.1 ^^^ col.getD ((l.2 + 4) % 5) 0 ^^^ (col.getD ((l.2 + 1) % 5) 0).rotateLeft 1
  -- lane (x, y) of the turned array goes to (y, 2x + 3y): the lane at (u, v) comes from x = u + 3v, y = u
  let b := (List.range 25).map fun i =>
    let k := (i % 5 + 3 * (i / 5)) % 5 + 5 * (i % 5)
    (a.getD k 0).rotateLeft (keccakTurns.getD k 0)
  let c := (List.range 25).map fun i =>
    let row := 5 * (i / 5)
    b.getD i 0 ^^^ (~~~(b.getD (row + (i + 1) % 5) 0) &&& b.getD (row + (i + 2) % 5) 0)
  match c with
  | x :: rest => (x ^^^ rc) :: rest
  | [] => []

def keccak (a : List (BitVec 64)) : List (BitVec 64) := keccakRounds.foldl keccakRound a

/-- A message padded to a multiple of 136 bytes. -/
def shakePad (m : List Byte) : List Byte :=
  let k := 136 - m.length % 136
  m ++ if k = 1 then [0x9F] else 0x1F :: List.replicate (k - 2) 0 ++ [0x80]

/-- The lanes of a block of bytes, least significant byte first. -/
def lanesOfBytes (bs : List Byte) (n : Nat) : List (BitVec 64) :=
  (List.range n).map fun i => ((bs.drop (8 * i)).take 8).reverse.foldl (fun x b => x <<< 8 ||| b.setWidth 64) 0

/-- The blocks of a padded message absorbed; `fuel` counts them. -/
def shakeAbsorb : Nat → List (BitVec 64) → List Byte → List (BitVec 64)
  | 0, a, _ => a
  | fuel + 1, a, bs =>
    let ls := lanesOfBytes (bs.take 136) 17
    shakeAbsorb fuel (keccak (a.zipIdx.map fun l => l.1 ^^^ ls.getD l.2 0)) (bs.drop 136)

/-- SHAKE256 of a message, 64 bytes. -/
def shake256 (m : List Byte) : List Byte :=
  let bs := shakePad m
  (shakeAbsorb (bs.length / 136) (List.replicate 25 0) bs).take 8 |>.flatMap fun w =>
    (List.range 8).map fun i => w.extractLsb' (8 * i) 8

end Sys2Proof.Machine
end

