-- ==== Sys2Proof/Machine/HostLink.lean ====
section
/-!
DEFINITION. HostLink.lean: the events of 03: CXL.io, CXL.mem and CXL.cache (R39 to R41), command tables and their server (R42 to
R47), worlds (R48 to R51) and SPDM (R52, R53), and the access of a home slice (R77).
-/
namespace Sys2Proof.Machine

/-! ## Worlds (R48 to R51) -/

/-- Blocks of a class (R48). -/
def blocksOf (cls : Nat) : Nat := ([24, 16, 192, 16, 16] : List Nat).getD cls 0

/-- Is a block secure? -/
def State.blockSecure (s : State) (cls i : Nat) : Bool :=
  match cls with
  | 0 => s.world.clusters.getLsbD i
  | 1 => s.world.decoders.getLsbD i
  | 2 => Store.get false s.world.copies i
  | 3 => s.world.leagues.getLsbD i
  | _ => s.world.wports.getLsbD i

def putBit {n : Nat} (x : BitVec n) (i : Nat) (v : Bool) : BitVec n :=
  if v then x ||| BitVec.twoPow n i else x &&& ~~~(BitVec.twoPow n i)

def State.setBlock (s : State) (cls i : Nat) (v : Bool) : State :=
  let w := s.world
  { s with world := match cls with
      | 0 => { w with clusters := putBit w.clusters i v }
      | 1 => { w with decoders := putBit w.decoders i v }
      | 2 => { w with copies := Store.set false w.copies i v }
      | 3 => { w with leagues := putBit w.leagues i v }
      | _ => { w with wports := putBit w.wports i v } }

/-- Is a block running a strand or an operation (R48)? What counts as an operation of a League channel or of a Soard port the spec does
not say. The model takes a port as busy while a channel end that names it is not CLOSED, and League channel i as busy while a rank
moves out or in over fabric channel i modulo 16 (DESIGN CHOICE, log 64). -/
def State.blockBusy (s : State) (cls i : Nat) : Bool :=
  match cls with
  | 0 => (s.c.live && s.c.cluster = i) || s.ctxs.any fun e => e.2.live && e.2.cluster = i
  | 1 => !(s.decQ (BitVec.ofNat 4 i)).isEmpty
  | 2 => s.copies.any fun c => c.core = i
  | 3 => s.ranks.any fun e => (e.2.st = .outgoing || e.2.st = .incoming) && match e.2.league with
      | some l => l.chan.toNat % 16 = i
      | none => false
  | _ => s.fab.chans.any fun e => e.2.st ≠ .closed && e.2.cports.getLsbD i

/-- A block takes a world and is zeroed (R48, R51); the answer says whether it was busy, and then nothing changes. -/
def State.setBlockWorld (s : State) (cls i : Nat) (v : Bool) : Bool × State :=
  if s.blockBusy cls i then (true, s)
  else
    let s := s.setBlock cls i v
    (false, if cls = 0 then s.dueNow (.bufferZeroingEnd (.csLines i 0 131071)) else s)

/-- Is a region within the backed ranges (R50)? -/
def State.regionBacked (s : State) (i : Nat) : Bool := decide (i < 262144 + 512 * s.tierGiB)

/-- The first byte of a region (R50). -/
def regionBase (i : Nat) : Nat := if i < 262144 then 2 ^ 21 * i else 0x10000000000 + 2 ^ 21 * (i - 262144)

/-- A region takes a world (R50): its bit in the bitmap is written as one write event, and a region that changes world is zeroed. -/
def State.setRegionWorld (s : State) (i : Nat) (v : Bool) : State :=
  let b := s.world.mapBase.toNat / 65536 * 65536
  let was := (s.byte (b + i / 8)).getLsbD (i % 8)
  let s := s.writeNow (b + i / 8) [putBit (s.byte (b + i / 8)) (i % 8) v]
  if was = v then s else s.dueNow (.bufferZeroingEnd (.region (regionBase i) (regionBase i + 2 ^ 21)))

/-- The lines that a change of a region's world writes: its bit's, and the region's own, for its zeroing (R50, R51). -/
def State.regionLines (s : State) (i : Nat) : List Nat :=
  lineOf (s.world.mapBase.toNat / 65536 * 65536 + i / 8) :: s.heldIn (regionBase i) (2 ^ 21)

/-- A write of WORLD_BLK by the secure supervisor (R48). The spec does not say what a write does whose CLASS and INDEX name no block:
the model keeps CLASS and INDEX, changes no world, and leaves CTX_STATUS (DESIGN CHOICE, log 64). -/
def execWorldBlkWrite (val : DWord) (s : State) : Out :=
  let cls := (val.extractLsb' 56 8).toNat
  let i := (val.extractLsb' 48 8).toNat
  let s := { s with world := { s.world with blk := val &&& 0xFFFF000000000000 } }
  if blocksOf cls ≤ i then .next s
  else
    let (busy, s) := s.setBlockWorld cls i (val.getLsbD 0)
    .next (s.modSeq s.c.seq fun q => { q with status := if busy then 1 else 0 })

/-- A write of WORLD_REGION by the secure supervisor (R50): the change applies from the next cycle on. -/
def execWorldRegionWrite (val : DWord) (s : State) : Out :=
  let i := (val.extractLsb' 0 21).toNat
  if val.extractLsb' 21 42 ≠ 0 || s.world.mapBase = 0 || !s.regionBacked i then s.illegal
  else if !(s.heldLines (s.regionLines i)).isEmpty then .next { s.snoop (s.regionLines i) [] with stall := some .freeze }
  else .next ({ s with world := { s.world with changes := s.world.changes ++ [(i, val.getLsbD 63)] } }.modSeq s.c.seq fun q =>
    { q with status := 0 })

/-- The changes of worlds that the cycle before has asked for apply (R50). -/
def State.regionsDue (s : State) : State :=
  s.world.changes.foldl (fun s x => s.setRegionWorld x.1 x.2) { s with world := { s.world with changes := [] } }

/-- A write of WORLD_MAP_BASE by the secure supervisor (R50): the checks of R49 read the bitmap where it then stands. -/
def execWorldMapBaseWrite (val : DWord) (s : State) : Out :=
  .next { s with world := { s.world with mapBase := val.extractLsb' 16 36 ++ (0 : BitVec 16) } }

/-- SET_WORLD (R45, R48, R50). The spec gives no STATUS for a block index beyond its class, for a region that is not backed, for BASE 0,
or for a world above 1: they are BAD_ARG (DESIGN CHOICE, log 31). -/
def execSetWorld (r : CmdRec) (s : State) : Out :=
  let t := r.table.toNat
  let cls := r.a0.toNat
  let i := r.a1.toNat
  let v := r.a2 = 1
  if !(s.cmdt t).secure then .next (s.recDone t 3 0)
  else if decide (5 < cls) || decide (1 < r.a2.toNat) then .next (s.recDone t 2 0)
  else if cls = 5 then
    if s.world.mapBase = 0 || decide (2 ^ 21 ≤ i) || !s.regionBacked i then .next (s.recDone t 2 0)
    else s.unheld (s.regionLines i) (.setWorld r) fun s => .next ((s.setRegionWorld i v).recDone t 0 0)
  else if blocksOf cls ≤ i then .next (s.recDone t 2 0)
  else
    let (busy, s) := s.setBlockWorld cls i v
    .next (s.recDone t (if busy then 4 else 0) 0)

/-- The zeroing of a buffer for its new owner ends (R51). -/
def execBufferZeroingEnd (b : ZBuf) (s : State) : Out :=
  match b with
  | .window key => .next (s.modCtx key fun c => { c with
      v := [], bad := c.bad.filter fun e => e.1 < 128, tw := c.tw.filter fun e => e.1 < 128 })
  | .bank core slot k =>
    match s.ranks.find? fun e => e.2.placed && e.2.slot = slot && e.2.domain.contains (core / 8) with
    | some (rank, _) => .next (s.setEngine core rank ((s.engine core rank).zeroBanks (BitVec.twoPow 8 k.toNat)))
    | none => .next s
  | .csLines cluster lo hi =>
    let hi := min hi 131071
    .next (if hi < lo then s else s.blank (csBaseLoc cluster + 128 * lo) (128 * (hi + 1 - lo)))
  | .region lo hi => s.unheld (s.heldIn lo (hi - lo)) (.bufferZeroingEnd b) fun s =>
      .next (if isDev hi && decide (lo < hi) then s.zero lo (hi - lo) else s)

/-! ## Command tables (R42 to R47) -/

/-- Execute of R46: the effect of the record at a location; a record that goes on sets its STATUS later. -/
def State.executeRecord (s : State) (t loc : Nat) : State :=
  let r := s.cmdRecord t loc
  let run (o : Out) : State := match o with
    | .next s => s
    | _ => s
  match s.num (loc + 4) 2 with
  | 1 => s.loadRank r
  | 2 => run (execStartRank r s)
  | 3 => run (execParkRank r s)
  | 4 => run (execRecallRank r s)
  | 5 => run (execMigrateRank r s)
  | 6 => run (execEndRank r s)
  | 7 => run (execSetChannel r s)
  | 8 => run (execSetWorld r s)
  | _ => s.recDone t 1 0

/-- One turn of the loop of R46: the header line is read and checked, or the next record executed, or a line waited on. -/
def State.serve (s : State) (t : Nat) : State :=
  let c := s.cmdt t
  let a := c.addr
  let sleep (s : State) (l : Nat) (v : BitVec 48) : State := s.setCmdt t { s.cmdt t with waits := some (l, v) }
  match c.batch with
  | none =>
    let s := s.flush [lineOf a]
    let prod : Word := BitVec.ofNat 32 (s.num (a + 8) 4)
    let log2 := s.num (a + 6) 1
    if s.num a 4 ≠ 0x54434A56 then s.stopTable t 1
    else if s.num (a + 4) 2 ≠ 1 || decide (log2 < 4 ∨ 12 < log2) then s.stopTable t 2
    else if s.secureRegion a != c.secure then s.stopTable t 4
    else if 2 ^ log2 < (prod - c.cons).toNat then s.stopTable t 3
    else s.setCmdt t { c with batch := some (prod, s.version (lineOf a)), waits := none }
  | some (prod, ver) =>
    if c.cons = prod then sleep (s.setCmdt t { c with batch := none }) (lineOf a) ver
    else
      let loc := s.recordLoc c c.cons.toNat
      let s := s.flush [lineOf loc]
      if s.num loc 4 ≠ c.cons.toNat then sleep s (lineOf loc) (s.version (lineOf loc))
      else (s.setCmdt t { c with busy := true, rcd := loc, home := c.addr, waits := none }).executeRecord t loc

/-- Has a table something to do: it is serving, between records, and waits on no line that stands still? -/
def State.serveDue (s : State) (t : Nat) : Bool :=
  let c := s.cmdt t
  c.state = 1 && !c.busy && match c.waits with
    | some (l, v) => s.version l ≠ v
    | none => true

/-- EN is written from 0 to 1 (R46): the table starts afresh, after the record that is still being executed, if any. -/
def State.cmdtEnable (s : State) (t : Nat) : State :=
  let c := s.cmdt t
  if c.en then s
  else if c.busy then s.setCmdt t { c with en := true, again := true }
  else s.cmdtStart t

def execCmdtEnable (t : BitVec 2) (s : State) : Out := .next (s.cmdtEnable t.toNat)

/-- EN is written to 0 (R46): the record in execution is finished first, then STATE := idle; a stopped table keeps its STATE. -/
def State.cmdtDisable (s : State) (t : Nat) : State :=
  let c := s.cmdt t
  let s := s.setCmdt t { c with en := false }
  if c.state = 1 && !c.busy then s.writeState t 0 none else s

def execCmdtDisable (t : BitVec 2) (s : State) : Out := .next (s.cmdtDisable t.toNat)

/-! ## CXL.io (R39, R42, R18) -/

/-- BOOT_STAT (R19). -/
def State.bootStat (s : State) : Word :=
  BitVec.ofNat 32 (256 * s.pwr.pass.toNat + 16 * s.pwr.err.toNat + s.pwr.phase)

/-- A descriptor as it reads (R42). -/
def Cmdt.word (c : Cmdt) : DWord :=
  BitVec.ofNat 64 (4096 * c.base.toNat + (if c.secure then 4 else 0) + (if c.en then 1 else 0))

/-- A DVSEC register as it reads (R42). The spec gives no size of an access: the model's accesses are of 64 bits at a register's own
offset; a read at another offset reads zero, and a write there is dropped (DESIGN CHOICE, log 75). -/
def State.dvsec (s : State) (off : Nat) : DWord :=
  if off = 0x40 then s.bootStat.setWidth 64
  else if 0x48 ≤ off ∧ off < 0x68 ∧ off % 8 = 0 then (s.cmdt ((off - 0x48) / 8)).word
  else if off = 0x68 then s.host.cmdtErr.setWidth 64
  else 0

/-- Does an access count as secure: the IDE stream it arrives on has keys that were set in a session with the secure supervisor (R49)?
Stream 0 is the one of CXL.cachemem; 1 to 4 are the selective streams of CXL.io (R39). -/
def State.ideSecure (s : State) (io : Bool) (stream : Option (BitVec 3)) : Bool :=
  match stream with
  | some k => (if io then decide (1 ≤ k.toNat ∧ k.toNat ≤ 4) else k = 0) && Store.get false s.host.ide k.toNat
  | none => false

/-- A write of CMDT_t (R42): SECURE only from a secure IDE stream; while EN is 1 a write that changes BASE or SECURE is ignored. -/
def State.cmdtWrite (s : State) (t : Nat) (val : DWord) (secureStream : Bool) : State :=
  let c := s.cmdt t
  let base := val.extractLsb' 12 40
  let secure := if secureStream then val.getLsbD 2 else c.secure
  if c.en && (base ≠ c.base || secure != c.secure) then s
  else
    let s := s.setCmdt t { c with base, secure }
    if val.getLsbD 0 then s.cmdtEnable t else s.cmdtDisable t

/-- A CXL.io request (R39, R42): no answer without the link; BOOT_STAT alone in phase 0xF (R18); configuration requests get retry
status until phase 8 (R17). That what R18 does not accept in phase 0xF gets Unsupported Request is the model's choice (DESIGN CHOICE,
log 72). -/
def execCxlIoRequest (r : CxlIo) (s : State) : Out :=
  let ph := s.pwr.phase
  if !s.pwr.link then .next s
  else match r with
    | .other => .next (s.send .cxlUr)
    | .dvsecRead off =>
      if ph = 15 then .next (s.send (if off = 0x40 then .cxlCfg (s.dvsec 0x40) else .cxlUr))
      else if ph ≠ 8 then .next (s.send .cxlRetry)
      else .next (s.send (.cxlCfg (s.dvsec off.toNat)))
    | .dvsecWrite off val stream =>
      if ph = 15 then .next (s.send .cxlUr)
      else if ph ≠ 8 then .next (s.send .cxlRetry)
      else if 0x48 ≤ off.toNat ∧ off.toNat < 0x68 ∧ off.toNat % 8 = 0 then
        .next (s.cmdtWrite ((off.toNat - 0x48) / 8) val (s.ideSecure true stream))
      else .next s
    | .cfgRead off =>
      .next (s.send (if ph = 15 then .cxlUr else if ph ≠ 8 then .cxlRetry else .cxlCfg (Config.cfgSpace off)))
    | .cfgWrite .. => if ph = 15 then .next (s.send .cxlUr) else if ph ≠ 8 then .next (s.send .cxlRetry) else .next s

/-! ## CXL.mem and CXL.cache (R39 to R41, R49) -/

/-- Is n bytes at a device address within the two host-managed ranges? -/
def State.hdm (s : State) (pa n : Nat) : Bool :=
  decide (pa + n ≤ 2 ^ 39) || decide (0x10000000000 ≤ pa ∧ pa + n ≤ 0x10000000000 + 2 ^ 30 * s.tierGiB)

/-- A refused access is logged in the RAS capability (R49). -/
def State.rasLog (s : State) : State := { s with host := { s.host with rasUr := true } }

/-- A host read of 64 bytes of device memory (R40, R49): poisoned from a secure region, for a non-secure access. The host then holds
the line (R41, log 22). -/
def execCxlMemRead (pa : Nat) (stream : Option (BitVec 3)) (s : State) : Out :=
  let a := pa / 64 * 64
  let l := lineOf a
  if s.pwr.phase ≠ 8 || !s.hdm a 64 then .next (s.send .cxlError)
  else if !s.worldOk (s.ideSecure false stream) a false then .next (s.rasLog.send (.cxlData (List.replicate 64 0) true))
  else
    let s := (s.flush [l]).sliceUse l false
    let bad := (List.range 8).any fun g => s.marked (a + 8 * g)
    let s := s.send (.cxlData (s.bytes a 64) bad)
    .next { s with host := { s.host with held := Store.set false s.host.held l true } }

/-- A host write within 64 bytes of device memory is a write event (R40); dropped where the world check fails (R49, R50). A write
gives the line up (log 22). An atomic, or another option that R39 does not list, completes with an error. -/
def execCxlMemWrite (pa : Nat) (data : List Byte) (way : CxlWay) (s : State) : Out :=
  let n := data.length
  if s.pwr.phase ≠ 8 || !way.plain || n = 0 || 64 < pa % 64 + n || !s.hdm pa n then .next (s.send .cxlError)
  else if !s.worldOk (s.ideSecure false way.stream) pa true then .next s.rasLog
  else
    let s := { s with host := { s.host with held := Store.set false s.host.held (lineOf pa) false } }
    .next ((s.write pa data).sliceUse (lineOf pa) true)

/-- A host snoop of a host line that the shared cache holds (R39): served from it, and the line given up. A request over CXL.cache
that R39 does not list completes with an error. -/
def execHostSnoop (snoop : CxlSnoop) (s : State) : Out :=
  let line := snoop.line
  if !snoop.plain then .next (s.send .cxlError)
  else if !Store.get false s.host.cachedSet line then .next s
  else .next ((s.send (.writeBack line (s.bytes (128 * line) 128))).uncacheHost line)

/-- The host's response to a back-invalidate snoop (R41): it holds the line no more, and what waited goes on. -/
def execBackInvalidateResponse (line : Nat) (s : State) : Out :=
  match s.host.biWait.find? fun w => w.1 = line with
  | none => .next s
  | some w =>
    .next { s with
      host := { s.host with held := Store.set false s.host.held line false, biWait := s.host.biWait.filter fun x => x.1 ≠ line }
      agenda := w.2 ++ s.agenda }

/-- The host answers over CXL.cache (R39, R194): it has completed a write-back of one of its lines, for the last of which drains wait;
or it answers a read with the line's bytes as it has them, which the shared cache then holds. A line already held keeps what it
holds. -/
def execCxlCacheResponse (line : Nat) (data : List Byte) (s : State) : Out :=
  if s.host.wbOut.contains line then
    let out := s.host.wbOut.erase line
    let done (l : List Nat) : List Nat := if out.contains line then l else l.filter (· ≠ line)
    .next { s with host := { s.host with
      wbOut := out, wbWait := s.host.wbWait.map fun (e : Nat × Option (List Nat)) => (e.1, e.2.map done) } }
  else if !isHost (128 * line) || Store.get false s.host.cachedSet line then .next s
  else .next ((s.poke (128 * line) (data.take 128)).sliceUse line false)

/-- A request reaches its home slice (R76, R77): a read, which finds every reduction that arrived before it applied (R305), or a write
event. -/
def execSharedCacheAccess (a : Access) (s : State) : Out :=
  match a with
  | .read loc n => .next ((s.flush (linesOf loc n)).slicesUse (linesOf loc n) false)
  | .write loc data =>
    s.unheld (linesOf loc data.length) (.sharedCacheAccess a) fun s => .next (s.writeNow loc data)
  | .signal loc src land fail => .next (s.signal (some loc) src land fail)

/-! ## SPDM (R52, R53) -/

/-- The keys of an IDE stream are set in a session (R39): of the CXL.cachemem stream, number 0, or of a selective CXL.io stream, 1 to
4. It is secure when the session is one with the secure supervisor (R49). -/
def execIdeKmRequest (stream : BitVec 3) (secure : Bool) (s : State) : Out :=
  if !s.host.session || 4 < stream.toNat then .next (s.send (.spdmError false))
  else
    .next { s with host := { s.host with
      ide := Store.set false s.host.ide stream.toNat (secure && s.host.sessionSecure)
      idePresent := s.host.idePresent ||| BitVec.twoPow 8 stream.toNat } }

/-- An answer with what the spec gives of it; the rest of its bytes are free (log 8). The mailbox answers from phase 8 on (R17). -/
def State.spdm (s : State) (more : List Byte) : State :=
  if s.pwr.phase ≠ 8 then s
  else let (n, s) := s.drawFree; s.send (.spdm (Config.spdmBytes n ++ more))

/-- An SPDM error; UnsupportedRequest where R52 names it. -/
def State.spdmErr (s : State) (unsupported : Bool) : State := if s.pwr.phase ≠ 8 then s else s.send (.spdmError unsupported)

/-- GET_VERSION (R52). -/
def execGetVersion (s : State) : Out := .next (s.spdm [])
/-- GET_CAPABILITIES (R52). -/
def execGetCapabilities (s : State) : Out := .next (s.spdm [])

/-- NEGOTIATE_ALGORITHMS (R52): ML-DSA-65, SHAKE256 and ML-KEM-768, or UnsupportedRequest. -/
def execNegotiateAlgorithms (supported : Bool) (s : State) : Out :=
  if !supported then .next (s.spdmErr true)
  else .next { s.spdm [] with host := { s.host with negotiated := s.host.negotiated || s.pwr.phase = 8 } }

/-- GET_DIGESTS (R52): certificate slot 0 only. -/
def execGetDigests (slot : BitVec 8) (s : State) : Out :=
  .next (if slot = 0 then s.spdm Config.certificateDigest else s.spdmErr false)
/-- GET_CERTIFICATE (R52): slot 0 only. -/
def execGetCertificate (slot : BitVec 8) (s : State) : Out :=
  .next (if slot = 0 then s.spdm Config.certificate else s.spdmErr false)
/-- CHALLENGE (R52). -/
def execChallenge (slot : BitVec 8) (_nonce : BitVec 256) (s : State) : Out := .next (if slot = 0 then s.spdm [] else s.spdmErr false)

/-- Bit c of SEC_COPY: the copy unit of core c is secure (R53). -/
def State.secCopy (s : State) : List Byte :=
  (List.range 24).map fun i => (List.range 8).foldl (fun b j => if Store.get false s.world.copies (8 * i + j) then b ||| BitVec.twoPow 8 j else b) 0

/-- The device state record (R53), formed afresh. -/
def State.deviceRecord (s : State) (digest : List Byte) : List Byte :=
  [1, 0, s.pwr.form, s.pwr.hbmPass] ++ Decode.leBytes 4 s.bootStat.toNat ++ Decode.leBytes 4 s.pwr.pass.toNat
    ++ Decode.leBytes 4 s.tierGiB ++ Decode.leBytes 4 s.world.clusters.toNat ++ Decode.leBytes 2 s.world.decoders.toNat
    ++ Decode.leBytes 2 s.world.leagues.toNat ++ Decode.leBytes 2 s.world.wports.toNat ++ List.replicate 6 0 ++ s.secCopy
    ++ Decode.leBytes 8 s.time.toNat ++ (digest ++ List.replicate 64 0).take 64

/-- The world bitmap (R50); where BASE is 0 there is none. -/
def State.worldBitmap (s : State) : List Byte :=
  if s.world.mapBase = 0 then [] else s.bytes (s.world.mapBase.toNat / 65536 * 65536) 229376

/-- Measurement blocks 1 to 3, as they stand from one reset to the next (R52, R53). -/
def State.measurements (s : State) : List Byte :=
  (List.range' 1 3).flatMap fun i => Decode.leBytes 64 (Config.measurement s.host.boots i).toNat

/-- GET_MEASUREMENTS (R53): the digests of blocks 1 to 3, and block 4. -/
def execGetMeasurements (_nonce : BitVec 256) (s : State) : Out :=
  .next (s.spdm (s.measurements ++ s.deviceRecord (shake256 s.worldBitmap)))

/-- KEY_EXCHANGE (R52): once algorithms are negotiated; `secure`: with the secure supervisor. R52 gives no order of the requests: the
model refuses this one before NEGOTIATE_ALGORITHMS, and FINISH before this one, and no other (DESIGN CHOICE, log 76). -/
def execKeyExchange (secure : Bool) (_data : BitVec 256) (s : State) : Out :=
  if !s.host.negotiated then .next (s.spdmErr false)
  else .next { s.spdm [] with host := { s.host with keyed := true, session := false, sessionSecure := secure } }

/-- FINISH (R52): the session stands. -/
def execFinish (s : State) : Out :=
  if !s.host.keyed then .next (s.spdmErr false)
  else .next { s.spdm [] with host := { s.host with keyed := false, session := true } }

end Sys2Proof.Machine
end

