-- ==== Sys2Proof/Machine/System.lean ====
section
/-!
DEFINITION. System.lean: the system instructions of 20 (`trap`, `svc`, `halt`, `dbg`, `swapctx`, `ttload`), control registers with
`getc` and `putc` (R260, R289, R381), and the writes and events that act through them (R125, R138, R224, R225, R378).
-/
namespace Sys2Proof.Machine

/-! ## Software traps, halt, debug (R374, R377, R378) -/

/-- `trap` (R374): SOFTWARE after the bundle, at the strand's own level. -/
def execTrap (g : Guard) (imm : BitVec 16) (s : State) : Out :=
  s.guarded g fun s => .next (s.takeTrap ⟨0x20, 1, 0xFF, imm.setWidth 32, 0⟩ false)

/-- `svc` (R374): SOFTWARE at supervisor level after the bundle. -/
def execSvc (g : Guard) (imm : BitVec 16) (s : State) : Out :=
  s.guarded g fun s => .next (s.takeTrap ⟨0x20, 1, 0xFF, imm.setWidth 32, 0⟩ true)

/-- `halt` (R377): the strand stops after its bundle, whose M and K slots act as its others do. -/
def execHalt (g : Guard) (s : State) : Out :=
  s.guarded g fun s => if !s.rd.sv then s.priv 0x2A else .next ((s.runEngine 512).endStrand s.cur true)

/-- `dbg` (R378): with a debugger attached, and not on a secure cluster, issue stops after the bundle: a freeze of the sequencer, which
is no pre-emption point. -/
def execDbg (g : Guard) (_imm : BitVec 16) (s : State) : Out :=
  s.guarded g fun s =>
    if (s.seqOf s.c.seq).attached && !s.secure then
      .next ((s.modSeq s.c.seq fun q => { q with stopped := true }).modC fun c => { c with past := true })
    else .next s

/-- A debugger attaches to a sequencer, or leaves it (R378). -/
def execDebuggerAttach (seq : Nat) (on : Bool) (s : State) : Out := .next (s.modSeq seq fun q => { q with attached := on })

/-- The debugger resumes a sequencer that is stopped at `dbg` (R378). -/
def execDebuggerResume (seq : Nat) (s : State) : Out := .next (s.modSeq seq fun q => { q with stopped := false })

/-! ## `swapctx` (R376) -/

/-- OWNER of a context (R376). -/
def State.ownerWord (_s : State) (c : Ctx) : Nat :=
  2 ^ 16 * min 65535 c.rank + 2 ^ 8 * (c.lcore % 256) + 2 ^ 6 * (c.seq % 4) + (if c.sv then 32 else 0) + 1

/-- The context of an area whose header is valid and behind which stands no image that the chip has written: who it is by OWNER, its
registers free values (log 18). -/
def strayCtx (w n : Nat) : Ctx :=
  let free (k : Nat) : DWord := Config.strayImage n k
  { Ctx.reset with
    live := true
    seq := w / 64 % 4
    rank := if w / 2 ^ 16 = 65535 then 65536 else w / 2 ^ 16
    resident := w / 2 ^ 16 = 65535
    lcore := w / 2 ^ 8 % 256
    sv := decide (w / 32 % 2 = 1)
    pc := free 0 &&& ~~~3
    s := (List.range 63).foldl (fun m k => Store.set 0 m (k + 1) (free (k + 1))) []
    b := (free 64).setWidth 16 &&& ~~~1
    p := (List.range 15).foldl (fun m k => Store.set 0 m (k + 1) ((free (65 + k)).setWidth 16)) []
    v := (List.range 1024).foldl (fun m k => Store.set 0 m k ((free (128 + k)).setWidth 32)) [] }

/-- What the owning context holds of its core (R66, R334): the engine with the banks of its mask, and the ownership. -/
def State.coreOf (s : State) (c : Ctx) : Option CoreSave :=
  let m := s.mownOf c.core c.rank
  if (m.extractLsb' 0 2).toNat = c.seq % 4 then some ⟨c.lcore, (s.engine c.core c.rank).zeroBanks (~~~c.banks), m, []⟩ else none

/-- That is filled where the context now stands, on sequencer `seq` (R334, R376). -/
def State.fillCore (s : State) (x : Ctx) (seq : Nat) (saved : Option CoreSave) : State :=
  match saved with
  | none => s
  | some e =>
    let here := s.engine (seq / 4) x.rank
    let g := (List.range 8).foldl (fun (g : Engine) b =>
      if x.banks.getLsbD b then
        { g with
          acc := Store.graft g.acc e.engine.acc (4096 * b) (4096 * b) 4096
          cr := Store.graft g.cr e.engine.cr (64 * b) (64 * b) 64
          cc := Store.graft g.cc e.engine.cc (64 * b) (64 * b) 64
          ckv := (g.ckv &&& ~~~BitVec.twoPow 8 b) ||| (e.engine.ckv &&& BitVec.twoPow 8 b) }
      else g) { here with planes := e.engine.planes, active := e.engine.active, cfg := e.engine.cfg }
    (s.setEngine (seq / 4) x.rank g).setMown (seq / 4) x.rank (e.mown.extractLsb' 2 1 ++ BitVec.ofNat 2 (seq % 4) : BitVec 3)

/-- The exchange of the active context with an image (R376): the outgoing one, at the bundle after, takes a number in the area; the
digit units' cycle is its last (R106, R180). -/
def State.exchangeCtx (s : State) (loc n : Nat) (x : Ctx) (slot : Nat) : State :=
  let seq := s.c.seq
  let (c, kills) := s.c.lastCycle s.staged
  let out : Ctx := { c.settle false with pc := s.c.npc }
  let (m, s) := s.take
  let core := s.coreOf out
  let filled := Store.get none s.imageCores n
  let s := { s with
    images := Store.set Ctx.reset (Store.set Ctx.reset s.images n Ctx.reset) m out
    imageCores := Store.set none (Store.set none s.imageCores n none) m core }
  let s := s.writeNow loc (Decode.leBytes 4 (s.ownerWord out) ++ Decode.leBytes 4 262136 ++ Decode.leBytes 8 m)
  let s := s.setCtx s.cur { Ctx.reset with seq }
  let s := s.modSeq seq fun q => { q with
    active := some slot, lastSlot := slot, swapInAt := s.time.toNat, status := 0, chkills := q.chkills + BitVec.ofNat 64 kills }
  let s := { s with
    ctxs := Store.set Ctx.reset (Store.set Ctx.reset s.ctxs s.cur s.c) (8 * seq + slot) Ctx.reset
    c := { x.imageChecked with seq, npc := x.pc, mark := true, fresh := true, snap := none }
    cur := 8 * seq + slot
    staged := false
    jumped := true }
  s.fillCore x seq filled

/-- `swapctx` (R376). The checks come in the order of the rule's list, but that of the world before that of the domain, behind which it
could not be met (log 18). The exchange follows every access before it, as after a drain at chip scope. -/
def execSwapctx (g : Guard) (a : BitVec 6) (s : State) : Out :=
  s.guarded g fun s =>
    let va := s.rd.rs a
    s.checked [a] fun s =>
    if !s.rd.sv then s.priv 0x29
    else match s.check s.c va 0 4096 .rw false, s.pieces s.c .rw va 262144 with
      | .error t, _ => s.trap t
      | _, .error t => s.trap t
      | .ok loc, .ok _ => s.reading [(loc, 16)] fun s =>
        let w := s.num loc 4
        let n := s.num (loc + 8) 8
        let image := Store.get Ctx.reset s.images n
        let x := if image.live then image else strayCtx w n
        let r := s.rank x.rank
        if w % 32 ≠ 1 || decide (262136 < s.num (loc + 4) 4) then s.illegal
        else if !x.resident && s.secureCluster r.dom.toNat && r.placed && !s.secure then s.worldTrap 7 x.rank
        else if !x.resident && (!r.placed || !r.domain.contains s.c.cluster) then s.illegal
        else
          let slot := if x.resident then 4 else r.slot
          if !(s.heldLines [lineOf loc]).isEmpty then .next { s.snoop [lineOf loc] [] with stall := some .freeze }
          else if (s.ctx (8 * s.c.seq + slot)).live then .next (s.modSeq s.c.seq fun q => { q with status := 1 })
          else if s.c.inFlight || !s.c.mops.isEmpty || s.answersDue s.cur then s.stalled .freeze
          else s.drained true fun s => .next (s.exchangeCtx loc n x slot)

/-! ## `ttload` (R110, R111, R379) -/

/-- A timetable record: its table, and whether R110's ranges hold. -/
def ttOf (bs : List Byte) : Timetable × Bool :=
  let n := field bs 0 1
  let slots := (List.range n).map fun k => (field bs (16 + 4 * k) 1, field bs (18 + 4 * k) 2)
  let cwin := (List.range 4).map fun k => field bs (4 + 2 * k) 2
  let cbank := (List.range 4).map fun k => BitVec.ofNat 8 (field bs (12 + k) 1)
  (⟨slots, cwin, cbank, 0⟩,
    decide (1 ≤ n ∧ n ≤ 16) && field bs 1 3 = 0 && cwin.all winOk
      && cbank.all (fun b => decide ((b.extractLsb' 0 4).toNat ≤ 8) && b.extractLsb' 4 3 = 0)
      && (List.range n).all (fun k => field bs (17 + 4 * k) 1 = 0) && slots.all fun x => decide (x.1 ≤ 3 ∧ 1 ≤ x.2))

/-- Adjacent slots of one rank slot merged: rank slot, length, first original slot (R111). -/
def mergeSlots : List (Nat × Nat × Nat) → List (Nat × Nat × Nat)
  | [] => []
  | (r, l, i) :: rest => match mergeSlots rest with
    | (r', l', i') :: more => if r = r' then (r, l + l', i) :: more else (r, l, i) :: (r', l', i') :: more
    | [] => [(r, l, i)]

/-- The last merged slot joined to the first where they are of one rank slot (R111). -/
def joinEnds (l : List (Nat × Nat × Nat)) : List (Nat × Nat × Nat) :=
  match l, l.getLast? with
  | a :: rest, some z => if rest.isEmpty then l else if a.1 = z.1 then rest.dropLast ++ [(z.1, z.2.1 + a.2.1, z.2.2)] else l
  | _, _ => l

/-- Spill of a rank slot by the table's declaration (R107, R111). -/
def Timetable.spill (t : Timetable) (r : Nat) : Nat :=
  let b := t.cbank.getD r 0
  64 + 2 * t.cwin.getD r 0 + 512 * (b.extractLsb' 0 4).toNat + if b.getLsbD 7 then 1024 else 0

/-- The first slot that is too short (R111). -/
def Timetable.short (t : Timetable) : Option Nat :=
  let m := joinEnds (mergeSlots (t.slots.zipIdx.map fun x => (x.1.1, x.1.2, x.2)))
  let n := m.length
  if n ≤ 1 then none
  else (List.range n).findSome? fun i =>
    let at_ (k : Nat) : Nat × Nat × Nat := m.getD (k % n) (0, 0, 0)
    let h := at_ (i + n - 1)
    let j := at_ (i + 1)
    let f := if j.1 ≠ h.1 then t.spill j.1 else 0
    if 16 * (at_ i).2.1 < 48 + t.spill h.1 + f then some (at_ i).2.2 else none

/-- A table read for a domain, checked by R111: refused in TT_STAT, or in effect at once or at the period's end. -/
def State.ttLoad (s : State) (k : Nat) (bs : List Byte) : State :=
  let d := s.domOf k
  let (t, ok) := ttOf bs
  if !s.isDom k || !d.mode then s.modDom k fun d => { d with ttErr := 3 }
  else if !ok then s.modDom k fun d => { d with ttErr := 2 }
  else match t.short with
    | some i => s.modDom k fun d => { d with ttErr := 1, ttSlot := BitVec.ofNat 8 i }
    | none => match d.tt with
      | none => s.modDom k fun d => { d with tt := some { t with start := s.time.toNat }, ttErr := 0, ttSlot := 0 }
      | some now => s.modDom k fun d => { d with pending := some t, ttErr := 0, ttSlot := BitVec.ofNat 8 (now.now s.time.toNat).2.1 }

/-- `ttload` (R379). -/
def execTtload (g : Guard) (t : BitVec 6) (s : State) : Out :=
  s.guarded g fun s =>
    let va := s.rd.rs t
    let k := s.sched.domSel.toNat
    s.checked [t] fun s =>
    if !s.rd.sv then s.priv 0x28
    else if !s.secure && s.isDom k && s.secureCluster k then s.worldTrap 10 k
    else match s.check s.c va 0 16 .read false with
      | .error f => s.trap f
      | .ok _ => match s.pieces s.c .read va 16 with
        | .error f => s.trap f
        | .ok ps =>
          let n := min 16 ((s.readPieces ps).headD 0).toNat
          match s.pieces s.c .read va (16 + 4 * n) with
          | .error f => s.trap f
          | .ok ps => s.reading ps fun s => .next (s.ttLoad k (s.readPieces ps ++ List.replicate 64 0))

/-! ## Fault injection (R225) -/

/-- The fields of ERRINJ. -/
structure ErrInj where
  tgt : Nat
  core : Nat
  seq : Nat
  bank : Nat
  index : Nat
  lane : Nat
  bitNo : Nat
  mode : Nat
  deriving DecidableEq, Repr

def errInjOf (v : DWord) : ErrInj :=
  let f (lo n : Nat) : Nat := (v.extractLsb' lo n).toNat
  ⟨f 60 4, f 52 8, f 50 2, f 47 3, f 35 12, f 31 4, f 26 5, f 0 2⟩

/-- The context active on a sequencer. -/
def State.activeKey (s : State) (seq : Nat) : Nat := 8 * seq + ((s.seqOf seq).active.getD (s.seqOf seq).lastSlot)

/-- Is the sequencer that an injection names the twin of a protected strand's (R127)? -/
def State.injTwin (s : State) (e : ErrInj) : Bool :=
  let c := s.ctx (s.activeKey (4 * e.core + e.seq - 1))
  e.seq % 2 = 1 && c.live && !c.resident && (s.rank c.rank).prot

/-- The context that an injection names: the one active on its sequencer, or a twin's leader's, with which it is one (log 42). -/
def State.injKey (s : State) (e : ErrInj) : Nat := s.activeKey (if s.injTwin e then 4 * e.core + e.seq - 1 else 4 * e.core + e.seq)

/-- Does the target of an injection exist (R225)? -/
def State.errTarget (s : State) (e : ErrInj) : Bool :=
  let c := s.ctx (s.injKey e)
  e.tgt = 0 || (decide (e.tgt ≤ 7) && if e.tgt = 6 then s.backed (s.prot.erraddr.toNat / 128 * 128) 128
    else decide (e.core < 192) && s.pwr.pass.getLsbD (e.core / 8) && (s.secureCluster (e.core / 8) == s.secure)
      && match e.tgt with
        | 1 => decide (e.index < max 64 c.win)
        | 7 => decide (e.index < max 64 c.win ∧ e.bitNo < 4)
        | 2 => decide (e.index < 64)
        | 3 => true
        | 4 => decide (e.bank < 4 ∧ e.index < 16)
        | _ => s.injTwin e)

/-- Is an injection armed at the next commit signature of the twin on a sequencer (R225)? -/
def State.spoils (s : State) (q : Nat) : Bool :=
  let e := errInjOf s.prot.errinj
  e.mode = 2 && e.tgt = 5 && 4 * e.core + e.seq = q

/-- What the injection would spoil, as it stands in the context of a key: by it `step` sees the target's next write (R225). -/
def State.errWatch (s : State) (e : ErrInj) (key : Nat) : List Nat :=
  let c := s.ctx key
  match e.tgt with
  | 1 | 7 => [(c.rv e.index e.lane).toNat, (c.rvBad e.index e.lane).toNat]
  | 2 => [(c.rs (BitVec.ofNat 6 e.index)).toNat]
  | 3 => [(Store.get 0 (s.engine e.core c.rank).acc (4096 * e.bank + e.index)).toNat]
  | 4 => match (c.queue (BitVec.ofNat 2 e.bank))[e.index]? with
    | some q => q.ref :: q.words.map (·.toNat)
    | none => []
  | 6 =>
    let l := lineOf s.prot.erraddr.toNat
    (s.version l).toNat :: (s.bytes (128 * l) 128).map (·.toNat)
  | _ => []

/-- The machine with another value in the target of an injection, for `step` to see what writes it (R225, log 23). -/
def State.errOther (s : State) (e : ErrInj) : State :=
  let key := s.injKey e
  match e.tgt with
  | 1 | 7 => s.modCtx key fun c => { c with
      v := Store.set 0 c.v (16 * e.index + e.lane) (c.rv e.index e.lane ^^^ BitVec.twoPow 32 e.bitNo) }
  | 2 => s.modCtx key fun c => { c with s := Store.set 0 c.s e.index (Store.get 0 c.s e.index ^^^ BitVec.twoPow 64 e.bitNo) }
  | 3 =>
    let rank := (s.ctx key).rank
    let g := s.engine e.core rank
    let k := 4096 * e.bank + e.index
    s.setEngine e.core rank { g with acc := Store.set 0 g.acc k (Store.get 0 g.acc k ^^^ BitVec.twoPow 32 e.bitNo) }
  | 4 => s.modCtx key fun c =>
      let q := BitVec.ofNat 2 e.bank
      c.setQueue q ((c.queue q).zipIdx.map fun x => if x.2 = e.index then
        { x.1 with words := x.1.words.set e.lane (x.1.words.getD e.lane 0 ^^^ BitVec.twoPow 32 e.bitNo) } else x.1)
  | _ => s

/-- How a flipped word stands in a twin's entry: by log 42 the entry holds how the twin's word and residue differ from the leader's, the
word in bits [31:0], so that a flip in either of them turns the same bit. -/
def flipTwin (on : Bool) (tw : Store (BitVec 36)) (key bitNo : Nat) : Store (BitVec 36) :=
  if on then Store.set 0 tw key (Store.get 0 tw key ^^^ BitVec.twoPow 36 bitNo) else tw

/-- A bit of a word flipped, its residue left as it is: the word, and how the residue then differs. -/
def flipWord (w : Word) (bad : BitVec 4) (bitNo : Nat) : Word × BitVec 4 :=
  let w' := w ^^^ BitVec.twoPow 32 bitNo
  (w', residueOff bad w w')

/-- A bit of a load-queue entry's lane flipped, in the twin's copy with `twin`. -/
def QEntry.flip (x : QEntry) (pair twin : Bool) (lane bitNo : Nat) : QEntry :=
  let x := if pair then { x with tw := Store.set 0 x.tw lane (Store.get 0 x.tw lane ^^^ BitVec.twoPow 32 bitNo) } else x
  if twin then x
  else
    let (w, bad) := flipWord (x.words.getD lane 0) (x.bad.extractLsb' (4 * lane) 4) bitNo
    let mask : BitVec 64 := (0xF : BitVec 64) <<< (4 * lane)
    { x with words := x.words.set lane w, bad := (x.bad &&& ~~~mask) ||| (bad.setWidth 64 <<< (4 * lane)) }

/-- The bit is flipped (R225): residues, signatures and checksums are bypassed. In a scalar the lane's lowest bit chooses the half;
in a line's poison the lane chooses the granule (log 23). A bit of the twin's leaves the leader's value as it is, and the word differs
between the two (log 42). -/
def State.errFlip (s : State) (e : ErrInj) : State :=
  let seq := 4 * e.core + e.seq
  let key := s.injKey e
  let twin := s.injTwin e
  let rank := (s.ctx key).rank
  let pair := (s.rank rank).prot && !(s.ctx key).resident
  match e.tgt with
  | 1 => s.modCtx key fun c =>
      let k := 128 + 16 * e.index + e.lane
      let (w, bad) := if twin then (c.rv e.index e.lane, c.rvBad e.index e.lane)
        else flipWord (c.rv e.index e.lane) (c.rvBad e.index e.lane) e.bitNo
      { c.wv e.index e.lane w bad with tw := flipTwin pair c.tw k e.bitNo }
  | 2 => s.modCtx key fun c =>
      let half := e.lane % 2
      let k := 2 * e.index + half
      let v := Store.get 0 c.s e.index
      if e.index = 0 then c
      else if twin then { c with tw := flipTwin pair c.tw k e.bitNo }
      else { c with
        s := Store.set 0 c.s e.index (v ^^^ BitVec.twoPow 64 (32 * half + e.bitNo))
        bad := Store.set 0 c.bad k (flipWord (v.extractLsb' (32 * half) 32) (Store.get 0 c.bad k) e.bitNo).2
        tw := flipTwin pair c.tw k e.bitNo }
  | 3 =>
    let g := s.engine e.core rank
    let k := 4096 * e.bank + e.index
    s.setEngine e.core rank { g with acc := Store.set 0 g.acc k (Store.get 0 g.acc k ^^^ BitVec.twoPow 32 e.bitNo) }
  | 4 => s.modCtx key fun c =>
      let q := BitVec.ofNat 2 e.bank
      c.setQueue q ((c.queue q).zipIdx.map fun x => if x.2 = e.index then x.1.flip pair twin e.lane e.bitNo else x.1)
  | 5 => s.modSeq seq fun q => { q with spoilt := true }
  | 6 =>
    let l := lineOf s.prot.erraddr.toNat
    { s with poison := Store.set 0 s.poison l (Store.get 0 s.poison l ^^^ BitVec.twoPow 16 e.lane) }
  | 7 => s.modCtx key fun c =>
      let k := 128 + 16 * e.index + e.lane
      { c with
        bad := if twin then c.bad else Store.set 0 c.bad k (Store.get 0 c.bad k ^^^ BitVec.twoPow 4 e.bitNo)
        tw := flipTwin pair c.tw k (32 + e.bitNo) }
  | _ => s


/-- A write of ERRINJ (R225): MODE 1 flips the bit now, MODE 2 arms the flip. -/
def execErrinjWrite (val : DWord) (s : State) : Out :=
  let e := errInjOf val
  let named := e.tgt ≠ 0 && e.tgt ≠ 6 && decide (e.core < 192)
  if !s.secure && named && s.secureCluster (e.core / 8) then s.worldTrap 9 e.core
  else if !s.secure && e.tgt = 6 && e.mode ≠ 0 && s.secureRegion s.prot.erraddr.toNat then s.worldTrap 5 (regionOf s.prot.erraddr.toNat)
  else if e.mode = 3 || !s.errTarget e then s.illegal
  else
    let keep : DWord := if e.mode = 2 then val &&& ~~~0x3FFFFFC else val &&& ~~~0x3FFFFFF
    let s := { s with prot := { s.prot with errinj := keep } }
    .next (if e.mode = 1 then s.errFlip e else s)

/-! ## Control registers (R260, R289, R381) -/

def listed (num : Nat) : Bool :=
  decide (num ≤ 6 ∨ (8 ≤ num ∧ num ≤ 0xD) ∨ (0x100 ≤ num ∧ num ≤ 0x106) ∨ (0x200 ≤ num ∧ num ≤ 0x20C) ∨ (0x300 ≤ num ∧ num ≤ 0x303)
    ∨ (0x400 ≤ num ∧ num ≤ 0x403) ∨ (0x500 ≤ num ∧ num ≤ 0x504) ∨ (0x600 ≤ num ∧ num ≤ 0x606) ∨ (0x700 ≤ num ∧ num ≤ 0x706))

/-- Registers of which every field is read-only (R289). -/
def readOnly (num : Nat) : Bool :=
  [0x00C, 0x100, 0x101, 0x102, 0x103, 0x104, 0x106, 0x204, 0x209, 0x20B, 0x302, 0x401, 0x504, 0x602, 0x605, 0x705, 0x706].contains num

/-- May a strand of a level reach a register (R381)? Of WORLD_BLK, R381 gives PRIV at rank level, and R48 says that every level but
the secure supervisor's reads it as zero: a `getc` of it follows R48, and a `putc` traps with PRIV as both say (log 60). -/
def levelOk (sv write : Bool) (num : Nat) : Bool :=
  sv || (decide (num < 0x104) && num ≠ 0x00A && num ≠ 0x00B && !(write && num = 0x00D)) || (num = 0x300 && !write)

/-- What of the secure world a register names for a non-secure supervisor (R381): the class and number of WORLD. -/
def State.names (s : State) (num : Nat) (val : DWord) : Option (Nat × Nat) :=
  let ch := s.chan s.fab.chanSel
  let dom := s.sched.domSel.toNat
  let r := s.rank s.sched.rankSel.toNat
  let selected := if r.st ≠ .absent && s.secureCluster r.dom.toNat then some (7, s.sched.rankSel.toNat) else none
  if s.secure then none
  else match num with
    | 0x202 =>
      if s.secureChan ch.cports ch.domains || s.secureChan (val.extractLsb' 36 16) (val.extractLsb' 12 24) then
        some (6, s.fab.chanSel.toNat)
      else none
    | 0x203 | 0x204 => if s.secureChan ch.cports ch.domains then some (6, s.fab.chanSel.toNat) else none
    | 0x20C => if s.world.wports.getLsbD (val.extractLsb' 0 4).toNat then some (4, (val.extractLsb' 0 4).toNat) else none
    | 0x300 => some ((val.extractLsb' 56 4).toNat, (val.extractLsb' 48 8).toNat)
    | 0x301 => some (5, 0)
    | 0x303 => some (5, (val.extractLsb' 0 21).toNat)
    | 0x401 => selected
    | 0x500 => if s.c.resident then selected else none
    | 0x601 | 0x602 | 0x604 | 0x605 => if s.isDom dom && s.secureCluster dom then some (10, dom) else none
    | 0x702 => match s.perchOf (val.extractLsb' 0 6) with
      | some p => if s.secureCluster (s.rank p.rank).dom.toNat then some (8, (val.extractLsb' 0 6).toNat) else none
      | none => none
    | 0x703 =>
      let e := errInjOf val
      if e.tgt ≠ 0 && e.tgt ≠ 6 && s.secureCluster (e.core / 8) then some (9, e.core) else none
    | _ => none

/-- The rank whose tables PT_ROOT names: the strand's own, or, for a resident supervisor strand, that of RANK_SEL (log 24). -/
def State.tablesRank (s : State) : Nat := if s.c.resident then s.sched.rankSel.toNat else s.c.rank

/-- The state code of RANK_STAT (R65). -/
def stateCode : RankState → Nat
  | .absent => 0
  | .loading => 1
  | .hot => 2
  | .parking => 3
  | .cold => 4
  | .recalling => 5
  | .outgoing => 6
  | .incoming => 7
  | .ending => 8

/-- RANK_STAT (R65). -/
def State.rankStat (s : State) : DWord :=
  let n := s.sched.rankSel.toNat
  let r := s.rank n
  if r.st = .absent then 0
  else BitVec.ofNat 64 (2 ^ 48 * (entEpoch (s.mapEntry n)).toNat + 2 ^ 40 * r.last.toNat + 2 ^ 35 * r.dom.toNat
    + 16 * (r.step.toNat % 2 ^ 28) + stateCode r.st)

/-- The package power limit that LIMIT stands for: 300 to 1,450 W (R13). -/
def Power.limitW (p : Power) : BitVec 16 := if 1450 < p.limit then 1450 else if p.limit < 300 then 300 else p.limit

/-- PWR_STAT (R13). -/
def State.pwrStat (s : State) : DWord :=
  BitVec.ofNat 64 (2 ^ 24 * s.pwr.tj.toNat + (if s.pwr.thermal < s.pwr.limitW then 2 ^ 17 else 0) + (if s.pwr.throt then 2 ^ 16 else 0) + s.pwr.avg.toNat)

/-- Ports that satisfy p, as a mask. -/
def State.portMask (s : State) (p : SPort → Bool) : Nat := ((List.range 16).map fun j => if p (s.port j) then 2 ^ j else 0).sum

/-- The bucket that DOM_SEL and TB_SEL name (R116). -/
def State.selBucket (s : State) : Option Bucket :=
  let b := (s.sched.tbSel.extractLsb' 0 2).toNat
  let k := s.sched.domSel.toNat
  if b = 3 || !s.isDom k then none else some (s.bucket k (s.sched.tbSel.extractLsb' 2 2).toNat b)

/-- A control register as it reads (R260). -/
def State.regRead (s : State) (num : Nat) : DWord :=
  let c := s.rd
  let ch := s.chan s.fab.chanSel
  let dom := s.domOf s.sched.domSel.toNat
  let isDom := s.isDom s.sched.domSel.toNat
  let n (x : Nat) : DWord := BitVec.ofNat 64 x
  match num with
  | 0x000 => n c.fpctl.toNat
  | 0x001 => n c.xv.toNat
  | 0x002 => n c.chp.toNat
  | 0x003 => n c.asticky.toNat
  | 0x004 => n c.wcfg.toNat
  | 0x005 => n c.ftsel.toNat
  | 0x006 => Store.get 0 (s.rank c.rank).fmt c.ftsel.toNat
  | 0x008 => c.tvec
  | 0x009 => c.tfp
  | 0x00A => c.tvecSv
  | 0x00B => c.tfpSv
  | 0x00C => n c.tstat.toNat
  | 0x00D => n (s.mownOf c.core c.rank).toNat
  | 0x100 => s.seqId c
  | 0x101 => n c.seq
  | 0x102 => s.time
  | 0x103 => (s.seqOf c.seq).chkills
  | 0x104 => n s.bootStat.toNat
  | 0x105 => n s.pwr.limit.toNat
  | 0x106 => s.pwrStat
  | 0x200 => n s.fab.node.toNat
  | 0x201 => n s.fab.chanSel.toNat
  | 0x202 => n (2 ^ 52 * ch.peer.toNat + 2 ^ 36 * ch.cports.toNat + 2 ^ 12 * ch.domains.toNat)
  | 0x204 => n (2 ^ 48 * ch.gen.toNat + 2 ^ 32 * (s.portsUp s.fab.chanSel).toNat + 2 ^ 16 * ch.pgen.toNat + s.chanStat16 s.fab.chanSel)
  | 0x205 => n s.fab.epmap.toNat
  | 0x206 => n s.fab.timeout.toNat
  | 0x207 => n s.fab.share.toNat
  | 0x208 => if s.fab.root then 1 else 0
  | 0x209 => n ((if s.fab.lock then 2 ^ 31 else 0) + 2 ^ 16 * s.fab.hops.toNat + s.fab.offset.toNat)
  | 0x20A => s.fab.err
  | 0x20B => n (2 ^ 16 * s.portMask (·.training) + s.portMask (·.up))
  | 0x300 =>
    let b := s.world.blk
    if !c.sv then 0
    else b ||| (if s.blockSecure (b.extractLsb' 56 8).toNat (b.extractLsb' 48 8).toNat then 1 else 0)
  | 0x301 => n s.world.mapBase.toNat
  | 0x302 => n (s.seqOf c.seq).status.toNat
  | 0x400 => n s.sched.rankSel.toNat
  | 0x401 => s.rankStat
  | 0x402 => n s.sched.pace.toNat
  | 0x403 => n s.sched.precopyStop.toNat
  | 0x500 => (s.rank s.tablesRank).ptRoot
  | 0x501 => s.ptRootSv
  | 0x502 => n s.rmThresh.toNat
  | 0x503 => n s.rmRadius.toNat
  | 0x504 => s.rmCount
  | 0x600 => n s.sched.domSel.toNat
  | 0x601 => if isDom then n ((if dom.hard then 2 else 0) + if dom.mode then 1 else 0) else 0
  | 0x602 =>
    let slot : Nat := if dom.ttErr = 1 then dom.ttSlot.toNat else match dom.tt with
      | some tt => (tt.now s.time.toNat).2.1
      | none => 0
    if isDom then n ((if dom.tt.isSome then 2 ^ 16 else 0) + 2 ^ 8 * slot + dom.ttErr.toNat) else 0
  | 0x603 => n s.sched.tbSel.toNat
  | 0x604 => match s.selBucket with
    | some k => (k.depth ++ k.rate : BitVec 64)
    | none => 0
  | 0x605 => match s.selBucket with
    | some k => BitVec.ofInt 64 k.level
    | none => 0
  | 0x606 => n s.sched.ageStep.toNat
  | 0x700 => n s.prot.window.toNat
  | 0x701 => n s.prot.log.toNat
  | 0x703 => s.prot.errinj
  | 0x704 => n s.prot.erraddr.toNat
  | 0x705 => s.prot.ce
  | 0x706 => s.prot.rw
  | _ => 0

/-- PRIV of a control register (R403). -/
def State.regPriv (s : State) (num : BitVec 14) : Out := s.trap (mkTrap 0x05 0xFF (num.setWidth 32) 0)

/-- `getc` (R289). -/
def execGetc (d : BitVec 6) (num : BitVec 14) (s : State) : Out :=
  if !listed num.toNat then s.illegal
  else if !levelOk s.rd.sv false num.toNat then s.regPriv num
  else .next (s.modC fun c => c.ws d (if (s.names num.toNat (s.regRead num.toNat)).isSome then 0 else s.regRead num.toNat))

/-- A write of WCFG (R125): shrinking WIN zeroes the dropped entries. -/
def execWcfgWrite (val : DWord) (s : State) : Out :=
  let win := (val.extractLsb' 16 11).toNat
  let rk := s.rank s.c.rank
  let d := s.domOf rk.dom.toNat
  let cwin := match d.tt with
    | some t => if s.c.resident then 1024 else t.cwin.getD rk.slot 1024
    | none => 1024
  if !winOk win || decide (s.c.win0 < win) || decide (cwin < win) then s.illegal
  else
    .next (s.modC fun c => { c with
      wcfg := BitVec.ofNat 32 (2 ^ 16 * win + (val.extractLsb' 0 10).toNat % win)
      v := c.v.filter fun e => e.1 < 16 * win
      bad := c.bad.filter fun e => e.1 < 128 + 16 * win
      tw := c.tw.filter fun e => e.1 < 128 + 16 * win })

/-- A supervisor's write of MOWN takes effect as a claim does (R138): once the former owner's M and K operations have completed, those
of one that has released the engine with them (R278). -/
def execMownWrite (val : DWord) (s : State) : Out :=
  if (List.range 4).any fun j => j ≠ (val.extractLsb' 0 2).toNat && (s.sibling j).mops.any (·.ref < s.issueRef) then s.stalled .hold
  else .next (s.setMown s.c.core s.c.rank (val.extractLsb' 0 3))

/-- FORCE of PW_CMD (R224): a line with waiters is released, without a step boundary; its waiters trap with PERCH_STALL. -/
def execPwCmdForce (line : BitVec 6) (s : State) : Out :=
  match s.perchOf line with
  | none => .next s
  | some p =>
    if p.waiters.isEmpty then .next s
    else
      let s := if p.held then s.modRank p.rank fun r => { r with heldRelease := false } else s
      .next (s.release line p true)

/-- A write of PORT_CMD (R24). The spec gives HOLDSET and RETRAIN in one write no order: the model holds or releases first (DESIGN
CHOICE, log 63). -/
def State.portCmd (s : State) (val : DWord) : Out :=
  let p := val.extractLsb' 0 4
  let held : Out := if val.getLsbD 7 then (if val.getLsbD 8 then execPortCmdHold p s else execPortCmdRelease p s) else .next s
  match held with
  | .next s => if val.getLsbD 9 then execPortCmdRetrain p s else .next s
  | o => o

/-- A control register written (R260); each register's chapter says what a write does. EPMAP_BASE keeps bits [18:0] of what is written and
reads them back, although R38 ignores them (DESIGN CHOICE, log 74). FTENT writes the entry of the strand's own FTSEL (DEDUCED, log 81). -/
def State.regWrite (s : State) (num : Nat) (v : DWord) : Out :=
  let c (f : Ctx → Ctx) : Out := .next (s.modC f)
  let fab (f : Fabric → Fabric) : Out := .next { s with fab := f s.fab }
  let sched (f : Sched → Sched) : Out := .next { s with sched := f s.sched }
  let prot (f : Protect → Protect) : Out := .next { s with prot := f s.prot }
  match num with
  | 0x000 => c fun c => { c with fpctl := (v.extractLsb' 3 1 ++ (0 : BitVec 1) : BitVec 2) ++
      (if v.extractLsb' 0 2 = 3 then (0 : BitVec 2) else v.extractLsb' 0 2) }
  | 0x001 => c fun c => { c with xv := v.extractLsb' 0 9 }
  | 0x002 => c fun c => { c with chp := v.extractLsb' 0 4 }
  | 0x003 => c fun c => { c with asticky := v.extractLsb' 0 16 &&& 0x1F1F }
  | 0x004 => execWcfgWrite v s
  | 0x005 => c fun c => { c with ftsel := v.extractLsb' 0 6 }
  | 0x006 => .next (s.modRank s.c.rank fun r => { r with fmt := Store.set 0 r.fmt s.rd.ftsel.toNat v })
  | 0x008 => c fun c => { c with tvec := v }
  | 0x009 => c fun c => { c with tfp := v }
  | 0x00A => c fun c => { c with tvecSv := v }
  | 0x00B => c fun c => { c with tfpSv := v }
  | 0x00D => execMownWrite v s
  | 0x105 => .next { s with pwr := { s.pwr with limit := v.extractLsb' 0 16 } }
  | 0x200 => execFabNodeWrite (v.extractLsb' 0 12) s
  | 0x201 => fab fun f => { f with chanSel := v.extractLsb' 0 8 }
  | 0x202 => execChanCfgWrite v s
  | 0x203 => s.chanCmd (v.extractLsb' 0 3).toNat s.secure
  | 0x205 => fab fun f => { f with epmap := v.extractLsb' 0 52 }
  | 0x206 => fab fun f => { f with timeout := v.extractLsb' 0 32 }
  | 0x207 => fab fun f => { f with share := v.extractLsb' 0 8 }
  | 0x208 => .next { s with fab := { s.fab with root := v.getLsbD 0 } }.rehop
  | 0x20A => fab fun f => { f with err := v }
  | 0x20C => s.portCmd v
  | 0x300 => execWorldBlkWrite v s
  | 0x301 => execWorldMapBaseWrite v s
  | 0x303 => execWorldRegionWrite v s
  | 0x400 => sched fun x => { x with rankSel := v.extractLsb' 0 16 }
  | 0x402 => sched fun x => { x with pace := v.extractLsb' 0 16 }
  | 0x403 => sched fun x => { x with precopyStop := v.extractLsb' 0 32 }
  | 0x500 => .next (s.modRank s.tablesRank fun r => { r with ptRoot := v })
  | 0x501 => .next { s with ptRootSv := v }
  | 0x502 => .next { s with rmThresh := v.extractLsb' 0 16 }
  | 0x503 => .next { s with rmRadius := v.extractLsb' 0 2 }
  | 0x600 => sched fun x => { x with domSel := v.extractLsb' 0 5 }
  | 0x601 => execDomCfgWrite v s
  | 0x603 => sched fun x => { x with tbSel := v.extractLsb' 0 4 }
  | 0x604 => execTbCfgWrite v s
  | 0x606 => sched fun x => { x with ageStep := v.extractLsb' 0 32 }
  | 0x700 => prot fun p => { p with window := v.extractLsb' 0 32 }
  | 0x701 => prot fun p => { p with log := v.extractLsb' 0 52 }
  | 0x702 => if v.getLsbD 8 then execPwCmdForce (v.extractLsb' 0 6) s else .next s
  | 0x703 => execErrinjWrite v s
  | 0x704 => prot fun p => { p with erraddr := v.extractLsb' 0 52 }
  | _ => .next s

/-- `putc` (R289): not listed, not at this level, read-only, a secure object named from the non-secure world; then the write.
WORLD_MAP_BASE names no object of the classes of R403, so INFO of its WORLD trap is a free value (log 8). -/
def execPutc (num : BitVec 14) (a : BitVec 6) (s : State) : Out :=
  let v := s.rd.rs a
  if !listed num.toNat then s.illegal
  else if !levelOk s.rd.sv true num.toNat || readOnly num.toNat then s.regPriv num
  else match s.names num.toNat v with
    | some (cls, i) =>
      if num = 0x301 then (let (n, s) := s.drawFree; s.trap (mkTrap 0x06 0xFF (Config.mapBaseInfo n) 0))
      else s.worldTrap cls i
    | none => s.regWrite num.toNat v

end Sys2Proof.Machine
end

