-- ==== Sys2Proof/Machine/Bringup.lean ====
section
/-!
DEFINITION. Bringup.lean: resets and thermal trip (R11, R14, R16), the phases of bring-up (R17, R18), power (R12 to R14), and
the sideband with ALERT_STAT and VIDB (R20).
-/
namespace Sys2Proof.Machine

/-! ## Resets (R15, R16) -/

/-- The machine after a reset: ranks, channels and every access gone, bring-up at phase 0. The fused form stays, and so does what
has been sent; numbers of operations and of free values go on. TJ reads its reset value, 0, until the next reading (R13). -/
def State.toReset (s : State) : State :=
  { State.reset with
    pwr := { Power.reset with form := s.pwr.form }
    host := { HostIf.reset with boots := s.host.boots + 1 }
    out := s.out
    nextRef := s.nextRef
    free := s.free }

/-- What host memory holds, as far as the chip has it: every byte but those of the lines listed. -/
def State.hostBytes (s : State) (lost : List Nat) : List Host.Cell :=
  s.mem.filter fun e => isHost e.1 && !lost.contains (lineOf e.1)

/-- The lines of the host that only the chip holds as they are. -/
def State.dirtyLines (s : State) : List Nat := (s.host.cached.filter (·.2)).map (·.1)

/-- PWR_OK rises (R16): what the host holds in its own memory stays. -/
def execPowerOnReset (s : State) : Out := .next { s.toReset with mem := s.hostBytes s.dirtyLines }

/-- MOD_RESET_N or, as `perst`, PERST_N goes low (R16). Dirty host lines are written back while the link is up; after PERST_N they
are lost. Only a power-on reset leaves a thermal trip (R14) or a rail order error (R15). -/
def execWarmReset (perst linkUp : Bool) (s : State) : Out :=
  if s.pwr.trip || s.pwr.orderErr then .next s
  else
    let dirty := s.dirtyLines
    let s := if linkUp && !perst then s.writeBackAll else s
    .next { s.toReset with mem := s.hostBytes (if linkUp && !perst then [] else dirty) }

/-- A rail comes up out of order (R15): phase 0 with error code 8, until a power-on reset. The rails rise before phase 0 ends; the
spec does not say what a rail does that comes up while PHASE is not 0, as after a trip, and there the model drops the event (DESIGN
CHOICE, log 9). -/
def execRailOrderError (s : State) : Out :=
  if s.pwr.phase = 0 then .next { s with pwr := { s.pwr with err := 8, orderErr := true } } else .next s

/-! ## Thermal trip and power (R11 to R14, R20) -/

/-- A thermal-trip shutdown (R14, R16): THERM_TRIP_N, no clock, memory and held host lines lost, error code 6, and the regulators
asked to drop every rail but VDD_AUX. The spec does not say what of the registers that the sideband reaches survives it: the model
keeps PHASE, PASS, PWR_LIMIT, PWR_STAT, ALERT_STAT and the dynamic sideband address (DESIGN CHOICE, log 9). -/
def State.thermalTrip (s : State) : State :=
  { (s.toReset.send .dropRails) with
    pwr := { s.pwr with trip := true, clocks := false, link := false, memActive := false, err := 6 }
    mem := s.hostBytes s.dirtyLines }

def execThermalTrip (s : State) : Out := .next s.thermalTrip

/-- A rail stays below its range for longer than 20 µs (R11). -/
def execBrownOut (s : State) : Out :=
  let s := s.thermalTrip
  .next { s with pwr := { s.pwr with good := false } }

/-- Bits of ALERT_STAT set (R20). -/
def State.alert (s : State) (bits : BitVec 4) : State := { s with pwr := { s.pwr with alert := s.pwr.alert ||| bits } }

/-- ALERT_N is low while any bit of ALERT_STAT is 1 (R20). -/
def State.alertLow (s : State) : Bool := s.pwr.alert ≠ 0

/-- The bits of ALERT_STAT whose cause holds: a junction at 95 °C, PHASE at 0xF, a rail out of its range, a port that has gone down
and is not up again (R20). -/
def State.alertCauses (s : State) : BitVec 4 :=
  (if 95 ≤ s.pwr.tj.toNat then 1 else 0) ||| (if s.pwr.phase = 15 then 2 else 0) ||| (if s.pwr.railsOut ≠ 0 then 4 else 0)
    ||| (if s.fab.ports.any fun e => e.2.fell then 8 else 0)

/-- A write of ALERT_STAT (R20): written ones clear; the next cycle sets a bit again whose cause holds (`State.powerTick`). -/
def State.alertClear (s : State) (bits : Word) : State :=
  { s with pwr := { s.pwr with alert := s.pwr.alert &&& ~~~(bits.extractLsb' 0 4) } }

/-- The sideband answers from the end of phase 0, and in phase 0xF (R20). -/
def State.sidebandUp (s : State) : Bool := decide (1 ≤ s.pwr.phase)

def execAlertStatClear (bits : Word) (s : State) : Out := if s.sidebandUp then .next (s.alertClear bits) else .next s

/-- A rail crosses a bound of its range: one that was in it leaves it for more than 5 µs without a brown-out trip, one that was out is
back (R20). Which of the six it is, the event does not say: a free value by the number of crossings before (log 56). -/
def execRailAlert (s : State) : Out :=
  let i := (Config.railOf s.pwr.rails).val
  let out := s.pwr.railsOut ^^^ BitVec.twoPow 6 i
  let s := { s with pwr := { s.pwr with railsOut := out, rails := s.pwr.rails + 1 } }
  .next (if out.getLsbD i then s.alert 4 else s)

/-- The limit in force: the lower of LIMIT and the thermal limit (R13). -/
def Power.inForce (p : Power) : BitVec 16 := if p.thermal < p.limitW then p.thermal else p.limitW

/-- The junction temperature is read (R13): THERM is set at 95 °C (R20), and at 110 °C the chip shuts down (R14). -/
def State.heat (s : State) (tj : BitVec 8) : State :=
  let s := { s with pwr := { s.pwr with tj } }
  if 110 ≤ tj.toNat then (s.alert 1).thermalTrip else if 95 ≤ tj.toNat then s.alert 1 else s

/-- The 1 ms step of the thermal limit is taken: the next is due 4,000,000 cycles on (R14). -/
def State.thermalStep (s : State) (limit : BitVec 16) : State :=
  { s with pwr := { s.pwr with thermal := limit, thermAt := s.time.toNat + 4000000 } }

/-- A temperature of 95 °C or more: the limit in force falls by 50 W every 1 ms (R14). That the first 50 W go at once when 95 °C is
reached, and not after the first 1 ms, is the model's choice (DESIGN CHOICE, log 70). The spec gives no floor: the model stops at 0 W,
below the 300 W that LIMIT can act as (DESIGN CHOICE, log 9). -/
def execThermalLimitLower (tj : BitVec 8) (s : State) : Out :=
  let s := s.heat tj
  if s.pwr.trip || tj.toNat < 95 || decide (s.time.toNat < s.pwr.thermAt) then .next s
  else .next (s.thermalStep (BitVec.ofNat 16 (s.pwr.inForce.toNat - 50)))

/-- A temperature below 90 °C: the limit rises by 50 W every 1 ms, up to PWR_LIMIT (R14). -/
def execThermalLimitRaise (tj : BitVec 8) (s : State) : Out :=
  let s := s.heat tj
  if s.pwr.trip || 90 ≤ tj.toNat || decide (s.time.toNat < s.pwr.thermAt) then .next s
  else
    let up := s.pwr.inForce.toNat + 50
    .next (s.thermalStep (if up < s.pwr.limitW.toNat then BitVec.ofNat 16 up else 1450))

/-- Every 10 µs (R12): above the limit freeze cycles begin, and they end once the average is 2 % below it. -/
def execPowerWindowEvaluation (avg : BitVec 16) (s : State) : Out :=
  let l := s.pwr.inForce.toNat
  let throt := if l < avg.toNat then true else if 100 * avg.toNat ≤ 98 * l then false else s.pwr.throt
  .next { s with pwr := { s.pwr with avg, throt } }

/-! ## Bring-up (R17, R18) -/

/-- Bring-up has failed (R18): phase 0xF with an error code, and FAIL. -/
def State.failBringup (s : State) (err : BitVec 4) : State :=
  { s with pwr := { s.pwr with phase := 15, err } }.alert 2

def State.toPhase (s : State) (p : Nat) : State := { s with pwr := { s.pwr with phase := p } }

/-- Phase 0 ends (R17), with the form that the fuses name (R10). Where the firmware's signature does not verify, the boot ROM trains
the link on its own before phase 0xF (R18). -/
def execFuseLoad (fuses : Fuses) (s : State) : Out :=
  if s.pwr.phase ≠ 0 || s.pwr.err ≠ 0 then .next s
  else
    let s := { s with pwr := { s.pwr with form := fuses.form } }
    if fuses.signatureOk then .next (s.toPhase 1) else .next { s with pwr := { s.pwr with err := 1 } }

/-- Phase 1 ends: device time starts at 0 (R17). After a failure the boot ROM trains the link on its own, if it can (R18). -/
def execPllLock (ok link : Bool) (s : State) : Out :=
  if s.pwr.phase ≠ 1 then .next s
  else if ok then .next { s.toPhase 2 with time := 0 }
  else .next ({ s with pwr := { s.pwr with link } }.failBringup 0)

/-- CXL.io link training ends (R17): of phase 2, or of the boot ROM after a failure in phase 0 (R18). -/
def execCxlLinkTraining (ok : Bool) (s : State) : Out :=
  let s' := { s with pwr := { s.pwr with link := ok } }
  if s.pwr.phase = 0 && s.pwr.err = 1 then .next (s'.failBringup 1)
  else if s.pwr.phase ≠ 2 then .next s
  else .next (if ok then s'.toPhase 3 else s'.failBringup 0)

/-- Phase 3 ends (R17, R18): PASS, and the failures that end bring-up. -/
def execSelfTest (pass : BitVec 24) (slicesOk bridgeOk : Bool) (s : State) : Out :=
  if s.pwr.phase ≠ 3 then .next s
  else
    let s := { s with pwr := { s.pwr with pass } }
    .next (if !slicesOk then s.failBringup 2 else if !bridgeOk then s.failBringup 5
      else if pass = 0 then s.failBringup 7 else s.toPhase 4)

/-- The second tier's size in GiB: at most 3,072 are mapped (R9). On the VJM-4800-X, FORM 3, the version table is taken from the
capacity that the expanders have (R79). -/
def tierSize (form : BitVec 8) (installed : Nat) : Nat := min 3072 (if form = 3 then installed * 16 / 17 else installed)

/-- Phase 4 ends (R17, R18): HBM4E, second tier with what is installed of it, and Soard ports. A port that fails to train is down and
does not stop bring-up. Where a stack and the second tier both fail, the spec does not say which code stands: the model gives 3
(DESIGN CHOICE, log 9). -/
def execMemoryTraining (hbm : BitVec 8) (tier : TierTraining) (up : BitVec 16) (s : State) : Out :=
  if s.pwr.phase ≠ 4 then .next s
  else
    let s := { s with pwr := { s.pwr with hbmPass := hbm, tierGib := tierSize s.pwr.form tier.installed } }
    let t := s.time.toNat
    let port (p : Nat) : SPort := { SPort.reset with up := up.getLsbD p, tryAt := t + 4000000, ackAt := t }
    let ports := (List.range 16).foldl (fun m (p : Nat) => Store.set SPort.reset m p (port p)) s.fab.ports
    let s := { s with fab := { s.fab with ports } }
    .next (if hbm ≠ 0xFF then s.failBringup 3 else if !tier.ok then s.failBringup 4 else s.toPhase 5)

/-- Phase 5 ends (R17): HBM4E and the second tier are zero, and every version is 0. -/
def execHardwareZeroing (s : State) : Out :=
  if s.pwr.phase ≠ 5 then .next s
  else .next { s.toPhase 6 with
    mem := s.mem.filter fun e => !isDev e.1
    ver := []
    poison := s.poison.filter fun e => !isDev (128 * e.1) }

/-- A moment that was dated by the count before a step of device time, by the count after it (R36). -/
def reDate (now next at_ : Nat) : Nat := at_ + next - now

/-- Phase 6 ends (R36): device time is stepped once to the root's, as the neighbour at a port gives it; with no root to reach, HOPS
0xFF, it counts on. What waits for a moment waits as long as before the step. -/
def execTimeDiscipline (rootTime : DWord) (flit : TimeFlit) (s : State) : Out :=
  if s.pwr.phase ≠ 6 then .next s
  else
    let t := if flit.hops = 0xFF then s.time else rootTime
    let date := reDate s.time.toNat t.toNat
    let x := s.port flit.port.toNat
    let s := s.setPort flit.port.toNat { x with nhops := if x.up then flit.hops else 0xFF, nroot := flit.root }
    .next (State.rehop { s with
      time := t
      pwr := { s.pwr with phase := 7, thermAt := date s.pwr.thermAt }
      fab := { s.fab with
        exchangeAt := t.toNat
        ports := s.fab.ports.map fun (e : Nat × SPort) => (e.1, { e.2 with tryAt := date e.2.tryAt, ackAt := date e.2.ackAt }) } })

/-- A resident supervisor strand on a cluster that is not fenced (R17, R18, R377): slot 4 of its sequencer. -/
def State.resident (s : State) (x : SvStrand) : State :=
  if 768 ≤ x.seq || !s.pwr.pass.getLsbD (x.seq / 32) || !winOk x.win then s
  else
    let c : Ctx := { Ctx.reset with
      pc := x.entry &&& ~~~3
      npc := x.entry &&& ~~~3
      live := true
      sv := true
      resident := true
      seq := x.seq
      rank := 65536
      lcore := x.seq / 4
      wcfg := BitVec.ofNat 32 (x.win * 2 ^ 16)
      win0 := x.win
      mark := true }
    (s.setCtx (8 * x.seq + 4) c).modSeq x.seq fun q => { q with active := some 4, lastSlot := 4 }

/-- Phase 7 ends (R17): the resident supervisor strands start, and the chip is ready, with Memory_Active set. -/
def execSupervisorStart (strands : List SvStrand) (s : State) : Out :=
  if s.pwr.phase ≠ 7 then .next s
  else
    let s := strands.foldl State.resident s
    .next { s with pwr := { s.pwr with phase := 8, memActive := true } }

/-! ## Sideband and voltage control (R20) -/

/-- A sideband register as it reads (R20). -/
def State.sideband (s : State) (addr : BitVec 8) : Word :=
  match addr.toNat with
  | 0x10 => s.bootStat
  | 0x14 => s.pwr.limit.setWidth 32
  | 0x18 => s.pwrStat.setWidth 32
  | 0x1C => s.pwr.alert.setWidth 32
  | _ => 0

/-- ENTDAA gives the target a dynamic address (R20). -/
def execEntdaa (addr : BitVec 7) (s : State) : Out :=
  if s.sidebandUp then .next { s with pwr := { s.pwr with i3c := some addr } } else .next s

/-- An I3C register read (R20). -/
def execSidebandRead (addr : BitVec 8) (s : State) : Out :=
  if s.sidebandUp then .next (s.send (.i3c (s.sideband addr))) else .next s

/-- An I3C register write (R20). -/
def execSidebandWrite (addr : BitVec 8) (data : Word) (s : State) : Out :=
  if !s.sidebandUp then .next s
  else match addr.toNat with
    | 0x14 => .next { s with pwr := { s.pwr with limit := data.extractLsb' 0 16 } }
    | 0x1C => .next (s.alertClear data)
    | _ => .next s

/-- The 20 bits of a VIDB frame: START, CODE, zero, even parity over CODE (R20). -/
def vidbBits (code : BitVec 8) : BitVec 20 :=
  let par : Bool := (List.range 8).foldl (fun b i => b != code.getLsbD i) false
  (0b1010#4 ++ code ++ (0 : BitVec 7) : BitVec 19) ++ BitVec.ofBool par

/-- A frame with a set-point on VIDB (R20). -/
def State.vidbSend (s : State) (code : BitVec 8) : State :=
  { s.send (.vidb (vidbBits code)) with pwr := { s.pwr with vid := code } }

/-- The firmware sends a set-point (R20); codes above 50 name none. -/
def execVidbFrame (code : BitVec 8) (s : State) : Out := if 50 < code.toNat then .next s else .next (s.vidbSend code)

end Sys2Proof.Machine
end

