-- ==== Sys2Proof/Machine/Faults.lean ====
section
/-!
DEFINITION. Faults.lean: the events of 11 and of the cycle: traps and rewinds as events (R211, R219), errors that arise of
themselves (R216), the perch watchdog (R223), row trackers (R86), translations that return (R92), digit steps and landings (R166,
R173), and empty bundles (R228).
-/
namespace Sys2Proof.Machine

/-- What the running bundle left, cleared before the next. -/
def State.fresh (s : State) : State :=
  { s with old := none, oldFmt := none, slot := 0, pops := 0, stall := none, trapped := none, jumped := false, staged := false }

/-- After a trap or a rewind outside a bundle the strand's next bundle is where it points. -/
def State.landAt (s : State) : State := s.modC fun c => { c with pc := c.npc }

/-! ## Traps and rewinds as events (R211, R219) -/

/-- A trap is taken by the strand that moves next, outside any bundle (R211): at once where nothing of it is in flight, else it
stays due. -/
def State.trapNow (s : State) (t : TrapInfo) (sup : Bool) : State :=
  let s' := (s.fresh.modC fun c => { c with npc := c.pc }).takeTrap t sup
  if s'.stall.isSome then s.modC fun c => { c with due := some (t, sup) } else s'.landAt.fresh

/-- Taking a trap (R211). -/
def execTrapEntry (t : TrapInfo) (supervisor : Bool) (s : State) : Out := .next (s.trapNow t supervisor)

/-- An error in the snapshot area (R222): REWIND_LIMIT at once, with the current state kept. -/
def snapTrap : TrapInfo := ⟨0x11, 0, 0xFF, 5, 0⟩

/-- An error of a source starts a rewind of the strand that moves next (R219); in the snapshot area it traps (R222). -/
def execRewind (source : BitVec 3) (s : State) : Out :=
  if !s.c.live then .next s
  else if source = 5 then .next (s.trapNow snapTrap true)
  else .next (s.fresh.rewindFrom source).landAt.fresh

/-- An error that arises of itself (R216): corrected and counted, found on fetch as a mark, or in core storage as a rewind of the
strand there. -/
def execSoftError (e : ErrSite) (s : State) : Out :=
  match e with
  | .corrected => .next { s with prot := { s.prot with ce := s.prot.ce + 1 } }
  | .memory loc =>
    let l := lineOf loc
    .next { s with poison := Store.set 0 s.poison l (Store.get 0 s.poison l ||| BitVec.twoPow 16 (loc % 128 / 8)) }
  | .core seq =>
    match (s.seqOf seq).active with
    | none => .next s
    | some a =>
      let key := 8 * seq + a
      if !(s.ctx key).live then .next s
      else .next (((s.focus key).fresh.rewindFrom 2).landAt.fresh.focus s.cur)

/-! ## The perch watchdog (R223) -/

/-- The census record of a line (R223). -/
def censusBytes (time : DWord) (line : Nat) (p : Perch) : List Byte :=
  let ds := sortBy (fun d => d.party.toNat) (p.dests.filter fun d => d.left ≠ 0)
  let n := min 120 ds.length
  let ents := (ds.take 120).flatMap fun d => Decode.leBytes 6 d.left ++ Decode.leBytes 2 d.party.toNat
  let head := Decode.leBytes 8 time.toNat ++ Decode.leBytes 2 p.rank ++ [BitVec.ofNat 8 line, BitVec.ofNat 8 n]
    ++ Decode.leBytes 4 (if 120 < ds.length then 1 else 0) ++ Decode.leBytes 8 (p.dests.map (·.left)).sum ++ List.replicate 40 0
  (head ++ ents ++ List.replicate 960 0).take 1024

/-- A watched line whose counters have stood for PW_WINDOW cycles (R223): its census, line by line, and a new window. -/
def State.census (s : State) (line : BitVec 6) : State :=
  match s.perchOf line with
  | none => s
  | some p =>
    let w := s.prot.window.toNat
    if p.waiters.isEmpty || w = 0 || decide (s.time.toNat < p.at_ + w) then s
    else
      let base := s.prot.log.toNat / 65536 * 65536 + 1024 * line.toNat
      let bs := censusBytes s.time line.toNat p
      -- the last line is written last: the record waits for the host to give up every line of it (R41)
      if !(s.heldLines (linesOf base 1024)).isEmpty then s.snoop (linesOf base 1024) []
      else
        let s := (List.range 8).foldl (fun s i => s.writeNow (base + 128 * i) ((bs.drop (128 * i)).take 128)) s
        s.setPerch line (some { p with at_ := s.time.toNat })

def execPerchWatchdogCensus (line : BitVec 6) (s : State) : Out := .next (s.census line)

/-! ## The row trackers (R86 to R88) -/

/-- RM_THRESH and RM_RADIUS as they act (R88). -/
def State.thresh (s : State) : Nat := max 64 s.rmThresh.toNat
def State.radius (s : State) : Nat := if s.rmRadius.toNat ≤ 1 then 1 else 2

/-- A tracker whose table is full and does not list the row: every count falls, and the zeros go (R86). -/
def trkDecay (t : Tracker) : Tracker := (t.map fun e => (e.1, e.2 - 1)).filter fun e => e.2 ≠ 0

/-- A tracker with a row's count raised to n. -/
def trkPut (t : Tracker) (row n : Nat) : Tracker :=
  if t.any fun e => e.1 = row then t.map fun e => if e.1 = row then (row, n) else e else t ++ [(row, n)]

/-- The directed refreshes around a row; rows below 0 do not exist. How many rows a bank has the spec does not say (log 25). -/
def State.refreshAround (s : State) (bank row : Nat) : State :=
  (List.range s.radius).foldl (fun s d =>
    let s := if d + 1 ≤ row then s.send (.directedRefresh bank (row - (d + 1))) else s
    s.send (.directedRefresh bank (row + (d + 1)))) s

/-- An activation (R86). -/
def execRowActivate (bank row : Nat) (s : State) : Out :=
  let t := Store.get [] s.trk bank
  let set (s : State) (t : Tracker) : State := { s with trk := Store.set [] s.trk bank t }
  match t.find? fun e => e.1 = row with
  | none =>
    if t.length < 16 then
      .next (set s (trkPut t row 1))
    else .next (set s (trkDecay t))
  | some e =>
    if e.2 + 1 < s.thresh then .next (set s (trkPut t row (e.2 + 1)))
    else
      let s := s.refreshAround bank row
      .next { set s (t.filter fun e => e.1 ≠ row) with rmCount := s.rmCount + 1 }

/-- Every 32 ms every tracker entry is cleared (R86). -/
def execRefreshWindowEnd (s : State) : Out := .next { s with trk := [] }

/-! ## Translation, digits, landings (R92, R166, R173) -/

/-- A translation returns (R92): the TLBs hold it, or the strand's bundle traps exactly. -/
def execTranslationReturn (va : DWord) (write : Bool) (s : State) : Out :=
  match s.check s.c va 0 1 (if write then .write else .read) false with
  | .ok _ => .next (s.touch s.c va)
  | .error t => .next (s.trapNow t (supCause t.cause))

/-- One step of every online operation of the strand (R166), with the digit-cycles that `.kill` saves (R172). What a restored
context runs waits for its first bundle (R180). -/
def execDigitStep (s : State) : Out :=
  let (c, n) := s.c.digits
  .next (({ s with c }).modSeq s.c.seq fun q => { q with chkills := q.chkills + BitVec.ofNat 64 n })

/-- The D-slot results whose landing cycle has come land, and those of the M and K slots with them (R173, R238). -/
def execRegisterLanding (s : State) : Out := .next (s.landings true)

/-! ## Issue (R218, R221, R228) -/

/-- Does a rewound strand stand at its rewind point, which its bundle, issuing again, does not set anew (R222)? -/
def Ctx.reissues (c : Ctx) : Bool := c.since = 0 && c.rewinds ≠ 0

/-- Has the strand of a context still to issue bundles again after a rewind, or issued the last of them in this cycle (R221)? -/
def State.behindRewind (s : State) (key : Nat) : Bool := (s.ctx key).again ≠ 0 || (s.ctx key).caughtUp = s.time.toNat

/-- A bundle with these header bits is about to issue: RDV waits for a rewound partner (R221); SEG, or what the bundle before has
performed, sets the rewind point (R218). -/
def State.opens (s : State) (seg rdv : Bool) : State :=
  if rdv && s.c.told.any s.behindRewind then { s with stall := some .freeze }
  else
    let s := s.modC fun c => { c with bound := false }
    if s.c.mark || (seg && !s.c.reissues) then s.modC (Ctx.snapshot · s.nextRef) else s

/-- An empty bundle (R228): its SEG, RDV and PPT bits act as for any bundle; PPT is read where the strand stands (R104). -/
def execEmptyBundle (seg rdv _ppt : Bool) (s : State) : Out := .next (s.opens seg rdv)

end Sys2Proof.Machine
end

