-- ==== Sys2Proof/Machine/Online.lean ====
section
/-!
DEFINITION. Online.lean: online arithmetic, decisions, sign operations, conversions, landings and random words (R318 to R327).
-/
namespace Sys2Proof.Machine

/-- `dadd` (R318). -/
def execDadd (d : DSlot) (s : State) : Out := s.online 0x01 d
/-- `dsub` (R318). -/
def execDsub (d : DSlot) (s : State) : Out := s.online 0x02 d
/-- `dmul` (R318). -/
def execDmul (d : DSlot) (s : State) : Out := s.online 0x03 d
/-- `dfma` (R318). -/
def execDfma (d : DSlot) (s : State) : Out := s.online 0x04 d
/-- `dfms` (R318). -/
def execDfms (d : DSlot) (s : State) : Out := s.online 0x05 d
/-- `ddiv` (R318): FP32 and FP16 alone; another resolved format is ILLEGAL at issue. -/
def execDdiv (d : DSlot) (s : State) : Out := s.online 0x06 d
/-- `dsqrt` (R318). -/
def execDsqrt (d : DSlot) (s : State) : Out := s.online 0x07 d
/-- `dcmp` (R319). -/
def execDcmp (d : DSlot) (s : State) : Out := s.online 0x0A d
/-- `dsel` (R321). -/
def execDsel (d : DSlot) (s : State) : Out := s.online 0x0B d
/-- `dclip` (R322). -/
def execDclip (d : DSlot) (s : State) : Out := s.online 0x0C d
/-- `dmax` (R320). -/
def execDmax (d : DSlot) (s : State) : Out := s.online 0x0D d
/-- `dmin` (R320). -/
def execDmin (d : DSlot) (s : State) : Out := s.online 0x0E d
/-- `dland` (R325). -/
def execDland (d : DSlot) (s : State) : Out := s.online 0x10 d
/-- `vsr` (R326): SA is an FP32 word or a port; the random bits are SB[31:16] of each lane. -/
def execVsr (d : DSlot) (s : State) : Out := s.online 0x12 d

/-- The sign bit of a format's value in the low bits of a word. -/
def signBit (f : Nat) : Word := BitVec.twoPow 32 ((fmtOf f).eb + (fmtOf f).fb)

/-- The bits of a format's value in a word (R151). -/
def fmtMask (f : Nat) : Word := BitVec.ofNat 32 (2 ^ ((fmtOf f).eb + (fmtOf f).fb + 1) - 1)

/-- `dabs` (R323): clears the sign bit; no flag. The residue comes from that of SA (R179). -/
def execDabs (d : DSlot) (s : State) : Out :=
  s.fixedRow 0x08 d (fun _ => 1) id fun r x l => (x.a.getD l 0 &&& fmtMask r.fmt &&& ~~~signBit r.fmt, x.aBad.getD l 0, 0)

/-- `dneg` (R323): inverts the sign bit; no flag. The residue comes from that of SA (R179). -/
def execDneg (d : DSlot) (s : State) : Out :=
  s.fixedRow 0x09 d (fun _ => 1) id fun r x l => ((x.a.getD l 0 &&& fmtMask r.fmt) ^^^ signBit r.fmt, x.aBad.getD l 0, 0)

/-- A conversion into an integer format (R150, R324): from a float with flags, from an integer with none. -/
def toInt (src dst mode : Nat) (sat ftz : Bool) (xv : BitVec 9) (rnd : BitVec 16) (w : Word) : Word × Fl :=
  if isInt src then (fitI dst sat (decodeI src w), 0)
  else
    let x := decodeF src ftz xv w
    let (r, fl) := floatToInt dst mode sat rnd x.v
    (r, fl ||| if x.snan then flInv else 0)

/-- `dcvt` (R324). A float destination lands as an online operation does (R316, t + n) or runs into a port; an integer one is
fixed at issue. The source format is MINOR[3:0]. -/
def execDcvt (d : DSlot) (s : State) : Out :=
  let src := d.minor.toNat
  s.dslot 0x0F d fun r es x =>
    if isFloat r.fmt then .next (s.issueOnline 0x0F d r es x)
    else
      let c := s.rd
      let mode := c.mode d.rm
      let (rnds, s) := s.draws mode d
      .next (s.issueFixed 0x0F d r es (if isInt src then 1 else 2) (c.dLanes d)
        ((List.range 16).map fun l =>
          let (w, fl) := toInt src r.fmt mode d.sat c.ftz c.xv ((rnds.getD l 0).extractLsb' 16 16) (x.a.getD l 0)
          (w, x.aBad.getD l 0, fl)))

/-- `vrng` (R327): sixteen words of the stream in three forms; the count rises by 16 whatever the predicate. -/
def execVrng (d : DSlot) (s : State) : Out :=
  s.dslot 0x11 d fun r es x =>
    let form := d.minor.toNat
    if r.fmt ≠ (if form = 0 then 9 else 0) then s.illegal
    else
      let c := s.rd
      let ws := draw (s.rank c.rank).key s.c.stream 16
      let s := s.modC fun y => { y with stream := y.stream + 16 }
      let lane (l : Nat) : LaneOut :=
        let w := ws.getD l 0
        let u := w.toNat / 256
        match form with
        | 0 => (w, 0, 0)
        | 1 => ((roundTo 0 0 false false false 0 (.val (.fin false u (-24)))).1, 0, 0)
        | _ =>
          let p := (decodeF 0 c.ftz 0 (x.a.getD l 0)).v
          (if !p.isNan && ltVal (.fin false u (-24)) p then 1 else 0, 0, 0)
      .next (s.issueFixed 0x11 d r es 2 (c.dLanes d) ((List.range 16).map lane))

end Sys2Proof.Machine
end

