-- ==== Sys2Proof/Machine/Scalar.lean ====
section
/-!
DEFINITION. Scalar.lean: the S-slot instructions of 15 but for `getc` and `putc` (R280 to R288).
-/
namespace Sys2Proof.Machine

/-- A result whose residues come from the result word (R281). -/
def State.put (s : State) (d : BitVec 6) (v : DWord) : Out := .next (s.modC fun c => c.ws d v)

/-- The halves of a scalar, as numbers. -/
def lo64 (x : DWord) : Nat := x.toNat % 2 ^ 32
def hi64 (x : DWord) : Nat := x.toNat / 2 ^ 32

/-- Residues of a scalar's low and high words; those of a constant are its own. -/
abbrev Res := Int × Int

def Res.of (v : DWord) : Res := ((lo64 v % 15 : Nat), (hi64 v % 15 : Nat))

/-- The residues that scalar i holds (R123). -/
def Ctx.resOf (c : Ctx) (i : BitVec 6) : Res :=
  let held (w : Word) (h : Nat) : Int := (residue w ^^^ (if i = 0 then 0 else Store.get 0 c.bad (2 * i.toNat + h))).toNat
  (held ((c.rs i).extractLsb' 0 32) 0, held ((c.rs i).extractLsb' 32 32) 1)

/-- Residues of a sum, a difference, a product's low 64 bits and a left shift, from the operands' residues and the carries, through
2^32 ≡ 1 modulo 15 (R179, R281). -/
def Res.add (a b : DWord) (x y : Res) : Res :=
  let c := (lo64 a + lo64 b) / 2 ^ 32
  (x.1 + y.1 - (c : Nat), x.2 + y.2 + (c : Nat) - ((hi64 a + hi64 b + c) / 2 ^ 32 : Nat))

def Res.sub (a b : DWord) (x y : Res) : Res :=
  let c := if lo64 a < lo64 b then 1 else 0
  (x.1 - y.1 + (c : Nat), x.2 - y.2 - (c : Nat) + (if hi64 a < hi64 b + c then 1 else 0))

def Res.mul (a b : DWord) (x y : Res) : Res :=
  let q := lo64 a * lo64 b / 2 ^ 32
  (x.1 * y.1 - (q : Nat), (q : Nat) + x.1 * y.2 + x.2 * y.1 - ((q + lo64 a * hi64 b + hi64 a * lo64 b) / 2 ^ 32 : Nat))

def Res.shl (a : DWord) (j : Nat) (x : Res) : Res :=
  let o := lo64 a * 2 ^ j / 2 ^ 32
  (x.1 * 2 ^ j - (o : Nat), x.2 * 2 ^ j + (o : Nat) - ((hi64 a * 2 ^ j + o) / 2 ^ 32 : Nat))

/-- How a residue formed in this way differs from the word's own. -/
def resOff (r : Int) (w : Word) : BitVec 4 := BitVec.ofNat 4 (r % 15).toNat ^^^ residue w

/-- A result whose residues come from those of its operands (R281): where theirs all agree, so do the result's. -/
def State.putFrom (s : State) (d : BitVec 6) (v : DWord) (srcs : List (BitVec 6)) (r : Res) : Out :=
  .next (s.modC fun c =>
    let y := c.ws d v
    if d ≠ 0 && srcs.any s.rd.sBad then
      { y with bad := Store.set 0 (Store.set 0 y.bad (2 * d.toNat) (resOff r.1 (v.extractLsb' 0 32))) (2 * d.toNat + 1)
                 (resOff r.2 (v.extractLsb' 32 32)) }
    else y)

/-- The sum of a scalar and a constant or another scalar's shift, with its residues. -/
def State.putSum (s : State) (d a : BitVec 6) (y : DWord) (srcs : List (BitVec 6)) (r : Res) : Out :=
  s.putFrom d (s.rd.rs a + y) (a :: srcs) (Res.add (s.rd.rs a) y (s.rd.resOf a) r)

/-- A scalar predicate's result. -/
def State.putB (s : State) (d : BitVec 4) (v : Bool) : Out := .next (s.modC fun c => c.wb d v)

/-- A shift amount: bits [5:0] of the scalar (R283). -/
def shiftBy (x : DWord) : Nat := (x.extractLsb' 0 6).toNat

/-- The high 64 bits of the 128-bit product (R283). -/
def mulHigh (a b : DWord) (unsigned : Bool) : DWord :=
  if unsigned then (a.zeroExtend 128 * b.zeroExtend 128).extractLsb' 64 64
  else (a.signExtend 128 * b.signExtend 128).extractLsb' 64 64

/-- Leading zero bits, 64 of zero (R283). -/
def clz64 (x : DWord) : Nat := ((List.range 64).find? fun i => x.getLsbD (63 - i)).getD 64

/-- Set bits (R283). -/
def popc64 (x : DWord) : Nat := ((List.range 64).filter x.getLsbD).length

/-- Ones in the low w bits. -/
def ones64 (w : Nat) : DWord := BitVec.ofNat 64 (2 ^ w - 1)

/-- The comparisons of R286. -/
def scalarCond (c : SCond) (x y : DWord) : Bool :=
  match c with
  | .eq => x == y
  | .ne => x != y
  | .lt => x.slt y
  | .ge => y.sle x
  | .ltu => x.ult y
  | .geu => y.ule x
  | .tst => x &&& y != 0
  | .ntst => x &&& y == 0

/-! ## Register operations (R283) -/

/-- `add` (R283). -/
def execAdd (d a b : BitVec 6) (s : State) : Out := s.putSum d a (s.rd.rs b) [b] (s.rd.resOf b)

/-- `sub` (R283). -/
def execSub (d a b : BitVec 6) (s : State) : Out :=
  s.putFrom d (s.rd.rs a - s.rd.rs b) [a, b] (Res.sub (s.rd.rs a) (s.rd.rs b) (s.rd.resOf a) (s.rd.resOf b))

/-- `mul` (R283). -/
def execMul (d a b : BitVec 6) (s : State) : Out :=
  s.putFrom d (s.rd.rs a * s.rd.rs b) [a, b] (Res.mul (s.rd.rs a) (s.rd.rs b) (s.rd.resOf a) (s.rd.resOf b))

/-- `mulh`, `mulh.u` (R283). -/
def execMulh (d a b : BitVec 6) (unsigned : Bool) (s : State) : Out := s.put d (mulHigh (s.rd.rs a) (s.rd.rs b) unsigned)

/-- `and` (R283). -/
def execAnd (d a b : BitVec 6) (s : State) : Out := s.put d (s.rd.rs a &&& s.rd.rs b)

/-- `or` (R283). -/
def execOr (d a b : BitVec 6) (s : State) : Out := s.put d (s.rd.rs a ||| s.rd.rs b)

/-- `xor` (R283). -/
def execXor (d a b : BitVec 6) (s : State) : Out := s.put d (s.rd.rs a ^^^ s.rd.rs b)

/-- `andn` (R283). -/
def execAndn (d a b : BitVec 6) (s : State) : Out := s.put d (s.rd.rs a &&& ~~~(s.rd.rs b))

/-- `shl` (R283). -/
def execShl (d a b : BitVec 6) (s : State) : Out := s.put d (s.rd.rs a <<< shiftBy (s.rd.rs b))

/-- `shr` (R283). -/
def execShr (d a b : BitVec 6) (s : State) : Out := s.put d (s.rd.rs a >>> shiftBy (s.rd.rs b))

/-- `sar` (R283). -/
def execSar (d a b : BitVec 6) (s : State) : Out := s.put d ((s.rd.rs a).sshiftRight (shiftBy (s.rd.rs b)))

/-- `rol` (R283). -/
def execRol (d a b : BitVec 6) (s : State) : Out := s.put d ((s.rd.rs a).rotateLeft (shiftBy (s.rd.rs b)))

/-- `min` (R283). -/
def execMin (d a b : BitVec 6) (s : State) : Out := s.put d (if (s.rd.rs a).slt (s.rd.rs b) then s.rd.rs a else s.rd.rs b)

/-- `max` (R283). -/
def execMax (d a b : BitVec 6) (s : State) : Out := s.put d (if (s.rd.rs a).slt (s.rd.rs b) then s.rd.rs b else s.rd.rs a)

/-- `minu` (R283). -/
def execMinu (d a b : BitVec 6) (s : State) : Out := s.put d (if (s.rd.rs a).ult (s.rd.rs b) then s.rd.rs a else s.rd.rs b)

/-- `maxu` (R283). -/
def execMaxu (d a b : BitVec 6) (s : State) : Out := s.put d (if (s.rd.rs a).ult (s.rd.rs b) then s.rd.rs b else s.rd.rs a)

/-- `clz` (R283). -/
def execClz (d a : BitVec 6) (s : State) : Out := s.put d (BitVec.ofNat 64 (clz64 (s.rd.rs a)))

/-- `popc` (R283). -/
def execPopc (d a : BitVec 6) (s : State) : Out := s.put d (BitVec.ofNat 64 (popc64 (s.rd.rs a)))

/-! ## Immediate forms (R284, R285) -/

/-- `addi` (R284). -/
def execAddi (d a : BitVec 6) (imm : BitVec 16) (s : State) : Out :=
  s.putSum d a (imm.signExtend 64) [] (Res.of (imm.signExtend 64))

/-- `andi` (R284). -/
def execAndi (d a : BitVec 6) (imm : BitVec 16) (s : State) : Out := s.put d (s.rd.rs a &&& imm.signExtend 64)

/-- `ori` (R284). -/
def execOri (d a : BitVec 6) (imm : BitVec 16) (s : State) : Out := s.put d (s.rd.rs a ||| imm.signExtend 64)

/-- `xori` (R284). -/
def execXori (d a : BitVec 6) (imm : BitVec 16) (s : State) : Out := s.put d (s.rd.rs a ^^^ imm.signExtend 64)

/-- `shli` (R284). -/
def execShli (d a k : BitVec 6) (s : State) : Out := s.put d (s.rd.rs a <<< k.toNat)

/-- `shri` (R284). -/
def execShri (d a k : BitVec 6) (s : State) : Out := s.put d (s.rd.rs a >>> k.toNat)

/-- `sari` (R284). -/
def execSari (d a k : BitVec 6) (s : State) : Out := s.put d ((s.rd.rs a).sshiftRight k.toNat)

/-- `roli` (R284). -/
def execRoli (d a k : BitVec 6) (s : State) : Out := s.put d ((s.rd.rs a).rotateLeft k.toNat)

/-- `bfx`, `bfx.sx` (R285): w is the field B plus 1. -/
def execBfx (d a width pos : BitVec 6) (signed : Bool) (s : State) : Out :=
  let w := width.toNat + 1
  let f := (s.rd.rs a >>> pos.toNat) &&& ones64 w
  s.put d (if signed && f.getLsbD (w - 1) then f ||| ~~~(ones64 w) else f)

/-- `bfi` (R285): reads the old sD. -/
def execBfi (d a width pos : BitVec 6) (s : State) : Out :=
  let m := ones64 (width.toNat + 1) <<< pos.toNat
  s.put d ((s.rd.rs d &&& ~~~m) ||| ((s.rd.rs a <<< pos.toNat) &&& m))

/-! ## Compare, select, predicates (R286) -/

/-- `cmp` (R286). -/
def execCmp (c : SCond) (d : BitVec 4) (a b : BitVec 6) (s : State) : Out := s.putB d (scalarCond c (s.rd.rs a) (s.rd.rs b))

/-- `cmpi` (R286): the immediate is sign-extended for every condition. -/
def execCmpi (c : SCond) (d : BitVec 4) (a : BitVec 6) (imm : BitVec 16) (s : State) : Out :=
  s.putB d (scalarCond c (s.rd.rs a) (imm.signExtend 64))

/-- `sel` (R286). -/
def execSel (d : BitVec 6) (c : BitVec 4) (a b : BitVec 6) (s : State) : Out :=
  s.put d (if s.rd.rb c then s.rd.rs a else s.rd.rs b)

/-- `band`, inverted with `.not` (R286). -/
def execBand (d a b : BitVec 4) (inv : Bool) (s : State) : Out := s.putB d ((s.rd.rb a && s.rd.rb b) != inv)

/-- `bor`, inverted with `.not` (R286). -/
def execBor (d a b : BitVec 4) (inv : Bool) (s : State) : Out := s.putB d ((s.rd.rb a || s.rd.rb b) != inv)

/-- `bxor`, inverted with `.not` (R286). -/
def execBxor (d a b : BitVec 4) (inv : Bool) (s : State) : Out := s.putB d ((s.rd.rb a != s.rd.rb b) != inv)

/-- `bandn`, inverted with `.not` (R286). -/
def execBandn (d a b : BitVec 4) (inv : Bool) (s : State) : Out := s.putB d ((s.rd.rb a && !s.rd.rb b) != inv)

/-! ## Constants and addresses (R287, R288) -/

/-- `movi` (R287). -/
def execMovi (d : BitVec 6) (imm : BitVec 36) (s : State) : Out := s.put d (imm.signExtend 64)

/-- `lui` (R287): the low half is kept, with its residue. -/
def execLui (d : BitVec 6) (imm : BitVec 32) (s : State) : Out :=
  let v : DWord := imm ++ (s.rd.rs d).extractLsb' 0 32
  s.putFrom d v [d] ((s.rd.resOf d).1, (Res.of v).2)

/-- `lea` (R288). -/
def execLea (d a b : BitVec 6) (j : BitVec 3) (s : State) : Out :=
  s.putSum d a (s.rd.rs b <<< j.toNat) [b] (Res.shl (s.rd.rs b) j.toNat (s.rd.resOf b))

/-- `leai` (R288). -/
def execLeai (d a : BitVec 6) (imm : BitVec 16) (s : State) : Out :=
  s.putSum d a (imm.signExtend 64) [] (Res.of (imm.signExtend 64))

end Sys2Proof.Machine
end

