-- ==== Sys2Proof/Machine/Dispatch.lean ====
section
/-!
DEFINITION. Dispatch.lean: the meaning of each constructor of `Instr`.
-/
namespace Sys2Proof.Machine

def exec (i : Instr) (s : State) : Host.Outcome State Fault Refusal :=
  match i with
  -- the instructions of the eight slots: C (14, 20)
  | .br g off => Sys2Proof.Machine.execBr g off s
  | .braAny g p off => Sys2Proof.Machine.execBraAny g p off s
  | .braAll g p off => Sys2Proof.Machine.execBraAll g p off s
  | .call g off => Sys2Proof.Machine.execCall g off s
  | .ret g k => Sys2Proof.Machine.execRet g k s
  | .jmpi g k => Sys2Proof.Machine.execJmpi g k s
  | .loop g c len stages step => Sys2Proof.Machine.execLoop g c len stages step s
  | .lbrk g k => Sys2Proof.Machine.execLbrk g k s
  | .spawn g k e a n => Sys2Proof.Machine.execSpawn g k e a n s
  | .launch g r => Sys2Proof.Machine.execLaunch g r s
  | .launchAfter g r => Sys2Proof.Machine.execLaunchAfter g r s
  | .exit g => Sys2Proof.Machine.execExit g s
  | .gjoin g grp line => Sys2Proof.Machine.execGjoin g grp line s
  | .gleave g grp => Sys2Proof.Machine.execGleave g grp s
  | .gwait g grp => Sys2Proof.Machine.execGwait g grp s
  | .parm g h => Sys2Proof.Machine.execParm g h s
  | .pwait g line b => Sys2Proof.Machine.execPwait g line b s
  | .tfence g => Sys2Proof.Machine.execTfence g s
  | .waitt g t => Sys2Proof.Machine.execWaitt g t s
  | .waitv g a v => Sys2Proof.Machine.execWaitv g a v s
  | .waitcSrc g c n => Sys2Proof.Machine.execWaitcSrc g c n s
  | .waitcLand g c n => Sys2Proof.Machine.execWaitcLand g c n s
  | .mclaim g b => Sys2Proof.Machine.execMclaim g b s
  | .mrel g => Sys2Proof.Machine.execMrel g s
  | .setft g base level => Sys2Proof.Machine.execSetft g base level s
  | .trap g imm => Sys2Proof.Machine.execTrap g imm s
  | .svc g imm => Sys2Proof.Machine.execSvc g imm s
  | .rfi g => Sys2Proof.Machine.execRfi g s
  | .ttload g t => Sys2Proof.Machine.execTtload g t s
  | .swapctx g a => Sys2Proof.Machine.execSwapctx g a s
  | .halt g => Sys2Proof.Machine.execHalt g s
  | .dbg g imm => Sys2Proof.Machine.execDbg g imm s
  -- A slot (16, 20)
  | .ld a q land size signed => Sys2Proof.Machine.execLd a q land size signed s
  | .st a d size => Sys2Proof.Machine.execSt a d size s
  | .vld a q land m => Sys2Proof.Machine.execVld a q land m s
  | .vst a d m => Sys2Proof.Machine.execVst a d m s
  | .vstCnt a d line m => Sys2Proof.Machine.execVstCnt a d line m s
  | .vldw a q land m => Sys2Proof.Machine.execVldw a q land m s
  | .pf a q land m => Sys2Proof.Machine.execPf a q land m s
  | .vgth base ix q land g => Sys2Proof.Machine.execVgth base ix q land g s
  | .vsct base ix g => Sys2Proof.Machine.execVsct base ix g s
  | .ldfe a q land m => Sys2Proof.Machine.execLdfe a q land m s
  | .stfe a d m => Sys2Proof.Machine.execStfe a d m s
  | .clrfe a => Sys2Proof.Machine.execClrfe a s
  | .ldv a q land w => Sys2Proof.Machine.execLdv a q land w s
  | .vsetChk b mask => Sys2Proof.Machine.execVsetChk b mask s
  | .vsetSt base b d mask => Sys2Proof.Machine.execVsetSt base b d mask s
  | .casv a v d => Sys2Proof.Machine.execCasv a v d s
  | .amo a op wide o => Sys2Proof.Machine.execAmo a op wide o s
  | .redAddF32 a d m => Sys2Proof.Machine.execRedAddF32 a d m s
  | .redAddBf16 a d m => Sys2Proof.Machine.execRedAddBf16 a d m s
  | .redAddBf16Sr a d m => Sys2Proof.Machine.execRedAddBf16Sr a d m s
  | .redAddBdx8 a d m => Sys2Proof.Machine.execRedAddBdx8 a d m s
  | .redAddBdx4 a d m => Sys2Proof.Machine.execRedAddBdx4 a d m s
  | .redMaxF32 a d m => Sys2Proof.Machine.execRedMaxF32 a d m s
  | .redAddS32 a d m => Sys2Proof.Machine.execRedAddS32 a d m s
  | .pstore a d fmt => Sys2Proof.Machine.execPstore a d fmt s
  | .fenceRel scope => Sys2Proof.Machine.execFenceRel scope s
  | .fenceAcq scope => Sys2Proof.Machine.execFenceAcq scope s
  | .fenceSc scope => Sys2Proof.Machine.execFenceSc scope s
  | .drain scope => Sys2Proof.Machine.execDrain scope s
  | .arrive c line scope => Sys2Proof.Machine.execArrive c line scope s
  | .arriveRel c line scope => Sys2Proof.Machine.execArriveRel c line scope s
  | .lqadv q => Sys2Proof.Machine.execLqadv q s
  | .tlbinvPage a => Sys2Proof.Machine.execTlbinvPage a s
  | .tlbinvCtx base => Sys2Proof.Machine.execTlbinvCtx base s
  | .tlbinvAll => Sys2Proof.Machine.execTlbinvAll s
  -- S slot (15)
  | .add d a b => Sys2Proof.Machine.execAdd d a b s
  | .sub d a b => Sys2Proof.Machine.execSub d a b s
  | .mul d a b => Sys2Proof.Machine.execMul d a b s
  | .mulh d a b unsigned => Sys2Proof.Machine.execMulh d a b unsigned s
  | .and d a b => Sys2Proof.Machine.execAnd d a b s
  | .or d a b => Sys2Proof.Machine.execOr d a b s
  | .xor d a b => Sys2Proof.Machine.execXor d a b s
  | .andn d a b => Sys2Proof.Machine.execAndn d a b s
  | .shl d a b => Sys2Proof.Machine.execShl d a b s
  | .shr d a b => Sys2Proof.Machine.execShr d a b s
  | .sar d a b => Sys2Proof.Machine.execSar d a b s
  | .rol d a b => Sys2Proof.Machine.execRol d a b s
  | .addi d a imm => Sys2Proof.Machine.execAddi d a imm s
  | .andi d a imm => Sys2Proof.Machine.execAndi d a imm s
  | .ori d a imm => Sys2Proof.Machine.execOri d a imm s
  | .xori d a imm => Sys2Proof.Machine.execXori d a imm s
  | .shli d a k => Sys2Proof.Machine.execShli d a k s
  | .shri d a k => Sys2Proof.Machine.execShri d a k s
  | .sari d a k => Sys2Proof.Machine.execSari d a k s
  | .roli d a k => Sys2Proof.Machine.execRoli d a k s
  | .bfx d a width pos signed => Sys2Proof.Machine.execBfx d a width pos signed s
  | .bfi d a width pos => Sys2Proof.Machine.execBfi d a width pos s
  | .clz d a => Sys2Proof.Machine.execClz d a s
  | .popc d a => Sys2Proof.Machine.execPopc d a s
  | .min d a b => Sys2Proof.Machine.execMin d a b s
  | .max d a b => Sys2Proof.Machine.execMax d a b s
  | .minu d a b => Sys2Proof.Machine.execMinu d a b s
  | .maxu d a b => Sys2Proof.Machine.execMaxu d a b s
  | .cmp c d a b => Sys2Proof.Machine.execCmp c d a b s
  | .cmpi c d a imm => Sys2Proof.Machine.execCmpi c d a imm s
  | .sel d c a b => Sys2Proof.Machine.execSel d c a b s
  | .band d a b inv => Sys2Proof.Machine.execBand d a b inv s
  | .bor d a b inv => Sys2Proof.Machine.execBor d a b inv s
  | .bxor d a b inv => Sys2Proof.Machine.execBxor d a b inv s
  | .bandn d a b inv => Sys2Proof.Machine.execBandn d a b inv s
  | .movi d imm => Sys2Proof.Machine.execMovi d imm s
  | .lui d imm => Sys2Proof.Machine.execLui d imm s
  | .getc d num => Sys2Proof.Machine.execGetc d num s
  | .putc num a => Sys2Proof.Machine.execPutc num a s
  | .lea d a b j => Sys2Proof.Machine.execLea d a b j s
  | .leai d a imm => Sys2Proof.Machine.execLeai d a imm s
  -- D slots (17)
  | .dadd d => Sys2Proof.Machine.execDadd d s
  | .dsub d => Sys2Proof.Machine.execDsub d s
  | .dmul d => Sys2Proof.Machine.execDmul d s
  | .dfma d => Sys2Proof.Machine.execDfma d s
  | .dfms d => Sys2Proof.Machine.execDfms d s
  | .ddiv d => Sys2Proof.Machine.execDdiv d s
  | .dsqrt d => Sys2Proof.Machine.execDsqrt d s
  | .dabs d => Sys2Proof.Machine.execDabs d s
  | .dneg d => Sys2Proof.Machine.execDneg d s
  | .dcmp d => Sys2Proof.Machine.execDcmp d s
  | .dsel d => Sys2Proof.Machine.execDsel d s
  | .dclip d => Sys2Proof.Machine.execDclip d s
  | .dmax d => Sys2Proof.Machine.execDmax d s
  | .dmin d => Sys2Proof.Machine.execDmin d s
  | .dcvt d => Sys2Proof.Machine.execDcvt d s
  | .dland d => Sys2Proof.Machine.execDland d s
  | .vrng d => Sys2Proof.Machine.execVrng d s
  | .vsr d => Sys2Proof.Machine.execVsr d s
  | .vadd d => Sys2Proof.Machine.execVadd d s
  | .vsub d => Sys2Proof.Machine.execVsub d s
  | .vmul d => Sys2Proof.Machine.execVmul d s
  | .vmulh d => Sys2Proof.Machine.execVmulh d s
  | .vand d => Sys2Proof.Machine.execVand d s
  | .vor d => Sys2Proof.Machine.execVor d s
  | .vxor d => Sys2Proof.Machine.execVxor d s
  | .vandn d => Sys2Proof.Machine.execVandn d s
  | .vshl d => Sys2Proof.Machine.execVshl d s
  | .vshr d => Sys2Proof.Machine.execVshr d s
  | .vsar d => Sys2Proof.Machine.execVsar d s
  | .vmin d => Sys2Proof.Machine.execVmin d s
  | .vmax d => Sys2Proof.Machine.execVmax d s
  | .vcmp d => Sys2Proof.Machine.execVcmp d s
  | .vsel d => Sys2Proof.Machine.execVsel d s
  | .vclz d => Sys2Proof.Machine.execVclz d s
  | .vpopc d => Sys2Proof.Machine.execVpopc d s
  | .vabs d => Sys2Proof.Machine.execVabs d s
  | .vneg d => Sys2Proof.Machine.execVneg d s
  | .vperm d => Sys2Proof.Machine.execVperm d s
  | .vrot d => Sys2Proof.Machine.execVrot d s
  | .vbcast d => Sys2Proof.Machine.execVbcast d s
  | .vshuf d => Sys2Proof.Machine.execVshuf d s
  | .vred d => Sys2Proof.Machine.execVred d s
  | .pand d => Sys2Proof.Machine.execPand d s
  | .por d => Sys2Proof.Machine.execPor d s
  | .pxor d => Sys2Proof.Machine.execPxor d s
  | .pandn d => Sys2Proof.Machine.execPandn d s
  | .ptest d => Sys2Proof.Machine.execPtest d s
  | .vmov d => Sys2Proof.Machine.execVmov d s
  | .vmovi d => Sys2Proof.Machine.execVmovi d s
  -- M and K slots (18)
  | .mload fmt plane src rows row0 => Sys2Proof.Machine.execMload fmt plane src rows row0 s
  | .mswap => Sys2Proof.Machine.execMswap s
  | .mma fmt bank ck acc src rmask cmask rows => Sys2Proof.Machine.execMma fmt bank ck acc src rmask cmask rows s
  | .mcfg neg tr => Sys2Proof.Machine.execMcfg neg tr s
  | .mclr bank ck => Sys2Proof.Machine.execMclr bank ck s
  | .mdrain fmt bank dst rows scale sr clip => Sys2Proof.Machine.execMdrain fmt bank dst rows scale sr clip s
  | .mchk bank r tol b => Sys2Proof.Machine.execMchk bank r tol b s
  | .kread bank index opnd col => Sys2Proof.Machine.execKread bank index opnd col s
  | .kwrite bank index opnd col => Sys2Proof.Machine.execKwrite bank index opnd col s
  | .kadd bank index opnd col => Sys2Proof.Machine.execKadd bank index opnd col s
  | .kreadck bank opnd col => Sys2Proof.Machine.execKreadck bank opnd col s
  -- X slot (19)
  | .cp p q co scope cnt => Sys2Proof.Machine.execCp p q co scope cnt s
  | .cp2d p q co scope cnt => Sys2Proof.Machine.execCp2d p q co scope cnt s
  | .launchX p => Sys2Proof.Machine.execLaunchX p s
  | .launchAfterX p => Sys2Proof.Machine.execLaunchAfterX p s
  | .collAr p co op => Sys2Proof.Machine.execCollAr p co op s
  | .collRs p co op => Sys2Proof.Machine.execCollRs p co op s
  | .collAg p co => Sys2Proof.Machine.execCollAg p co s
  | .collBc p co => Sys2Proof.Machine.execCollBc p co s
  | .dec d p co => Sys2Proof.Machine.execDec d p co s
  | .histOn t p q => Sys2Proof.Machine.execHistOn t p q s
  | .histOff t => Sys2Proof.Machine.execHistOff t s
  | .histRd t p co => Sys2Proof.Machine.execHistRd t p co s
  | .hscale t p q => Sys2Proof.Machine.execHscale t p q s
  | .seed p => Sys2Proof.Machine.execSeed p s
  | .migrMove p q co => Sys2Proof.Machine.execMigrMove p q co s
  | .migrPark p q co => Sys2Proof.Machine.execMigrPark p q co s
  | .migrRecall p q co => Sys2Proof.Machine.execMigrRecall p q co s
  | .migrEnd p q co => Sys2Proof.Machine.execMigrEnd p q co s
  -- events that the machine itself makes due
  | .emptyBundle seg rdv ppt => Sys2Proof.Machine.execEmptyBundle seg rdv ppt s
  | .loopBoundary => Sys2Proof.Machine.execLoopBoundary s
  | .fuseLoad fuses => Sys2Proof.Machine.execFuseLoad fuses s
  | .pllLock ok link => Sys2Proof.Machine.execPllLock ok link s
  | .cxlLinkTraining ok => Sys2Proof.Machine.execCxlLinkTraining ok s
  | .selfTest pass slicesOk bridgeOk => Sys2Proof.Machine.execSelfTest pass slicesOk bridgeOk s
  | .memoryTraining hbm tier ports => Sys2Proof.Machine.execMemoryTraining hbm tier ports s
  | .hardwareZeroing => Sys2Proof.Machine.execHardwareZeroing s
  | .timeDiscipline rootTime flit => Sys2Proof.Machine.execTimeDiscipline rootTime flit s
  | .supervisorStart strands => Sys2Proof.Machine.execSupervisorStart strands s
  | .digitStep => Sys2Proof.Machine.execDigitStep s
  | .registerLanding => Sys2Proof.Machine.execRegisterLanding s
  | .matrixOperationComplete id => Sys2Proof.Machine.execMatrixOperationComplete id s
  | .loadLanding id => Sys2Proof.Machine.execLoadLanding id s
  | .memoryAnswer id => Sys2Proof.Machine.execMemoryAnswer id s
  | .clusterStoreAccess id => Sys2Proof.Machine.execClusterStoreAccess id s
  | .requestDeparture rank req => Sys2Proof.Machine.execRequestDeparture rank req s
  | .writeQueueApply line => Sys2Proof.Machine.execWriteQueueApply line s
  | .countedDecrement rank line party bytes => Sys2Proof.Machine.execCountedDecrement rank line party bytes s
  | .trapEntry t supervisor => Sys2Proof.Machine.execTrapEntry t supervisor s
  | .rewind source => Sys2Proof.Machine.execRewind source s
  | .waitConditionMet seq => Sys2Proof.Machine.execWaitConditionMet seq s
  | .launchRecordRead rank va read => Sys2Proof.Machine.execLaunchRecordRead rank va read s
  | .strandGrant seq slot => Sys2Proof.Machine.execStrandGrant seq slot s
  | .swapBegin seq => Sys2Proof.Machine.execSwapBegin seq s
  | .swapComplete seq => Sys2Proof.Machine.execSwapComplete seq s
  | .spillEnd seq => Sys2Proof.Machine.execSpillEnd seq s
  | .fillEnd seq slot => Sys2Proof.Machine.execFillEnd seq slot s
  | .bucketRefill => Sys2Proof.Machine.execBucketRefill s
  | .bufferZeroingEnd b => Sys2Proof.Machine.execBufferZeroingEnd b s
  | .copySourceRelease id => Sys2Proof.Machine.execCopySourceRelease id s
  | .copyLanding id => Sys2Proof.Machine.execCopyLanding id s
  | .collParameterExchange id same => Sys2Proof.Machine.execCollParameterExchange id same s
  | .collSourceRelease id => Sys2Proof.Machine.execCollSourceRelease id s
  | .collEdgeArrival id party down data => Sys2Proof.Machine.execCollEdgeArrival id party down data s
  | .collLanding id failed => Sys2Proof.Machine.execCollLanding id failed s
  | .decoderRecordStart d => Sys2Proof.Machine.execDecoderRecordStart d s
  | .decoderSourceRelease d => Sys2Proof.Machine.execDecoderSourceRelease d s
  | .histSnapshot core rank slot loc co => Sys2Proof.Machine.execHistSnapshot core rank slot loc co s
  | .loadCopyEnd rank => Sys2Proof.Machine.execLoadCopyEnd rank s
  | .parkComplete rank => Sys2Proof.Machine.execParkComplete rank s
  | .recallComplete rank => Sys2Proof.Machine.execRecallComplete rank s
  | .rankEndComplete rank => Sys2Proof.Machine.execRankEndComplete rank s
  | .translationReturn va write => Sys2Proof.Machine.execTranslationReturn va write s
  | .sharedCacheAccess a => Sys2Proof.Machine.execSharedCacheAccess a s
  -- events that come from outside the chip, from software writes, or of themselves
  | .decoderFrameDone d f => Sys2Proof.Machine.execDecoderFrameDone d f s
  | .packetArrival a => Sys2Proof.Machine.execPacketArrival a s
  | .mapHoldReceived rank src => Sys2Proof.Machine.execMapHoldReceived rank src s
  | .mapEntryReceived rank entry src moved => Sys2Proof.Machine.execMapEntryReceived rank entry src moved s
  | .powerOnReset => Sys2Proof.Machine.execPowerOnReset s
  | .warmReset perst linkUp => Sys2Proof.Machine.execWarmReset perst linkUp s
  | .railOrderError => Sys2Proof.Machine.execRailOrderError s
  | .brownOut => Sys2Proof.Machine.execBrownOut s
  | .railAlert => Sys2Proof.Machine.execRailAlert s
  | .thermalTrip => Sys2Proof.Machine.execThermalTrip s
  | .thermalLimitLower tj => Sys2Proof.Machine.execThermalLimitLower tj s
  | .thermalLimitRaise tj => Sys2Proof.Machine.execThermalLimitRaise tj s
  | .powerWindowEvaluation avg => Sys2Proof.Machine.execPowerWindowEvaluation avg s
  | .vidbFrame code => Sys2Proof.Machine.execVidbFrame code s
  | .entdaa addr => Sys2Proof.Machine.execEntdaa addr s
  | .sidebandRead addr => Sys2Proof.Machine.execSidebandRead addr s
  | .sidebandWrite addr data => Sys2Proof.Machine.execSidebandWrite addr data s
  | .alertStatClear bits => Sys2Proof.Machine.execAlertStatClear bits s
  | .flitAck port seqNo => Sys2Proof.Machine.execFlitAck port seqNo s
  | .flitReplay port => Sys2Proof.Machine.execFlitReplay port s
  | .portDown port => Sys2Proof.Machine.execPortDown port s
  | .portRetrain port => Sys2Proof.Machine.execPortRetrain port s
  | .portUp port => Sys2Proof.Machine.execPortUp port s
  | .portCmdRetrain port => Sys2Proof.Machine.execPortCmdRetrain port s
  | .portCmdHold port => Sys2Proof.Machine.execPortCmdHold port s
  | .portCmdRelease port => Sys2Proof.Machine.execPortCmdRelease port s
  | .chanCfgWrite val => Sys2Proof.Machine.execChanCfgWrite val s
  | .chanCmdOpen secure => Sys2Proof.Machine.execChanCmdOpen secure s
  | .chanCmdFence => Sys2Proof.Machine.execChanCmdFence s
  | .chanCmdUnmap => Sys2Proof.Machine.execChanCmdUnmap s
  | .fabNodeWrite node => Sys2Proof.Machine.execFabNodeWrite node s
  | .openArrival src dst gen reply => Sys2Proof.Machine.execOpenArrival src dst gen reply s
  | .openRepeat ch => Sys2Proof.Machine.execOpenRepeat ch s
  | .openingTimeout ch => Sys2Proof.Machine.execOpeningTimeout ch s
  | .fenceMarkerArrival ch port => Sys2Proof.Machine.execFenceMarkerArrival ch port s
  | .fencingTimeout ch => Sys2Proof.Machine.execFencingTimeout ch s
  | .transferAcknowledged id => Sys2Proof.Machine.execTransferAcknowledged id s
  | .rejectionArrival id stale => Sys2Proof.Machine.execRejectionArrival id stale s
  | .transferTimeout id => Sys2Proof.Machine.execTransferTimeout id s
  | .timeExchange port offset nbr => Sys2Proof.Machine.execTimeExchange port offset nbr s
  | .timeLockLoss => Sys2Proof.Machine.execTimeLockLoss s
  | .cxlIoRequest r => Sys2Proof.Machine.execCxlIoRequest r s
  | .cmdtEnable t => Sys2Proof.Machine.execCmdtEnable t s
  | .cmdtDisable t => Sys2Proof.Machine.execCmdtDisable t s
  | .cxlMemRead pa stream => Sys2Proof.Machine.execCxlMemRead pa stream s
  | .cxlMemWrite pa data way => Sys2Proof.Machine.execCxlMemWrite pa data way s
  | .hostSnoop snoop => Sys2Proof.Machine.execHostSnoop snoop s
  | .backInvalidateResponse line => Sys2Proof.Machine.execBackInvalidateResponse line s
  | .getVersion => Sys2Proof.Machine.execGetVersion s
  | .getCapabilities => Sys2Proof.Machine.execGetCapabilities s
  | .negotiateAlgorithms supported => Sys2Proof.Machine.execNegotiateAlgorithms supported s
  | .getDigests slot => Sys2Proof.Machine.execGetDigests slot s
  | .getCertificate slot => Sys2Proof.Machine.execGetCertificate slot s
  | .challenge slot nonce => Sys2Proof.Machine.execChallenge slot nonce s
  | .getMeasurements nonce => Sys2Proof.Machine.execGetMeasurements nonce s
  | .keyExchange secure data => Sys2Proof.Machine.execKeyExchange secure data s
  | .finish => Sys2Proof.Machine.execFinish s
  | .loadRank r => Sys2Proof.Machine.execLoadRank r s
  | .startRank r => Sys2Proof.Machine.execStartRank r s
  | .parkRank r => Sys2Proof.Machine.execParkRank r s
  | .recallRank r => Sys2Proof.Machine.execRecallRank r s
  | .migrateRank r => Sys2Proof.Machine.execMigrateRank r s
  | .endRank r => Sys2Proof.Machine.execEndRank r s
  | .setChannel r => Sys2Proof.Machine.execSetChannel r s
  | .setWorld r => Sys2Proof.Machine.execSetWorld r s
  | .migrateRequestReceived m => Sys2Proof.Machine.execMigrateRequestReceived m s
  | .destAnswer rank n => Sys2Proof.Machine.execDestAnswer rank n s
  | .precopyRoundEnd rank => Sys2Proof.Machine.execPrecopyRoundEnd rank s
  | .mapHoldAnswer rank node ready => Sys2Proof.Machine.execMapHoldAnswer rank node ready s
  | .mapHoldTimeout rank => Sys2Proof.Machine.execMapHoldTimeout rank s
  | .migrationDestReady rank => Sys2Proof.Machine.execMigrationDestReady rank s
  | .mapAckReceived rank node => Sys2Proof.Machine.execMapAckReceived rank node s
  | .mapAckTimeout rank node => Sys2Proof.Machine.execMapAckTimeout rank node s
  | .leagueKeepalive rank => Sys2Proof.Machine.execLeagueKeepalive rank s
  | .migrationAbortReceived rank => Sys2Proof.Machine.execMigrationAbortReceived rank s
  | .incomingTimeout rank => Sys2Proof.Machine.execIncomingTimeout rank s
  | .rowActivate bank row => Sys2Proof.Machine.execRowActivate bank row s
  | .refreshWindowEnd => Sys2Proof.Machine.execRefreshWindowEnd s
  | .timetableSlotStart dom => Sys2Proof.Machine.execTimetableSlotStart dom s
  | .minresExpiry seq => Sys2Proof.Machine.execMinresExpiry seq s
  | .tbCfgWrite val => Sys2Proof.Machine.execTbCfgWrite val s
  | .domCfgWrite val => Sys2Proof.Machine.execDomCfgWrite val s
  | .wcfgWrite val => Sys2Proof.Machine.execWcfgWrite val s
  | .mownWrite val => Sys2Proof.Machine.execMownWrite val s
  | .worldBlkWrite val => Sys2Proof.Machine.execWorldBlkWrite val s
  | .worldRegionWrite val => Sys2Proof.Machine.execWorldRegionWrite val s
  | .worldMapBaseWrite val => Sys2Proof.Machine.execWorldMapBaseWrite val s
  | .pwCmdForce line => Sys2Proof.Machine.execPwCmdForce line s
  | .errinjWrite val => Sys2Proof.Machine.execErrinjWrite val s
  | .perchWatchdogCensus line => Sys2Proof.Machine.execPerchWatchdogCensus line s
  | .debuggerResume seq => Sys2Proof.Machine.execDebuggerResume seq s
  | .cxlCacheResponse line data => Sys2Proof.Machine.execCxlCacheResponse line data s
  | .ideKmRequest stream secure => Sys2Proof.Machine.execIdeKmRequest stream secure s
  | .debuggerAttach seq on => Sys2Proof.Machine.execDebuggerAttach seq on s
  | .softError e => Sys2Proof.Machine.execSoftError e s

end Sys2Proof.Machine
end

