-- ==== Sys2Proof/Machine/Cycle.lean ====
section
/-!
DEFINITION. Cycle.lean: how a sequencer's turn passes: fetch (R92, R229), the issue and commit of a bundle with its traps, stalls and
rewinds (R134 to R136, R187, R209, R210, R218), the end of a cycle (R166, R173), whose turn comes next, and what passes with
device time.
-/
namespace Sys2Proof.Machine

/-! ## Fetch (R92, R227 to R229) -/

/-- A bundle has been fetched: its page is translated (R92), and its line read through the shared cache (R76). -/
def State.fetched (s : State) (pc : DWord) (loc : Nat) : State := (s.touch s.c pc).slicesUse [lineOf loc] false

/-- The bundle at the strand's PC, pad words passed over, or the trap of its fetch; the PC is that of the header reached. No answer
when pad words outlast the fuel: the fetch goes on in the next cycle. -/
def State.fetch : Nat → State → State × Option (Except TrapInfo Decode.Bundle)
  | 0, s => (s, none)
  | fuel + 1, s =>
    let pc := s.c.pc
    match s.check s.c pc 0 4 .fetch false with
    | .error t => (s, some (.error { t with lane := 0xFF }))
    | .ok loc =>
      match Decode.bundle (s.bytesNow loc (64 - pc.toNat % 64)) with
      | .pad =>
        let next := pc + 64 - (pc &&& 63)
        State.fetch fuel (s.modC fun c => { c with pc := next, npc := next })
      | .bundle b => (s.fetched pc loc, some (.ok b))
      | .reject (.illegal k) => (s.fetched pc loc, some (.error (mkTrap 0x01 0xFF (BitVec.ofNat 32 k) 0)))
      | .reject (.bankClash b) => (s.fetched pc loc, some (.error (mkTrap 0x02 0xFF (b.setWidth 32) 0)))

/-! ## Issue -/

/-- C-slot instructions that act after the other slots of their bundle (R209, R271, R374 to R378). -/
def actsAfter : Instr → Bool
  | .trap .. | .svc .. | .tfence .. | .pwait .. | .gwait .. | .rfi .. | .swapctx .. | .halt .. | .dbg .. | .exit .. => true
  | _ => false

/-- Does an instruction read a register of the chip or of its core as it stands at the issue of its bundle, before the effects of the
bundle's other slots: `getc` (R289, R290), and an M or K slot the ownership of the engine (R137, R187)? -/
def readsFirst (x : Nat × Instr) : Bool :=
  match x.2 with
  | .getc .. => true
  | _ => x.1 = 5 || x.1 = 6

/-- The slots of a bundle in the order in which they act. -/
def issueOrder (l : List (Nat × Instr)) : List (Nat × Instr) := l.filter readsFirst ++ l.filter fun x => !readsFirst x

/-- Slots, each by its meaning, in order; the reads of the other slots come before the X slot's effects (R187). -/
def runSlots : List (Nat × Instr) → State → Out
  | [], s => .next s
  | (k, i) :: rest, s => match exec i { (if k = 7 then s.readsDone else s) with slot := k } with
    | .next s => runSlots rest s
    | o => o

/-- The group of R210 in which a trap is reported; those of decode are found before any slot runs. -/
def trapGroup (t : TrapInfo) : Nat :=
  if t.cause = 0x0C then 4
  else if 0x08 ≤ t.cause.toNat && t.cause.toNat ≤ 0x0B then 3
  else if t.cause = 0x06 && t.info.extractLsb' 24 4 = 5 then 3
  else 2

/-- The exact trap that a bundle reports: the first slot of the first group (R210). -/
def firstTrap (l : List (TrapInfo × State)) : Option (TrapInfo × State) :=
  l.foldl (fun best x => match best with
    | some b => if trapGroup x.1 < trapGroup b.1 then some x else some b
    | none => some x) none

/-- What each slot alone does to the machine as the bundle finds it, or the first outcome that is no next state. -/
def tryAlone (s : State) : List (Nat × Instr) → Except Out (List State)
  | [] => .ok []
  | (k, i) :: rest => match exec i { s with slot := k }, tryAlone s rest with
    | .next t, .ok l => .ok (t :: l)
    | .next _, .error o => .error o
    | o, _ => .error o

/-- A freeze, and the hold of `tfence`, are no pre-emption point, nor is the one before their bundle any more (R133, R221, R277). -/
def isFreeze (k : Option Stall) : Bool := k = some .freeze || k = some .fence

/-- The bundle does not issue in this cycle; the strand stands as it was. -/
def State.halted (s : State) (k : Option Stall) : State :=
  { s.modC fun c => { c with past := c.past || isFreeze k } with stall := k }

/-- A bundle that does not issue leaves the rewind point as it was. -/
def State.keepPoint (s t : State) : State :=
  t.modC fun c => { c with
    snap := s.c.snap, point := s.c.point, rewinds := s.c.rewinds, since := s.c.since, mark := s.c.mark, bound := s.c.bound
    past := s.c.past || isFreeze t.stall }

/-- The queues after a bundle (R134, R135): entries that stood before it come one nearer, and popped ones go. -/
def Ctx.advanceQueues (c old : Ctx) (pops : BitVec 4) : Ctx :=
  (List.range 4).foldl (fun c k =>
    let q : BitVec 2 := BitVec.ofNat 2 k
    let n := (old.queue q).length
    let l := (c.queue q).zipIdx.map fun x => if x.2 < n then { x.1 with dist := x.1.dist - 1 } else x.1
    c.setQueue q (if pops.getLsbD k then l.drop 1 else l)) c

/-- What the issue of a bundle does besides its slots: queues, the counts of R221, the charge of R113, the first step of held
operations (R180). -/
def State.commit (s : State) (old : Ctx) (b : Decode.Bundle) : State :=
  let d := (b.slots.filter fun x => x.1 = 3 || x.1 = 4).length
  let s := s.modC fun c =>
    { c.advanceQueues old s.pops with
      since := c.since + 1
      again := c.again - 1
      caughtUp := if c.again = 1 then s.time.toNat else c.caughtUp
      told := c.told.filter s.behindRewind
      fresh := false
      past := false }
  s.charge s.c.rank 2 (1 + 2 * d)

/-- Loads, answers and M and K operations of the strand end now, those that wait on a full/empty bit apart. -/
def State.landAll (s : State) : State :=
  ((s.inFlightOf s.cur).foldl (fun s id => if s.ready id then (s.perform id).unpark id else s) s).runEngine 512

/-- What a `swapctx` finds at its turn, after the other slots of its bundle: the drain that it implies has been waited for at its issue,
and what its own bundle has written is not before it (R187, R376). -/
def State.drainMet (s : State) : State :=
  { s with host := { s.host with wbWait := Store.set none s.host.wbWait s.cur (some []) } }

/-- An exact trap taken by a strand, which stands as it was while the trap waits, its frame's lines asked back from the host (R41,
R211). -/
def State.landTrap (s was : State) (t : TrapInfo) (sup : Bool) : State :=
  let s' := s.takeTrap t sup
  if s'.stall.isSome then (was.snoop (was.frameLines (sup || was.c.sv)) []).halted s'.stall else s'.landAt

/-- The slots of a bundle that will commit: all but one that acts after, then what the issue does, the loop boundary (R266), and
the one that acts after. A slot that finds that it must wait after all holds the whole bundle. -/
def State.commitBundle (s s1 : State) (b : Decode.Bundle) : Out :=
  match runSlots (issueOrder (b.slots.filter fun x => !actsAfter x.2)) s1 with
  | .next a =>
    if a.stall.isSome then .next (s.halted a.stall)
    else match a.trapped with
      | some t => .next (s1.landTrap s t (supCause t.cause))
      | none =>
        let a := a.commit s1.c b
        match (if a.jumped then .next a else exec .loopBoundary a) with
        | .next a => match b.slots.filter fun x => actsAfter x.2 with
          | [] => .next a.landAt
          | (k, i) :: _ =>
            let moves := match i with
              | .rfi g | .swapctx g _ => a.rd.rb g.bp != g.bn
              | _ => false
            match exec i { (if moves then a.landAll.drainMet else a) with slot := k } with
            | .next z => if z.stall.isSome then .next (s.halted z.stall) else .next z.landAt
            | o => o
        | o => o
  | o => o

/-- What the slots of a bundle find: the next PC behind the bundle, the strand and its rank's format table as they were, and the queues
that the bundle pops. -/
def State.slotted (s : State) (b : Decode.Bundle) : State :=
  let s := s.modC fun c => { c with npc := c.pc + BitVec.ofNat 64 b.size }
  { s with
    old := some s.c
    oldFmt := some (s.rank s.c.rank).fmt
    issueRef := s.nextRef
    pops := b.slots.foldl (fun m x => m ||| popsOf x.2) 0 }

/-! ## The twin (R127, log 42) -/

/-- The words of a store as the twin has them: `tw` holds how they differ. The keys of `tw` are those of `Ctx.bad`. -/
def Ctx.twinBad (c : Ctx) (k : Nat) (mine : Word) : BitVec 4 :=
  let t := Store.get 0 c.tw k
  Store.get 0 c.bad k ^^^ t.extractLsb' 32 4 ^^^ residue mine ^^^ residue (mine ^^^ t.setWidth 32)

/-- The twin's copy of a load-queue entry. -/
def QEntry.twin (x : QEntry) : QEntry :=
  { x with
    words := x.words.zipIdx.map fun w => w.1 ^^^ (Store.get 0 x.tw w.2).setWidth 32
    bad := x.tw.foldl (fun (b : BitVec 64) e =>
      let w := x.words.getD e.1 0
      let off : BitVec 4 := residue w ^^^ residue (w ^^^ e.2)
      b ^^^ (off.setWidth 64 <<< (4 * e.1))) x.bad }

/-- The twin's context: the leader's, but for the words that differ. -/
def Ctx.twin (c : Ctx) : Ctx :=
  let one (t : Ctx) (e : Nat × BitVec 36) : Ctx :=
    let k := e.1
    let flip : Word := e.2.setWidth 32
    if 128 ≤ k then
      let w := Store.get 0 c.v (k - 128)
      { t with v := Store.set 0 t.v (k - 128) (w ^^^ flip), bad := Store.set 0 t.bad k (c.twinBad k w) }
    else
      let v := Store.get 0 t.s (k / 2)
      let w : Word := v.extractLsb' (32 * (k % 2)) 32
      { t with
        s := Store.set 0 t.s (k / 2) (v ^^^ (flip.setWidth 64 <<< (32 * (k % 2))))
        bad := Store.set 0 t.bad k (c.twinBad k w) }
  { c.tw.foldl one c with q := c.q.map fun e => (e.1, e.2.map QEntry.twin) }

/-- Does a word of the twin's differ from the leader's, or its residue? -/
def Ctx.split (c : Ctx) : Bool := !c.tw.isEmpty || c.q.any fun e => e.2.any fun x => !x.tw.isEmpty

/-- What a commit signature covers of a strand after a slot (R127): its results, those of the digit units when they have all landed;
not the residues, nor the words that differed before and that the slot has not written. -/
def Ctx.signed (c : Ctx) : Ctx :=
  let c := (List.range 64).foldl (fun (c : Ctx) _ => c.digits.1.landings) { c with fresh := false }
  let left (k : Nat) : Bool := (Store.get 0 c.tw k).setWidth 32 ≠ (0 : Word)
  let plain (l : DLane) : DLane := { l with a := 0, b := 0, c := 0, bad := 0, resBad := false, rnd := 0 }
  { c with
    v := c.v.filter fun e => !left (128 + e.1)
    s := c.s.filter fun e => !left (2 * e.1) && !left (2 * e.1 + 1)
    bad := []
    q := c.q.map fun e => (e.1, e.2.map fun x => { x with words := [], bad := 0 })
    dops := c.dops.map fun o => { o with lanes := o.lanes.map plain, badOut := [] }
    snap := none }

/-- The machine after a slot, as the signatures of the two compare it. -/
def State.signed (s : State) : State := { s with c := s.c.signed, old := none }

/-- Is a slot's result part of the commit signature: all but those of the M slot, the K slot, which has the leader's data in both
(R336), and the slots that read no word of the strand's registers? -/
def inSignature (x : Nat × Instr) : Bool :=
  x.1 ≠ 5 && x.1 ≠ 6 && match x.2 with
  | .pwait .. | .swapctx .. => true
  | i => !actsAfter i

/-- The sequencer of a protected strand's twin (R127). -/
def State.twin (s : State) : Option Nat := if (s.rank s.c.rank).prot && !s.c.resident then some (s.c.seq + 1) else none

/-- In protected mode, the twin's part in a bundle where one of its words differs from the leader's (R127, log 42): each slot run on the
twin's words, as `ts` are the leader's. A residue that disagrees in the twin rewinds with source 1 (R217), signatures that differ with
source 3. -/
def State.mismatch (s : State) (b : Decode.Bundle) (ts : List State) : Option (BitVec 3) :=
  if s.twin.isNone || !s.c.split then none
  else match tryAlone { s with c := s.c.twin, old := s.old.map Ctx.twin } b.slots with
    | .error _ => some 3
    | .ok us =>
      if us.any fun u => u.stall = some .rewind then some 1
      else if (b.slots.zip (ts.zip us)).any fun x => inSignature x.1 && decide (x.2.1.signed ≠ x.2.2.signed) then some 3
      else none

/-- Is the twin's signature of this bundle spoilt (R225)? -/
def State.spoilt (s : State) : Bool :=
  match s.twin with
  | none => false
  | some q => (s.seqOf q).spoilt || s.spoils q

/-- The spoilt signature has been compared (R225). -/
def State.unspoilt (s : State) : State :=
  match s.twin with
  | none => s
  | some q =>
    let t := s.modSeq q fun x => { x with spoilt := false }
    if s.spoils q then { t with prot := { t.prot with errinj := t.prot.errinj &&& ~~~3 } } else t

/-- A bundle at its issue: the interlock (R294), a rendezvous (R221), then every slot alone, for a rewind, a stall, what the twin finds
(R127) or an exact trap; where there is none, the spoilt signature (R225), and the commit. -/
def State.issueBundle (s : State) (b : Decode.Bundle) : Out :=
  if b.slots.any fun x => s.locked x.2 then .next (s.halted (some .freeze))
  else
    let h := b.hdr
    match (if b.slots.isEmpty then exec (.emptyBundle h.seg h.rdv h.ppt) s else .next (s.opens h.seg h.rdv)) with
    | .next s1 =>
      if s1.stall.isSome then .next (s.halted s1.stall)
      else
        let s1 := s1.slotted b
        match tryAlone s1 b.slots with
        | .error o => o
        | .ok ts =>
          match ts.find? fun t => t.stall = some .rewind, ts.find? fun t => t.stall.isSome with
          | some t, _ => .next t.landAt
          | none, some t => .next (s.keepPoint t)
          | none, none =>
            let traps := ts.filterMap fun t => match t.trapped with
              | some x => if x.kind = 0 then some (x, t) else none
              | none => none
            match s1.mismatch b ts, firstTrap traps with
            | some src, _ => .next (s1.unspoilt.rewindFrom src).landAt
            | none, some (_, t) => .next t.landAt
            | none, none => if s1.spoilt then .next (s1.unspoilt.rewindFrom 3).landAt else s.commitBundle s1 b
    | o => o

/-- Words that take a trap at their decode: the errors that their other slots start go before it (R210). -/
def State.decodeTrap (s : State) (t : TrapInfo) : State :=
  let errors := match t.cause.toNat, s.check s.c s.c.pc 0 4 .fetch false with
    | 0x01, .ok loc | 0x02, .ok loc =>
      let l := Decode.readable (s.bytesNow loc (64 - s.c.pc.toNat % 64))
      (tryAlone { s with old := some s.c, oldFmt := some (s.rank s.c.rank).fmt, issueRef := s.nextRef } l).toOption.getD []
    | _, _ => []
  match errors.find? fun u => u.stall = some .rewind with
  | some u => u.landAt
  | none => s.landTrap s t (supCause t.cause)

/-- The strand that moves issues: a trap that is due, or the bundle at its PC. -/
def State.issue (s : State) : Out :=
  match s.c.due with
  | some (t, sup) =>
    if s.trapWaits (sup || s.c.sv) then .next ((s.snoop (s.frameLines (sup || s.c.sv)) []).halted (some .freeze))
    else .next ((s.modC fun c => { c with due := none, npc := c.pc }).takeTrap t sup).landAt
  | none =>
    match State.fetch 4096 s with
    | (s, none) => .next { s with stall := some .hold }
    | (s, some (.error t)) => .next (s.decodeTrap t)
    | (s, some (.ok b)) => s.issueBundle b

/-! ## The end of a cycle -/

/-- The matrix engine goes on in every cycle; the digit units do in all but a clock freeze and a rewind (R136). -/
def State.cycleEnd (s : State) : Out :=
  let still := s.stall = some .freeze || s.stall = some .rewind
  let s := s.engineCycle
  if still then .next (s.landings false)
  else match exec .digitStep s with
    | .next s => exec .registerLanding s
    | o => o

/-! ## What passes with device time -/

/-- Every 32 ms the refresh window ends (R86); every 100 µs VIDB carries the set-point (R20), and every 10 µs the power is evaluated
(R12). -/
def State.slowTick (s : State) : State :=
  let t := s.time.toNat
  let s := if t % 128000000 = 0 then { s with trk := [] } else s
  let s := if t % 400000 = 0 then s.vidbSend s.pwr.vid else s
  if t % 40000 = 0 then s.due (.powerWindowEvaluation (Config.windowPower t)) else s

/-- The thermal limit moves every 1 ms while the temperature asks for it (R14), and ALERT_STAT holds what still has its cause
(R20). -/
def State.powerTick (s : State) : State :=
  let s := s.alert s.alertCauses
  if s.time.toNat < s.pwr.thermAt then s
  else if 95 ≤ s.pwr.tj.toNat then s.due (.thermalLimitLower s.pwr.tj)
  else if s.pwr.tj.toNat < 90 && decide (s.pwr.thermal < s.pwr.limitW) then s.due (.thermalLimitRaise s.pwr.tj)
  else s

/-- One count of device time, with what comes due by it. -/
def State.tickOne (s : State) : State :=
  let s := { s with time := s.time + 1 }
  let s := s.fabricTick.leagueTick
  let s := if s.time.toNat % 1024 = 0 then s.bucketRefill else s
  let s := (s.sched.doms.map (·.1)).foldl State.timetableSlotStart s
  let s := (s.perch.map (·.1)).foldl (fun s (l : Nat) => s.census (BitVec.ofNat 6 l)) s
  s.powerTick.slowTick

/-- One cycle: device time counts one, or, as a correction asks, none or two (R36). -/
def State.tick (s : State) : State :=
  if s.fab.hold then { s with fab := { s.fab with hold := false } }
  else if s.fab.skip then { s with fab := { s.fab with skip := false } }.tickOne.tickOne
  else s.tickOne

/-- What has become due after a turn without an event of its own: write-queue entries 64 cycles old (R305), accesses whose wait is over,
and the dependences of launches (R99). -/
def State.dues (s : State) : State :=
  let old := s.wq.filter fun e => decide (e.at_ + 64 ≤ s.time.toNat)
  (old.foldl (fun s e => s.due (.writeQueueApply (e.lines.headD 0))) s).served.sampleDeps

/-- What comes between two cycles, after the launches of the one and before the issues of the next: changes of worlds (R50), grants (R100
to R103), decoder records (R363), edges of collectives (R31), and the command tables (R46). -/
def State.cycleStart (s : State) : State :=
  let s := s.regionsDue
  let s := s.grantsDue.foldl (fun s g => s.grant g.1 g.2) { s with opening := false }
  let s := match (List.range 16).find? fun d => s.decReady (BitVec.ofNat 4 d) with
    | some d => s.due (.decoderRecordStart (BitVec.ofNat 4 d))
    | none => s
  let s := match s.collAgain with
    | some id => s.collRetry id
    | none => s
  (List.range 4).foldl (fun s t =>
    if (s.cmdt t).done.isSome then s.finishRecord t else if s.serveDue t then s.serve t else s) s

/-! ## Turns (log 1) -/

/-- The sequencers that have something to do, a number possibly more than once. -/
def State.busySeqs (s : State) : List Nat :=
  let busy (q : Seq) : Bool := q.active.isSome || q.swapTo.isSome || q.spilling || q.filling.isSome
  ((s.seqs.filter fun e => busy e.2).map (·.1) ++ (s.ctxs.filter fun e => e.2.live).map fun e => e.1 / 8)
    ++ if s.c.live then [s.cur / 8] else []

/-- The lowest of a list, if any. -/
def lowest : List Nat → Option Nat
  | [] => none
  | x :: xs => match lowest xs with
    | some y => some (min x y)
    | none => some x

/-- The turn of the lowest sequencer that has something to do. -/
def State.first (s : State) : State :=
  match lowest s.busySeqs with
  | some q => s.focus (s.activeKey q)
  | none => s

/-- The next sequencer's turn: the next one up; past the last, device time moves and the lowest comes, after what comes between two
cycles. -/
def State.advance (s : State) : State :=
  match lowest (s.busySeqs.filter fun q => decide (s.cur / 8 < q)) with
  | some q => s.focus (s.activeKey q)
  | none => { s.tick with opening := true }.first

/-- Freeze cycles of R12, cluster by cluster. -/
def State.throttled (s : State) (seq : Nat) : Bool := s.pwr.throt && Config.freezeCycle s.time.toNat (seq / 32)

/-- The wait of a sequencer's active strand ends once its condition holds (R104, R276). -/
def State.waitCheck (s : State) (seq : Nat) : Out :=
  if (s.ctx (s.activeKey seq)).wait.isSome then exec (.waitConditionMet seq) s else .next s

/-- The active strand of a sequencer in its turn: it issues, or its cycle is a freeze or a hold; then the cycle ends. -/
def State.strandTurn (s : State) (seq a : Nat) (kept : Option Stall) : Out :=
  let s := s.fresh.focus (8 * seq + a)
  let s := s.charge s.c.rank 0 1
  let seg := isSeg (s.nextHeader s.c)
  let o : Out := if (s.seqOf seq).stopped || s.throttled seq then .next { s with stall := some .freeze }
    else match kept with
      | some k => .next { s with stall := some k }
      | none =>
        if !s.c.live then .next { s with stall := some .hold }
        else if s.c.pause then .next { s.modC fun c => { c with pause := false } with stall := some .hold }
        else s.issue
  match o with
  | .next s => match (if seg && s.stall.isNone then s.noteEntry seq else s).cycleEnd with
    | .next s => .next s.fresh
    | o => o
  | o => o

/-- Would the active strand of a sequencer take an exact trap now? Where a pre-emption point falls before its bundle, the trap comes
first, and the switch at the next one (R210). -/
def State.trapsNext (s : State) (seq a : Nat) : Bool :=
  let s := s.fresh.focus (8 * seq + a)
  s.c.live && !s.c.pause && !(s.seqOf seq).stopped && !s.throttled seq && match s.issue with
  | .next t => match t.trapped with
    | some x => x.kind = 0
    | none => false
  | _ => false

/-- A sequencer's turn before it issues, with a trap before a switch that the turn would begin. -/
def State.turnOrTrap (s : State) (seq : Nat) : Option Stall × State :=
  let (kept, t) := s.turn seq
  let was := s.seqOf seq
  let now := t.seqOf seq
  match was.active with
  | none => (kept, t)
  | some a =>
    if (now.active ≠ was.active || (now.swapTo.isSome && was.swapTo.isNone)) && s.trapsNext seq a then (none, s) else (kept, t)

/-- The turn of the sequencer that moves next, what has become due, and the next one's turn; or what comes between two cycles. -/
def State.runTurn (s : State) : Out :=
  if s.opening then .next s.cycleStart.served.first
  else
    let seq := s.cur / 8
    match s.waitCheck seq with
    | .next s =>
      let (kept, s) := s.turnOrTrap seq
      match (s.seqOf seq).active with
      | none => .next s.dues.advance
      | some a => match s.strandTurn seq a kept with
        | .next s => .next s.dues.advance
        | o => o
    | o => o

/-! ## Bring-up, and the events that come from outside -/

/-- The next event of bring-up, with every part found good (R17, log 9). -/
def State.bringup (s : State) : Out :=
  if s.pwr.orderErr then .fault .noProgram
  else match s.pwr.phase with
    | 0 => if s.pwr.err = 1 then exec (.cxlLinkTraining true) s else exec (.fuseLoad ⟨true, s.pwr.form⟩) s
    | 1 => exec (.pllLock true true) s
    | 2 => exec (.cxlLinkTraining true) s
    | 3 => exec (.selfTest 0xFFFFFF true true) s
    | 4 => exec (.memoryTraining 0xFF ⟨true, if s.pwr.form = 3 then 3264 else 3072⟩ 0xFFFF) s
    | 5 => exec .hardwareZeroing s
    | 6 => exec (.timeDiscipline 0 ⟨⟨0xFF, 0⟩, 0⟩) s
    | 7 => exec (.supervisorStart []) s
    | _ => .fault .noProgram

/-- Events that act whatever the phase and the clocks: resets, rails, temperature, the sideband. -/
def isPower : Instr → Bool
  | .powerOnReset | .warmReset .. | .railOrderError | .brownOut | .railAlert | .thermalTrip | .thermalLimitLower _
  | .thermalLimitRaise _ | .entdaa _ | .sidebandRead _ | .sidebandWrite .. | .alertStatClear _ => true
  | _ => false

/-- Events that act before phase 8: those of bring-up, the link's, the ports', time exchanges, VIDB. -/
def isEarly : Instr → Bool
  | .fuseLoad .. | .pllLock .. | .cxlLinkTraining _ | .selfTest .. | .memoryTraining .. | .hardwareZeroing | .timeDiscipline ..
  | .supervisorStart _ | .cxlIoRequest _ | .portUp _ | .portDown _ | .portRetrain _ | .timeExchange .. | .vidbFrame _
  | .powerWindowEvaluation _ | .debuggerAttach .. | .softError _ => true
  | _ => false

/-- A request over CXL.io: in phase 0xF the one that reads BOOT_STAT is answered (R18). -/
def isCxlIo : Instr → Bool
  | .cxlIoRequest _ => true
  | _ => false

/-- Does the machine, as it stands, take an event: with its clocks stopped, only power's; in phase 0xF, those and BOOT_STAT over
CXL.io (R18); before phase 8, bring-up's too? -/
def State.takes (s : State) (i : Instr) : Bool :=
  isPower i || (s.pwr.clocks && (s.pwr.phase = 8 || (if s.pwr.phase = 15 then isCxlIo i else isEarly i)))

/-- An event that is due, and the access whose wait it ends (R131, R133). -/
def State.event (s : State) (i : Instr) : Out :=
  if s.takes i then match exec i s.fresh with
    | .next s => .next s.served.sampleDeps
    | o => o
  else .next s

/-- An armed injection flips its bit once the target has been written (R225): it has changed from `before`, or it holds the same value
in `other`, the same step made from another value of the target (log 23). -/
def State.errSeen (before s other : State) : State :=
  let e := errInjOf s.prot.errinj
  let key := before.injKey e
  let now := s.errWatch e key
  let again := (e.tgt ≤ 4 || e.tgt = 7) && other.errWatch e key = now
  if e.mode = 2 && e.tgt ≠ 0 && before.prot.errinj = s.prot.errinj && (before.errWatch e key ≠ now || again) then
    let s := s.errFlip e
    { s with prot := { s.prot with errinj := s.prot.errinj &&& ~~~3 } }
  else s

end Sys2Proof.Machine
end

