-- ==== Sys2Proof/Machine/Step.lean ====
section
/-!
DEFINITION. Step.lean: one step of the chip, and where a word of the opcode table is placed for the next step to run it.
-/
namespace Sys2Proof.Machine

/-- What comes next: the oldest event that is due; without one, the next event of bring-up; from phase 8 on, the turn of one
sequencer. -/
def State.move (s : State) : Out :=
  match s.agenda with
  | i :: rest => { s with agenda := rest }.event i
  | [] =>
    if !s.pwr.clocks then .fault .clocksStopped
    else if s.pwr.phase ≠ 8 then s.bringup
    else s.runTurn

/-- One step; while a fault injection is armed, its target's next write is looked for (R225). -/
def step (s : State) : Host.Outcome State Fault Refusal :=
  match s.move with
  | .next t =>
    if (errInjOf s.prot.errinj).mode ≠ 2 then .next t
    else match (s.errOther (errInjOf s.prot.errinj)).move with
      | .next u => .next (State.errSeen s t u)
      | _ => .next (State.errSeen s t (s.errOther (errInjOf s.prot.errinj)))
  | o => o

/-- s with an instruction of the opcode table placed at the program counter of the strand that moves next: a one-slot bundle at VA and
PA 0x10000, in phase 8, on a live strand that is active on its sequencer, with a translation of its page. -/
def State.withFetchWord (s : State) (nbits w : Nat) : State :=
  let bytes := match Decode.tableBundle nbits w with
    | some (_, bs) => bs
    | none => Decode.leBytes 4 1 ++ Decode.leBytes 4 w
  let c := { s.c with
    live := true
    seq := s.cur / 8
    pc := 0x10000
    npc := 0x10000
    loops := []
    wcfg := if s.c.win = 0 then 0x00400000 else s.c.wcfg
    wait := none
    due := none
    pause := false
    told := [] }
  { s with
    pwr := { s.pwr with phase := 8, clocks := true, throt := false }
    c
    opening := false
    agenda := []
    seqs := Store.set Seq.reset s.seqs (s.cur / 8) { Seq.reset with active := some (s.cur % 8), lastSlot := s.cur % 8 }
    tlb1 := Store.set [] s.tlb1 (s.cur / 32) [⟨s.tag c, 0x10000, 0x10000, 0x10000, 0x7⟩]
    mem := Store.setRange 0 s.mem 0x10000 (bytes ++ List.replicate (64 - bytes.length) 0) }

end Sys2Proof.Machine
end

