-- ==== Sys2Proof/Laws/Store.lean ====
section
/-!
SUPPORT. Laws/Store.lean: what a sparse table holds after each operation on it, and that each keeps the canonical form.
-/
namespace Sys2Proof.Machine

variable {α : Type}

/-! ## Reads -/

theorem Store.get_nil (d : α) (k : Nat) : Store.get d [] k = d := rfl

theorem Store.find_run [DecidableEq α] (d : α) (k : Nat) (vs : List α) (j : Nat) :
    (Store.run d k vs).find? (fun e => e.1 == j) =
      if h : k ≤ j ∧ j < k + vs.length then (if vs[j - k] = d then none else some (j, vs[j - k])) else none := by
  induction vs generalizing k with
  | nil =>
    have h : ¬(k ≤ j ∧ j < k + ([] : List α).length) := by simp only [List.length_nil]; omega
    rw [dif_neg h]; rfl
  | cons v vs ih =>
    unfold Store.run
    by_cases hk : k = j
    · subst hk
      by_cases hv : v = d
      · rw [if_pos hv, ih, dif_neg (by omega)]; simp [hv]
      · simp [hv]
    · by_cases hin : k + 1 ≤ j ∧ j < k + 1 + vs.length
      · have h2 : k ≤ j ∧ j < k + (v :: vs).length := by simp only [List.length_cons]; omega
        obtain ⟨n, rfl⟩ : ∃ n, j = k + 1 + n := ⟨j - (k + 1), by omega⟩
        have e1 : k + 1 + n - (k + 1) = n := by omega
        have e2 : k + 1 + n - k = n + 1 := by omega
        rw [dif_pos h2]
        split
        · rw [ih, dif_pos hin]; simp only [e1, e2, List.getElem_cons_succ]
        · rw [List.find?_cons_of_neg (by simpa using hk), ih, dif_pos hin]; simp only [e1, e2, List.getElem_cons_succ]
      · have h2 : ¬(k ≤ j ∧ j < k + (v :: vs).length) := by simp only [List.length_cons]; omega
        rw [dif_neg h2]
        split
        · rw [ih, dif_neg hin]
        · rw [List.find?_cons_of_neg (by simpa using hk), ih, dif_neg hin]

theorem Store.find_below (m : Store α) (p : Nat → Bool) (j : Nat) :
    (m.filter fun e => p e.1).find? (fun e => e.1 == j) = if p j then m.find? (fun e => e.1 == j) else none := by
  induction m with
  | nil => simp
  | cons e m ih =>
    by_cases hj : e.1 = j
    · subst hj
      by_cases hp : p e.1 = true <;> simp [hp]
      intro a b hm hpa hab; rw [hab] at hpa; exact hp hpa
    · by_cases hp : p e.1 = true <;> simp [hp, hj, ih]

/-- A table after a range has been set. -/
theorem Store.get_setRange [DecidableEq α] (d : α) (m : Store α) (k : Nat) (vs : List α) (j : Nat) :
    Store.get d (Store.setRange d m k vs) j =
      if h : k ≤ j ∧ j < k + vs.length then vs[j - k] else Store.get d m j := by
  unfold Store.get Store.setRange
  rw [List.find?_append, List.find?_append, Store.find_run,
    Store.find_below m (fun x => decide (x < k)), Store.find_below m (fun x => decide (k + vs.length ≤ x))]
  by_cases h : k ≤ j ∧ j < k + vs.length
  · have h1 : ¬ j < k := by omega
    have h2 : ¬ k + vs.length ≤ j := by omega
    by_cases hd : vs[j - k] = d <;> simp [h, h1, h2, hd]
  · by_cases h1 : j < k
    · have h2 : ¬ k + vs.length ≤ j := by omega
      simp [h, h1, h2]
    · have h2 : k + vs.length ≤ j := by omega
      simp [h, h1, h2]

/-- A table after one key has been set. -/
theorem Store.get_set [DecidableEq α] (d : α) (m : Store α) (k : Nat) (v : α) (j : Nat) :
    Store.get d (Store.set d m k v) j = if j = k then v else Store.get d m j := by
  unfold Store.set
  rw [Store.get_setRange]
  by_cases h : j = k
  · subst h; simp
  · have : ¬(k ≤ j ∧ j < k + [v].length) := by simp only [List.length_singleton]; omega
    rw [dif_neg this, if_neg h]

theorem Store.get_clear (d : α) (m : Store α) (k n j : Nat) :
    Store.get d (Store.clear m k n) j = if k ≤ j ∧ j < k + n then d else Store.get d m j := by
  unfold Store.get Store.clear
  rw [List.find?_append, Store.find_below m (fun x => decide (x < k)), Store.find_below m (fun x => decide (k + n ≤ x))]
  by_cases h1 : j < k
  · have h2 : ¬ k + n ≤ j := by omega
    have h3 : ¬(k ≤ j ∧ j < k + n) := by omega
    rw [if_neg h3]; simp [h1, h2]
  · by_cases h2 : k + n ≤ j
    · have h3 : ¬(k ≤ j ∧ j < k + n) := by omega
      rw [if_neg h3]; simp [h1, h2]
    · have h3 : k ≤ j ∧ j < k + n := by omega
      rw [if_pos h3]; simp [h1, h2]

theorem Store.get_near (d : α) (m : Store α) (p : Nat → Bool) (j : Nat) (h : p j = true) :
    Store.get d (m.filter fun e => p e.1) j = Store.get d m j := by
  unfold Store.get; rw [Store.find_below, if_pos h]

/-- A range read is the reads of its keys. -/
theorem Store.getRange_eq (d : α) (m : Store α) (k n : Nat) :
    Store.getRange d m k n = (List.range n).map fun i => Store.get d m (k + i) := by
  unfold Store.getRange
  refine List.map_congr_left fun i hi => ?_
  have : i < n := by simpa using hi
  exact Store.get_near d m (fun x => k ≤ x && x < k + n) (k + i) (by simp; omega)

@[simp] theorem Store.length_getRange (d : α) (m : Store α) (k n : Nat) : (Store.getRange d m k n).length = n := by
  simp [Store.getRange_eq]

/-! ## The canonical form -/

theorem Store.wf_iff [DecidableEq α] (d : α) (m : Store α) :
    Store.wf d m = true ↔ m.Pairwise (fun a b => a.1 < b.1) ∧ ∀ e ∈ m, e.2 ≠ d := by
  simp [Store.wf]

theorem Store.wf_nil [DecidableEq α] (d : α) : Store.wf d ([] : Store α) = true := rfl

theorem Store.wf_filter [DecidableEq α] (d : α) (m : Store α) (p : Nat × α → Bool) (h : Store.wf d m = true) :
    Store.wf d (m.filter p) = true := by
  rw [Store.wf_iff] at *
  exact ⟨h.1.filter p, fun e he => h.2 e ((List.mem_filter.mp he).1)⟩

theorem Store.mem_run [DecidableEq α] (d : α) (k : Nat) (vs : List α) (e : Nat × α) (h : e ∈ Store.run d k vs) :
    k ≤ e.1 ∧ e.1 < k + vs.length ∧ e.2 ≠ d := by
  induction vs generalizing k with
  | nil => simp [Store.run] at h
  | cons v vs ih =>
    unfold Store.run at h
    simp only [List.length_cons]
    split at h
    · have := ih _ h; exact ⟨by omega, by omega, this.2.2⟩
    · rcases List.mem_cons.mp h with rfl | h
      · exact ⟨Nat.le_refl _, by simp only; omega, by assumption⟩
      · have := ih _ h; exact ⟨by omega, by omega, this.2.2⟩

theorem Store.pairwise_run [DecidableEq α] (d : α) (k : Nat) (vs : List α) :
    (Store.run d k vs).Pairwise (fun a b => a.1 < b.1) := by
  induction vs generalizing k with
  | nil => simp [Store.run]
  | cons v vs ih =>
    unfold Store.run
    split
    · exact ih _
    · exact List.pairwise_cons.mpr ⟨fun e he => by have := Store.mem_run _ _ _ _ he; simp only; omega, ih _⟩

/-- A range set keeps the canonical form. -/
theorem Store.wf_setRange [DecidableEq α] (d : α) (m : Store α) (k : Nat) (vs : List α) (h : Store.wf d m = true) :
    Store.wf d (Store.setRange d m k vs) = true := by
  rw [Store.wf_iff] at *
  unfold Store.setRange
  refine ⟨List.pairwise_append.mpr ⟨List.pairwise_append.mpr ⟨h.1.filter _, Store.pairwise_run .., ?_⟩, h.1.filter _, ?_⟩, ?_⟩
  · intro a ha b hb
    have := Store.mem_run _ _ _ _ hb; simp at ha; omega
  · intro a ha b hb
    simp at hb
    rcases List.mem_append.mp ha with ha | ha
    · simp at ha; omega
    · have := Store.mem_run _ _ _ _ ha; omega
  · intro e he
    rcases List.mem_append.mp he with he | he
    · rcases List.mem_append.mp he with he | he
      · exact h.2 e ((List.mem_filter.mp he).1)
      · exact (Store.mem_run _ _ _ _ he).2.2
    · exact h.2 e ((List.mem_filter.mp he).1)

theorem Store.wf_set [DecidableEq α] (d : α) (m : Store α) (k : Nat) (v : α) (h : Store.wf d m = true) :
    Store.wf d (Store.set d m k v) = true := Store.wf_setRange d m k [v] h

theorem Store.wf_clear [DecidableEq α] (d : α) (m : Store α) (k n : Nat) (h : Store.wf d m = true) :
    Store.wf d (Store.clear m k n) = true := by
  rw [Store.wf_iff] at *
  unfold Store.clear
  refine ⟨List.pairwise_append.mpr ⟨h.1.filter _, h.1.filter _, ?_⟩, ?_⟩
  · intro a ha b hb; simp at ha hb; omega
  · intro e he
    rcases List.mem_append.mp he with he | he <;> exact h.2 e ((List.mem_filter.mp he).1)

theorem Store.wf_run [DecidableEq α] (d : α) (k : Nat) (vs : List α) : Store.wf d (Store.run d k vs) = true := by
  rw [Store.wf_iff]; exact ⟨Store.pairwise_run .., fun e he => (Store.mem_run _ _ _ _ he).2.2⟩

end Sys2Proof.Machine
end

