-- ==== Sys2Proof/Laws/Context.lean ====
section
/-!
SUPPORT. Context.lean: what a write of a context's register does to each read, the hard-wired registers of R123 among them,
and what it leaves alone.
-/
namespace Sys2Proof.Machine

theorem toNat_inj {w : Nat} {a b : BitVec w} : a.toNat = b.toNat ↔ a = b := ⟨BitVec.eq_of_toNat_eq, fun h => h ▸ rfl⟩

/-! ## Scalars -/

/-- s0 reads 0, whatever the table lists. -/
@[simp] theorem Ctx.rs_zero (c : Ctx) : c.rs 0 = 0 := rfl

theorem Ctx.rs_ws (c : Ctx) (d j : BitVec 6) (v : DWord) : (c.ws d v).rs j = if j = d ∧ d ≠ 0 then v else c.rs j := by
  unfold Ctx.ws
  split
  · next h => rw [if_neg (fun x => x.2 h)]
  · next h =>
    unfold Ctx.rs
    dsimp only
    rw [Store.get_set]
    by_cases hj : j = d
    · subst hj; rw [if_neg h, if_pos rfl, if_pos ⟨rfl, h⟩]
    · rw [if_neg (c := j.toNat = d.toNat) (fun x => hj (toNat_inj.mp x)), if_neg (c := j = d ∧ d ≠ 0) (fun x => hj x.1)]

/-- A write of a scalar changes nothing but that scalar, its residues, and how the twin's differs. -/
theorem Ctx.ws_frame (c : Ctx) (d : BitVec 6) (v : DWord) : { c.ws d v with s := c.s, bad := c.bad, tw := c.tw } = c := by
  unfold Ctx.ws; split <;> rfl

/-! ## Scalar predicates -/

/-- b0 reads 1. -/
@[simp] theorem Ctx.rb_zero (c : Ctx) : c.rb 0 = true := rfl

theorem Ctx.rb_wb (c : Ctx) (d j : BitVec 4) (v : Bool) : (c.wb d v).rb j = if j = d ∧ d ≠ 0 then v else c.rb j := by
  unfold Ctx.wb
  split
  · next h => rw [if_neg (fun x => x.2 h)]
  · next h =>
    have hj : j.toNat < 16 := j.isLt
    have h' : ¬ d = 0#4 := h
    unfold Ctx.rb
    dsimp only
    by_cases e : j = d
    · subst e
      rw [if_pos (c := j = j ∧ j ≠ 0) ⟨rfl, h⟩]
      cases v <;> simp [h', hj]
    · rw [if_neg (c := j = d ∧ d ≠ 0) (fun x => e x.1)]
      have hn : ¬ j.toNat = d.toNat := fun x => e (toNat_inj.mp x)
      cases v <;> simp [hn, hj]

/-- A write of a scalar predicate changes nothing else. -/
theorem Ctx.wb_frame (c : Ctx) (d : BitVec 4) (v : Bool) : { c.wb d v with b := c.b } = c := by
  unfold Ctx.wb; split <;> rfl

/-! ## Lane predicates -/

/-- p0 reads all ones. -/
@[simp] theorem Ctx.rp_zero (c : Ctx) : c.rp 0 = 0xFFFF := rfl

theorem Ctx.rp_wp (c : Ctx) (d j : BitVec 4) (v : BitVec 16) : (c.wp d v).rp j = if j = d ∧ d ≠ 0 then v else c.rp j := by
  unfold Ctx.wp
  split
  · next h => rw [if_neg (fun x => x.2 h)]
  · next h =>
    unfold Ctx.rp
    dsimp only
    rw [Store.get_set]
    by_cases hj : j = d
    · subst hj; rw [if_neg h, if_pos rfl, if_pos ⟨rfl, h⟩]
    · rw [if_neg (c := j.toNat = d.toNat) (fun x => hj (toNat_inj.mp x)), if_neg (c := j = d ∧ d ≠ 0) (fun x => hj x.1)]

theorem Ctx.wp_frame (c : Ctx) (d : BitVec 4) (v : BitVec 16) : { c.wp d v with p := c.p } = c := by
  unfold Ctx.wp; split <;> rfl

/-! ## The window -/

theorem Ctx.rv_wv (c : Ctx) (e l e' l' : Nat) (w : Word) (bad : BitVec 4) :
    (c.wv e l w bad).rv e' l' = if 16 * e' + l' = 16 * e + l then w else c.rv e' l' := by
  unfold Ctx.wv Ctx.rv; dsimp only; rw [Store.get_set]

theorem Ctx.wv_frame (c : Ctx) (e l : Nat) (w : Word) (bad : BitVec 4) : { c.wv e l w bad with v := c.v, bad := c.bad, tw := c.tw } = c := rfl

/-! ## Queues -/

theorem Ctx.queue_setQueue (c : Ctx) (q q' : BitVec 2) (l : List QEntry) :
    (c.setQueue q l).queue q' = if q' = q then l else c.queue q' := by
  unfold Ctx.setQueue Ctx.queue; dsimp only; rw [Store.get_set]
  by_cases h : q' = q
  · rw [if_pos h, h, if_pos rfl]
  · rw [if_neg h, if_neg (fun x => h (toNat_inj.mp x))]

end Sys2Proof.Machine
end

