-- ==== Sys2Proof/Laws/State.lean ====
section
/-!
SUPPORT. Laws/State.lean: each field of the state after each elementary update, so that no later proof unfolds a record
update.
-/
namespace Sys2Proof.Machine

@[simp] theorem State.modC_time (s : State) (f : Ctx → Ctx) : (s.modC f).time = s.time := rfl
@[simp] theorem State.modC_pwr (s : State) (f : Ctx → Ctx) : (s.modC f).pwr = s.pwr := rfl
@[simp] theorem State.modC_fab (s : State) (f : Ctx → Ctx) : (s.modC f).fab = s.fab := rfl
@[simp] theorem State.modC_host (s : State) (f : Ctx → Ctx) : (s.modC f).host = s.host := rfl
@[simp] theorem State.modC_world (s : State) (f : Ctx → Ctx) : (s.modC f).world = s.world := rfl
@[simp] theorem State.modC_ranks (s : State) (f : Ctx → Ctx) : (s.modC f).ranks = s.ranks := rfl
@[simp] theorem State.modC_sched (s : State) (f : Ctx → Ctx) : (s.modC f).sched = s.sched := rfl
@[simp] theorem State.modC_prot (s : State) (f : Ctx → Ctx) : (s.modC f).prot = s.prot := rfl
@[simp] theorem State.modC_mem (s : State) (f : Ctx → Ctx) : (s.modC f).mem = s.mem := rfl
@[simp] theorem State.modC_ver (s : State) (f : Ctx → Ctx) : (s.modC f).ver = s.ver := rfl
@[simp] theorem State.modC_poison (s : State) (f : Ctx → Ctx) : (s.modC f).poison = s.poison := rfl
@[simp] theorem State.modC_full (s : State) (f : Ctx → Ctx) : (s.modC f).full = s.full := rfl
@[simp] theorem State.modC_feq (s : State) (f : Ctx → Ctx) : (s.modC f).feq = s.feq := rfl
@[simp] theorem State.modC_fenced (s : State) (f : Ctx → Ctx) : (s.modC f).fenced = s.fenced := rfl
@[simp] theorem State.modC_loads (s : State) (f : Ctx → Ctx) : (s.modC f).loads = s.loads := rfl
@[simp] theorem State.modC_pend (s : State) (f : Ctx → Ctx) : (s.modC f).pend = s.pend := rfl
@[simp] theorem State.modC_wq (s : State) (f : Ctx → Ctx) : (s.modC f).wq = s.wq := rfl
@[simp] theorem State.modC_slices (s : State) (f : Ctx → Ctx) : (s.modC f).slices = s.slices := rfl
@[simp] theorem State.modC_dies (s : State) (f : Ctx → Ctx) : (s.modC f).dies = s.dies := rfl
@[simp] theorem State.modC_calendar (s : State) (f : Ctx → Ctx) : (s.modC f).calendar = s.calendar := rfl
@[simp] theorem State.modC_trk (s : State) (f : Ctx → Ctx) : (s.modC f).trk = s.trk := rfl
@[simp] theorem State.modC_rmThresh (s : State) (f : Ctx → Ctx) : (s.modC f).rmThresh = s.rmThresh := rfl
@[simp] theorem State.modC_rmRadius (s : State) (f : Ctx → Ctx) : (s.modC f).rmRadius = s.rmRadius := rfl
@[simp] theorem State.modC_rmCount (s : State) (f : Ctx → Ctx) : (s.modC f).rmCount = s.rmCount := rfl
@[simp] theorem State.modC_tlb1 (s : State) (f : Ctx → Ctx) : (s.modC f).tlb1 = s.tlb1 := rfl
@[simp] theorem State.modC_tlb2 (s : State) (f : Ctx → Ctx) : (s.modC f).tlb2 = s.tlb2 := rfl
@[simp] theorem State.modC_ptRootSv (s : State) (f : Ctx → Ctx) : (s.modC f).ptRootSv = s.ptRootSv := rfl
@[simp] theorem State.modC_mown (s : State) (f : Ctx → Ctx) : (s.modC f).mown = s.mown := rfl
@[simp] theorem State.modC_engines (s : State) (f : Ctx → Ctx) : (s.modC f).engines = s.engines := rfl
@[simp] theorem State.modC_scruple (s : State) (f : Ctx → Ctx) : (s.modC f).scruple = s.scruple := rfl
@[simp] theorem State.modC_seqs (s : State) (f : Ctx → Ctx) : (s.modC f).seqs = s.seqs := rfl
@[simp] theorem State.modC_copies (s : State) (f : Ctx → Ctx) : (s.modC f).copies = s.copies := rfl
@[simp] theorem State.modC_colls (s : State) (f : Ctx → Ctx) : (s.modC f).colls = s.colls := rfl
@[simp] theorem State.modC_decs (s : State) (f : Ctx → Ctx) : (s.modC f).decs = s.decs := rfl
@[simp] theorem State.modC_perch (s : State) (f : Ctx → Ctx) : (s.modC f).perch = s.perch := rfl
@[simp] theorem State.modC_releases (s : State) (f : Ctx → Ctx) : (s.modC f).releases = s.releases := rfl
@[simp] theorem State.modC_c (s : State) (f : Ctx → Ctx) : (s.modC f).c = f s.c := rfl
@[simp] theorem State.modC_cur (s : State) (f : Ctx → Ctx) : (s.modC f).cur = s.cur := rfl
@[simp] theorem State.modC_ctxs (s : State) (f : Ctx → Ctx) : (s.modC f).ctxs = s.ctxs := rfl
@[simp] theorem State.modC_agenda (s : State) (f : Ctx → Ctx) : (s.modC f).agenda = s.agenda := rfl
@[simp] theorem State.modC_out (s : State) (f : Ctx → Ctx) : (s.modC f).out = s.out := rfl
@[simp] theorem State.modC_old (s : State) (f : Ctx → Ctx) : (s.modC f).old = s.old := rfl
@[simp] theorem State.modC_oldFmt (s : State) (f : Ctx → Ctx) : (s.modC f).oldFmt = s.oldFmt := rfl
@[simp] theorem State.modC_issueRef (s : State) (f : Ctx → Ctx) : (s.modC f).issueRef = s.issueRef := rfl
@[simp] theorem State.modC_slot (s : State) (f : Ctx → Ctx) : (s.modC f).slot = s.slot := rfl
@[simp] theorem State.modC_pops (s : State) (f : Ctx → Ctx) : (s.modC f).pops = s.pops := rfl
@[simp] theorem State.modC_stall (s : State) (f : Ctx → Ctx) : (s.modC f).stall = s.stall := rfl
@[simp] theorem State.modC_trapped (s : State) (f : Ctx → Ctx) : (s.modC f).trapped = s.trapped := rfl
@[simp] theorem State.modC_jumped (s : State) (f : Ctx → Ctx) : (s.modC f).jumped = s.jumped := rfl
@[simp] theorem State.modC_staged (s : State) (f : Ctx → Ctx) : (s.modC f).staged = s.staged := rfl
@[simp] theorem State.modC_opening (s : State) (f : Ctx → Ctx) : (s.modC f).opening = s.opening := rfl
@[simp] theorem State.modC_images (s : State) (f : Ctx → Ctx) : (s.modC f).images = s.images := rfl
@[simp] theorem State.modC_imageCores (s : State) (f : Ctx → Ctx) : (s.modC f).imageCores = s.imageCores := rfl
@[simp] theorem State.modC_nextRef (s : State) (f : Ctx → Ctx) : (s.modC f).nextRef = s.nextRef := rfl
@[simp] theorem State.modC_free (s : State) (f : Ctx → Ctx) : (s.modC f).free = s.free := rfl

@[simp] theorem State.modRank_time (s : State) (r : Nat) (f : Rank → Rank) : (s.modRank r f).time = s.time := rfl
@[simp] theorem State.modRank_pwr (s : State) (r : Nat) (f : Rank → Rank) : (s.modRank r f).pwr = s.pwr := rfl
@[simp] theorem State.modRank_fab (s : State) (r : Nat) (f : Rank → Rank) : (s.modRank r f).fab = s.fab := rfl
@[simp] theorem State.modRank_host (s : State) (r : Nat) (f : Rank → Rank) : (s.modRank r f).host = s.host := rfl
@[simp] theorem State.modRank_world (s : State) (r : Nat) (f : Rank → Rank) : (s.modRank r f).world = s.world := rfl
@[simp] theorem State.modRank_ranks (s : State) (r : Nat) (f : Rank → Rank) : (s.modRank r f).ranks = Store.set Rank.reset s.ranks r (f (s.rank r)) := rfl
@[simp] theorem State.modRank_sched (s : State) (r : Nat) (f : Rank → Rank) : (s.modRank r f).sched = s.sched := rfl
@[simp] theorem State.modRank_prot (s : State) (r : Nat) (f : Rank → Rank) : (s.modRank r f).prot = s.prot := rfl
@[simp] theorem State.modRank_mem (s : State) (r : Nat) (f : Rank → Rank) : (s.modRank r f).mem = s.mem := rfl
@[simp] theorem State.modRank_ver (s : State) (r : Nat) (f : Rank → Rank) : (s.modRank r f).ver = s.ver := rfl
@[simp] theorem State.modRank_poison (s : State) (r : Nat) (f : Rank → Rank) : (s.modRank r f).poison = s.poison := rfl
@[simp] theorem State.modRank_full (s : State) (r : Nat) (f : Rank → Rank) : (s.modRank r f).full = s.full := rfl
@[simp] theorem State.modRank_feq (s : State) (r : Nat) (f : Rank → Rank) : (s.modRank r f).feq = s.feq := rfl
@[simp] theorem State.modRank_fenced (s : State) (r : Nat) (f : Rank → Rank) : (s.modRank r f).fenced = s.fenced := rfl
@[simp] theorem State.modRank_loads (s : State) (r : Nat) (f : Rank → Rank) : (s.modRank r f).loads = s.loads := rfl
@[simp] theorem State.modRank_pend (s : State) (r : Nat) (f : Rank → Rank) : (s.modRank r f).pend = s.pend := rfl
@[simp] theorem State.modRank_wq (s : State) (r : Nat) (f : Rank → Rank) : (s.modRank r f).wq = s.wq := rfl
@[simp] theorem State.modRank_slices (s : State) (r : Nat) (f : Rank → Rank) : (s.modRank r f).slices = s.slices := rfl
@[simp] theorem State.modRank_dies (s : State) (r : Nat) (f : Rank → Rank) : (s.modRank r f).dies = s.dies := rfl
@[simp] theorem State.modRank_calendar (s : State) (r : Nat) (f : Rank → Rank) : (s.modRank r f).calendar = s.calendar := rfl
@[simp] theorem State.modRank_trk (s : State) (r : Nat) (f : Rank → Rank) : (s.modRank r f).trk = s.trk := rfl
@[simp] theorem State.modRank_rmThresh (s : State) (r : Nat) (f : Rank → Rank) : (s.modRank r f).rmThresh = s.rmThresh := rfl
@[simp] theorem State.modRank_rmRadius (s : State) (r : Nat) (f : Rank → Rank) : (s.modRank r f).rmRadius = s.rmRadius := rfl
@[simp] theorem State.modRank_rmCount (s : State) (r : Nat) (f : Rank → Rank) : (s.modRank r f).rmCount = s.rmCount := rfl
@[simp] theorem State.modRank_tlb1 (s : State) (r : Nat) (f : Rank → Rank) : (s.modRank r f).tlb1 = s.tlb1 := rfl
@[simp] theorem State.modRank_tlb2 (s : State) (r : Nat) (f : Rank → Rank) : (s.modRank r f).tlb2 = s.tlb2 := rfl
@[simp] theorem State.modRank_ptRootSv (s : State) (r : Nat) (f : Rank → Rank) : (s.modRank r f).ptRootSv = s.ptRootSv := rfl
@[simp] theorem State.modRank_mown (s : State) (r : Nat) (f : Rank → Rank) : (s.modRank r f).mown = s.mown := rfl
@[simp] theorem State.modRank_engines (s : State) (r : Nat) (f : Rank → Rank) : (s.modRank r f).engines = s.engines := rfl
@[simp] theorem State.modRank_scruple (s : State) (r : Nat) (f : Rank → Rank) : (s.modRank r f).scruple = s.scruple := rfl
@[simp] theorem State.modRank_seqs (s : State) (r : Nat) (f : Rank → Rank) : (s.modRank r f).seqs = s.seqs := rfl
@[simp] theorem State.modRank_copies (s : State) (r : Nat) (f : Rank → Rank) : (s.modRank r f).copies = s.copies := rfl
@[simp] theorem State.modRank_colls (s : State) (r : Nat) (f : Rank → Rank) : (s.modRank r f).colls = s.colls := rfl
@[simp] theorem State.modRank_decs (s : State) (r : Nat) (f : Rank → Rank) : (s.modRank r f).decs = s.decs := rfl
@[simp] theorem State.modRank_perch (s : State) (r : Nat) (f : Rank → Rank) : (s.modRank r f).perch = s.perch := rfl
@[simp] theorem State.modRank_releases (s : State) (r : Nat) (f : Rank → Rank) : (s.modRank r f).releases = s.releases := rfl
@[simp] theorem State.modRank_c (s : State) (r : Nat) (f : Rank → Rank) : (s.modRank r f).c = s.c := rfl
@[simp] theorem State.modRank_cur (s : State) (r : Nat) (f : Rank → Rank) : (s.modRank r f).cur = s.cur := rfl
@[simp] theorem State.modRank_ctxs (s : State) (r : Nat) (f : Rank → Rank) : (s.modRank r f).ctxs = s.ctxs := rfl
@[simp] theorem State.modRank_agenda (s : State) (r : Nat) (f : Rank → Rank) : (s.modRank r f).agenda = s.agenda := rfl
@[simp] theorem State.modRank_out (s : State) (r : Nat) (f : Rank → Rank) : (s.modRank r f).out = s.out := rfl
@[simp] theorem State.modRank_old (s : State) (r : Nat) (f : Rank → Rank) : (s.modRank r f).old = s.old := rfl
@[simp] theorem State.modRank_oldFmt (s : State) (r : Nat) (f : Rank → Rank) : (s.modRank r f).oldFmt = s.oldFmt := rfl
@[simp] theorem State.modRank_issueRef (s : State) (r : Nat) (f : Rank → Rank) : (s.modRank r f).issueRef = s.issueRef := rfl
@[simp] theorem State.modRank_slot (s : State) (r : Nat) (f : Rank → Rank) : (s.modRank r f).slot = s.slot := rfl
@[simp] theorem State.modRank_pops (s : State) (r : Nat) (f : Rank → Rank) : (s.modRank r f).pops = s.pops := rfl
@[simp] theorem State.modRank_stall (s : State) (r : Nat) (f : Rank → Rank) : (s.modRank r f).stall = s.stall := rfl
@[simp] theorem State.modRank_trapped (s : State) (r : Nat) (f : Rank → Rank) : (s.modRank r f).trapped = s.trapped := rfl
@[simp] theorem State.modRank_jumped (s : State) (r : Nat) (f : Rank → Rank) : (s.modRank r f).jumped = s.jumped := rfl
@[simp] theorem State.modRank_staged (s : State) (r : Nat) (f : Rank → Rank) : (s.modRank r f).staged = s.staged := rfl
@[simp] theorem State.modRank_opening (s : State) (r : Nat) (f : Rank → Rank) : (s.modRank r f).opening = s.opening := rfl
@[simp] theorem State.modRank_images (s : State) (r : Nat) (f : Rank → Rank) : (s.modRank r f).images = s.images := rfl
@[simp] theorem State.modRank_imageCores (s : State) (r : Nat) (f : Rank → Rank) : (s.modRank r f).imageCores = s.imageCores := rfl
@[simp] theorem State.modRank_nextRef (s : State) (r : Nat) (f : Rank → Rank) : (s.modRank r f).nextRef = s.nextRef := rfl
@[simp] theorem State.modRank_free (s : State) (r : Nat) (f : Rank → Rank) : (s.modRank r f).free = s.free := rfl

@[simp] theorem State.modSeq_time (s : State) (q : Nat) (f : Seq → Seq) : (s.modSeq q f).time = s.time := rfl
@[simp] theorem State.modSeq_pwr (s : State) (q : Nat) (f : Seq → Seq) : (s.modSeq q f).pwr = s.pwr := rfl
@[simp] theorem State.modSeq_fab (s : State) (q : Nat) (f : Seq → Seq) : (s.modSeq q f).fab = s.fab := rfl
@[simp] theorem State.modSeq_host (s : State) (q : Nat) (f : Seq → Seq) : (s.modSeq q f).host = s.host := rfl
@[simp] theorem State.modSeq_world (s : State) (q : Nat) (f : Seq → Seq) : (s.modSeq q f).world = s.world := rfl
@[simp] theorem State.modSeq_ranks (s : State) (q : Nat) (f : Seq → Seq) : (s.modSeq q f).ranks = s.ranks := rfl
@[simp] theorem State.modSeq_sched (s : State) (q : Nat) (f : Seq → Seq) : (s.modSeq q f).sched = s.sched := rfl
@[simp] theorem State.modSeq_prot (s : State) (q : Nat) (f : Seq → Seq) : (s.modSeq q f).prot = s.prot := rfl
@[simp] theorem State.modSeq_mem (s : State) (q : Nat) (f : Seq → Seq) : (s.modSeq q f).mem = s.mem := rfl
@[simp] theorem State.modSeq_ver (s : State) (q : Nat) (f : Seq → Seq) : (s.modSeq q f).ver = s.ver := rfl
@[simp] theorem State.modSeq_poison (s : State) (q : Nat) (f : Seq → Seq) : (s.modSeq q f).poison = s.poison := rfl
@[simp] theorem State.modSeq_full (s : State) (q : Nat) (f : Seq → Seq) : (s.modSeq q f).full = s.full := rfl
@[simp] theorem State.modSeq_feq (s : State) (q : Nat) (f : Seq → Seq) : (s.modSeq q f).feq = s.feq := rfl
@[simp] theorem State.modSeq_fenced (s : State) (q : Nat) (f : Seq → Seq) : (s.modSeq q f).fenced = s.fenced := rfl
@[simp] theorem State.modSeq_loads (s : State) (q : Nat) (f : Seq → Seq) : (s.modSeq q f).loads = s.loads := rfl
@[simp] theorem State.modSeq_pend (s : State) (q : Nat) (f : Seq → Seq) : (s.modSeq q f).pend = s.pend := rfl
@[simp] theorem State.modSeq_wq (s : State) (q : Nat) (f : Seq → Seq) : (s.modSeq q f).wq = s.wq := rfl
@[simp] theorem State.modSeq_slices (s : State) (q : Nat) (f : Seq → Seq) : (s.modSeq q f).slices = s.slices := rfl
@[simp] theorem State.modSeq_dies (s : State) (q : Nat) (f : Seq → Seq) : (s.modSeq q f).dies = s.dies := rfl
@[simp] theorem State.modSeq_calendar (s : State) (q : Nat) (f : Seq → Seq) : (s.modSeq q f).calendar = s.calendar := rfl
@[simp] theorem State.modSeq_trk (s : State) (q : Nat) (f : Seq → Seq) : (s.modSeq q f).trk = s.trk := rfl
@[simp] theorem State.modSeq_rmThresh (s : State) (q : Nat) (f : Seq → Seq) : (s.modSeq q f).rmThresh = s.rmThresh := rfl
@[simp] theorem State.modSeq_rmRadius (s : State) (q : Nat) (f : Seq → Seq) : (s.modSeq q f).rmRadius = s.rmRadius := rfl
@[simp] theorem State.modSeq_rmCount (s : State) (q : Nat) (f : Seq → Seq) : (s.modSeq q f).rmCount = s.rmCount := rfl
@[simp] theorem State.modSeq_tlb1 (s : State) (q : Nat) (f : Seq → Seq) : (s.modSeq q f).tlb1 = s.tlb1 := rfl
@[simp] theorem State.modSeq_tlb2 (s : State) (q : Nat) (f : Seq → Seq) : (s.modSeq q f).tlb2 = s.tlb2 := rfl
@[simp] theorem State.modSeq_ptRootSv (s : State) (q : Nat) (f : Seq → Seq) : (s.modSeq q f).ptRootSv = s.ptRootSv := rfl
@[simp] theorem State.modSeq_mown (s : State) (q : Nat) (f : Seq → Seq) : (s.modSeq q f).mown = s.mown := rfl
@[simp] theorem State.modSeq_engines (s : State) (q : Nat) (f : Seq → Seq) : (s.modSeq q f).engines = s.engines := rfl
@[simp] theorem State.modSeq_scruple (s : State) (q : Nat) (f : Seq → Seq) : (s.modSeq q f).scruple = s.scruple := rfl
@[simp] theorem State.modSeq_seqs (s : State) (q : Nat) (f : Seq → Seq) : (s.modSeq q f).seqs = Store.set Seq.reset s.seqs q (f (s.seqOf q)) := rfl
@[simp] theorem State.modSeq_copies (s : State) (q : Nat) (f : Seq → Seq) : (s.modSeq q f).copies = s.copies := rfl
@[simp] theorem State.modSeq_colls (s : State) (q : Nat) (f : Seq → Seq) : (s.modSeq q f).colls = s.colls := rfl
@[simp] theorem State.modSeq_decs (s : State) (q : Nat) (f : Seq → Seq) : (s.modSeq q f).decs = s.decs := rfl
@[simp] theorem State.modSeq_perch (s : State) (q : Nat) (f : Seq → Seq) : (s.modSeq q f).perch = s.perch := rfl
@[simp] theorem State.modSeq_releases (s : State) (q : Nat) (f : Seq → Seq) : (s.modSeq q f).releases = s.releases := rfl
@[simp] theorem State.modSeq_c (s : State) (q : Nat) (f : Seq → Seq) : (s.modSeq q f).c = s.c := rfl
@[simp] theorem State.modSeq_cur (s : State) (q : Nat) (f : Seq → Seq) : (s.modSeq q f).cur = s.cur := rfl
@[simp] theorem State.modSeq_ctxs (s : State) (q : Nat) (f : Seq → Seq) : (s.modSeq q f).ctxs = s.ctxs := rfl
@[simp] theorem State.modSeq_agenda (s : State) (q : Nat) (f : Seq → Seq) : (s.modSeq q f).agenda = s.agenda := rfl
@[simp] theorem State.modSeq_out (s : State) (q : Nat) (f : Seq → Seq) : (s.modSeq q f).out = s.out := rfl
@[simp] theorem State.modSeq_old (s : State) (q : Nat) (f : Seq → Seq) : (s.modSeq q f).old = s.old := rfl
@[simp] theorem State.modSeq_oldFmt (s : State) (q : Nat) (f : Seq → Seq) : (s.modSeq q f).oldFmt = s.oldFmt := rfl
@[simp] theorem State.modSeq_issueRef (s : State) (q : Nat) (f : Seq → Seq) : (s.modSeq q f).issueRef = s.issueRef := rfl
@[simp] theorem State.modSeq_slot (s : State) (q : Nat) (f : Seq → Seq) : (s.modSeq q f).slot = s.slot := rfl
@[simp] theorem State.modSeq_pops (s : State) (q : Nat) (f : Seq → Seq) : (s.modSeq q f).pops = s.pops := rfl
@[simp] theorem State.modSeq_stall (s : State) (q : Nat) (f : Seq → Seq) : (s.modSeq q f).stall = s.stall := rfl
@[simp] theorem State.modSeq_trapped (s : State) (q : Nat) (f : Seq → Seq) : (s.modSeq q f).trapped = s.trapped := rfl
@[simp] theorem State.modSeq_jumped (s : State) (q : Nat) (f : Seq → Seq) : (s.modSeq q f).jumped = s.jumped := rfl
@[simp] theorem State.modSeq_staged (s : State) (q : Nat) (f : Seq → Seq) : (s.modSeq q f).staged = s.staged := rfl
@[simp] theorem State.modSeq_opening (s : State) (q : Nat) (f : Seq → Seq) : (s.modSeq q f).opening = s.opening := rfl
@[simp] theorem State.modSeq_images (s : State) (q : Nat) (f : Seq → Seq) : (s.modSeq q f).images = s.images := rfl
@[simp] theorem State.modSeq_imageCores (s : State) (q : Nat) (f : Seq → Seq) : (s.modSeq q f).imageCores = s.imageCores := rfl
@[simp] theorem State.modSeq_nextRef (s : State) (q : Nat) (f : Seq → Seq) : (s.modSeq q f).nextRef = s.nextRef := rfl
@[simp] theorem State.modSeq_free (s : State) (q : Nat) (f : Seq → Seq) : (s.modSeq q f).free = s.free := rfl

@[simp] theorem State.send_time (s : State) (m : OutMsg) : (s.send m).time = s.time := rfl
@[simp] theorem State.send_pwr (s : State) (m : OutMsg) : (s.send m).pwr = s.pwr := rfl
@[simp] theorem State.send_fab (s : State) (m : OutMsg) : (s.send m).fab = s.fab := rfl
@[simp] theorem State.send_host (s : State) (m : OutMsg) : (s.send m).host = s.host := rfl
@[simp] theorem State.send_world (s : State) (m : OutMsg) : (s.send m).world = s.world := rfl
@[simp] theorem State.send_ranks (s : State) (m : OutMsg) : (s.send m).ranks = s.ranks := rfl
@[simp] theorem State.send_sched (s : State) (m : OutMsg) : (s.send m).sched = s.sched := rfl
@[simp] theorem State.send_prot (s : State) (m : OutMsg) : (s.send m).prot = s.prot := rfl
@[simp] theorem State.send_mem (s : State) (m : OutMsg) : (s.send m).mem = s.mem := rfl
@[simp] theorem State.send_ver (s : State) (m : OutMsg) : (s.send m).ver = s.ver := rfl
@[simp] theorem State.send_poison (s : State) (m : OutMsg) : (s.send m).poison = s.poison := rfl
@[simp] theorem State.send_full (s : State) (m : OutMsg) : (s.send m).full = s.full := rfl
@[simp] theorem State.send_feq (s : State) (m : OutMsg) : (s.send m).feq = s.feq := rfl
@[simp] theorem State.send_fenced (s : State) (m : OutMsg) : (s.send m).fenced = s.fenced := rfl
@[simp] theorem State.send_loads (s : State) (m : OutMsg) : (s.send m).loads = s.loads := rfl
@[simp] theorem State.send_pend (s : State) (m : OutMsg) : (s.send m).pend = s.pend := rfl
@[simp] theorem State.send_wq (s : State) (m : OutMsg) : (s.send m).wq = s.wq := rfl
@[simp] theorem State.send_slices (s : State) (m : OutMsg) : (s.send m).slices = s.slices := rfl
@[simp] theorem State.send_dies (s : State) (m : OutMsg) : (s.send m).dies = s.dies := rfl
@[simp] theorem State.send_calendar (s : State) (m : OutMsg) : (s.send m).calendar = s.calendar := rfl
@[simp] theorem State.send_trk (s : State) (m : OutMsg) : (s.send m).trk = s.trk := rfl
@[simp] theorem State.send_rmThresh (s : State) (m : OutMsg) : (s.send m).rmThresh = s.rmThresh := rfl
@[simp] theorem State.send_rmRadius (s : State) (m : OutMsg) : (s.send m).rmRadius = s.rmRadius := rfl
@[simp] theorem State.send_rmCount (s : State) (m : OutMsg) : (s.send m).rmCount = s.rmCount := rfl
@[simp] theorem State.send_tlb1 (s : State) (m : OutMsg) : (s.send m).tlb1 = s.tlb1 := rfl
@[simp] theorem State.send_tlb2 (s : State) (m : OutMsg) : (s.send m).tlb2 = s.tlb2 := rfl
@[simp] theorem State.send_ptRootSv (s : State) (m : OutMsg) : (s.send m).ptRootSv = s.ptRootSv := rfl
@[simp] theorem State.send_mown (s : State) (m : OutMsg) : (s.send m).mown = s.mown := rfl
@[simp] theorem State.send_engines (s : State) (m : OutMsg) : (s.send m).engines = s.engines := rfl
@[simp] theorem State.send_scruple (s : State) (m : OutMsg) : (s.send m).scruple = s.scruple := rfl
@[simp] theorem State.send_seqs (s : State) (m : OutMsg) : (s.send m).seqs = s.seqs := rfl
@[simp] theorem State.send_copies (s : State) (m : OutMsg) : (s.send m).copies = s.copies := rfl
@[simp] theorem State.send_colls (s : State) (m : OutMsg) : (s.send m).colls = s.colls := rfl
@[simp] theorem State.send_decs (s : State) (m : OutMsg) : (s.send m).decs = s.decs := rfl
@[simp] theorem State.send_perch (s : State) (m : OutMsg) : (s.send m).perch = s.perch := rfl
@[simp] theorem State.send_releases (s : State) (m : OutMsg) : (s.send m).releases = s.releases := rfl
@[simp] theorem State.send_c (s : State) (m : OutMsg) : (s.send m).c = s.c := rfl
@[simp] theorem State.send_cur (s : State) (m : OutMsg) : (s.send m).cur = s.cur := rfl
@[simp] theorem State.send_ctxs (s : State) (m : OutMsg) : (s.send m).ctxs = s.ctxs := rfl
@[simp] theorem State.send_agenda (s : State) (m : OutMsg) : (s.send m).agenda = s.agenda := rfl
@[simp] theorem State.send_out (s : State) (m : OutMsg) : (s.send m).out = s.out ++ [m] := rfl
@[simp] theorem State.send_old (s : State) (m : OutMsg) : (s.send m).old = s.old := rfl
@[simp] theorem State.send_oldFmt (s : State) (m : OutMsg) : (s.send m).oldFmt = s.oldFmt := rfl
@[simp] theorem State.send_issueRef (s : State) (m : OutMsg) : (s.send m).issueRef = s.issueRef := rfl
@[simp] theorem State.send_slot (s : State) (m : OutMsg) : (s.send m).slot = s.slot := rfl
@[simp] theorem State.send_pops (s : State) (m : OutMsg) : (s.send m).pops = s.pops := rfl
@[simp] theorem State.send_stall (s : State) (m : OutMsg) : (s.send m).stall = s.stall := rfl
@[simp] theorem State.send_trapped (s : State) (m : OutMsg) : (s.send m).trapped = s.trapped := rfl
@[simp] theorem State.send_jumped (s : State) (m : OutMsg) : (s.send m).jumped = s.jumped := rfl
@[simp] theorem State.send_staged (s : State) (m : OutMsg) : (s.send m).staged = s.staged := rfl
@[simp] theorem State.send_opening (s : State) (m : OutMsg) : (s.send m).opening = s.opening := rfl
@[simp] theorem State.send_images (s : State) (m : OutMsg) : (s.send m).images = s.images := rfl
@[simp] theorem State.send_imageCores (s : State) (m : OutMsg) : (s.send m).imageCores = s.imageCores := rfl
@[simp] theorem State.send_nextRef (s : State) (m : OutMsg) : (s.send m).nextRef = s.nextRef := rfl
@[simp] theorem State.send_free (s : State) (m : OutMsg) : (s.send m).free = s.free := rfl

@[simp] theorem State.due_time (s : State) (i : Instr) : (s.due i).time = s.time := rfl
@[simp] theorem State.due_pwr (s : State) (i : Instr) : (s.due i).pwr = s.pwr := rfl
@[simp] theorem State.due_fab (s : State) (i : Instr) : (s.due i).fab = s.fab := rfl
@[simp] theorem State.due_host (s : State) (i : Instr) : (s.due i).host = s.host := rfl
@[simp] theorem State.due_world (s : State) (i : Instr) : (s.due i).world = s.world := rfl
@[simp] theorem State.due_ranks (s : State) (i : Instr) : (s.due i).ranks = s.ranks := rfl
@[simp] theorem State.due_sched (s : State) (i : Instr) : (s.due i).sched = s.sched := rfl
@[simp] theorem State.due_prot (s : State) (i : Instr) : (s.due i).prot = s.prot := rfl
@[simp] theorem State.due_mem (s : State) (i : Instr) : (s.due i).mem = s.mem := rfl
@[simp] theorem State.due_ver (s : State) (i : Instr) : (s.due i).ver = s.ver := rfl
@[simp] theorem State.due_poison (s : State) (i : Instr) : (s.due i).poison = s.poison := rfl
@[simp] theorem State.due_full (s : State) (i : Instr) : (s.due i).full = s.full := rfl
@[simp] theorem State.due_feq (s : State) (i : Instr) : (s.due i).feq = s.feq := rfl
@[simp] theorem State.due_fenced (s : State) (i : Instr) : (s.due i).fenced = s.fenced := rfl
@[simp] theorem State.due_loads (s : State) (i : Instr) : (s.due i).loads = s.loads := rfl
@[simp] theorem State.due_pend (s : State) (i : Instr) : (s.due i).pend = s.pend := rfl
@[simp] theorem State.due_wq (s : State) (i : Instr) : (s.due i).wq = s.wq := rfl
@[simp] theorem State.due_slices (s : State) (i : Instr) : (s.due i).slices = s.slices := rfl
@[simp] theorem State.due_dies (s : State) (i : Instr) : (s.due i).dies = s.dies := rfl
@[simp] theorem State.due_calendar (s : State) (i : Instr) : (s.due i).calendar = s.calendar := rfl
@[simp] theorem State.due_trk (s : State) (i : Instr) : (s.due i).trk = s.trk := rfl
@[simp] theorem State.due_rmThresh (s : State) (i : Instr) : (s.due i).rmThresh = s.rmThresh := rfl
@[simp] theorem State.due_rmRadius (s : State) (i : Instr) : (s.due i).rmRadius = s.rmRadius := rfl
@[simp] theorem State.due_rmCount (s : State) (i : Instr) : (s.due i).rmCount = s.rmCount := rfl
@[simp] theorem State.due_tlb1 (s : State) (i : Instr) : (s.due i).tlb1 = s.tlb1 := rfl
@[simp] theorem State.due_tlb2 (s : State) (i : Instr) : (s.due i).tlb2 = s.tlb2 := rfl
@[simp] theorem State.due_ptRootSv (s : State) (i : Instr) : (s.due i).ptRootSv = s.ptRootSv := rfl
@[simp] theorem State.due_mown (s : State) (i : Instr) : (s.due i).mown = s.mown := rfl
@[simp] theorem State.due_engines (s : State) (i : Instr) : (s.due i).engines = s.engines := rfl
@[simp] theorem State.due_scruple (s : State) (i : Instr) : (s.due i).scruple = s.scruple := rfl
@[simp] theorem State.due_seqs (s : State) (i : Instr) : (s.due i).seqs = s.seqs := rfl
@[simp] theorem State.due_copies (s : State) (i : Instr) : (s.due i).copies = s.copies := rfl
@[simp] theorem State.due_colls (s : State) (i : Instr) : (s.due i).colls = s.colls := rfl
@[simp] theorem State.due_decs (s : State) (i : Instr) : (s.due i).decs = s.decs := rfl
@[simp] theorem State.due_perch (s : State) (i : Instr) : (s.due i).perch = s.perch := rfl
@[simp] theorem State.due_releases (s : State) (i : Instr) : (s.due i).releases = s.releases := rfl
@[simp] theorem State.due_c (s : State) (i : Instr) : (s.due i).c = s.c := rfl
@[simp] theorem State.due_cur (s : State) (i : Instr) : (s.due i).cur = s.cur := rfl
@[simp] theorem State.due_ctxs (s : State) (i : Instr) : (s.due i).ctxs = s.ctxs := rfl
@[simp] theorem State.due_agenda (s : State) (i : Instr) : (s.due i).agenda = s.agenda ++ [i] := rfl
@[simp] theorem State.due_out (s : State) (i : Instr) : (s.due i).out = s.out := rfl
@[simp] theorem State.due_old (s : State) (i : Instr) : (s.due i).old = s.old := rfl
@[simp] theorem State.due_oldFmt (s : State) (i : Instr) : (s.due i).oldFmt = s.oldFmt := rfl
@[simp] theorem State.due_issueRef (s : State) (i : Instr) : (s.due i).issueRef = s.issueRef := rfl
@[simp] theorem State.due_slot (s : State) (i : Instr) : (s.due i).slot = s.slot := rfl
@[simp] theorem State.due_pops (s : State) (i : Instr) : (s.due i).pops = s.pops := rfl
@[simp] theorem State.due_stall (s : State) (i : Instr) : (s.due i).stall = s.stall := rfl
@[simp] theorem State.due_trapped (s : State) (i : Instr) : (s.due i).trapped = s.trapped := rfl
@[simp] theorem State.due_jumped (s : State) (i : Instr) : (s.due i).jumped = s.jumped := rfl
@[simp] theorem State.due_staged (s : State) (i : Instr) : (s.due i).staged = s.staged := rfl
@[simp] theorem State.due_opening (s : State) (i : Instr) : (s.due i).opening = s.opening := rfl
@[simp] theorem State.due_images (s : State) (i : Instr) : (s.due i).images = s.images := rfl
@[simp] theorem State.due_imageCores (s : State) (i : Instr) : (s.due i).imageCores = s.imageCores := rfl
@[simp] theorem State.due_nextRef (s : State) (i : Instr) : (s.due i).nextRef = s.nextRef := rfl
@[simp] theorem State.due_free (s : State) (i : Instr) : (s.due i).free = s.free := rfl

@[simp] theorem State.dueNow_time (s : State) (i : Instr) : (s.dueNow i).time = s.time := rfl
@[simp] theorem State.dueNow_pwr (s : State) (i : Instr) : (s.dueNow i).pwr = s.pwr := rfl
@[simp] theorem State.dueNow_fab (s : State) (i : Instr) : (s.dueNow i).fab = s.fab := rfl
@[simp] theorem State.dueNow_host (s : State) (i : Instr) : (s.dueNow i).host = s.host := rfl
@[simp] theorem State.dueNow_world (s : State) (i : Instr) : (s.dueNow i).world = s.world := rfl
@[simp] theorem State.dueNow_ranks (s : State) (i : Instr) : (s.dueNow i).ranks = s.ranks := rfl
@[simp] theorem State.dueNow_sched (s : State) (i : Instr) : (s.dueNow i).sched = s.sched := rfl
@[simp] theorem State.dueNow_prot (s : State) (i : Instr) : (s.dueNow i).prot = s.prot := rfl
@[simp] theorem State.dueNow_mem (s : State) (i : Instr) : (s.dueNow i).mem = s.mem := rfl
@[simp] theorem State.dueNow_ver (s : State) (i : Instr) : (s.dueNow i).ver = s.ver := rfl
@[simp] theorem State.dueNow_poison (s : State) (i : Instr) : (s.dueNow i).poison = s.poison := rfl
@[simp] theorem State.dueNow_full (s : State) (i : Instr) : (s.dueNow i).full = s.full := rfl
@[simp] theorem State.dueNow_feq (s : State) (i : Instr) : (s.dueNow i).feq = s.feq := rfl
@[simp] theorem State.dueNow_fenced (s : State) (i : Instr) : (s.dueNow i).fenced = s.fenced := rfl
@[simp] theorem State.dueNow_loads (s : State) (i : Instr) : (s.dueNow i).loads = s.loads := rfl
@[simp] theorem State.dueNow_pend (s : State) (i : Instr) : (s.dueNow i).pend = s.pend := rfl
@[simp] theorem State.dueNow_wq (s : State) (i : Instr) : (s.dueNow i).wq = s.wq := rfl
@[simp] theorem State.dueNow_slices (s : State) (i : Instr) : (s.dueNow i).slices = s.slices := rfl
@[simp] theorem State.dueNow_dies (s : State) (i : Instr) : (s.dueNow i).dies = s.dies := rfl
@[simp] theorem State.dueNow_calendar (s : State) (i : Instr) : (s.dueNow i).calendar = s.calendar := rfl
@[simp] theorem State.dueNow_trk (s : State) (i : Instr) : (s.dueNow i).trk = s.trk := rfl
@[simp] theorem State.dueNow_rmThresh (s : State) (i : Instr) : (s.dueNow i).rmThresh = s.rmThresh := rfl
@[simp] theorem State.dueNow_rmRadius (s : State) (i : Instr) : (s.dueNow i).rmRadius = s.rmRadius := rfl
@[simp] theorem State.dueNow_rmCount (s : State) (i : Instr) : (s.dueNow i).rmCount = s.rmCount := rfl
@[simp] theorem State.dueNow_tlb1 (s : State) (i : Instr) : (s.dueNow i).tlb1 = s.tlb1 := rfl
@[simp] theorem State.dueNow_tlb2 (s : State) (i : Instr) : (s.dueNow i).tlb2 = s.tlb2 := rfl
@[simp] theorem State.dueNow_ptRootSv (s : State) (i : Instr) : (s.dueNow i).ptRootSv = s.ptRootSv := rfl
@[simp] theorem State.dueNow_mown (s : State) (i : Instr) : (s.dueNow i).mown = s.mown := rfl
@[simp] theorem State.dueNow_engines (s : State) (i : Instr) : (s.dueNow i).engines = s.engines := rfl
@[simp] theorem State.dueNow_scruple (s : State) (i : Instr) : (s.dueNow i).scruple = s.scruple := rfl
@[simp] theorem State.dueNow_seqs (s : State) (i : Instr) : (s.dueNow i).seqs = s.seqs := rfl
@[simp] theorem State.dueNow_copies (s : State) (i : Instr) : (s.dueNow i).copies = s.copies := rfl
@[simp] theorem State.dueNow_colls (s : State) (i : Instr) : (s.dueNow i).colls = s.colls := rfl
@[simp] theorem State.dueNow_decs (s : State) (i : Instr) : (s.dueNow i).decs = s.decs := rfl
@[simp] theorem State.dueNow_perch (s : State) (i : Instr) : (s.dueNow i).perch = s.perch := rfl
@[simp] theorem State.dueNow_releases (s : State) (i : Instr) : (s.dueNow i).releases = s.releases := rfl
@[simp] theorem State.dueNow_c (s : State) (i : Instr) : (s.dueNow i).c = s.c := rfl
@[simp] theorem State.dueNow_cur (s : State) (i : Instr) : (s.dueNow i).cur = s.cur := rfl
@[simp] theorem State.dueNow_ctxs (s : State) (i : Instr) : (s.dueNow i).ctxs = s.ctxs := rfl
@[simp] theorem State.dueNow_agenda (s : State) (i : Instr) : (s.dueNow i).agenda = i :: s.agenda := rfl
@[simp] theorem State.dueNow_out (s : State) (i : Instr) : (s.dueNow i).out = s.out := rfl
@[simp] theorem State.dueNow_old (s : State) (i : Instr) : (s.dueNow i).old = s.old := rfl
@[simp] theorem State.dueNow_oldFmt (s : State) (i : Instr) : (s.dueNow i).oldFmt = s.oldFmt := rfl
@[simp] theorem State.dueNow_issueRef (s : State) (i : Instr) : (s.dueNow i).issueRef = s.issueRef := rfl
@[simp] theorem State.dueNow_slot (s : State) (i : Instr) : (s.dueNow i).slot = s.slot := rfl
@[simp] theorem State.dueNow_pops (s : State) (i : Instr) : (s.dueNow i).pops = s.pops := rfl
@[simp] theorem State.dueNow_stall (s : State) (i : Instr) : (s.dueNow i).stall = s.stall := rfl
@[simp] theorem State.dueNow_trapped (s : State) (i : Instr) : (s.dueNow i).trapped = s.trapped := rfl
@[simp] theorem State.dueNow_jumped (s : State) (i : Instr) : (s.dueNow i).jumped = s.jumped := rfl
@[simp] theorem State.dueNow_staged (s : State) (i : Instr) : (s.dueNow i).staged = s.staged := rfl
@[simp] theorem State.dueNow_opening (s : State) (i : Instr) : (s.dueNow i).opening = s.opening := rfl
@[simp] theorem State.dueNow_images (s : State) (i : Instr) : (s.dueNow i).images = s.images := rfl
@[simp] theorem State.dueNow_imageCores (s : State) (i : Instr) : (s.dueNow i).imageCores = s.imageCores := rfl
@[simp] theorem State.dueNow_nextRef (s : State) (i : Instr) : (s.dueNow i).nextRef = s.nextRef := rfl
@[simp] theorem State.dueNow_free (s : State) (i : Instr) : (s.dueNow i).free = s.free := rfl

@[simp] theorem State.modDom_time (s : State) (k : Nat) (f : Dom → Dom) : (s.modDom k f).time = s.time := rfl
@[simp] theorem State.modDom_pwr (s : State) (k : Nat) (f : Dom → Dom) : (s.modDom k f).pwr = s.pwr := rfl
@[simp] theorem State.modDom_fab (s : State) (k : Nat) (f : Dom → Dom) : (s.modDom k f).fab = s.fab := rfl
@[simp] theorem State.modDom_host (s : State) (k : Nat) (f : Dom → Dom) : (s.modDom k f).host = s.host := rfl
@[simp] theorem State.modDom_world (s : State) (k : Nat) (f : Dom → Dom) : (s.modDom k f).world = s.world := rfl
@[simp] theorem State.modDom_ranks (s : State) (k : Nat) (f : Dom → Dom) : (s.modDom k f).ranks = s.ranks := rfl
@[simp] theorem State.modDom_sched (s : State) (k : Nat) (f : Dom → Dom) : (s.modDom k f).sched = { s.sched with doms := Store.set Dom.reset s.sched.doms k (f (s.domOf k)) } := rfl
@[simp] theorem State.modDom_prot (s : State) (k : Nat) (f : Dom → Dom) : (s.modDom k f).prot = s.prot := rfl
@[simp] theorem State.modDom_mem (s : State) (k : Nat) (f : Dom → Dom) : (s.modDom k f).mem = s.mem := rfl
@[simp] theorem State.modDom_ver (s : State) (k : Nat) (f : Dom → Dom) : (s.modDom k f).ver = s.ver := rfl
@[simp] theorem State.modDom_poison (s : State) (k : Nat) (f : Dom → Dom) : (s.modDom k f).poison = s.poison := rfl
@[simp] theorem State.modDom_full (s : State) (k : Nat) (f : Dom → Dom) : (s.modDom k f).full = s.full := rfl
@[simp] theorem State.modDom_feq (s : State) (k : Nat) (f : Dom → Dom) : (s.modDom k f).feq = s.feq := rfl
@[simp] theorem State.modDom_fenced (s : State) (k : Nat) (f : Dom → Dom) : (s.modDom k f).fenced = s.fenced := rfl
@[simp] theorem State.modDom_loads (s : State) (k : Nat) (f : Dom → Dom) : (s.modDom k f).loads = s.loads := rfl
@[simp] theorem State.modDom_pend (s : State) (k : Nat) (f : Dom → Dom) : (s.modDom k f).pend = s.pend := rfl
@[simp] theorem State.modDom_wq (s : State) (k : Nat) (f : Dom → Dom) : (s.modDom k f).wq = s.wq := rfl
@[simp] theorem State.modDom_slices (s : State) (k : Nat) (f : Dom → Dom) : (s.modDom k f).slices = s.slices := rfl
@[simp] theorem State.modDom_dies (s : State) (k : Nat) (f : Dom → Dom) : (s.modDom k f).dies = s.dies := rfl
@[simp] theorem State.modDom_calendar (s : State) (k : Nat) (f : Dom → Dom) : (s.modDom k f).calendar = s.calendar := rfl
@[simp] theorem State.modDom_trk (s : State) (k : Nat) (f : Dom → Dom) : (s.modDom k f).trk = s.trk := rfl
@[simp] theorem State.modDom_rmThresh (s : State) (k : Nat) (f : Dom → Dom) : (s.modDom k f).rmThresh = s.rmThresh := rfl
@[simp] theorem State.modDom_rmRadius (s : State) (k : Nat) (f : Dom → Dom) : (s.modDom k f).rmRadius = s.rmRadius := rfl
@[simp] theorem State.modDom_rmCount (s : State) (k : Nat) (f : Dom → Dom) : (s.modDom k f).rmCount = s.rmCount := rfl
@[simp] theorem State.modDom_tlb1 (s : State) (k : Nat) (f : Dom → Dom) : (s.modDom k f).tlb1 = s.tlb1 := rfl
@[simp] theorem State.modDom_tlb2 (s : State) (k : Nat) (f : Dom → Dom) : (s.modDom k f).tlb2 = s.tlb2 := rfl
@[simp] theorem State.modDom_ptRootSv (s : State) (k : Nat) (f : Dom → Dom) : (s.modDom k f).ptRootSv = s.ptRootSv := rfl
@[simp] theorem State.modDom_mown (s : State) (k : Nat) (f : Dom → Dom) : (s.modDom k f).mown = s.mown := rfl
@[simp] theorem State.modDom_engines (s : State) (k : Nat) (f : Dom → Dom) : (s.modDom k f).engines = s.engines := rfl
@[simp] theorem State.modDom_scruple (s : State) (k : Nat) (f : Dom → Dom) : (s.modDom k f).scruple = s.scruple := rfl
@[simp] theorem State.modDom_seqs (s : State) (k : Nat) (f : Dom → Dom) : (s.modDom k f).seqs = s.seqs := rfl
@[simp] theorem State.modDom_copies (s : State) (k : Nat) (f : Dom → Dom) : (s.modDom k f).copies = s.copies := rfl
@[simp] theorem State.modDom_colls (s : State) (k : Nat) (f : Dom → Dom) : (s.modDom k f).colls = s.colls := rfl
@[simp] theorem State.modDom_decs (s : State) (k : Nat) (f : Dom → Dom) : (s.modDom k f).decs = s.decs := rfl
@[simp] theorem State.modDom_perch (s : State) (k : Nat) (f : Dom → Dom) : (s.modDom k f).perch = s.perch := rfl
@[simp] theorem State.modDom_releases (s : State) (k : Nat) (f : Dom → Dom) : (s.modDom k f).releases = s.releases := rfl
@[simp] theorem State.modDom_c (s : State) (k : Nat) (f : Dom → Dom) : (s.modDom k f).c = s.c := rfl
@[simp] theorem State.modDom_cur (s : State) (k : Nat) (f : Dom → Dom) : (s.modDom k f).cur = s.cur := rfl
@[simp] theorem State.modDom_ctxs (s : State) (k : Nat) (f : Dom → Dom) : (s.modDom k f).ctxs = s.ctxs := rfl
@[simp] theorem State.modDom_agenda (s : State) (k : Nat) (f : Dom → Dom) : (s.modDom k f).agenda = s.agenda := rfl
@[simp] theorem State.modDom_out (s : State) (k : Nat) (f : Dom → Dom) : (s.modDom k f).out = s.out := rfl
@[simp] theorem State.modDom_old (s : State) (k : Nat) (f : Dom → Dom) : (s.modDom k f).old = s.old := rfl
@[simp] theorem State.modDom_oldFmt (s : State) (k : Nat) (f : Dom → Dom) : (s.modDom k f).oldFmt = s.oldFmt := rfl
@[simp] theorem State.modDom_issueRef (s : State) (k : Nat) (f : Dom → Dom) : (s.modDom k f).issueRef = s.issueRef := rfl
@[simp] theorem State.modDom_slot (s : State) (k : Nat) (f : Dom → Dom) : (s.modDom k f).slot = s.slot := rfl
@[simp] theorem State.modDom_pops (s : State) (k : Nat) (f : Dom → Dom) : (s.modDom k f).pops = s.pops := rfl
@[simp] theorem State.modDom_stall (s : State) (k : Nat) (f : Dom → Dom) : (s.modDom k f).stall = s.stall := rfl
@[simp] theorem State.modDom_trapped (s : State) (k : Nat) (f : Dom → Dom) : (s.modDom k f).trapped = s.trapped := rfl
@[simp] theorem State.modDom_jumped (s : State) (k : Nat) (f : Dom → Dom) : (s.modDom k f).jumped = s.jumped := rfl
@[simp] theorem State.modDom_staged (s : State) (k : Nat) (f : Dom → Dom) : (s.modDom k f).staged = s.staged := rfl
@[simp] theorem State.modDom_opening (s : State) (k : Nat) (f : Dom → Dom) : (s.modDom k f).opening = s.opening := rfl
@[simp] theorem State.modDom_images (s : State) (k : Nat) (f : Dom → Dom) : (s.modDom k f).images = s.images := rfl
@[simp] theorem State.modDom_imageCores (s : State) (k : Nat) (f : Dom → Dom) : (s.modDom k f).imageCores = s.imageCores := rfl
@[simp] theorem State.modDom_nextRef (s : State) (k : Nat) (f : Dom → Dom) : (s.modDom k f).nextRef = s.nextRef := rfl
@[simp] theorem State.modDom_free (s : State) (k : Nat) (f : Dom → Dom) : (s.modDom k f).free = s.free := rfl

@[simp] theorem State.setEngine_time (s : State) (k r : Nat) (e : Engine) : (s.setEngine k r e).time = s.time := rfl
@[simp] theorem State.setEngine_pwr (s : State) (k r : Nat) (e : Engine) : (s.setEngine k r e).pwr = s.pwr := rfl
@[simp] theorem State.setEngine_fab (s : State) (k r : Nat) (e : Engine) : (s.setEngine k r e).fab = s.fab := rfl
@[simp] theorem State.setEngine_host (s : State) (k r : Nat) (e : Engine) : (s.setEngine k r e).host = s.host := rfl
@[simp] theorem State.setEngine_world (s : State) (k r : Nat) (e : Engine) : (s.setEngine k r e).world = s.world := rfl
@[simp] theorem State.setEngine_ranks (s : State) (k r : Nat) (e : Engine) : (s.setEngine k r e).ranks = s.ranks := rfl
@[simp] theorem State.setEngine_sched (s : State) (k r : Nat) (e : Engine) : (s.setEngine k r e).sched = s.sched := rfl
@[simp] theorem State.setEngine_prot (s : State) (k r : Nat) (e : Engine) : (s.setEngine k r e).prot = s.prot := rfl
@[simp] theorem State.setEngine_mem (s : State) (k r : Nat) (e : Engine) : (s.setEngine k r e).mem = s.mem := rfl
@[simp] theorem State.setEngine_ver (s : State) (k r : Nat) (e : Engine) : (s.setEngine k r e).ver = s.ver := rfl
@[simp] theorem State.setEngine_poison (s : State) (k r : Nat) (e : Engine) : (s.setEngine k r e).poison = s.poison := rfl
@[simp] theorem State.setEngine_full (s : State) (k r : Nat) (e : Engine) : (s.setEngine k r e).full = s.full := rfl
@[simp] theorem State.setEngine_feq (s : State) (k r : Nat) (e : Engine) : (s.setEngine k r e).feq = s.feq := rfl
@[simp] theorem State.setEngine_fenced (s : State) (k r : Nat) (e : Engine) : (s.setEngine k r e).fenced = s.fenced := rfl
@[simp] theorem State.setEngine_loads (s : State) (k r : Nat) (e : Engine) : (s.setEngine k r e).loads = s.loads := rfl
@[simp] theorem State.setEngine_pend (s : State) (k r : Nat) (e : Engine) : (s.setEngine k r e).pend = s.pend := rfl
@[simp] theorem State.setEngine_wq (s : State) (k r : Nat) (e : Engine) : (s.setEngine k r e).wq = s.wq := rfl
@[simp] theorem State.setEngine_slices (s : State) (k r : Nat) (e : Engine) : (s.setEngine k r e).slices = s.slices := rfl
@[simp] theorem State.setEngine_dies (s : State) (k r : Nat) (e : Engine) : (s.setEngine k r e).dies = s.dies := rfl
@[simp] theorem State.setEngine_calendar (s : State) (k r : Nat) (e : Engine) : (s.setEngine k r e).calendar = s.calendar := rfl
@[simp] theorem State.setEngine_trk (s : State) (k r : Nat) (e : Engine) : (s.setEngine k r e).trk = s.trk := rfl
@[simp] theorem State.setEngine_rmThresh (s : State) (k r : Nat) (e : Engine) : (s.setEngine k r e).rmThresh = s.rmThresh := rfl
@[simp] theorem State.setEngine_rmRadius (s : State) (k r : Nat) (e : Engine) : (s.setEngine k r e).rmRadius = s.rmRadius := rfl
@[simp] theorem State.setEngine_rmCount (s : State) (k r : Nat) (e : Engine) : (s.setEngine k r e).rmCount = s.rmCount := rfl
@[simp] theorem State.setEngine_tlb1 (s : State) (k r : Nat) (e : Engine) : (s.setEngine k r e).tlb1 = s.tlb1 := rfl
@[simp] theorem State.setEngine_tlb2 (s : State) (k r : Nat) (e : Engine) : (s.setEngine k r e).tlb2 = s.tlb2 := rfl
@[simp] theorem State.setEngine_ptRootSv (s : State) (k r : Nat) (e : Engine) : (s.setEngine k r e).ptRootSv = s.ptRootSv := rfl
@[simp] theorem State.setEngine_mown (s : State) (k r : Nat) (e : Engine) : (s.setEngine k r e).mown = s.mown := rfl
@[simp] theorem State.setEngine_engines (s : State) (k r : Nat) (e : Engine) : (s.setEngine k r e).engines = Store.set Engine.reset s.engines (engKey k r) e := rfl
@[simp] theorem State.setEngine_scruple (s : State) (k r : Nat) (e : Engine) : (s.setEngine k r e).scruple = s.scruple := rfl
@[simp] theorem State.setEngine_seqs (s : State) (k r : Nat) (e : Engine) : (s.setEngine k r e).seqs = s.seqs := rfl
@[simp] theorem State.setEngine_copies (s : State) (k r : Nat) (e : Engine) : (s.setEngine k r e).copies = s.copies := rfl
@[simp] theorem State.setEngine_colls (s : State) (k r : Nat) (e : Engine) : (s.setEngine k r e).colls = s.colls := rfl
@[simp] theorem State.setEngine_decs (s : State) (k r : Nat) (e : Engine) : (s.setEngine k r e).decs = s.decs := rfl
@[simp] theorem State.setEngine_perch (s : State) (k r : Nat) (e : Engine) : (s.setEngine k r e).perch = s.perch := rfl
@[simp] theorem State.setEngine_releases (s : State) (k r : Nat) (e : Engine) : (s.setEngine k r e).releases = s.releases := rfl
@[simp] theorem State.setEngine_c (s : State) (k r : Nat) (e : Engine) : (s.setEngine k r e).c = s.c := rfl
@[simp] theorem State.setEngine_cur (s : State) (k r : Nat) (e : Engine) : (s.setEngine k r e).cur = s.cur := rfl
@[simp] theorem State.setEngine_ctxs (s : State) (k r : Nat) (e : Engine) : (s.setEngine k r e).ctxs = s.ctxs := rfl
@[simp] theorem State.setEngine_agenda (s : State) (k r : Nat) (e : Engine) : (s.setEngine k r e).agenda = s.agenda := rfl
@[simp] theorem State.setEngine_out (s : State) (k r : Nat) (e : Engine) : (s.setEngine k r e).out = s.out := rfl
@[simp] theorem State.setEngine_old (s : State) (k r : Nat) (e : Engine) : (s.setEngine k r e).old = s.old := rfl
@[simp] theorem State.setEngine_oldFmt (s : State) (k r : Nat) (e : Engine) : (s.setEngine k r e).oldFmt = s.oldFmt := rfl
@[simp] theorem State.setEngine_issueRef (s : State) (k r : Nat) (e : Engine) : (s.setEngine k r e).issueRef = s.issueRef := rfl
@[simp] theorem State.setEngine_slot (s : State) (k r : Nat) (e : Engine) : (s.setEngine k r e).slot = s.slot := rfl
@[simp] theorem State.setEngine_pops (s : State) (k r : Nat) (e : Engine) : (s.setEngine k r e).pops = s.pops := rfl
@[simp] theorem State.setEngine_stall (s : State) (k r : Nat) (e : Engine) : (s.setEngine k r e).stall = s.stall := rfl
@[simp] theorem State.setEngine_trapped (s : State) (k r : Nat) (e : Engine) : (s.setEngine k r e).trapped = s.trapped := rfl
@[simp] theorem State.setEngine_jumped (s : State) (k r : Nat) (e : Engine) : (s.setEngine k r e).jumped = s.jumped := rfl
@[simp] theorem State.setEngine_staged (s : State) (k r : Nat) (e : Engine) : (s.setEngine k r e).staged = s.staged := rfl
@[simp] theorem State.setEngine_opening (s : State) (k r : Nat) (e : Engine) : (s.setEngine k r e).opening = s.opening := rfl
@[simp] theorem State.setEngine_images (s : State) (k r : Nat) (e : Engine) : (s.setEngine k r e).images = s.images := rfl
@[simp] theorem State.setEngine_imageCores (s : State) (k r : Nat) (e : Engine) : (s.setEngine k r e).imageCores = s.imageCores := rfl
@[simp] theorem State.setEngine_nextRef (s : State) (k r : Nat) (e : Engine) : (s.setEngine k r e).nextRef = s.nextRef := rfl
@[simp] theorem State.setEngine_free (s : State) (k r : Nat) (e : Engine) : (s.setEngine k r e).free = s.free := rfl

@[simp] theorem State.setMown_time (s : State) (k r : Nat) (m : BitVec 3) : (s.setMown k r m).time = s.time := rfl
@[simp] theorem State.setMown_pwr (s : State) (k r : Nat) (m : BitVec 3) : (s.setMown k r m).pwr = s.pwr := rfl
@[simp] theorem State.setMown_fab (s : State) (k r : Nat) (m : BitVec 3) : (s.setMown k r m).fab = s.fab := rfl
@[simp] theorem State.setMown_host (s : State) (k r : Nat) (m : BitVec 3) : (s.setMown k r m).host = s.host := rfl
@[simp] theorem State.setMown_world (s : State) (k r : Nat) (m : BitVec 3) : (s.setMown k r m).world = s.world := rfl
@[simp] theorem State.setMown_ranks (s : State) (k r : Nat) (m : BitVec 3) : (s.setMown k r m).ranks = s.ranks := rfl
@[simp] theorem State.setMown_sched (s : State) (k r : Nat) (m : BitVec 3) : (s.setMown k r m).sched = s.sched := rfl
@[simp] theorem State.setMown_prot (s : State) (k r : Nat) (m : BitVec 3) : (s.setMown k r m).prot = s.prot := rfl
@[simp] theorem State.setMown_mem (s : State) (k r : Nat) (m : BitVec 3) : (s.setMown k r m).mem = s.mem := rfl
@[simp] theorem State.setMown_ver (s : State) (k r : Nat) (m : BitVec 3) : (s.setMown k r m).ver = s.ver := rfl
@[simp] theorem State.setMown_poison (s : State) (k r : Nat) (m : BitVec 3) : (s.setMown k r m).poison = s.poison := rfl
@[simp] theorem State.setMown_full (s : State) (k r : Nat) (m : BitVec 3) : (s.setMown k r m).full = s.full := rfl
@[simp] theorem State.setMown_feq (s : State) (k r : Nat) (m : BitVec 3) : (s.setMown k r m).feq = s.feq := rfl
@[simp] theorem State.setMown_fenced (s : State) (k r : Nat) (m : BitVec 3) : (s.setMown k r m).fenced = s.fenced := rfl
@[simp] theorem State.setMown_loads (s : State) (k r : Nat) (m : BitVec 3) : (s.setMown k r m).loads = s.loads := rfl
@[simp] theorem State.setMown_pend (s : State) (k r : Nat) (m : BitVec 3) : (s.setMown k r m).pend = s.pend := rfl
@[simp] theorem State.setMown_wq (s : State) (k r : Nat) (m : BitVec 3) : (s.setMown k r m).wq = s.wq := rfl
@[simp] theorem State.setMown_slices (s : State) (k r : Nat) (m : BitVec 3) : (s.setMown k r m).slices = s.slices := rfl
@[simp] theorem State.setMown_dies (s : State) (k r : Nat) (m : BitVec 3) : (s.setMown k r m).dies = s.dies := rfl
@[simp] theorem State.setMown_calendar (s : State) (k r : Nat) (m : BitVec 3) : (s.setMown k r m).calendar = s.calendar := rfl
@[simp] theorem State.setMown_trk (s : State) (k r : Nat) (m : BitVec 3) : (s.setMown k r m).trk = s.trk := rfl
@[simp] theorem State.setMown_rmThresh (s : State) (k r : Nat) (m : BitVec 3) : (s.setMown k r m).rmThresh = s.rmThresh := rfl
@[simp] theorem State.setMown_rmRadius (s : State) (k r : Nat) (m : BitVec 3) : (s.setMown k r m).rmRadius = s.rmRadius := rfl
@[simp] theorem State.setMown_rmCount (s : State) (k r : Nat) (m : BitVec 3) : (s.setMown k r m).rmCount = s.rmCount := rfl
@[simp] theorem State.setMown_tlb1 (s : State) (k r : Nat) (m : BitVec 3) : (s.setMown k r m).tlb1 = s.tlb1 := rfl
@[simp] theorem State.setMown_tlb2 (s : State) (k r : Nat) (m : BitVec 3) : (s.setMown k r m).tlb2 = s.tlb2 := rfl
@[simp] theorem State.setMown_ptRootSv (s : State) (k r : Nat) (m : BitVec 3) : (s.setMown k r m).ptRootSv = s.ptRootSv := rfl
@[simp] theorem State.setMown_mown (s : State) (k r : Nat) (m : BitVec 3) : (s.setMown k r m).mown = Store.set 0 s.mown (engKey k r) m := rfl
@[simp] theorem State.setMown_engines (s : State) (k r : Nat) (m : BitVec 3) : (s.setMown k r m).engines = s.engines := rfl
@[simp] theorem State.setMown_scruple (s : State) (k r : Nat) (m : BitVec 3) : (s.setMown k r m).scruple = s.scruple := rfl
@[simp] theorem State.setMown_seqs (s : State) (k r : Nat) (m : BitVec 3) : (s.setMown k r m).seqs = s.seqs := rfl
@[simp] theorem State.setMown_copies (s : State) (k r : Nat) (m : BitVec 3) : (s.setMown k r m).copies = s.copies := rfl
@[simp] theorem State.setMown_colls (s : State) (k r : Nat) (m : BitVec 3) : (s.setMown k r m).colls = s.colls := rfl
@[simp] theorem State.setMown_decs (s : State) (k r : Nat) (m : BitVec 3) : (s.setMown k r m).decs = s.decs := rfl
@[simp] theorem State.setMown_perch (s : State) (k r : Nat) (m : BitVec 3) : (s.setMown k r m).perch = s.perch := rfl
@[simp] theorem State.setMown_releases (s : State) (k r : Nat) (m : BitVec 3) : (s.setMown k r m).releases = s.releases := rfl
@[simp] theorem State.setMown_c (s : State) (k r : Nat) (m : BitVec 3) : (s.setMown k r m).c = s.c := rfl
@[simp] theorem State.setMown_cur (s : State) (k r : Nat) (m : BitVec 3) : (s.setMown k r m).cur = s.cur := rfl
@[simp] theorem State.setMown_ctxs (s : State) (k r : Nat) (m : BitVec 3) : (s.setMown k r m).ctxs = s.ctxs := rfl
@[simp] theorem State.setMown_agenda (s : State) (k r : Nat) (m : BitVec 3) : (s.setMown k r m).agenda = s.agenda := rfl
@[simp] theorem State.setMown_out (s : State) (k r : Nat) (m : BitVec 3) : (s.setMown k r m).out = s.out := rfl
@[simp] theorem State.setMown_old (s : State) (k r : Nat) (m : BitVec 3) : (s.setMown k r m).old = s.old := rfl
@[simp] theorem State.setMown_oldFmt (s : State) (k r : Nat) (m : BitVec 3) : (s.setMown k r m).oldFmt = s.oldFmt := rfl
@[simp] theorem State.setMown_issueRef (s : State) (k r : Nat) (m : BitVec 3) : (s.setMown k r m).issueRef = s.issueRef := rfl
@[simp] theorem State.setMown_slot (s : State) (k r : Nat) (m : BitVec 3) : (s.setMown k r m).slot = s.slot := rfl
@[simp] theorem State.setMown_pops (s : State) (k r : Nat) (m : BitVec 3) : (s.setMown k r m).pops = s.pops := rfl
@[simp] theorem State.setMown_stall (s : State) (k r : Nat) (m : BitVec 3) : (s.setMown k r m).stall = s.stall := rfl
@[simp] theorem State.setMown_trapped (s : State) (k r : Nat) (m : BitVec 3) : (s.setMown k r m).trapped = s.trapped := rfl
@[simp] theorem State.setMown_jumped (s : State) (k r : Nat) (m : BitVec 3) : (s.setMown k r m).jumped = s.jumped := rfl
@[simp] theorem State.setMown_staged (s : State) (k r : Nat) (m : BitVec 3) : (s.setMown k r m).staged = s.staged := rfl
@[simp] theorem State.setMown_opening (s : State) (k r : Nat) (m : BitVec 3) : (s.setMown k r m).opening = s.opening := rfl
@[simp] theorem State.setMown_images (s : State) (k r : Nat) (m : BitVec 3) : (s.setMown k r m).images = s.images := rfl
@[simp] theorem State.setMown_imageCores (s : State) (k r : Nat) (m : BitVec 3) : (s.setMown k r m).imageCores = s.imageCores := rfl
@[simp] theorem State.setMown_nextRef (s : State) (k r : Nat) (m : BitVec 3) : (s.setMown k r m).nextRef = s.nextRef := rfl
@[simp] theorem State.setMown_free (s : State) (k r : Nat) (m : BitVec 3) : (s.setMown k r m).free = s.free := rfl

@[simp] theorem State.setScr_time (s : State) (k r t : Nat) (x : Scruple) : (s.setScr k r t x).time = s.time := rfl
@[simp] theorem State.setScr_pwr (s : State) (k r t : Nat) (x : Scruple) : (s.setScr k r t x).pwr = s.pwr := rfl
@[simp] theorem State.setScr_fab (s : State) (k r t : Nat) (x : Scruple) : (s.setScr k r t x).fab = s.fab := rfl
@[simp] theorem State.setScr_host (s : State) (k r t : Nat) (x : Scruple) : (s.setScr k r t x).host = s.host := rfl
@[simp] theorem State.setScr_world (s : State) (k r t : Nat) (x : Scruple) : (s.setScr k r t x).world = s.world := rfl
@[simp] theorem State.setScr_ranks (s : State) (k r t : Nat) (x : Scruple) : (s.setScr k r t x).ranks = s.ranks := rfl
@[simp] theorem State.setScr_sched (s : State) (k r t : Nat) (x : Scruple) : (s.setScr k r t x).sched = s.sched := rfl
@[simp] theorem State.setScr_prot (s : State) (k r t : Nat) (x : Scruple) : (s.setScr k r t x).prot = s.prot := rfl
@[simp] theorem State.setScr_mem (s : State) (k r t : Nat) (x : Scruple) : (s.setScr k r t x).mem = s.mem := rfl
@[simp] theorem State.setScr_ver (s : State) (k r t : Nat) (x : Scruple) : (s.setScr k r t x).ver = s.ver := rfl
@[simp] theorem State.setScr_poison (s : State) (k r t : Nat) (x : Scruple) : (s.setScr k r t x).poison = s.poison := rfl
@[simp] theorem State.setScr_full (s : State) (k r t : Nat) (x : Scruple) : (s.setScr k r t x).full = s.full := rfl
@[simp] theorem State.setScr_feq (s : State) (k r t : Nat) (x : Scruple) : (s.setScr k r t x).feq = s.feq := rfl
@[simp] theorem State.setScr_fenced (s : State) (k r t : Nat) (x : Scruple) : (s.setScr k r t x).fenced = s.fenced := rfl
@[simp] theorem State.setScr_loads (s : State) (k r t : Nat) (x : Scruple) : (s.setScr k r t x).loads = s.loads := rfl
@[simp] theorem State.setScr_pend (s : State) (k r t : Nat) (x : Scruple) : (s.setScr k r t x).pend = s.pend := rfl
@[simp] theorem State.setScr_wq (s : State) (k r t : Nat) (x : Scruple) : (s.setScr k r t x).wq = s.wq := rfl
@[simp] theorem State.setScr_slices (s : State) (k r t : Nat) (x : Scruple) : (s.setScr k r t x).slices = s.slices := rfl
@[simp] theorem State.setScr_dies (s : State) (k r t : Nat) (x : Scruple) : (s.setScr k r t x).dies = s.dies := rfl
@[simp] theorem State.setScr_calendar (s : State) (k r t : Nat) (x : Scruple) : (s.setScr k r t x).calendar = s.calendar := rfl
@[simp] theorem State.setScr_trk (s : State) (k r t : Nat) (x : Scruple) : (s.setScr k r t x).trk = s.trk := rfl
@[simp] theorem State.setScr_rmThresh (s : State) (k r t : Nat) (x : Scruple) : (s.setScr k r t x).rmThresh = s.rmThresh := rfl
@[simp] theorem State.setScr_rmRadius (s : State) (k r t : Nat) (x : Scruple) : (s.setScr k r t x).rmRadius = s.rmRadius := rfl
@[simp] theorem State.setScr_rmCount (s : State) (k r t : Nat) (x : Scruple) : (s.setScr k r t x).rmCount = s.rmCount := rfl
@[simp] theorem State.setScr_tlb1 (s : State) (k r t : Nat) (x : Scruple) : (s.setScr k r t x).tlb1 = s.tlb1 := rfl
@[simp] theorem State.setScr_tlb2 (s : State) (k r t : Nat) (x : Scruple) : (s.setScr k r t x).tlb2 = s.tlb2 := rfl
@[simp] theorem State.setScr_ptRootSv (s : State) (k r t : Nat) (x : Scruple) : (s.setScr k r t x).ptRootSv = s.ptRootSv := rfl
@[simp] theorem State.setScr_mown (s : State) (k r t : Nat) (x : Scruple) : (s.setScr k r t x).mown = s.mown := rfl
@[simp] theorem State.setScr_engines (s : State) (k r t : Nat) (x : Scruple) : (s.setScr k r t x).engines = s.engines := rfl
@[simp] theorem State.setScr_scruple (s : State) (k r t : Nat) (x : Scruple) : (s.setScr k r t x).scruple = Store.set Scruple.reset s.scruple (scKey k r t) x := rfl
@[simp] theorem State.setScr_seqs (s : State) (k r t : Nat) (x : Scruple) : (s.setScr k r t x).seqs = s.seqs := rfl
@[simp] theorem State.setScr_copies (s : State) (k r t : Nat) (x : Scruple) : (s.setScr k r t x).copies = s.copies := rfl
@[simp] theorem State.setScr_colls (s : State) (k r t : Nat) (x : Scruple) : (s.setScr k r t x).colls = s.colls := rfl
@[simp] theorem State.setScr_decs (s : State) (k r t : Nat) (x : Scruple) : (s.setScr k r t x).decs = s.decs := rfl
@[simp] theorem State.setScr_perch (s : State) (k r t : Nat) (x : Scruple) : (s.setScr k r t x).perch = s.perch := rfl
@[simp] theorem State.setScr_releases (s : State) (k r t : Nat) (x : Scruple) : (s.setScr k r t x).releases = s.releases := rfl
@[simp] theorem State.setScr_c (s : State) (k r t : Nat) (x : Scruple) : (s.setScr k r t x).c = s.c := rfl
@[simp] theorem State.setScr_cur (s : State) (k r t : Nat) (x : Scruple) : (s.setScr k r t x).cur = s.cur := rfl
@[simp] theorem State.setScr_ctxs (s : State) (k r t : Nat) (x : Scruple) : (s.setScr k r t x).ctxs = s.ctxs := rfl
@[simp] theorem State.setScr_agenda (s : State) (k r t : Nat) (x : Scruple) : (s.setScr k r t x).agenda = s.agenda := rfl
@[simp] theorem State.setScr_out (s : State) (k r t : Nat) (x : Scruple) : (s.setScr k r t x).out = s.out := rfl
@[simp] theorem State.setScr_old (s : State) (k r t : Nat) (x : Scruple) : (s.setScr k r t x).old = s.old := rfl
@[simp] theorem State.setScr_oldFmt (s : State) (k r t : Nat) (x : Scruple) : (s.setScr k r t x).oldFmt = s.oldFmt := rfl
@[simp] theorem State.setScr_issueRef (s : State) (k r t : Nat) (x : Scruple) : (s.setScr k r t x).issueRef = s.issueRef := rfl
@[simp] theorem State.setScr_slot (s : State) (k r t : Nat) (x : Scruple) : (s.setScr k r t x).slot = s.slot := rfl
@[simp] theorem State.setScr_pops (s : State) (k r t : Nat) (x : Scruple) : (s.setScr k r t x).pops = s.pops := rfl
@[simp] theorem State.setScr_stall (s : State) (k r t : Nat) (x : Scruple) : (s.setScr k r t x).stall = s.stall := rfl
@[simp] theorem State.setScr_trapped (s : State) (k r t : Nat) (x : Scruple) : (s.setScr k r t x).trapped = s.trapped := rfl
@[simp] theorem State.setScr_jumped (s : State) (k r t : Nat) (x : Scruple) : (s.setScr k r t x).jumped = s.jumped := rfl
@[simp] theorem State.setScr_staged (s : State) (k r t : Nat) (x : Scruple) : (s.setScr k r t x).staged = s.staged := rfl
@[simp] theorem State.setScr_opening (s : State) (k r t : Nat) (x : Scruple) : (s.setScr k r t x).opening = s.opening := rfl
@[simp] theorem State.setScr_images (s : State) (k r t : Nat) (x : Scruple) : (s.setScr k r t x).images = s.images := rfl
@[simp] theorem State.setScr_imageCores (s : State) (k r t : Nat) (x : Scruple) : (s.setScr k r t x).imageCores = s.imageCores := rfl
@[simp] theorem State.setScr_nextRef (s : State) (k r t : Nat) (x : Scruple) : (s.setScr k r t x).nextRef = s.nextRef := rfl
@[simp] theorem State.setScr_free (s : State) (k r t : Nat) (x : Scruple) : (s.setScr k r t x).free = s.free := rfl

@[simp] theorem State.setPerch_time (s : State) (l : BitVec 6) (p : Option Perch) : (s.setPerch l p).time = s.time := rfl
@[simp] theorem State.setPerch_pwr (s : State) (l : BitVec 6) (p : Option Perch) : (s.setPerch l p).pwr = s.pwr := rfl
@[simp] theorem State.setPerch_fab (s : State) (l : BitVec 6) (p : Option Perch) : (s.setPerch l p).fab = s.fab := rfl
@[simp] theorem State.setPerch_host (s : State) (l : BitVec 6) (p : Option Perch) : (s.setPerch l p).host = s.host := rfl
@[simp] theorem State.setPerch_world (s : State) (l : BitVec 6) (p : Option Perch) : (s.setPerch l p).world = s.world := rfl
@[simp] theorem State.setPerch_ranks (s : State) (l : BitVec 6) (p : Option Perch) : (s.setPerch l p).ranks = s.ranks := rfl
@[simp] theorem State.setPerch_sched (s : State) (l : BitVec 6) (p : Option Perch) : (s.setPerch l p).sched = s.sched := rfl
@[simp] theorem State.setPerch_prot (s : State) (l : BitVec 6) (p : Option Perch) : (s.setPerch l p).prot = s.prot := rfl
@[simp] theorem State.setPerch_mem (s : State) (l : BitVec 6) (p : Option Perch) : (s.setPerch l p).mem = s.mem := rfl
@[simp] theorem State.setPerch_ver (s : State) (l : BitVec 6) (p : Option Perch) : (s.setPerch l p).ver = s.ver := rfl
@[simp] theorem State.setPerch_poison (s : State) (l : BitVec 6) (p : Option Perch) : (s.setPerch l p).poison = s.poison := rfl
@[simp] theorem State.setPerch_full (s : State) (l : BitVec 6) (p : Option Perch) : (s.setPerch l p).full = s.full := rfl
@[simp] theorem State.setPerch_feq (s : State) (l : BitVec 6) (p : Option Perch) : (s.setPerch l p).feq = s.feq := rfl
@[simp] theorem State.setPerch_fenced (s : State) (l : BitVec 6) (p : Option Perch) : (s.setPerch l p).fenced = s.fenced := rfl
@[simp] theorem State.setPerch_loads (s : State) (l : BitVec 6) (p : Option Perch) : (s.setPerch l p).loads = s.loads := rfl
@[simp] theorem State.setPerch_pend (s : State) (l : BitVec 6) (p : Option Perch) : (s.setPerch l p).pend = s.pend := rfl
@[simp] theorem State.setPerch_wq (s : State) (l : BitVec 6) (p : Option Perch) : (s.setPerch l p).wq = s.wq := rfl
@[simp] theorem State.setPerch_slices (s : State) (l : BitVec 6) (p : Option Perch) : (s.setPerch l p).slices = s.slices := rfl
@[simp] theorem State.setPerch_dies (s : State) (l : BitVec 6) (p : Option Perch) : (s.setPerch l p).dies = s.dies := rfl
@[simp] theorem State.setPerch_calendar (s : State) (l : BitVec 6) (p : Option Perch) : (s.setPerch l p).calendar = s.calendar := rfl
@[simp] theorem State.setPerch_trk (s : State) (l : BitVec 6) (p : Option Perch) : (s.setPerch l p).trk = s.trk := rfl
@[simp] theorem State.setPerch_rmThresh (s : State) (l : BitVec 6) (p : Option Perch) : (s.setPerch l p).rmThresh = s.rmThresh := rfl
@[simp] theorem State.setPerch_rmRadius (s : State) (l : BitVec 6) (p : Option Perch) : (s.setPerch l p).rmRadius = s.rmRadius := rfl
@[simp] theorem State.setPerch_rmCount (s : State) (l : BitVec 6) (p : Option Perch) : (s.setPerch l p).rmCount = s.rmCount := rfl
@[simp] theorem State.setPerch_tlb1 (s : State) (l : BitVec 6) (p : Option Perch) : (s.setPerch l p).tlb1 = s.tlb1 := rfl
@[simp] theorem State.setPerch_tlb2 (s : State) (l : BitVec 6) (p : Option Perch) : (s.setPerch l p).tlb2 = s.tlb2 := rfl
@[simp] theorem State.setPerch_ptRootSv (s : State) (l : BitVec 6) (p : Option Perch) : (s.setPerch l p).ptRootSv = s.ptRootSv := rfl
@[simp] theorem State.setPerch_mown (s : State) (l : BitVec 6) (p : Option Perch) : (s.setPerch l p).mown = s.mown := rfl
@[simp] theorem State.setPerch_engines (s : State) (l : BitVec 6) (p : Option Perch) : (s.setPerch l p).engines = s.engines := rfl
@[simp] theorem State.setPerch_scruple (s : State) (l : BitVec 6) (p : Option Perch) : (s.setPerch l p).scruple = s.scruple := rfl
@[simp] theorem State.setPerch_seqs (s : State) (l : BitVec 6) (p : Option Perch) : (s.setPerch l p).seqs = s.seqs := rfl
@[simp] theorem State.setPerch_copies (s : State) (l : BitVec 6) (p : Option Perch) : (s.setPerch l p).copies = s.copies := rfl
@[simp] theorem State.setPerch_colls (s : State) (l : BitVec 6) (p : Option Perch) : (s.setPerch l p).colls = s.colls := rfl
@[simp] theorem State.setPerch_decs (s : State) (l : BitVec 6) (p : Option Perch) : (s.setPerch l p).decs = s.decs := rfl
@[simp] theorem State.setPerch_perch (s : State) (l : BitVec 6) (p : Option Perch) : (s.setPerch l p).perch = Store.set none s.perch l.toNat p := rfl
@[simp] theorem State.setPerch_releases (s : State) (l : BitVec 6) (p : Option Perch) : (s.setPerch l p).releases = s.releases := rfl
@[simp] theorem State.setPerch_c (s : State) (l : BitVec 6) (p : Option Perch) : (s.setPerch l p).c = s.c := rfl
@[simp] theorem State.setPerch_cur (s : State) (l : BitVec 6) (p : Option Perch) : (s.setPerch l p).cur = s.cur := rfl
@[simp] theorem State.setPerch_ctxs (s : State) (l : BitVec 6) (p : Option Perch) : (s.setPerch l p).ctxs = s.ctxs := rfl
@[simp] theorem State.setPerch_agenda (s : State) (l : BitVec 6) (p : Option Perch) : (s.setPerch l p).agenda = s.agenda := rfl
@[simp] theorem State.setPerch_out (s : State) (l : BitVec 6) (p : Option Perch) : (s.setPerch l p).out = s.out := rfl
@[simp] theorem State.setPerch_old (s : State) (l : BitVec 6) (p : Option Perch) : (s.setPerch l p).old = s.old := rfl
@[simp] theorem State.setPerch_oldFmt (s : State) (l : BitVec 6) (p : Option Perch) : (s.setPerch l p).oldFmt = s.oldFmt := rfl
@[simp] theorem State.setPerch_issueRef (s : State) (l : BitVec 6) (p : Option Perch) : (s.setPerch l p).issueRef = s.issueRef := rfl
@[simp] theorem State.setPerch_slot (s : State) (l : BitVec 6) (p : Option Perch) : (s.setPerch l p).slot = s.slot := rfl
@[simp] theorem State.setPerch_pops (s : State) (l : BitVec 6) (p : Option Perch) : (s.setPerch l p).pops = s.pops := rfl
@[simp] theorem State.setPerch_stall (s : State) (l : BitVec 6) (p : Option Perch) : (s.setPerch l p).stall = s.stall := rfl
@[simp] theorem State.setPerch_trapped (s : State) (l : BitVec 6) (p : Option Perch) : (s.setPerch l p).trapped = s.trapped := rfl
@[simp] theorem State.setPerch_jumped (s : State) (l : BitVec 6) (p : Option Perch) : (s.setPerch l p).jumped = s.jumped := rfl
@[simp] theorem State.setPerch_staged (s : State) (l : BitVec 6) (p : Option Perch) : (s.setPerch l p).staged = s.staged := rfl
@[simp] theorem State.setPerch_opening (s : State) (l : BitVec 6) (p : Option Perch) : (s.setPerch l p).opening = s.opening := rfl
@[simp] theorem State.setPerch_images (s : State) (l : BitVec 6) (p : Option Perch) : (s.setPerch l p).images = s.images := rfl
@[simp] theorem State.setPerch_imageCores (s : State) (l : BitVec 6) (p : Option Perch) : (s.setPerch l p).imageCores = s.imageCores := rfl
@[simp] theorem State.setPerch_nextRef (s : State) (l : BitVec 6) (p : Option Perch) : (s.setPerch l p).nextRef = s.nextRef := rfl
@[simp] theorem State.setPerch_free (s : State) (l : BitVec 6) (p : Option Perch) : (s.setPerch l p).free = s.free := rfl

@[simp] theorem State.poke_time (s : State) (a : Nat) (bs : List Byte) : (s.poke a bs).time = s.time := rfl
@[simp] theorem State.poke_pwr (s : State) (a : Nat) (bs : List Byte) : (s.poke a bs).pwr = s.pwr := rfl
@[simp] theorem State.poke_fab (s : State) (a : Nat) (bs : List Byte) : (s.poke a bs).fab = s.fab := rfl
@[simp] theorem State.poke_host (s : State) (a : Nat) (bs : List Byte) : (s.poke a bs).host = s.host := rfl
@[simp] theorem State.poke_world (s : State) (a : Nat) (bs : List Byte) : (s.poke a bs).world = s.world := rfl
@[simp] theorem State.poke_ranks (s : State) (a : Nat) (bs : List Byte) : (s.poke a bs).ranks = s.ranks := rfl
@[simp] theorem State.poke_sched (s : State) (a : Nat) (bs : List Byte) : (s.poke a bs).sched = s.sched := rfl
@[simp] theorem State.poke_prot (s : State) (a : Nat) (bs : List Byte) : (s.poke a bs).prot = s.prot := rfl
@[simp] theorem State.poke_mem (s : State) (a : Nat) (bs : List Byte) : (s.poke a bs).mem = Store.setRange 0 s.mem a bs := rfl
@[simp] theorem State.poke_ver (s : State) (a : Nat) (bs : List Byte) : (s.poke a bs).ver = s.ver := rfl

@[simp] theorem State.poke_full (s : State) (a : Nat) (bs : List Byte) : (s.poke a bs).full = s.full := rfl
@[simp] theorem State.poke_feq (s : State) (a : Nat) (bs : List Byte) : (s.poke a bs).feq = s.feq := rfl
@[simp] theorem State.poke_fenced (s : State) (a : Nat) (bs : List Byte) : (s.poke a bs).fenced = s.fenced := rfl
@[simp] theorem State.poke_loads (s : State) (a : Nat) (bs : List Byte) : (s.poke a bs).loads = s.loads := rfl
@[simp] theorem State.poke_pend (s : State) (a : Nat) (bs : List Byte) : (s.poke a bs).pend = s.pend := rfl
@[simp] theorem State.poke_wq (s : State) (a : Nat) (bs : List Byte) : (s.poke a bs).wq = s.wq := rfl
@[simp] theorem State.poke_slices (s : State) (a : Nat) (bs : List Byte) : (s.poke a bs).slices = s.slices := rfl
@[simp] theorem State.poke_dies (s : State) (a : Nat) (bs : List Byte) : (s.poke a bs).dies = s.dies := rfl
@[simp] theorem State.poke_calendar (s : State) (a : Nat) (bs : List Byte) : (s.poke a bs).calendar = s.calendar := rfl
@[simp] theorem State.poke_trk (s : State) (a : Nat) (bs : List Byte) : (s.poke a bs).trk = s.trk := rfl
@[simp] theorem State.poke_rmThresh (s : State) (a : Nat) (bs : List Byte) : (s.poke a bs).rmThresh = s.rmThresh := rfl
@[simp] theorem State.poke_rmRadius (s : State) (a : Nat) (bs : List Byte) : (s.poke a bs).rmRadius = s.rmRadius := rfl
@[simp] theorem State.poke_rmCount (s : State) (a : Nat) (bs : List Byte) : (s.poke a bs).rmCount = s.rmCount := rfl
@[simp] theorem State.poke_tlb1 (s : State) (a : Nat) (bs : List Byte) : (s.poke a bs).tlb1 = s.tlb1 := rfl
@[simp] theorem State.poke_tlb2 (s : State) (a : Nat) (bs : List Byte) : (s.poke a bs).tlb2 = s.tlb2 := rfl
@[simp] theorem State.poke_ptRootSv (s : State) (a : Nat) (bs : List Byte) : (s.poke a bs).ptRootSv = s.ptRootSv := rfl
@[simp] theorem State.poke_mown (s : State) (a : Nat) (bs : List Byte) : (s.poke a bs).mown = s.mown := rfl
@[simp] theorem State.poke_engines (s : State) (a : Nat) (bs : List Byte) : (s.poke a bs).engines = s.engines := rfl
@[simp] theorem State.poke_scruple (s : State) (a : Nat) (bs : List Byte) : (s.poke a bs).scruple = s.scruple := rfl
@[simp] theorem State.poke_seqs (s : State) (a : Nat) (bs : List Byte) : (s.poke a bs).seqs = s.seqs := rfl
@[simp] theorem State.poke_copies (s : State) (a : Nat) (bs : List Byte) : (s.poke a bs).copies = s.copies := rfl
@[simp] theorem State.poke_colls (s : State) (a : Nat) (bs : List Byte) : (s.poke a bs).colls = s.colls := rfl
@[simp] theorem State.poke_decs (s : State) (a : Nat) (bs : List Byte) : (s.poke a bs).decs = s.decs := rfl
@[simp] theorem State.poke_perch (s : State) (a : Nat) (bs : List Byte) : (s.poke a bs).perch = s.perch := rfl
@[simp] theorem State.poke_releases (s : State) (a : Nat) (bs : List Byte) : (s.poke a bs).releases = s.releases := rfl
@[simp] theorem State.poke_c (s : State) (a : Nat) (bs : List Byte) : (s.poke a bs).c = s.c := rfl
@[simp] theorem State.poke_cur (s : State) (a : Nat) (bs : List Byte) : (s.poke a bs).cur = s.cur := rfl
@[simp] theorem State.poke_ctxs (s : State) (a : Nat) (bs : List Byte) : (s.poke a bs).ctxs = s.ctxs := rfl
@[simp] theorem State.poke_agenda (s : State) (a : Nat) (bs : List Byte) : (s.poke a bs).agenda = s.agenda := rfl
@[simp] theorem State.poke_out (s : State) (a : Nat) (bs : List Byte) : (s.poke a bs).out = s.out := rfl
@[simp] theorem State.poke_old (s : State) (a : Nat) (bs : List Byte) : (s.poke a bs).old = s.old := rfl
@[simp] theorem State.poke_oldFmt (s : State) (a : Nat) (bs : List Byte) : (s.poke a bs).oldFmt = s.oldFmt := rfl
@[simp] theorem State.poke_issueRef (s : State) (a : Nat) (bs : List Byte) : (s.poke a bs).issueRef = s.issueRef := rfl
@[simp] theorem State.poke_slot (s : State) (a : Nat) (bs : List Byte) : (s.poke a bs).slot = s.slot := rfl
@[simp] theorem State.poke_pops (s : State) (a : Nat) (bs : List Byte) : (s.poke a bs).pops = s.pops := rfl
@[simp] theorem State.poke_stall (s : State) (a : Nat) (bs : List Byte) : (s.poke a bs).stall = s.stall := rfl
@[simp] theorem State.poke_trapped (s : State) (a : Nat) (bs : List Byte) : (s.poke a bs).trapped = s.trapped := rfl
@[simp] theorem State.poke_jumped (s : State) (a : Nat) (bs : List Byte) : (s.poke a bs).jumped = s.jumped := rfl
@[simp] theorem State.poke_staged (s : State) (a : Nat) (bs : List Byte) : (s.poke a bs).staged = s.staged := rfl
@[simp] theorem State.poke_opening (s : State) (a : Nat) (bs : List Byte) : (s.poke a bs).opening = s.opening := rfl
@[simp] theorem State.poke_images (s : State) (a : Nat) (bs : List Byte) : (s.poke a bs).images = s.images := rfl
@[simp] theorem State.poke_imageCores (s : State) (a : Nat) (bs : List Byte) : (s.poke a bs).imageCores = s.imageCores := rfl
@[simp] theorem State.poke_nextRef (s : State) (a : Nat) (bs : List Byte) : (s.poke a bs).nextRef = s.nextRef := rfl
@[simp] theorem State.poke_free (s : State) (a : Nat) (bs : List Byte) : (s.poke a bs).free = s.free := rfl

@[simp] theorem State.take_snd (s : State) : s.take.2 = { s with nextRef := s.nextRef + 1 } := rfl
@[simp] theorem State.take_fst (s : State) : s.take.1 = s.nextRef := rfl
@[simp] theorem State.drawFree_snd (s : State) : s.drawFree.2 = { s with free := s.free + 1 } := rfl
@[simp] theorem State.drawFree_fst (s : State) : s.drawFree.1 = s.free := rfl

end Sys2Proof.Machine
end

