-- ==== Sys2Proof/Laws/Memory.lean ====
section
/-!
SUPPORT. Memory.lean: what the operations on memory do to a byte, to a line's version and full bit, and to every other field; and
that each keeps memory in its canonical form.
-/
namespace Sys2Proof.Machine

/-! ## Ranks, sequencers, perch lines, engines: read after write -/

theorem State.rank_modRank (s : State) (r j : Nat) (f : Rank → Rank) :
    (s.modRank r f).rank j = if j = r then f (s.rank r) else s.rank j := by
  unfold State.modRank State.rank; dsimp only; rw [Store.get_set]

theorem State.seqOf_modSeq (s : State) (q j : Nat) (f : Seq → Seq) :
    (s.modSeq q f).seqOf j = if j = q then f (s.seqOf q) else s.seqOf j := by
  unfold State.modSeq State.seqOf; dsimp only; rw [Store.get_set]

theorem State.perchOf_setPerch (s : State) (l k : BitVec 6) (p : Option Perch) :
    (s.setPerch l p).perchOf k = if k = l then p else s.perchOf k := by
  unfold State.setPerch State.perchOf; dsimp only; rw [Store.get_set]
  by_cases h : k = l
  · rw [if_pos h, h, if_pos rfl]
  · rw [if_neg h, if_neg (fun x => h (BitVec.eq_of_toNat_eq x))]

theorem engKey_inj {core core' rank rank' : Nat} (h : rank < 131072) (h' : rank' < 131072) :
    engKey core rank = engKey core' rank' ↔ core = core' ∧ rank = rank' := by
  unfold engKey; constructor
  · intro e; omega
  · rintro ⟨rfl, rfl⟩; rfl

theorem State.mownOf_setMown (s : State) (core rank : Nat) (m : BitVec 3) (core' rank' : Nat) (h : rank < 131072)
    (h' : rank' < 131072) :
    (s.setMown core rank m).mownOf core' rank' = if core' = core ∧ rank' = rank then m else s.mownOf core' rank' := by
  unfold State.setMown State.mownOf; dsimp only; rw [Store.get_set]
  simp only [engKey_inj h' h]

theorem State.engine_setEngine (s : State) (core rank : Nat) (e : Engine) (core' rank' : Nat) (h : rank < 131072)
    (h' : rank' < 131072) :
    (s.setEngine core rank e).engine core' rank' = if core' = core ∧ rank' = rank then e else s.engine core' rank' := by
  unfold State.setEngine State.engine; dsimp only; rw [Store.get_set]
  simp only [engKey_inj h' h]

/-- The context of a key after another context, or the same, has been set. -/
theorem State.ctx_setCtx (s : State) (key j : Nat) (c : Ctx) : (s.setCtx key c).ctx j = if j = key then c else s.ctx j := by
  unfold State.setCtx
  split
  · next h =>
    subst h
    by_cases hj : j = s.cur
    · rw [if_pos hj, hj]; show (if s.cur = s.cur then c else _) = c; rw [if_pos rfl]
    · rw [if_neg hj]; show (if j = s.cur then _ else _) = _; rw [if_neg hj]; unfold State.ctx; rw [if_neg hj]
  · next h =>
    show (if j = s.cur then s.c else Store.get Ctx.reset (Store.set Ctx.reset s.ctxs key c) j) = _
    rw [Store.get_set]
    by_cases hj : j = key
    · subst hj; rw [if_neg h, if_pos rfl, if_pos rfl]
    · rw [if_neg hj, if_neg hj]; rfl

/-! ## Bytes -/

theorem State.poke_byte (s : State) (loc : Nat) (bs : List Byte) (j : Nat) :
    (s.poke loc bs).byte j = if h : loc ≤ j ∧ j < loc + bs.length then bs[j - loc] else s.byte j := by
  unfold State.byte State.poke; dsimp only; rw [Store.get_setRange]

/-- A list of bytes of memory, each by its location. -/
theorem State.bytes_eq (s : State) (loc n : Nat) : s.bytes loc n = (List.range n).map fun i => s.byte (loc + i) :=
  Store.getRange_eq ..

/-- What a state's memory operations never touch: everything but memory, versions, marks, full bits, what the caches and write queues
hold, and the rows to open and the write-backs that a cache asks for. -/
def State.sameBut (s t : State) : Prop :=
  { t with
    mem := s.mem, ver := s.ver, poison := s.poison, full := s.full, host := s.host, wq := s.wq, slices := s.slices, dies := s.dies
    agenda := s.agenda, out := s.out } = s

theorem State.sameBut_refl (s : State) : s.sameBut s := rfl

theorem State.sameBut.tr {s t u : State} (h : s.sameBut t) (h' : t.sameBut u) : s.sameBut u := by
  unfold State.sameBut at *
  rw [← h, ← h']

theorem State.sameBut_foldl {α : Type} (f : State → α → State) (h : ∀ (s : State) (a : α), s.sameBut (f s a)) (l : List α) (s : State) :
    s.sameBut (l.foldl f s) := by
  induction l generalizing s with
  | nil => exact s.sameBut_refl
  | cons a l ih => exact (h s a).tr (ih _)

theorem State.sameBut_poke (s : State) (loc : Nat) (bs : List Byte) : s.sameBut (s.poke loc bs) := rfl

/-- What the caches alone change: what they hold, and the rows and write-backs that they ask for. -/
def State.cachesOnly (s t : State) : Prop :=
  { t with host := s.host, slices := s.slices, dies := s.dies, agenda := s.agenda, out := s.out } = s

theorem State.cachesOnly.tr {s t u : State} (h : s.cachesOnly t) (h' : t.cachesOnly u) : s.cachesOnly u := by
  unfold State.cachesOnly at *
  rw [← h, ← h']

theorem State.cachesOnly_foldl {α : Type} (f : State → α → State) (h : ∀ (s : State) (a : α), s.cachesOnly (f s a)) (l : List α)
    (s : State) : s.cachesOnly (l.foldl f s) := by
  induction l generalizing s with
  | nil => rfl
  | cons a l ih => exact (h s a).tr (ih _)

theorem State.cachesOnly.mem {s t : State} (h : s.cachesOnly t) : t.mem = s.mem := congrArg (·.mem) (show _ = s from h)

theorem State.cachesOnly.sameBut {s t : State} (h : s.cachesOnly t) : s.sameBut t := by
  unfold State.cachesOnly at h
  unfold State.sameBut
  rw [← h]

theorem State.cachesOnly_dieUse (s : State) (l : Nat) (w : Bool) : s.cachesOnly (s.dieUse l w) := by
  unfold State.dieUse
  generalize useWay (Store.get [] s.dies (dieSet l)) l w = x
  obtain ⟨set, hit, gone⟩ := x
  dsimp only
  refine State.cachesOnly.tr ?_ (State.cachesOnly_foldl _ (fun s e => ?_) _ _)
  · split <;> rfl
  · split <;> rfl

/-- A slice's service of a line changes caches alone, and asks for rows and write-backs (R76). -/
theorem State.cachesOnly_sliceUse (s : State) (l : Nat) (w : Bool) : s.cachesOnly (s.sliceUse l w) := by
  unfold State.sliceUse
  generalize useWay (Store.get [] s.slices (sliceSet l)) l w = x
  obtain ⟨set, hit, gone⟩ := x
  dsimp only
  refine State.cachesOnly.tr ?_ (State.cachesOnly_foldl _ (fun s e => ?_) _ _)
  · split
    · rfl
    · split
      · rfl
      · exact State.cachesOnly.tr (t := { s with slices := Store.set [] s.slices (sliceSet l) set }) rfl (State.cachesOnly_dieUse _ _ _)
  · split
    · split <;> rfl
    · split
      · exact State.cachesOnly_dieUse _ _ _
      · rfl

theorem State.cachesOnly_slicesUse (s : State) (ls : List Nat) (w : Bool) : s.cachesOnly (s.slicesUse ls w) :=
  State.cachesOnly_foldl _ (fun s l => State.cachesOnly_sliceUse s l w) _ s

theorem State.sameBut_bump (s : State) (ls : List Nat) : s.sameBut (s.bump ls) := by
  refine State.sameBut_foldl _ (fun s l => ?_) ls s
  split
  · rfl
  · split
    · exact (State.cachesOnly_sliceUse s l true).sameBut
    · rfl

theorem State.sameBut_fill (s : State) (ls : List Nat) : s.sameBut (s.fill ls) := by
  refine State.sameBut_foldl _ (fun s l => ?_) ls s
  split <;> rfl

theorem State.sameBut_applyEntry (s : State) (e : WqEntry) : s.sameBut (s.applyEntry e) := by
  unfold State.applyEntry
  refine State.sameBut.tr ?_ (State.sameBut_bump _ _)
  split
  · rfl
  · exact State.sameBut_foldl _ (fun s a => State.sameBut_poke _ _ _) _ _

theorem State.sameBut_flush (s : State) (ls : List Nat) : s.sameBut (s.flush ls) := by
  unfold State.flush
  split
  · rfl
  · have h : ∀ w, s.sameBut { s with wq := w } := fun _ => rfl
    exact (h _).tr (State.sameBut_foldl _ State.sameBut_applyEntry _ _)

theorem State.sameBut_write (s : State) (loc : Nat) (bs : List Byte) : s.sameBut (s.write loc bs) := by
  unfold State.write
  exact (((State.sameBut_flush _ _).tr (State.sameBut_poke _ _ _)).tr (State.sameBut_bump _ _)).tr
    (State.sameBut_fill _ _)

theorem State.sameBut_writeAll (s : State) (ps : List (Nat × List Byte)) : s.sameBut (s.writeAll ps) := by
  unfold State.writeAll
  have h (s : State) (ps : List (Nat × List Byte)) (ls : List Nat) : s.sameBut (s.clearWhole ps ls) := rfl
  exact ((((State.sameBut_flush _ _).tr (State.sameBut_foldl _ (fun s p => State.sameBut_poke _ _ _) _ _)).tr (h _ _ _)).tr
    (State.sameBut_bump _ _)).tr (State.sameBut_fill _ _)

theorem State.sameBut_writePieces (s : State) (ps : List (Nat × Nat)) (bs : List Byte) : s.sameBut (s.writePieces ps bs) := by
  induction ps generalizing s bs with
  | nil => rfl
  | cons p ps ih => exact (State.sameBut_write _ _ _).tr (ih _ _)

theorem State.bump_mem (s : State) (ls : List Nat) : (s.bump ls).mem = s.mem := by
  unfold State.bump
  induction ls generalizing s with
  | nil => rfl
  | cons l ls ih =>
    rw [List.foldl_cons, ih]
    split
    · rfl
    · split
      · exact (State.cachesOnly_sliceUse s l true).mem
      · rfl

theorem State.fill_mem (s : State) (ls : List Nat) : (s.fill ls).mem = s.mem := by
  unfold State.fill
  induction ls generalizing s with
  | nil => rfl
  | cons l ls ih => rw [List.foldl_cons, ih]; split <;> rfl

/-- A byte after a write event: the bytes written, and elsewhere what the lines' open entries leave. -/
theorem State.write_byte (s : State) (loc : Nat) (bs : List Byte) (j : Nat) :
    (s.write loc bs).byte j =
      if h : loc ≤ j ∧ j < loc + bs.length then bs[j - loc] else (s.flush (linesOf loc bs.length)).byte j := by
  unfold State.write
  show Store.get 0 (State.fill _ _).mem j = _
  rw [State.fill_mem, State.bump_mem]
  exact State.poke_byte _ _ _ _

/-! ## The canonical form of memory -/

theorem State.wf_poke (s : State) (loc : Nat) (bs : List Byte) (h : Memory.wf s.mem = true) :
    Memory.wf (s.poke loc bs).mem = true := Store.wf_setRange 0 s.mem loc bs h

theorem State.wf_bump (s : State) (ls : List Nat) (h : Memory.wf s.mem = true) : Memory.wf (s.bump ls).mem = true := by
  rw [State.bump_mem]; exact h

theorem State.wf_fill (s : State) (ls : List Nat) (h : Memory.wf s.mem = true) : Memory.wf (s.fill ls).mem = true := by
  rw [State.fill_mem]; exact h

theorem State.wf_slicesUse (s : State) (ls : List Nat) (w : Bool) (h : Memory.wf s.mem = true) :
    Memory.wf (s.slicesUse ls w).mem = true := by
  rw [(State.cachesOnly_slicesUse s ls w).mem]; exact h

theorem State.wf_foldl {α : Type} (f : State → α → State) (hf : ∀ s a, Memory.wf s.mem = true → Memory.wf (f s a).mem = true)
    (l : List α) (s : State) (h : Memory.wf s.mem = true) : Memory.wf (l.foldl f s).mem = true := by
  induction l generalizing s with
  | nil => exact h
  | cons a l ih => exact ih _ (hf _ _ h)

theorem State.wf_applyEntry (s : State) (e : WqEntry) (h : Memory.wf s.mem = true) : Memory.wf (s.applyEntry e).mem = true := by
  unfold State.applyEntry
  refine State.wf_bump _ _ ?_
  split
  · exact State.wf_poke _ _ _ (State.wf_poke _ _ _ h)
  · exact State.wf_foldl _ (fun s a hs => State.wf_poke _ _ _ hs) _ _ h

theorem State.wf_flush (s : State) (ls : List Nat) (h : Memory.wf s.mem = true) : Memory.wf (s.flush ls).mem = true := by
  unfold State.flush
  split
  · exact h
  · exact State.wf_foldl _ State.wf_applyEntry _ _ h

theorem State.wf_write (s : State) (loc : Nat) (bs : List Byte) (h : Memory.wf s.mem = true) :
    Memory.wf (s.write loc bs).mem = true := by
  unfold State.write
  exact State.wf_fill _ _ (State.wf_bump _ _ (State.wf_poke _ _ _ (State.wf_flush _ _ h)))

theorem State.wf_writeAll (s : State) (ps : List (Nat × List Byte)) (h : Memory.wf s.mem = true) :
    Memory.wf (s.writeAll ps).mem = true := by
  unfold State.writeAll
  exact State.wf_fill _ _ (State.wf_bump _ _ (State.wf_foldl _ (fun s p hs => State.wf_poke _ _ _ hs) _ _ (State.wf_flush _ _ h)))

theorem State.wf_writePieces (s : State) (ps : List (Nat × Nat)) (bs : List Byte) (h : Memory.wf s.mem = true) :
    Memory.wf (s.writePieces ps bs).mem = true := by
  induction ps generalizing s bs with
  | nil => exact h
  | cons p ps ih => exact ih _ _ (State.wf_write _ _ _ h)

theorem State.snoop_mem (s : State) (ls : List Nat) (evs : List Instr) : (s.snoop ls evs).mem = s.mem := by
  unfold State.snoop
  dsimp only
  split
  · rfl
  · have step (s : State) (l : Nat) (evs : List Instr) :
        (if s.host.biWait.any fun w => w.1 = l then
          { s with host := { s.host with biWait := s.host.biWait.map fun w => if w.1 = l then (l, w.2 ++ evs) else w } }
        else { s.send (.backInvalidate l) with host := { s.host with biWait := s.host.biWait ++ [(l, evs)] } } : State).mem
          = s.mem := by
      split <;> rfl
    rename_i l ls _
    have fold (ls : List Nat) (s : State) :
        (ls.foldl (fun (s : State) l =>
          if s.host.biWait.any fun w => w.1 = l then
            { s with host := { s.host with biWait := s.host.biWait.map fun w => if w.1 = l then (l, w.2 ++ []) else w } }
          else { s.send (.backInvalidate l) with host := { s.host with biWait := s.host.biWait ++ [(l, [])] } }) s).mem = s.mem := by
      induction ls generalizing s with
      | nil => rfl
      | cons l ls ih => exact (ih _).trans (step s l [])
    exact (fold _ _).trans (step _ _ _)

theorem State.wf_snoop (s : State) (ls : List Nat) (evs : List Instr) (h : Memory.wf s.mem = true) :
    Memory.wf (s.snoop ls evs).mem = true := by
  rw [State.snoop_mem]; exact h

theorem State.wf_writeNow (s : State) (loc : Nat) (bs : List Byte) (h : Memory.wf s.mem = true) :
    Memory.wf (s.writeNow loc bs).mem = true := by
  unfold State.writeNow
  dsimp only
  split
  · exact State.wf_slicesUse _ _ _ (State.wf_write _ _ _ h)
  · exact State.wf_snoop _ _ _ h

theorem State.wf_signal (s : State) (co : Option Nat) (a b : Nat) (f : Bool) (h : Memory.wf s.mem = true) :
    Memory.wf (s.signal co a b f).mem = true := by
  unfold State.signal
  split
  · exact h
  · dsimp only
    split
    · exact State.wf_slicesUse _ _ _ (State.wf_write _ _ _ h)
    · exact State.wf_snoop _ _ _ h

end Sys2Proof.Machine
end

