-- ==== Sys2Proof/Safety.lean ====
section
/-!
DEFINITION. Safety.lean: what counts as a safe run: the machine steps on, and its tables are in their canonical form.
-/
namespace Sys2Proof.Machine

/-- The machine can make its next step. -/
def State.Steps (s : State) : Prop := ∃ t, step s = .next t

/-- The machine runs k steps without a fault or a refusal. -/
def State.SafeFor (s : State) (k : Nat) : Prop := ∃ t, Host.Core.run Sys2Proof.core k s = .next t

end Sys2Proof.Machine
end

