-- ==== Sys2Proof/WellFormed.lean ====
section
/-!
DEFINITION. WellFormed.lean: which instructions can stand in a bundle at all. Each check is a rule of the operand
codes (R237), of an instruction's own row (R250 to R258) or of its operands (R297 to R312, R336). An event is always
well formed: what it brings is the environment's.
-/
namespace Sys2Proof

/-- An entry number of the operand codes: 0x00 to 0xDF (R124). -/
def Opnd.wf : Opnd → Bool
  | .v k => decide (k.toNat < 0xE0)
  | _ => true

namespace WellFormed

/-- A data operand of a store (R297). -/
def data (o : Opnd) : Bool := o.wf && Decode.isData o

/-- An entry operand. -/
def entry (o : Opnd) : Bool := o.wf && Decode.isReg o

/-- A source in the role its row gives it (R254, R255, R237). -/
def src (k : Decode.Src) (fmt : Nat) (o : Opnd) : Bool :=
  match o with
  | .none => k = .no
  | .pred _ => k = .predOnly
  | .port _ => k = .portOnly || k = .regPort
  | .imm w => (k = .immOnly || k = .reg || k = .regPort) && Decode.litOk fmt w
  | .v e => (k = .reg || k = .regPort) && decide (e.toNat < 0xE0)
  | .uni _ | .ind _ | .queue _ | .zero | .lane => k = .reg || k = .regPort

/-- A destination (R237, R255, R315). -/
def dst (r : Decode.DRow) (fmt : Nat) (o : Opnd) : Bool :=
  match o with
  | .pred _ => r.predDst
  | .v e => !r.predDst && decide (e.toNat < 0xE0)
  | .uni _ | .ind _ => !r.predDst
  | .zero => !r.predDst && r.zeroDst
  | .port _ => !r.predDst && r.portDst && (fmt ≤ 4 || fmt = 14)
  | _ => false

/-- LANDTO (R233). -/
def land (d o : Opnd) : Bool :=
  match o with
  | .none => true
  | .v e => Decode.isPort d && decide (e.toNat < 0xE0)
  | .uni _ | .ind _ => Decode.isPort d
  | _ => false

/-- The literals among the operands are one literal: the bundle has one extension (R227). -/
def oneLit (os : List Opnd) : Bool :=
  match Encode.dExt os with
  | none => true
  | some w => os.all fun o => match o with
    | .imm x => x = w
    | _ => true

/-- A D slot under its row of R254. -/
def d (op : Nat) (s : DSlot) : Bool :=
  match Decode.dRow op s.minor with
  | none => false
  | some r =>
    r.fmts.contains s.fmt.toNat && r.minor s.minor && r.rms.contains s.rm.toNat && (r.sat || !s.sat) && (r.kill || !s.kill)
      && dst r s.fmt.toNat s.dst && src r.sa s.fmt.toNat s.sa && src r.sb s.fmt.toNat s.sb && src r.sc s.fmt.toNat s.sc
      && land s.dst s.landTo && oneLit [s.sa, s.sb, s.sc]
      && !(Decode.isPort s.dst && (s.sa = s.dst || s.sb = s.dst || s.sc = s.dst))

/-- A row-image operand whose last entry is in the window's reach (R335, R336). -/
def image (fmt rows : Nat) (o : Opnd) : Bool :=
  match o with
  | .v k => decide (k.toNat < 0xE0 ∧ k.toNat + (if fmt ≠ 14 then Decode.imageEntries fmt rows else 1) ≤ 224)
  | .uni _ => true
  | _ => false

/-- Four entries of a K slot (R336). -/
def four (o : Opnd) : Bool :=
  match o with
  | .v k => decide (k.toNat + 4 ≤ 224)
  | .uni _ => true
  | _ => false

/-- A format of rows and a count of rows (R335). -/
def rowsOk (fmt rows : Nat) : Bool := decide (1 ≤ rows ∧ rows ≤ 64) && (!Decode.isBlock fmt || rows % 4 = 0)

def matFmt (f : Nat) : Bool := (1 ≤ f && f ≤ 7) || f = 14

def scope (s : BitVec 3) : Bool := decide (s.toNat < 6)

def gix (g : GIndex) : Bool := g.width ≠ 3

end WellFormed

open WellFormed in
/-- The well-formed instructions; of the events, a packet carries at most 256 bytes (R21). -/
def Instr.wf : Instr → Bool
  | .loop _ _ len _ _ => len ≠ 0
  | .lbrk _ k => decide (k.toNat < 6)
  | .spawn _ _ _ a n => decide (a.toNat + n.toNat ≤ 64) && (n ≠ 0 || a = 0)
  | .ld _ _ _ size signed => !(signed && size = 3)
  | .vst _ o _ | .stfe _ o _ | .redAddF32 _ o _ | .redAddBf16 _ o _ | .redAddBf16Sr _ o _ | .redAddBdx8 _ o _
  | .redAddBdx4 _ o _ | .redMaxF32 _ o _ | .redAddS32 _ o _ | .casv _ _ o | .vsetSt _ _ o _ => data o
  | .vstCnt a o _ _ => data o && a.base ≠ 63
  | .vldw a _ _ _ => decide (a.base.toNat ≤ 61)
  | .vgth _ o _ _ g => o.wf && (Decode.isReg o || Decode.isQueue o) && gix g
  | .vsct _ k g => decide (k.toNat ≤ 0xDE) && gix g
  | .amo _ op _ o => !(op = .cas && o = 63)
  | .pstore a k _ => decide (a.base.toNat ≤ 61 ∧ k.toNat + 3 ≤ 223)
  | .fenceRel s | .fenceAcq s | .fenceSc s | .drain s | .arrive _ _ s | .arriveRel _ _ s => scope s
  | .tlbinvPage a => a.base ≠ 63
  | .bfx _ _ w p _ | .bfi _ _ w p => decide (p.toNat + w.toNat + 1 ≤ 64)
  | .dadd s => d 0x01 s
  | .dsub s => d 0x02 s
  | .dmul s => d 0x03 s
  | .dfma s => d 0x04 s
  | .dfms s => d 0x05 s
  | .ddiv s => d 0x06 s
  | .dsqrt s => d 0x07 s
  | .dabs s => d 0x08 s
  | .dneg s => d 0x09 s
  | .dcmp s => d 0x0A s
  | .dsel s => d 0x0B s
  | .dclip s => d 0x0C s
  | .dmax s => d 0x0D s
  | .dmin s => d 0x0E s
  | .dcvt s => d 0x0F s
  | .dland s => d 0x10 s
  | .vrng s => d 0x11 s
  | .vsr s => d 0x12 s
  | .vadd s => d 0x18 s
  | .vsub s => d 0x19 s
  | .vmul s => d 0x1A s
  | .vmulh s => d 0x1B s
  | .vand s => d 0x1C s
  | .vor s => d 0x1D s
  | .vxor s => d 0x1E s
  | .vandn s => d 0x1F s
  | .vshl s => d 0x20 s
  | .vshr s => d 0x21 s
  | .vsar s => d 0x22 s
  | .vmin s => d 0x23 s
  | .vmax s => d 0x24 s
  | .vcmp s => d 0x25 s
  | .vsel s => d 0x26 s
  | .vclz s => d 0x27 s
  | .vpopc s => d 0x28 s
  | .vabs s => d 0x29 s
  | .vneg s => d 0x2A s
  | .vperm s => d 0x30 s
  | .vrot s => d 0x31 s
  | .vbcast s => d 0x32 s
  | .vshuf s => d 0x33 s
  | .vred s => d 0x34 s
  | .pand s => d 0x38 s
  | .por s => d 0x39 s
  | .pxor s => d 0x3A s
  | .pandn s => d 0x3B s
  | .ptest s => d 0x3C s
  | .vmov s => d 0x3E s
  | .vmovi s => d 0x3F s
  | .mload fmt _ o rows row0 =>
    matFmt fmt.toNat && rowsOk fmt.toNat rows.toNat && decide (row0.toNat + rows.toNat ≤ 64)
      && (!Decode.isBlock fmt.toNat || row0.toNat % 4 = 0) && (o = .zero || image fmt.toNat rows.toNat o)
  | .mma fmt _ ck acc o _ _ rows =>
    matFmt fmt.toNat && rowsOk fmt.toNat rows.toNat && (!ck || acc) && (o = .zero || image fmt.toNat rows.toNat o)
  | .mdrain fmt _ o rows _ sr _ =>
    fmt ≠ 15 && rowsOk fmt.toNat rows.toNat
      && (match o with
          | .port c => decide (c.toNat ≤ 4) && fmt = 0 && !sr
          | _ => image fmt.toNat rows.toNat o)
  | .mchk _ r _ _ => decide (1 ≤ r.toNat ∧ r.toNat ≤ 62)
  | .kread _ _ o _ | .kwrite _ _ o _ | .kadd _ _ o _ | .kreadck _ o _ => four o
  | .cp p q _ s _ => scope s && p ≠ 63 && q ≠ 63
  | .cp2d p q _ s _ => scope s && p ≠ 63 && decide (q.toNat < 62)
  | .packetArrival a => decide (a.packet.body.size ≤ 256)
  | _ => true

end Sys2Proof
end

