-- ==== Sys2Proof/Certificates/Slice0/Obligations.lean ====
section
/-!
DEFINITION. Obligations.lean: the statements for the provers. Each obligation is a conjunction of the claims above it, one claim for one
rule or a few; every claim holds for every state, those that no run reaches among them.
-/
namespace Sys2Proof.Claims
open Sys2Proof.Machine

/-! ## Shapes -/

/-- The instruction answers a next state in which nothing but the running context has changed, and there nothing but scalar `d`,
which holds `v`, with its residues and the twin's; a write of s0 is discarded (R123, R280). -/
def ScalarResult (i : Instr) (s : State) (d : BitVec 6) (v : DWord) : Prop :=
  ∃ c, exec i s = .next { s with c } ∧ (∀ j, c.rs j = if j = d ∧ d ≠ 0 then v else s.c.rs j)
    ∧ (∀ k, k / 2 ≠ d.toNat → Store.get 0 c.bad k = Store.get 0 s.c.bad k ∧ Store.get 0 c.tw k = Store.get 0 s.c.tw k)
    ∧ { c with s := s.c.s, bad := s.c.bad, tw := s.c.tw } = s.c

/-- The same for scalar predicate `d`; a write of b0 is discarded. -/
def PredicateResult (i : Instr) (s : State) (d : BitVec 4) (v : Bool) : Prop :=
  ∃ c, exec i s = .next { s with c } ∧ (∀ j, c.rb j = if j = d ∧ d ≠ 0 then v else s.c.rb j)
    ∧ { c with b := s.c.b } = s.c

/-- The number of leading zero bits of a word. -/
def LeadingZeros (x : DWord) (n : Nat) : Prop :=
  n ≤ 64 ∧ (∀ i, i < n → x.getLsbD (63 - i) = false) ∧ (n < 64 → x.getLsbD (63 - n) = true)

/-- The conditions of R286 on two words. -/
def condOf (k : SCond) (x y : DWord) : Bool :=
  match k with
  | .eq => decide (x = y)
  | .ne => decide (x ≠ y)
  | .lt => decide (x.toInt < y.toInt)
  | .ge => decide (y.toInt ≤ x.toInt)
  | .ltu => decide (x.toNat < y.toNat)
  | .geu => decide (y.toNat ≤ x.toNat)
  | .tst => decide (x &&& y ≠ 0)
  | .ntst => decide (x &&& y = 0)


/-- The C slot's predicate, inverted by BN, is true (R230, R261). -/
def Acts (s : State) (g : Guard) : Prop := xor (s.rd.rb g.bp) g.bn = true

/-- A transfer is taken: the target is the next bundle, after one idle cycle, and every loop level ends (R262 to R264); WROT, the
predicates and all else stay. -/
def Transfer (i : Instr) (s : State) (target : DWord) : Prop :=
  ∃ t, exec i s = .next t ∧ t.c.npc = target ∧ t.c.loops = [] ∧ t.c.pause = true ∧ t.jumped = true
    ∧ { t with c := { t.c with npc := s.c.npc, loops := s.c.loops, pause := s.c.pause }, jumped := s.jumped } = s

/-- pj under SetStages (R266): all ones while stage j - 1 of the level has a source iteration. -/
def stageValue (i n stages j : Nat) : BitVec 16 := if j ≤ i + 1 ∧ i + 1 + stages < n + 1 + j then 0xFFFF else 0

/-- The entries of a window step W (R265). -/
def stepEntries (w : BitVec 2) : Nat := if w = 3 then 4 else w.toNat

/-- The trap that a strand takes at the running slot: its cause, KIND exact, LANE 0xFF, INFO the slot's number (R403). -/
def slotTrap (s : State) (cause : BitVec 6) : TrapInfo := ⟨cause, 0, 0xFF, BitVec.ofNat 32 s.slot, 0⟩



/-- A block of memory can be read at the strand's issue: no line of it is empty or behind a waiting access of the strand, and none of
its granules is marked (R132, R188, R216). -/
def Readable (s : State) (ps : List (Nat × Nat)) : Prop :=
  s.readWaits (ps.flatMap fun p => linesOf p.1 p.2) = false ∧ ∀ p ∈ ps, ∀ i, 8 * i < p.2 → s.marked (p.1 + 8 * i) = false

/-- The bundle is held this cycle: nothing else changes (R136). -/
def Held (s : State) : Out := .next { s with stall := some .hold }

/-- A trap that comes to a level has nothing to wait for: no load, memory answer, M or K operation of the strand in flight (R135, R294,
R338), no waiting access that its frame comes after (R188, R191, R193), no line of its frame held by the host (R41). -/
def Quiet (s : State) (lvl : Bool) : Prop :=
  s.c.inFlight = false ∧ s.c.mops = [] ∧ s.answersDue s.cur = false ∧ s.behind s.feq s.cur (s.frameLines lvl) = false
    ∧ s.heldLines (s.frameLines lvl) = []

/-- The strand's registers as a trap finds them once it is quiet: chain operations held, the others landed (R180, R211). -/
def settled (s : State) : Ctx := s.c.settle s.staged

/-- The machine as a trap finds it. -/
def held (s : State) : State := { s with c := settled s }

/-- A level's frame pointer and vector (R211, R226). -/
def frameAt (c : Ctx) (lvl : Bool) : DWord := (if lvl then c.tfpSv else c.tfp) &&& ~~~0xFF
def vectorOf (c : Ctx) (lvl : Bool) : DWord := (if lvl then c.tvecSv else c.tvec) &&& ~~~3
def inBit (lvl : Bool) : BitVec 2 := if lvl then 2 else 1

/-- A trap is taken at a level (R211): the frame is written over the pieces ps of the frame pointer's bytes; the level's IN bit is
set; the handler starts at the vector with no loop, no queue entry and no chain port; every other register stays as the trap
found it, and so does the rest of the machine. -/
def Entered (s : State) (t : TrapInfo) (lvl : Bool) (epc : DWord) (ps : List (Nat × Nat)) (u : State) : Prop :=
  let c := settled s
  u.c.npc = vectorOf c lvl ∧ u.c.sv = lvl ∧ u.c.tstat = c.tstat ||| inBit lvl
  ∧ u.c.loops = [] ∧ u.c.q = [] ∧ u.c.ports = [] ∧ u.c.dops = []
  ∧ (if lvl then u.c.rotsSv else u.c.rots) = c.loops.map (·.rot)
  ∧ { u.c with npc := c.npc, sv := c.sv, tstat := c.tstat, loops := c.loops, q := c.q, ports := c.ports, dops := c.dops
               rots := c.rots, rotsSv := c.rotsSv, held := c.held, heldSv := c.heldSv, mark := c.mark, again := c.again
               due := c.due, pause := c.pause, wait := c.wait, snap := c.snap, past := c.past } = c
  ∧ u = { (held s).writePieces ps (frameBytes c t epc s.time) with c := u.c, trapped := some t }

/-- In every valid port of a frame's chain image, RES of a finite lane is Res of its digits (R179, R183). -/
def ResAgrees (f : List Byte) : Prop :=
  ∀ k l, k < 8 → l < 16 → field f (0x1500 + 1040 * k) 1 % 2 = 1 →
    let b := 0x1500 + 1040 * k + 16 + 64 * l
    let ctr := field f (b + 0x1C) 4
    let digit (j : Nat) : Int := signed (field f (b + 0x10) 10 / 2 ^ (5 * j) % 32) 5
    field f (b + 0x1A) 2 / 2 ^ 12 % 4 = 0 → (ctr / 2 ^ 13 % 16 : Int) = ((List.range (ctr / 2 ^ 5 % 16)).map digit).sum % 15

/-- A trap can be taken at a level: its strand is quiet, the level's IN bit is clear, and the frame's bytes are writable. -/
def Takes (s : State) (lvl : Bool) (ps : List (Nat × Nat)) : Prop :=
  Quiet s lvl ∧ (settled s).tstat &&& inBit lvl = 0
  ∧ (held s).pieces { settled s with sv := lvl } .write (frameAt (settled s) lvl) 13696 = .ok ps



/-- What has been sent, apart from the write-backs of host lines that leave the shared cache with any access (R76). -/
def said (s : State) : List OutMsg := s.out.filter fun m => match m with
  | .writeBack .. => false
  | _ => true

/-- What is due, apart from the rows of DRAM that misses of the base-die caches open (R76). -/
def asked (s : State) : List Instr := s.agenda.filter fun i => match i with
  | .rowActivate .. => false
  | _ => true

/-- No memory-side reduction is open, in a write queue or on its way to one (R305). -/
def NoReds (s : State) : Prop := s.wq = [] ∧ ∀ e ∈ s.pend, ∀ k es b, e.2 ≠ some (.red k es b)

/-- Strands that live are as they were (what an ended strand has left may go with its rank, R51, R140). -/
def StrandsKept (s u : State) : Prop :=
  (s.c.live = true → u.c = s.c) ∧ ∀ k, (Store.get Ctx.reset s.ctxs k).live = true → Store.get Ctx.reset u.ctxs k = Store.get Ctx.reset s.ctxs k

/-- The message that the League sends to a node: over the first channel that is open to it, under that channel's PGEN; none where no
channel is (R28, R29). -/
def leagueOut (s : State) (node : BitVec 12) (what : String) (rank : Nat) (e : DWord) : List OutMsg :=
  match s.chansWith fun c => c.st = .opened && c.peer = node with
  | ch :: _ => [.league node (s.chan ch).pgen what rank e]
  | [] => []

/-! ## The S slot (15) -/

/-- R283: sums, differences and products, modulo 2^64, and the high half of the product, signed or unsigned. Frame: nothing but
scalar D changes, no flag, no memory; s0 ignores the write. -/
def ScalarArithmetic : Prop :=
  ∀ (s : State) (d a b : BitVec 6), let x := s.rd.rs a; let y := s.rd.rs b
    ScalarResult (.add d a b) s d (BitVec.ofNat 64 (x.toNat + y.toNat))
    ∧ ScalarResult (.sub d a b) s d (BitVec.ofInt 64 (x.toInt - y.toInt))
    ∧ ScalarResult (.mul d a b) s d (BitVec.ofNat 64 (x.toNat * y.toNat))
    ∧ ScalarResult (.mulh d a b true) s d (BitVec.ofNat 64 (x.toNat * y.toNat / 2 ^ 64))
    ∧ ScalarResult (.mulh d a b false) s d (BitVec.ofInt 64 (x.toInt * y.toInt / 2 ^ 64))

/-- R283: bitwise operations, and shifts by k, the value of sB[5:0]. Frame as for the arithmetic. -/
def ScalarBitwiseAndShift : Prop :=
  ∀ (s : State) (d a b : BitVec 6), let x := s.rd.rs a; let y := s.rd.rs b; let k := y.toNat % 64
    ScalarResult (.and d a b) s d (x &&& y)
    ∧ ScalarResult (.or d a b) s d (x ||| y)
    ∧ ScalarResult (.xor d a b) s d (x ^^^ y)
    ∧ ScalarResult (.andn d a b) s d (x &&& ~~~y)
    ∧ ScalarResult (.shl d a b) s d (x <<< k)
    ∧ ScalarResult (.shr d a b) s d (x >>> k)
    ∧ ScalarResult (.sar d a b) s d (BitVec.ofInt 64 (x.toInt / 2 ^ k))
    ∧ ScalarResult (.rol d a b) s d (x <<< k ||| x >>> (64 - k))

/-- R283: smaller or larger, signed and unsigned; leading zeros, 64 of zero; set bits. -/
def ScalarMinMaxCount : Prop :=
  ∀ (s : State) (d a b : BitVec 6), let x := s.rd.rs a; let y := s.rd.rs b
    ScalarResult (.min d a b) s d (if x.toInt ≤ y.toInt then x else y)
    ∧ ScalarResult (.max d a b) s d (if x.toInt ≤ y.toInt then y else x)
    ∧ ScalarResult (.minu d a b) s d (if x.toNat ≤ y.toNat then x else y)
    ∧ ScalarResult (.maxu d a b) s d (if x.toNat ≤ y.toNat then y else x)
    ∧ (∃ n, LeadingZeros x n ∧ ScalarResult (.clz d a) s d (BitVec.ofNat 64 n))
    ∧ ScalarResult (.popc d a) s d (BitVec.ofNat 64 ((List.range 64).countP x.getLsbD))

/-- R284: the immediate forms; `andi`, `ori` and `xori` sign-extend their immediate too. -/
def ScalarImmediate : Prop :=
  ∀ (s : State) (d a k : BitVec 6) (imm : BitVec 16), let x := s.rd.rs a; let v : DWord := BitVec.ofInt 64 imm.toInt
    ScalarResult (.addi d a imm) s d (x + v)
    ∧ ScalarResult (.andi d a imm) s d (x &&& v)
    ∧ ScalarResult (.ori d a imm) s d (x ||| v)
    ∧ ScalarResult (.xori d a imm) s d (x ^^^ v)
    ∧ ScalarResult (.shli d a k) s d (x <<< k.toNat)
    ∧ ScalarResult (.shri d a k) s d (x >>> k.toNat)
    ∧ ScalarResult (.sari d a k) s d (BitVec.ofInt 64 (x.toInt / 2 ^ k.toNat))
    ∧ ScalarResult (.roli d a k) s d (x <<< k.toNat ||| x >>> (64 - k.toNat))

/-- R285: the bit-field forms, bit by bit, for a field of w = width + 1 bits at q = pos that lies in the word (every field that
decodes does). `bfi` reads the old sD. -/
def ScalarBitField : Prop :=
  ∀ (s : State) (d a width pos : BitVec 6) (sx : Bool), let x := s.rd.rs a; let q := pos.toNat; let w := width.toNat + 1
    q + w ≤ 64 →
    (∃ v : DWord, ScalarResult (.bfx d a width pos sx) s d v
      ∧ ∀ j, j < 64 → v.getLsbD j = if j < w then x.getLsbD (q + j) else sx && x.getLsbD (q + w - 1))
    ∧ (∃ v : DWord, ScalarResult (.bfi d a width pos) s d v
      ∧ ∀ j, j < 64 → v.getLsbD j = if q ≤ j ∧ j < q + w then x.getLsbD (j - q) else (s.rd.rs d).getLsbD j)

/-- R286: compare, select and predicate logic; the immediate of `cmpi` is sign-extended for every condition. -/
def ScalarCompareSelect : Prop :=
  ∀ (s : State) (d6 a b : BitVec 6) (d p q : BitVec 4) (k : SCond) (imm : BitVec 16) (inv : Bool),
    PredicateResult (.cmp k d a b) s d (condOf k (s.rd.rs a) (s.rd.rs b))
    ∧ PredicateResult (.cmpi k d a imm) s d (condOf k (s.rd.rs a) (BitVec.ofInt 64 imm.toInt))
    ∧ ScalarResult (.sel d6 p a b) s d6 (if s.rd.rb p = true then s.rd.rs a else s.rd.rs b)
    ∧ PredicateResult (.band d p q inv) s d (xor inv (s.rd.rb p && s.rd.rb q))
    ∧ PredicateResult (.bor d p q inv) s d (xor inv (s.rd.rb p || s.rd.rb q))
    ∧ PredicateResult (.bxor d p q inv) s d (xor inv (xor (s.rd.rb p) (s.rd.rb q)))
    ∧ PredicateResult (.bandn d p q inv) s d (xor inv (s.rd.rb p && !s.rd.rb q))

/-- R287, R288: constants, and address forms, whose sum wraps. `lui` keeps the low half. -/
def ScalarConstantAddress : Prop :=
  ∀ (s : State) (d a b : BitVec 6) (j : BitVec 3) (imm : BitVec 16) (hi : BitVec 32) (im : BitVec 36),
    ScalarResult (.movi d im) s d (BitVec.ofInt 64 im.toInt)
    ∧ ScalarResult (.lui d hi) s d (BitVec.ofNat 64 (2 ^ 32 * hi.toNat + (s.rd.rs d).toNat % 2 ^ 32))
    ∧ ScalarResult (.lea d a b j) s d (BitVec.ofNat 64 ((s.rd.rs a).toNat + 2 ^ j.toNat * (s.rd.rs b).toNat))
    ∧ ScalarResult (.leai d a imm) s d (s.rd.rs a + BitVec.ofInt 64 imm.toInt)

/-! ## The C slot (14) -/

/-- R261: a C slot whose predicate is false changes nothing, whatever its instruction. -/
def GuardFalse : Prop :=
  ∀ (i : Instr) (s : State) (g : Guard), guardOf? i = some g → ¬ Acts s g → exec i s = .next s

/-- R262, R263, R264: the transfers, taken and not taken. -/
def TransferTaken : Prop :=
  ∀ (s : State) (g : Guard) (p : BitVec 4) (k : BitVec 6) (off : BitVec 21) (near : BitVec 16), Acts s g →
    Transfer (.br g off) s (s.rd.pc + BitVec.ofInt 64 (4 * off.toInt))
    ∧ (s.rd.rp p ≠ 0 → Transfer (.braAny g p near) s (s.rd.pc + BitVec.ofInt 64 (4 * near.toInt)))
    ∧ (s.rd.rp p = 0 → exec (.braAny g p near) s = .next s)
    ∧ (s.rd.rp p = 0xFFFF → Transfer (.braAll g p near) s (s.rd.pc + BitVec.ofInt 64 (4 * near.toInt)))
    ∧ (s.rd.rp p ≠ 0xFFFF → exec (.braAll g p near) s = .next s)
    ∧ ((s.rd.rs k).toNat % 4 = 0 → Transfer (.ret g k) s (s.rd.rs k) ∧ Transfer (.jmpi g k) s (s.rd.rs k))

/-- R262, R263: `call` transfers and links: s62 takes the address of the next header, which is `npc` while its bundle runs. -/
def CallLinks : Prop :=
  ∀ (s : State) (g : Guard) (off : BitVec 21), Acts s g →
    ∃ t, exec (.call g off) s = .next t ∧ t.c.npc = s.rd.pc + BitVec.ofInt 64 (4 * off.toInt) ∧ t.c.loops = []
      ∧ (∀ j, t.c.rs j = if j = 62 then s.c.npc else s.c.rs j)
      ∧ { t with c := { t.c with npc := s.c.npc, loops := s.c.loops, pause := s.c.pause, s := s.c.s, bad := s.c.bad, tw := s.c.tw }
                 jumped := s.jumped } = s

/-- R263: a `ret` or `jmpi` whose target has bits [1:0] non-zero takes ALIGN, exactly, with the target as its address. -/
def TransferMisaligned : Prop :=
  ∀ (s : State) (g : Guard) (k : BitVec 6), Acts s g → (s.rd.rs k).toNat % 4 ≠ 0 →
    exec (.ret g k) s = s.trap ⟨0x08, 0, 0, 0, s.rd.rs k⟩ ∧ exec (.jmpi g k) s = s.trap ⟨0x08, 0, 0, 0, s.rd.rs k⟩

/-- R265: a loop of N = 1 or more is pushed as level 0 with i = 0, its stage predicates as SetStages gives them; `first` and `stop`
are the body's first and last bundle as the headers after the loop bundle give them. Without stages the count is N (the model's
reading, log 10). N = 0 passes the body over. -/
def LoopEntered : Prop :=
  ∀ (s : State) (g : Guard) (k : BitVec 6) (len : BitVec 10) (stages : BitVec 3) (w : BitVec 2) (first stop : DWord) (fs ss : Nat),
    let n := (s.rd.rs k).toNat % 2 ^ 32
    let count := n + max stages.toNat 1 - 1
    Acts s g → s.c.loops.length < 6 → count < 2 ^ 32 → s.bundleFrom 4096 0 s.c.npc = .ok (first, fs) →
    s.bundleFrom 4096 (len.toNat - 1) s.c.npc = .ok (stop, ss) → (∀ l ∈ s.c.loops.head?, stop ≤ l.stop) →
    (n ≠ 0 → ∃ t, exec (.loop g k len stages w) s = .next t
      ∧ t.c.loops = ⟨0, BitVec.ofNat 32 count, first, len, stop, stages ++ w⟩ :: s.c.loops
      ∧ (∀ j : BitVec 4, t.c.rp j = if j ≠ 0 ∧ j.toNat ≤ stages.toNat then (if j = 1 then 0xFFFF else 0) else s.c.rp j)
      ∧ t.staged = true ∧ { t with c := { t.c with loops := s.c.loops, p := s.c.p }, staged := s.staged } = s)
    ∧ (n = 0 → ∃ t, exec (.loop g k len stages w) s = .next t
      ∧ t.c.npc = stop + BitVec.ofNat 64 ss ∧ t.jumped = true ∧ { t with c := { t.c with npc := s.c.npc }, jumped := s.jumped } = s)

/-- R265: a seventh level, and a count N + S - 1 above 0xFFFFFFFF, are ILLEGAL at the loop bundle. -/
def LoopRefused : Prop :=
  ∀ (s : State) (g : Guard) (k : BitVec 6) (len : BitVec 10) (stages : BitVec 3) (w : BitVec 2), Acts s g →
    (s.c.loops.length = 6 ∨ (0 < stages.toNat ∧ 2 ^ 32 ≤ (s.rd.rs k).toNat % 2 ^ 32 + stages.toNat - 1)) →
    exec (.loop g k len stages w) s = s.trap (slotTrap s 0x01)

/-- R266: after a bundle that is not the last of the innermost body nothing happens; at a body's end i advances, WROT steps
down by StepOf modulo WIN, and either the body's first bundle is next, with the stage predicates of the new iteration, or the
level is popped and the bundle after it is next. -/
def LoopIterates : Prop :=
  ∀ (s : State) (l : Loop) (ls : List Loop), s.c.loops = l :: ls → s.c.win ≠ 0 → s.c.win ≤ 1024 → s.c.wrot < s.c.win →
    let w := stepEntries (l.rot.extractLsb' 0 2)
    let st := (l.rot.extractLsb' 2 3).toNat
    (s.c.pc ≠ l.stop → exec .loopBoundary s = .next s)
    ∧ (s.c.pc = l.stop → l.i.toNat + 1 < l.n.toNat → ∃ t, exec .loopBoundary s = .next t
      ∧ t.c.loops = { l with i := l.i + 1 } :: ls ∧ t.c.npc = l.start
      ∧ (t.c.wrot : Int) = ((s.c.wrot : Int) - w) % s.c.win ∧ t.c.win = s.c.win
      ∧ (∀ j : BitVec 4, t.c.rp j =
          if j ≠ 0 ∧ j.toNat ≤ st then stageValue (l.i.toNat + 1) l.n.toNat st j.toNat else s.c.rp j)
      ∧ t.staged = true
      ∧ { t with c := { t.c with loops := s.c.loops, npc := s.c.npc, wcfg := s.c.wcfg, p := s.c.p, bound := s.c.bound }
                 staged := s.staged } = s)
    ∧ (s.c.pc = l.stop → l.i.toNat + 1 = l.n.toNat → ls = [] → ∃ t, exec .loopBoundary s = .next t
      ∧ t.c.loops = [] ∧ (t.c.wrot : Int) = ((s.c.wrot : Int) - w) % s.c.win ∧ t.c.win = s.c.win
      ∧ { t with c := { t.c with loops := s.c.loops, wcfg := s.c.wcfg, bound := s.c.bound } } = s)

/-- R268: `lbrk K` ends levels 0 to K, with the bundle after the body of level K next; WROT and the predicates stay. A K that is
not below DEPTH takes ILLEGAL. -/
def LoopBreak : Prop :=
  ∀ (s : State) (g : Guard) (k : BitVec 3), Acts s g →
    (∀ l w, s.c.loops[k.toNat]? = some l → s.fetchWord l.stop = .ok w → ∃ t, exec (.lbrk g k) s = .next t
      ∧ t.c.loops = s.c.loops.drop (k.toNat + 1) ∧ t.c.npc = l.stop + BitVec.ofNat 64 (Machine.sizeOf w)
      ∧ { t with c := { t.c with loops := s.c.loops, npc := s.c.npc, bound := s.c.bound, pause := s.c.pause }, jumped := s.jumped } = s)
    ∧ (s.c.loops.length ≤ k.toNat → exec (.lbrk g k) s = s.trap (slotTrap s 0x01))

/-- R269: `spawn K` on an idle sibling sequencer: a new strand of the rank with PC sE, s1 the spawner's SEQ_ID, s16 and up from
sA and up, every other register as a new context has it (R123); the spawner's stream count moves on by 2^32, and nothing else of
it changes. What of the spawner's still waits goes before the accesses of the new strand. -/
def SpawnMakesStrand : Prop :=
  ∀ (s : State) (g : Guard) (k : BitVec 2) (e a : BitVec 6) (n : BitVec 4),
    let seq := 4 * s.c.core + k.toNat
    let key := 8 * seq + s.cur % 8
    Acts s g → seq ≠ s.c.seq → s.cur ≠ key → s.busy key = false → (s.rd.rs e).toNat % 4 = 0 → a.toNat + n.toNat ≤ 64 →
    ∃ t, exec (.spawn g k e a n) s = .next t
      ∧ (t.ctx key).live = true ∧ (t.ctx key).seq = seq ∧ (t.ctx key).rank = s.c.rank ∧ (t.ctx key).lcore = s.c.lcore
      ∧ (t.ctx key).pc = s.rd.rs e ∧ (t.ctx key).win = s.rd.win ∧ (t.ctx key).loops = [] ∧ (t.ctx key).stream = s.c.stream
      ∧ (∀ j : BitVec 6, (t.ctx key).rs j = if j = 1 then s.seqId s.c
          else if 16 ≤ j.toNat ∧ j.toNat < 16 + n.toNat then s.rd.rs (BitVec.ofNat 6 (a.toNat + (j.toNat - 16))) else 0)
      ∧ t.c.stream = s.c.stream + 2 ^ 32 ∧ { t.c with stream := s.c.stream, mark := s.c.mark } = s.c
      ∧ (∀ j, j ≠ key → j ≠ s.cur → t.ctx j = s.ctx j)
      ∧ (∀ id agent, (id, agent) ∈ t.fenced ↔ (id, agent) ∈ s.fenced ∨ (id ∈ s.waitsOf s.cur ∧ agent = key))
      ∧ { t with c := s.c, ctxs := s.ctxs, fenced := s.fenced } = s

/-- R269: a sequencer that is the strand's own or busy takes SPAWN_BUSY, with its number; an entry off a 4-byte boundary, ALIGN. -/
def SpawnRefused : Prop :=
  ∀ (s : State) (g : Guard) (k : BitVec 2) (e a : BitVec 6) (n : BitVec 4),
    let seq := 4 * s.c.core + k.toNat
    let taken := seq = s.c.seq ∨ s.busy (8 * seq + s.cur % 8) = true
    Acts s g →
    (taken → exec (.spawn g k e a n) s = s.trap ⟨0x03, 0, 0xFF, k.setWidth 32, 0⟩)
    ∧ (¬ taken → (s.rd.rs e).toNat % 4 ≠ 0 → exec (.spawn g k e a n) s = s.trap ⟨0x08, 0, 0, 0, s.rd.rs e⟩)

/-- R97, R98, R270: the four launches, once their record can be read: a record whose addresses check is read, a request to its slice
and a rewind point, and is taken up with its objects' places, at once or, where accesses of the strand still wait, behind them; a
fault of its addresses, or POISON of a marked word of it, is taken exactly at the launching bundle, and a launch whose record cannot
be read yet is held. The C and the X forms alike. -/
def LaunchIssues : Prop :=
  ∀ (s : State) (g : Guard) (r : BitVec 6) (loc : Nat), s.rd.sBad r = false →
    let va := s.rd.rs r
    let waits := s.readWaits (linesOf loc 128) = true
    let asked : State := { s with c := { s.c with mark := true } }.depart [loc / 128] false
    let due (after : Bool) (o : Out) : Prop :=
      (∀ bs co ac, s.launchCheck s.c va after = .ok (bs, co, ac) →
        let ev : Instr := .launchRecordRead s.c.rank va ⟨after, bs, co, ac⟩
        (s.waitsOf s.cur = [] → o = .next { asked with agenda := asked.agenda ++ [ev] })
        ∧ (s.waitsOf s.cur ≠ [] → ∃ t, o = .next t ∧ s.nextRef ∈ t.feq ∧ t.nextRef = s.nextRef + 1
          ∧ Store.get none t.pend s.nextRef = some (.event s.cur s.issueRef ev)
          ∧ (∀ id ∈ s.waitsOf s.cur, (id, opAgent s.nextRef) ∈ t.fenced)
          ∧ { t with feq := s.feq, pend := s.pend, fenced := s.fenced, nextRef := s.nextRef } = asked))
      ∧ ∀ t, s.launchCheck s.c va after = .error t → o = s.trap t
    (s.check s.c va 0 128 .read false = .ok loc →
      (¬ waits → due false (exec (.launchX r) s) ∧ due true (exec (.launchAfterX r) s)
        ∧ (Acts s g → due false (exec (.launch g r) s) ∧ due true (exec (.launchAfter g r) s)))
      ∧ (waits → exec (.launchX r) s = Held s ∧ exec (.launchAfterX r) s = Held s
        ∧ (Acts s g → exec (.launch g r) s = Held s ∧ exec (.launchAfter g r) s = Held s)))
    ∧ (∀ t, s.check s.c va 0 128 .read false = .error t → exec (.launchX r) s = s.trap t ∧ exec (.launchAfterX r) s = s.trap t
      ∧ (Acts s g → exec (.launch g r) s = s.trap t ∧ exec (.launchAfter g r) s = s.trap t))

/-- R61, R97, R98, R100: a record that is accepted signals SRC and joins its rank's queue with all its strands outstanding; one with a
count of zero signals SRC and LAND; one that is refused, or whose rank is ending, signals both with FAIL. -/
def LaunchQueued : Prop :=
  ∀ (s : State) (rank : Nat) (va : DWord) (after : Bool) (record : List Byte) (co ac : Nat),
    let r := recOf record
    let n := r.cx * r.cy * r.cz
    let o := exec (.launchRecordRead rank va ⟨after, record, co, ac⟩) s
    let gone := (s.rank rank).st = .ending ∨ (s.rank rank).st = .absent
    (gone ∨ s.refuses rank r = true → o = .next (s.signal (some co) 1 1 true))
    ∧ (¬ gone → s.refuses rank r = false → n = 0 → o = .next ((s.signal (some co) 1 0 false).signal (some co) 0 1 false))
    ∧ (¬ gone → s.refuses rank r = false → n ≠ 0 → ∃ t, o = .next t
      ∧ (∃ l, (t.rank rank).queue = (s.rank rank).queue ++ [l] ∧ l.entry = r.entry ∧ l.prio = r.prio ∧ l.win = r.win
          ∧ l.core0 = r.core0 ∧ l.args = r.args ∧ l.cx = r.cx ∧ l.cy = r.cy ∧ l.cz = r.cz ∧ l.after = after
          ∧ l.afterCo = ac ∧ l.afterN = r.afterN
          ∧ (t.rank rank).lives = (s.rank rank).lives ++ [⟨l.id, co, n, false, []⟩])
      ∧ (∀ j, j ≠ rank → t.rank j = s.rank j)
      ∧ { t with ranks := s.ranks, nextRef := s.nextRef } = s.signal (some co) 1 0 false)

/-- R121, R275: `gjoin` makes a group bound to its line, or joins one; a strand that is a member already changes nothing; the three
refusals are ILLEGAL. `gleave` takes the strand from the group's members, and the last member's leave dissolves it. -/
def GroupJoinLeave : Prop :=
  ∀ (s : State) (g : Guard) (grp line : BitVec 6),
    let r := s.rank s.c.rank
    let me := s.c.party
    let ofMine (e : Nat × Option Group) : Bool := match e.2 with | some x => x.members.contains me | none => false
    let bound : Prop := ∃ e ∈ r.groups, ∃ x, e.2 = some x ∧ x.line = line ∧ e.1 ≠ grp.toNat
    let groupsAre (o : Out) (v : Option Group) (marks : Bool) : Prop := ∃ t, o = .next t
      ∧ (t.rank s.c.rank).groups = Store.set none r.groups grp.toNat v
      ∧ { t.rank s.c.rank with groups := r.groups } = r ∧ (∀ j, j ≠ s.c.rank → t.rank j = s.rank j)
      ∧ { t with ranks := s.ranks, c := { t.c with mark := s.c.mark } } = s ∧ t.c.mark = marks
    Acts s g →
    (Store.get none r.groups grp.toNat = none → ¬ bound → (r.groups.filter ofMine).length < 16 →
      groupsAre (exec (.gjoin g grp line) s) (some ⟨[me], line⟩) true)
    ∧ (∀ ms, Store.get none r.groups grp.toNat = some ⟨ms, line⟩ → me ∉ ms → (r.groups.filter ofMine).length < 16 →
      groupsAre (exec (.gjoin g grp line) s) (some ⟨ms ++ [me], line⟩) true)
    ∧ (∀ ms, Store.get none r.groups grp.toNat = some ⟨ms, line⟩ → me ∈ ms → exec (.gjoin g grp line) s = .next s)
    ∧ (∀ x, Store.get none r.groups grp.toNat = some x → x.line ≠ line →
      exec (.gjoin g grp line) s = s.trap (slotTrap s 0x01))
    ∧ (Store.get none r.groups grp.toNat = none → bound ∨ 16 ≤ (r.groups.filter ofMine).length →
      exec (.gjoin g grp line) s = s.trap (slotTrap s 0x01))
    ∧ (∀ ms, Store.get none r.groups grp.toNat = some ⟨ms, line⟩ → me ∈ ms → s.perchOf line = none →
      groupsAre (exec (.gleave g grp) s)
        (if ms.filter (· ≠ me) = [] then none else some ⟨ms.filter (· ≠ me), line⟩) true)

/-- R273: `parm` arms a disarmed line for the rank with the header's destinations and their bytes, and with the members of the
line's group that the header does not list, with 0 bytes; the same header again has no effect, another is ILLEGAL, and a line of
another rank is waited for. -/
def PerchArmed : Prop :=
  ∀ (s : State) (g : Guard) (h : BitVec 6) (loc : Nat) (ps : List (Nat × Nat)),
    let va := s.rd.rs h
    let hd := hdrOf (s.readPieces ps)
    let line := BitVec.ofNat 6 hd.line
    Acts s g → s.rd.sBad h = false → s.check s.c va 0 8 .read false = .ok loc →
    s.pieces s.c .read va (8 + 8 * min (s.numNow (loc + 2) 2) 120) = .ok ps →
    Readable s [(loc, 8)] → Readable s ps →
    (s.hdrOk s.c.rank hd = false → exec (.parm g h) s = s.trap (slotTrap s 0x01))
    ∧ (s.hdrOk s.c.rank hd = true →
      (s.perchOf line = none → ∃ t p, exec (.parm g h) s = .next t ∧ t.perchOf line = some p ∧ p.rank = s.c.rank ∧ p.hdr = va
        ∧ p.scope = BitVec.ofNat 3 hd.scope ∧ p.waiters = []
        ∧ p.dests = hd.dests.map (fun d => (⟨d.1, d.2, false, none⟩ : Dest)) ++ (((s.lineMembers s.c.rank line).filter fun m =>
            !hd.dests.any fun d => d.1.toNat = m.1).map fun m => (⟨BitVec.ofNat 16 m.1, 0, false, some m.2⟩ : Dest))
        ∧ (∀ k : BitVec 6, k ≠ line → t.perchOf k = s.perchOf k) ∧ { t with perch := s.perch } = s)
      ∧ (∀ p, s.perchOf line = some p → p.rank = s.c.rank → p.hdr = va → exec (.parm g h) s = .next s)
      ∧ (∀ p, s.perchOf line = some p → p.rank = s.c.rank → p.hdr ≠ va → exec (.parm g h) s = s.trap (slotTrap s 0x01))
      ∧ (∀ p, s.perchOf line = some p → p.rank ≠ s.c.rank →
        exec (.parm g h) s = .next { s with c := { s.c with wait := some (.arm line) }, stall := some .wait }))

/-- R274: on a line that the rank has not armed, `pwait` retires at once with bS := 1. On an armed line a destination whose raise is
the last releases it: the line is disarmed, the wait retires with bS := 1, and a STEPLINE release advances STEP. -/
def PerchWait : Prop :=
  ∀ (s : State) (g : Guard) (line : BitVec 6) (b : BitVec 4), Acts s g → Store.get none s.releases s.cur = none →
    ((∀ p, s.perchOf line = some p → p.rank ≠ s.c.rank) → ∃ c, exec (.pwait g line b) s = .next { s with c }
      ∧ (∀ j, c.rb j = if j = b ∧ b ≠ 0 then true else s.c.rb j) ∧ { c with b := s.c.b } = s.c)
    ∧ (∀ p, s.perchOf line = some p → p.rank = s.c.rank → p.held = false → p.waiters = [] →
      (∀ d ∈ p.dests, d.left = 0 ∧ (d.raised = true ∨ d.party.toNat = s.c.party)) →
      (s.rank p.rank).holdsStep = false → Store.get false (s.rank p.rank).overran line.toNat = false →
      ∃ t, exec (.pwait g line b) s = .next t ∧ t.perchOf line = none ∧ (∀ k : BitVec 6, k ≠ line → t.perchOf k = s.perchOf k)
        ∧ (∀ j, t.c.rb j = if j = b ∧ b ≠ 0 then true else s.c.rb j)
        ∧ { t.c with b := s.c.b, wait := s.c.wait } = s.c
        ∧ (t.rank p.rank).step = (s.rank p.rank).step + (if (s.rank p.rank).stepline = line.setWidth 8 then 1 else 0)
        ∧ { t with c := s.c, ranks := s.ranks, perch := s.perch, releases := s.releases, decs := s.decs } = s)

/-- R275: `gwait` by the only member of a group whose line is disarmed releases at once and changes no predicate; with another
member that has not raised, it waits, the line armed at chip scope with every member at 0 bytes; a strand that is no member
takes ILLEGAL. -/
def GroupWait : Prop :=
  ∀ (s : State) (g : Guard) (grp : BitVec 6) (x : Group), Acts s g →
    Store.get none (s.rank s.c.rank).groups grp.toNat = some x → Store.get none s.releases s.cur = none →
    s.perchOf x.line = none → s.waitingFor s.cur = false →
    (s.c.party ∉ x.members → exec (.gwait g grp) s = s.trap (slotTrap s 0x01))
    ∧ (x.members = [s.c.party] → s.c.party < 65536 → (s.rank s.c.rank).holdsStep = false →
      (s.rank s.c.rank).stepline ≠ x.line.setWidth 8 → Store.get false (s.rank s.c.rank).overran x.line.toNat = false →
      ∃ t, exec (.gwait g grp) s = .next t ∧ t.perchOf x.line = none ∧ t.stall = s.stall ∧ t.c = { s.c with wait := none })
    ∧ (∀ m, x.members = [s.c.party, m] → m ≠ s.c.party → m < 2 ^ 15 → s.c.party < 2 ^ 15 →
      ∃ t, exec (.gwait g grp) s = .next t ∧ t.stall = some .wait ∧ t.c.wait = some (.perch x.line)
        ∧ t.perchOf x.line = some ⟨s.c.rank, 0, 4, [⟨BitVec.ofNat 16 s.c.party, 0, true, some grp.toNat⟩,
            ⟨BitVec.ofNat 16 m, 0, false, some grp.toNat⟩], [s.cur], false, s.time.toNat⟩)

/-- R276: a wait whose condition holds at issue retires and changes nothing but the note that it waited; an unmet one holds its
bundle, which does not commit. Comparisons are unsigned. `waitv` reads the version at the slice, with the line's open entries applied
(R204, R305). -/
def WaitsRetireOrHold : Prop :=
  ∀ (s : State) (g : Guard) (a b : BitVec 6), Acts s g →
    let retires (i : Instr) : Prop := exec i s = .next { s with c := { s.c with wait := none } }
    let holds (i : Instr) (w : Wait) : Prop := exec i s = .next { s with c := { s.c with wait := some w }, stall := some .wait }
    let v := (s.rd.rs b).toNat
    ((s.rd.rs a).toNat ≤ s.time.toNat → retires (.waitt g a))
    ∧ (s.time.toNat < (s.rd.rs a).toNat → holds (.waitt g a) (.time (s.rd.rs a)))
    ∧ (s.rd.sBad a = false →
      (∀ loc, s.check s.c (s.rd.rs a) 0 1 .read true = .ok loc → s.behind s.feq s.cur [loc / 128] = false →
        let f := s.flush [loc / 128]
        ((f.version (loc / 128)).toNat ≠ v % 2 ^ 48 → exec (.waitv g a b) s = .next { f with c := { s.c with wait := none } })
        ∧ ((f.version (loc / 128)).toNat = v % 2 ^ 48 → exec (.waitv g a b) s
          = .next { f with c := { s.c with wait := some (.version (loc / 128) (BitVec.ofNat 48 v)) }, stall := some .wait }))
      ∧ (∀ t, s.check s.c (s.rd.rs a) 0 1 .read true = .error t → exec (.waitv g a b) s = s.trap t)
      ∧ (∀ loc, s.check s.c (s.rd.rs a) 0 8 .read true = .ok loc → Readable s [(loc, 8)] →
        let obj := s.numNow loc 8
        (v % 2 ^ 32 ≤ obj % 2 ^ 32 → retires (.waitcSrc g a b))
        ∧ (obj % 2 ^ 32 < v % 2 ^ 32 → holds (.waitcSrc g a b) (.src loc (BitVec.ofNat 32 v)))
        ∧ (v % 2 ^ 31 ≤ obj / 2 ^ 32 % 2 ^ 31 → retires (.waitcLand g a b))
        ∧ (obj / 2 ^ 32 % 2 ^ 31 < v % 2 ^ 31 → holds (.waitcLand g a b) (.land loc (BitVec.ofNat 31 v))))
      ∧ (∀ t, s.check s.c (s.rd.rs a) 0 8 .read true = .error t →
        exec (.waitcSrc g a b) s = s.trap t ∧ exec (.waitcLand g a b) s = s.trap t))

/-- R137, R138, R278: `mclaim` and `mrel` on the MOWN of the strand's rank on its core: who holds the claim claims again, an unclaimed
engine is claimed once the operations of the core's other sequencers have completed, one that another has claimed answers b(S) := 0
without a wait; `mrel` by the owner returns the engine, by another takes NOT_OWNER. -/
def EngineClaim : Prop :=
  ∀ (s : State) (g : Guard) (b : BitVec 4), Acts s g →
    let k := BitVec.ofNat 2 (s.c.seq % 4)
    let m := s.mownOf s.c.core s.c.rank
    let idle := ∀ j, j < 4 → j ≠ s.c.seq % 4 → (s.sibling j).mops = []
    let answers (v : Bool) (m' : BitVec 3) : Prop := ∃ t, exec (.mclaim g b) s = .next t
      ∧ (∀ j, t.c.rb j = if j = b ∧ b ≠ 0 then v else s.c.rb j) ∧ { t.c with b := s.c.b } = s.c
      ∧ (∀ core rank, rank < 131072 → t.mownOf core rank = if core = s.c.core ∧ rank = s.c.rank then m' else s.mownOf core rank)
      ∧ { t with c := s.c, mown := s.mown } = s
    s.c.rank < 131072 →
    (((s.rank s.c.rank).prot = false ∨ s.c.seq % 2 = 0) →
      (m = 1#1 ++ k → answers true (1#1 ++ k))
      ∧ (m.getLsbD 2 = false → idle → answers true (1#1 ++ k))
      ∧ (m.extractLsb' 0 2 ≠ k → m.getLsbD 2 = true → answers false m)
      ∧ (m.getLsbD 2 = false → ¬ idle → exec (.mclaim g b) s = Held s))
    ∧ (m.extractLsb' 0 2 = k → ∃ t, exec (.mrel g) s = .next t
      ∧ (∀ core rank, rank < 131072 → t.mownOf core rank = if core = s.c.core ∧ rank = s.c.rank then 0 else s.mownOf core rank)
      ∧ { t with mown := s.mown } = s)
    ∧ (m.extractLsb' 0 2 ≠ k → exec (.mrel g) s = s.trap (slotTrap s 0x04))

/-- R215, R277, R279: `tfence` waits for the strand's digit operations and drains, then retires unless a flag it enables is raised,
which traps after the bundle with those flags; `setft` sets FTBASE and FTLEVEL and nothing else. -/
def FlagFenceFormatSelect : Prop :=
  ∀ (s : State) (g : Guard) (base : BitVec 6) (level : BitVec 3), Acts s g →
    let raised := s.rd.asticky.extractLsb' 0 5 &&& s.rd.asticky.extractLsb' 8 5
    let done := s.rd.digitsDone = true ∧ ∀ m ∈ s.rd.mops, ¬ ∃ f k d r c x y, m.instr = .mdrain f k d r c x y
    (done → raised = 0 → exec (.tfence g) s = .next s)
    ∧ (done → raised ≠ 0 → exec (.tfence g) s = .next (s.takeTrap ⟨0x10, 1, 0xFF, raised.setWidth 32, 0⟩ false))
    ∧ (¬ done → exec (.tfence g) s = .next { s with stall := some .fence })
    ∧ exec (.setft g base level) s = .next { s with c := { s.c with ftBase := base, ftLevel := level } }

/-- R209, R211, R374: a trap that can be taken is taken: an exact one at the level its cause names or the strand's if that is higher,
with EPC the bundle; `trap` at the strand's level and `svc` at supervisor level, after their bundle, with INFO the immediate and
EPC the next bundle. -/
def TrapTaken : Prop :=
  ∀ (s : State) (g : Guard) (imm : BitVec 16) (t : TrapInfo) (ps : List (Nat × Nat)),
    let next := (held s).pastPads 64 (settled s).npc
    (t.kind = 0 → Takes s (supCause t.cause || s.c.sv) ps →
      ∃ u, s.trap t = .next u ∧ Entered s t (supCause t.cause || s.c.sv) (settled s).pc ps u)
    ∧ (Acts s g → Takes s s.c.sv ps →
      ∃ u, exec (.trap g imm) s = .next u ∧ Entered s ⟨0x20, 1, 0xFF, imm.setWidth 32, 0⟩ s.c.sv next ps u)
    ∧ (Acts s g → Takes s true ps →
      ∃ u, exec (.svc g imm) s = .next u ∧ Entered s ⟨0x20, 1, 0xFF, imm.setWidth 32, 0⟩ true next ps u)

/-- R209, R229: the bundle that follows, for EPC: the address itself where a header stands there or none can be fetched; past a pad
word, which is no bundle, the header at the start of the next line, where one stands in the same page. -/
def PadsPassed : Prop :=
  ∀ (s : State) (pc : DWord) (loc : Nat),
    (∀ t, s.check s.c pc 0 4 .fetch false = .error t → s.pastPads 64 pc = pc)
    ∧ (s.check s.c pc 0 4 .fetch false = .ok loc → s.numNow loc 4 ≠ 0 → s.pastPads 64 pc = pc)
    ∧ (s.check s.c pc 0 4 .fetch false = .ok loc → s.numNow loc 4 = 0 → Memory.wf s.mem = true → pc.toNat % 64 = loc % 64 →
      loc / 64 * 64 + 64 < loc / 65536 * 65536 + 65536 → s.num (loc / 64 * 64 + 64) 4 ≠ 0 →
      s.pastPads 64 pc = pc + 64 - (pc &&& 63))

/-- R211: a trap taken outside a bundle enters the handler in the same way, with the strand's PC as EPC, and the handler's first
bundle is the strand's next; while it must wait the trap stays due. -/
def TrapEntryEvent : Prop :=
  ∀ (s : State) (t : TrapInfo) (sup : Bool) (ps : List (Nat × Nat)),
    let s0 := { s.fresh with c := { s.c with npc := s.c.pc } }
    (Takes s0 (sup || s.c.sv) ps → t.kind ≠ 1 →
      ∃ u, Entered s0 t (sup || s.c.sv) (settled s0).pc ps u
        ∧ exec (.trapEntry t sup) s = .next { u.fresh with c := { u.c with pc := u.c.npc } })
    ∧ (¬ Quiet s0 (sup || s.c.sv) → t.kind = 0 →
      exec (.trapEntry t sup) s = .next { s with c := { s.c with due := some (t, sup) } })

/-- R213, R403: the layout of the 13,696 bytes of a trap frame. -/
def TrapFrameLayout : Prop :=
  ∀ (c : Ctx) (t : TrapInfo) (epc time : DWord), c.loops.length ≤ 6 →
    let f := frameBytes c t epc time
    field f 0x000 8 = epc.toNat ∧ field f 0x008 1 = t.cause.toNat ∧ field f 0x009 1 = t.kind.toNat ∧ field f 0x00A 1 = t.lane.toNat
    ∧ field f 0x00B 1 = (if c.sv then 1 else 0) ∧ field f 0x00C 4 = t.info.toNat ∧ field f 0x010 8 = t.fva.toNat
    ∧ field f 0x018 8 = time.toNat
    ∧ (∀ k l, c.loops[k]? = some l → field f (0x020 + 16 * k) 4 = l.i.toNat ∧ field f (0x020 + 16 * k + 4) 4 = l.n.toNat
        ∧ field f (0x020 + 16 * k + 8) 8 = l.start.toNat % 2 ^ 52 + 2 ^ 52 * l.len.toNat)
    ∧ field f 0x080 1 = c.loops.length ∧ field f 0x081 3 = 0 ∧ field f 0x084 4 = c.wcfg.toNat
    ∧ (f.drop 0x1500).take 8320 = chainImage c ∧ f.length = 13696

/-- R212: a trap that meets its level's IN bit goes to the supervisor vector with its own cause and INFO bit 31; when the
supervisor's IN bit is set as well the strand is stopped, as with FAIL. -/
def DoubleTrap : Prop :=
  ∀ (s : State) (t : TrapInfo) (ps : List (Nat × Nat)), t.kind = 0 → supCause t.cause = false → s.c.sv = false →
    let c := settled s
    Quiet s false → c.tstat.getLsbD 0 = true →
    (c.tstat.getLsbD 1 = false → (held s).pieces { c with sv := true } .write (frameAt c true) 13696 = .ok ps →
      ∃ u, s.trap t = .next u ∧ Entered s { t with info := t.info ||| 0x80000000 } true c.pc ps u)
    ∧ (c.tstat.getLsbD 1 = true →
      s.trap t = .next { (held s).endStrand s.cur true with trapped := some { t with info := t.info ||| 0x80000000 } })

/-- R375, R403: `rfi` from the handler of its own level restores what the frame holds, clears the level's IN bit and goes on at EPC
at the frame's level; every scalar, predicate and window word stays. Outside a handler, or with a frame that fails its checks,
it takes ILLEGAL; with a frame of a higher level, PRIV; with a chain image whose RES disagrees, it rewinds (R219). -/
def ReturnFromTrap : Prop :=
  ∀ (s : State) (g : Guard) (ps : List (Nat × Nat)), Acts s g →
    let lvl := s.rd.sv
    let f := s.readPieces ps
    let below : State := { s with c := { s.c with sv := decide (field f 0x0B 1 = 1) } }
    (s.rd.tstat &&& inBit lvl = 0 → exec (.rfi g) s = s.trap (slotTrap s 0x01))
    ∧ (s.rd.tstat &&& inBit lvl ≠ 0 → s.pieces s.rd .read (frameAt s.rd lvl) 13696 = .ok ps → Readable s ps →
      (lvl.toNat < field f 0x00B 1 →
        exec (.rfi g) s = s.trap ⟨0x05, 0, 0xFF, BitVec.ofNat 32 (0x8000 + 256 * s.slot + 0x22), 0⟩)
      ∧ (field f 0x00B 1 ≤ lvl.toNat → frameOk s.c.win0 f = false → exec (.rfi g) s = s.trap (slotTrap s 0x01))
      ∧ (field f 0x00B 1 ≤ lvl.toNat → frameOk s.c.win0 f = true →
        ∀ loops, below.loopsOf ((f.drop 0x20).take 96) (if lvl then s.c.rotsSv else s.c.rots) (field f 0x80 1) = .ok loops →
        (¬ ResAgrees f → exec (.rfi g) s = .next (s.rewindFrom 4))
        ∧ (ResAgrees f → ∃ t, exec (.rfi g) s = .next t ∧ t.c.npc = BitVec.ofNat 64 (field f 0 8) ∧ t.c.sv = decide (field f 0x00B 1 = 1)
          ∧ t.c.tstat = s.c.tstat &&& ~~~(inBit lvl) ∧ t.c.loops = loops ∧ t.c.wcfg = BitVec.ofNat 32 (field f 0x84 4)
          ∧ (∀ q : BitVec 2, t.c.queue q = (queueOf ((f.drop 0x100).take 5120) q.toNat).getD [])
          ∧ t.c.s = s.c.s ∧ t.c.b = s.c.b ∧ t.c.p = s.c.p ∧ t.c.v = s.c.v ∧ t.c.w = s.c.w ∧ t.c.asticky = s.c.asticky
          ∧ t.c.fpctl = s.c.fpctl ∧ t.c.stream = s.c.stream
          ∧ t.staged = false ∧ { t with c := s.c, nextRef := s.nextRef, jumped := s.jumped, staged := s.staged } = s)))

/-- R271, R98, R137: `exit` ends its strand: the context is free, its sequencer idle, an engine it owned returns to sequencer 0, and
no other context changes. R377: `halt` does the same with FAIL at supervisor level, and takes PRIV at rank level. -/
def StrandEnds : Prop :=
  ∀ (s : State) (g : Guard), Acts s g →
    let ended (t : State) : Prop := (t.ctx s.cur).live = false ∧ (∀ j, j ≠ s.cur → t.ctx j = s.ctx j)
      ∧ ((s.seqOf s.c.seq).active = some (s.cur % 8) → (t.seqOf s.c.seq).active = none)
      ∧ (s.c.resident = false → (s.mownOf s.c.core s.c.rank).extractLsb' 0 2 = BitVec.ofNat 2 (s.c.seq % 4) →
          t.mownOf s.c.core s.c.rank = 0)
    (s.c.mops = [] → ∃ t, exec (.exit g) s = .next t ∧ ended t)
    ∧ (s.rd.sv = true → s.c.mops = [] → ∃ t, exec (.halt g) s = .next t ∧ ended t)
    ∧ (s.rd.sv = false → exec (.halt g) s = s.trap ⟨0x05, 0, 0xFF, BitVec.ofNat 32 (0x8000 + 256 * s.slot + 0x2A), 0⟩)

/-- R98, R271: the end of a launch's strand counts toward its LAND: the last one, with no access of the launch's strands still to
perform, raises LAND by one, with FAIL where a strand of it did not end by `exit`; any other leaves one strand fewer outstanding. -/
def LaunchLand : Prop :=
  ∀ (s : State) (rank id : Nat) (fail : Bool) (waits : List Nat) (l : LiveLaunch),
    (s.rank rank).lives.find? (fun x => x.id = id) = some l →
    (l.left ≤ 1 → l.waits = [] → waits = [] → ∃ t : State,
      s.launchLeft rank id fail waits = t.signal (some l.co) 0 1 (l.failed || fail)
      ∧ (t.rank rank).lives = (s.rank rank).lives.filter (fun x => x.id ≠ id) ∧ { t with ranks := s.ranks } = s)
    ∧ (1 < l.left ∨ l.waits ≠ [] ∨ waits ≠ [] → ∃ t : State, s.launchLeft rank id fail waits = t
      ∧ (∀ x ∈ (t.rank rank).lives, x.id = id →
        ∃ y ∈ (s.rank rank).lives, y.id = id ∧ x.left = y.left - 1 ∧ x.waits = y.waits ++ waits)
      ∧ { t with ranks := s.ranks } = s)

/-- R10, R378: `dbg` stops its sequencer where a debugger is attached and the cluster is not secure, with no pre-emption point left before
the bundle that follows, and is no operation otherwise; attaching and resuming. -/
def DebugStop : Prop :=
  ∀ (s : State) (g : Guard) (imm : BitVec 16) (q : Nat) (on : Bool),
    (Acts s g → (s.seqOf s.c.seq).attached = true → s.secure = false → ∃ t, exec (.dbg g imm) s = .next t
      ∧ (∀ j, t.seqOf j = if j = s.c.seq then { s.seqOf j with stopped := true } else s.seqOf j)
      ∧ { t with seqs := s.seqs } = { s with c := { s.c with past := true } })
    ∧ (Acts s g → (s.seqOf s.c.seq).attached = false ∨ s.secure = true → exec (.dbg g imm) s = .next s)
    ∧ (∃ t, exec (.debuggerAttach q on) s = .next t ∧ (∀ j, t.seqOf j = if j = q then { s.seqOf q with attached := on } else s.seqOf j)
      ∧ { t with seqs := s.seqs } = s)
    ∧ (∃ t, exec (.debuggerResume q) s = .next t
      ∧ (∀ j, t.seqOf j = if j = q then { s.seqOf q with stopped := false } else s.seqOf j) ∧ { t with seqs := s.seqs } = s)

/-- R376, R403: `swapctx` exchanges the strand's context, at the bundle after, with the valid one of the save area, once every access
before it has performed and no dirty host line is left (R194); a rank that has a strand here already makes CTX_STATUS BUSY and changes
nothing else. At rank level it is PRIV; a bad header or a rank that is not resident in the domain is ILLEGAL, a secure rank from the
non-secure world WORLD. The area's image is named by a number (the model's, log 18). -/
def ContextSwapped : Prop :=
  ∀ (s : State) (g : Guard) (a : BitVec 6) (loc : Nat) (ps : List (Nat × Nat)), Acts s g →
    let x := Store.get Ctx.reset s.images (s.num (loc + 8) 8)
    let r := s.rank x.rank
    let header : Prop := s.num loc 4 % 32 = 1 ∧ s.num (loc + 4) 4 ≤ 262136
    let foreign : Prop := x.resident = false ∧ r.placed = true ∧ s.secureCluster r.dom.toNat = true ∧ s.secure = false
    let here : Prop := x.resident = true ∨ (r.placed = true ∧ s.c.cluster ∈ r.domain)
    let slot := if x.resident then 4 else r.slot
    s.rd.sBad a = false →
    (s.rd.sv = false → exec (.swapctx g a) s = s.trap ⟨0x05, 0, 0xFF, BitVec.ofNat 32 (0x8000 + 256 * s.slot + 0x29), 0⟩)
    ∧ (s.rd.sv = true → s.check s.c (s.rd.rs a) 0 4096 .rw false = .ok loc →
      s.pieces s.c .rw (s.rd.rs a) 262144 = .ok ps → Readable s [(loc, 16)] → x.live = true →
      (¬ header → exec (.swapctx g a) s = s.trap (slotTrap s 0x01))
      ∧ (header → foreign → exec (.swapctx g a) s = s.trap ⟨0x06, 0, 0xFF, BitVec.ofNat 32 (2 ^ 24 * 7 + x.rank), 0⟩)
      ∧ (header → ¬ foreign → ¬ here → exec (.swapctx g a) s = s.trap (slotTrap s 0x01))
      ∧ (header → ¬ foreign → here → s.heldLines [loc / 128] = [] →
        ((s.ctx (8 * s.c.seq + slot)).live = true → ∃ t, exec (.swapctx g a) s = .next t
          ∧ (t.seqOf s.c.seq).status = 1 ∧ (∀ j, j ≠ s.c.seq → t.seqOf j = s.seqOf j) ∧ { t with seqs := s.seqs } = s)
        ∧ ((s.ctx (8 * s.c.seq + slot)).live = false → s.c.inFlight = false → s.c.mops = [] → s.answersDue s.cur = false →
          s.waitsOf s.cur = [] → s.wq = [] → s.host.cached = [] → s.host.wbOut = [] → Store.get none s.host.wbWait s.cur = none →
          ∃ t, exec (.swapctx g a) s = .next t ∧ t.cur = 8 * s.c.seq + slot
          ∧ t.c = { x.imageChecked with seq := s.c.seq, npc := x.pc, mark := true, fresh := true, snap := none }
          ∧ (t.seqOf s.c.seq).active = some slot ∧ (t.seqOf s.c.seq).status = 0 ∧ t.jumped = true
          ∧ Store.get Ctx.reset t.images s.nextRef = { (s.c.lastCycle s.staged).1.settle false with pc := s.c.npc })))

/-- R111, R379: `ttload` at supervisor level: the record's table takes effect at once where the domain has none, at the end of its
period otherwise; ERR 1, 2 and 3 refuse it and leave the table in effect. At rank level it is PRIV. -/
def TimetableLoaded : Prop :=
  ∀ (s : State) (g : Guard) (r : BitVec 6) (ps qs : List (Nat × Nat)) (loc : Nat), Acts s g →
    let k := s.sched.domSel.toNat
    let n := min 16 ((s.readPieces ps).headD 0).toNat
    let tab := ttOf (s.readPieces qs ++ List.replicate 64 0)
    let domIs (t : State) (f : Dom → Dom) : Prop := (t.domOf k) = f (s.domOf k) ∧ (∀ j, j ≠ k → t.domOf j = s.domOf j)
      ∧ { t with sched := { t.sched with doms := s.sched.doms } } = s
    s.rd.sBad r = false →
    (s.rd.sv = false → exec (.ttload g r) s = s.trap ⟨0x05, 0, 0xFF, BitVec.ofNat 32 (0x8000 + 256 * s.slot + 0x28), 0⟩)
    ∧ (s.rd.sv = true → (s.secure = true ∨ s.isDom k = false ∨ s.secureCluster k = false) →
      s.check s.c (s.rd.rs r) 0 16 .read false = .ok loc → s.pieces s.c .read (s.rd.rs r) 16 = .ok ps →
      s.pieces s.c .read (s.rd.rs r) (16 + 4 * n) = .ok qs → Readable s qs → ∃ t, exec (.ttload g r) s = .next t
      ∧ ((s.isDom k = false ∨ (s.domOf k).mode = false) → domIs t fun d => { d with ttErr := 3 })
      ∧ (s.isDom k = true → (s.domOf k).mode = true →
        (tab.2 = false → domIs t fun d => { d with ttErr := 2 })
        ∧ (tab.2 = true → (∀ i, tab.1.short = some i → domIs t fun d => { d with ttErr := 1, ttSlot := BitVec.ofNat 8 i })
          ∧ (tab.1.short = none → (s.domOf k).tt = none →
            domIs t fun d => { d with tt := some { tab.1 with start := s.time.toNat }, ttErr := 0, ttSlot := 0 })
          ∧ (∀ now, tab.1.short = none → (s.domOf k).tt = some now →
            domIs t fun d => { d with pending := some tab.1, ttErr := 0, ttSlot := BitVec.ofNat 8 (now.now s.time.toNat).2.1 }))))

/-- What `getc` reads of registers whose value a chapter gives in one field or a fixed layout (R260 and each register's rule). -/
def registerReads (s : State) : List (Nat × DWord) :=
  let c := s.rd
  [(0x000, c.fpctl.setWidth 64), (0x001, c.xv.setWidth 64), (0x002, c.chp.setWidth 64), (0x003, c.asticky.setWidth 64),
   (0x004, c.wcfg.setWidth 64), (0x005, c.ftsel.setWidth 64), (0x008, c.tvec), (0x009, c.tfp), (0x00A, c.tvecSv), (0x00B, c.tfpSv),
   (0x00C, c.tstat.setWidth 64), (0x00D, (s.mownOf c.core c.rank).setWidth 64), (0x102, s.time), (0x103, (s.seqOf c.seq).chkills),
   (0x105, s.pwr.limit.setWidth 64), (0x200, s.fab.node.setWidth 64), (0x201, s.fab.chanSel.setWidth 64),
   (0x203, 0), (0x205, s.fab.epmap.setWidth 64), (0x206, s.fab.timeout.setWidth 64), (0x207, s.fab.share.setWidth 64),
   (0x20A, s.fab.err), (0x302, (s.seqOf c.seq).status.setWidth 64), (0x400, s.sched.rankSel.setWidth 64),
   (0x402, s.sched.pace.setWidth 64), (0x403, s.sched.precopyStop.setWidth 64), (0x501, s.ptRootSv), (0x502, s.rmThresh.setWidth 64),
   (0x503, s.rmRadius.setWidth 64), (0x504, s.rmCount), (0x600, s.sched.domSel.setWidth 64), (0x603, s.sched.tbSel.setWidth 64),
   (0x606, s.sched.ageStep.setWidth 64), (0x700, s.prot.window.setWidth 64), (0x701, s.prot.log.setWidth 64), (0x702, 0),
   (0x704, s.prot.erraddr.setWidth 64), (0x705, s.prot.ce), (0x706, s.prot.rw)]

/-- Registers that a `putc` writes whole, with their widths. -/
def plainWidths : List (Nat × Nat) :=
  [(0x001, 9), (0x002, 4), (0x005, 6), (0x008, 64), (0x009, 64), (0x00A, 64), (0x00B, 64), (0x105, 16), (0x201, 8), (0x205, 52),
   (0x206, 32), (0x207, 8), (0x208, 1), (0x20A, 64), (0x400, 16), (0x402, 16), (0x403, 32), (0x500, 64), (0x501, 64), (0x502, 16),
   (0x503, 2), (0x600, 5), (0x603, 4), (0x606, 32), (0x700, 32), (0x701, 52), (0x704, 52)]

/-- Registers that a rank-level strand may read, WORLD_BLK (R48) among them, and those it may write (R381). -/
def rankReads (n : Nat) : Bool := (decide (n < 0x104) && n ≠ 0x00A && n ≠ 0x00B) || n = 0x300
def rankWrites (n : Nat) : Bool := rankReads n && n ≠ 0x00D && n ≠ 0x300


/-- R260, R289, R381: `getc` at a level that may read the register writes its value, zero-extended, to sD; the write-only registers
read zero; a non-secure supervisor reads zero of what a secure object holds, and a rank-level strand reads zero of WORLD_BLK (R48,
log 60). -/
def RegisterRead : Prop :=
  ∀ (s : State) (d : BitVec 6) (num : BitVec 14) (v : DWord),
    ((num.toNat, v) ∈ registerReads s → (s.rd.sv = true ∨ rankReads num.toNat = true) →
      ScalarResult (.getc d num) s d v)
    ∧ (listed num.toNat = true → (s.rd.sv = true ∨ rankReads num.toNat = true) → s.names num.toNat (s.regRead num.toNat) = none →
      ScalarResult (.getc d num) s d (s.regRead num.toNat))
    ∧ (listed num.toNat = true → s.rd.sv = true → s.names num.toNat (s.regRead num.toNat) ≠ none → ScalarResult (.getc d num) s d 0)
    ∧ (s.rd.sv = false → ScalarResult (.getc d 0x300) s d 0)

/-- R289: `putc` writes the low bits of sA to a register, where a later read finds them; scalars, predicates and memory stay. FPCTL
reads rounding mode 3 as 0, ASTICKY keeps FLG and EN alone, and FTENT is the rank's entry that FTSEL names. -/
def RegisterWrite : Prop :=
  ∀ (s : State) (num : BitVec 14) (a : BitVec 6) (w : Nat), let v := (s.rd.rs a).toNat
    let reads (t : State) (n x : Nat) : Prop := { t with old := none }.regRead n = BitVec.ofNat 64 x
    let kept (t : State) : Prop := t.c.s = s.c.s ∧ t.c.b = s.c.b ∧ t.c.p = s.c.p ∧ t.c.v = s.c.v ∧ t.mem = s.mem ∧ t.ver = s.ver
    ((num.toNat, w) ∈ plainWidths → (s.rd.sv = true ∨ rankWrites num.toNat = true) →
      s.names num.toNat (s.rd.rs a) = none → ∃ t, exec (.putc num a) s = .next t ∧ reads t num.toNat (v % 2 ^ w) ∧ kept t)
    ∧ (∃ t, exec (.putc 0x000 a) s = .next t ∧ reads t 0x000 (v % 16 / 8 * 8 + (if v % 4 = 3 then 0 else v % 4)) ∧ kept t)
    ∧ (∃ t, exec (.putc 0x003 a) s = .next t ∧ reads t 0x003 (v % 32 + v / 256 % 32 * 256) ∧ kept t)
    ∧ (∃ t, exec (.putc 0x006 a) s = .next t ∧ Store.get 0 (t.rank s.c.rank).fmt s.rd.ftsel.toNat = s.rd.rs a
      ∧ (∀ n, n ≠ s.rd.ftsel.toNat → Store.get 0 (t.rank s.c.rank).fmt n = Store.get 0 (s.rank s.c.rank).fmt n) ∧ kept t)

/-- R260, R289, R381, R403: a number that is not listed takes ILLEGAL with the slot's number; a register above the strand's level, and
a write of a read-only one, take PRIV with the register's number; a write that names a secure object from the non-secure world
takes WORLD with the object's class and number. -/
def RegisterRefused : Prop :=
  ∀ (s : State) (d a : BitVec 6) (num : BitVec 14),
    let priv : TrapInfo := ⟨0x05, 0, 0xFF, num.setWidth 32, 0⟩
    (listed num.toNat = false → exec (.getc d num) s = s.trap (slotTrap s 0x01)
      ∧ exec (.putc num a) s = s.trap (slotTrap s 0x01))
    ∧ (listed num.toNat = true → s.rd.sv = false → rankReads num.toNat = false → exec (.getc d num) s = s.trap priv)
    ∧ (listed num.toNat = true → s.rd.sv = false → rankWrites num.toNat = false → exec (.putc num a) s = s.trap priv)
    ∧ (readOnly num.toNat = true → exec (.putc num a) s = s.trap priv)
    ∧ (listed num.toNat = true → s.rd.sv = true → readOnly num.toNat = false → num ≠ 0x301 →
      ∀ cls i, s.names num.toNat (s.rd.rs a) = some (cls, i) →
      exec (.putc num a) s = s.trap ⟨0x06, 0, 0xFF, BitVec.ofNat 32 (2 ^ 24 * cls + i), 0⟩)

/-- R125: a write of WCFG with a WIN of 64 to 1,024 in steps of 64, not above the context's, sets WIN and WROT modulo WIN; entries
below WIN keep their words and those it drops read zero. Another WIN, or one above what the domain's table declares for the rank
(R118), is ILLEGAL. -/
def WindowResized : Prop :=
  ∀ (s : State) (val : DWord), let win := (val.toNat / 2 ^ 16) % 2 ^ 11
    let d := s.domOf (s.rank s.c.rank).dom.toNat
    let above : Prop := ∃ t, d.tt = some t ∧ s.c.resident = false ∧ t.cwin.getD (s.rank s.c.rank).slot 1024 < win
    (64 ≤ win → win ≤ 1024 → win % 64 = 0 → win ≤ s.c.win0 → ¬ above → ∃ t, exec (.wcfgWrite val) s = .next t
      ∧ t.c.win = win ∧ t.c.wrot = val.toNat % 2 ^ 10 % win
      ∧ (∀ e l, l < 16 → t.c.rv e l = if e < win then s.c.rv e l else 0)
      ∧ { t with c := { t.c with wcfg := s.c.wcfg, v := s.c.v, bad := s.c.bad, tw := s.c.tw } } = s)
    ∧ ((win < 64 ∨ 1024 < win ∨ win % 64 ≠ 0 ∨ s.c.win0 < win ∨ above) → exec (.wcfgWrite val) s = s.trap (slotTrap s 0x01))

/-- R138: a supervisor's write of MOWN takes effect once the earlier M and K operations of the core's other sequencers, the former
owner's among them, have completed, and holds its bundle until then. -/
def EngineGiven : Prop :=
  ∀ (s : State) (val : DWord), s.c.rank < 131072 →
    let busy : Prop := ∃ j, j < 4 ∧ j ≠ (val.extractLsb' 0 2).toNat ∧ ∃ o ∈ (s.sibling j).mops, o.ref < s.issueRef
    (¬ busy → ∃ t, exec (.mownWrite val) s = .next t
      ∧ (∀ core rank, rank < 131072 →
        t.mownOf core rank = if core = s.c.core ∧ rank = s.c.rank then val.extractLsb' 0 3 else s.mownOf core rank)
      ∧ { t with mown := s.mown } = s)
    ∧ (busy → exec (.mownWrite val) s = Held s)

/-- The lines that a list of pieces touches, each once. -/
def touched (ps : List (Nat × List Byte)) : List Nat := (ps.flatMap fun p => linesOf p.1 p.2.length).eraseDups

/-- The byte at j once the pieces are written over `old`, in their order. -/
def written (ps : List (Nat × List Byte)) (old : Byte) (j : Nat) : Byte :=
  ps.foldl (fun b p => if p.1 ≤ j ∧ j < p.1 + p.2.length then p.2.getD (j - p.1) 0 else b) old

/-- A store's pieces have been written: every byte of memory is theirs or, outside them, as the open reductions of their lines left
it; each touched line of device memory has one more version; touched lines of cluster stores are full; every register stays. -/
def Stored (s : State) (ps : List (Nat × List Byte)) (t : State) : Prop :=
  let f := s.flush (touched ps)
  (∀ j, t.byte j = written ps (f.byte j) j)
  ∧ (∀ l, t.version l = f.version l + (if l ∈ touched ps ∧ isDev (128 * l) = true then 1 else 0))
  ∧ (∀ l, isCs (128 * l) = true → l ∈ touched ps → t.isFull l = true)
  ∧ t.c.mark = true ∧ { t.c with mark := s.c.mark } = s.c ∧ t.ctxs = s.ctxs ∧ t.ranks = s.ranks ∧ t.seqs = s.seqs

/-- Nothing holds up a write of these lines: the host holds none, no earlier access of the strand waits before it. -/
def Clear (s : State) (lines : List Nat) : Prop := s.heldLines lines = [] ∧ s.behind s.feq s.cur lines = false

/-- A store's instruction performs: its pieces are written. -/
def Stores (i : Instr) (s : State) (ps : List (Nat × List Byte)) : Prop := ∃ t, exec i s = .next t ∧ Stored s ps t

/-- A load has entered its queue, the data still to come: one entry more, no other register changed, no byte of memory. Its requests
depart; what the caches, the TLBs and the calendar hold may change. -/
def Loads (i : Instr) (s : State) (q : BitVec 2) (dist : Nat) (l : Load) : Prop :=
  ∃ t, exec i s = .next t
    ∧ (∀ k, t.c.queue k = if k = q then s.c.queue q ++ [⟨s.nextRef, List.replicate 16 0, 0, 0, [], max dist 1⟩] else s.c.queue k)
    ∧ (∀ id, Store.get none t.loads id = if id = s.nextRef then some l else Store.get none s.loads id)
    ∧ .loadLanding s.nextRef ∈ t.agenda ∧ t.nextRef = s.nextRef + 1
    ∧ (let far := l.lines.eraseDups.filter fun x => !isCs (128 * x); far ≠ [] → .requestDeparture s.c.rank ⟨far, false⟩ ∈ t.agenda)
    ∧ { t.c with q := s.c.q } = s.c
    ∧ { t with c := s.c, loads := s.loads, agenda := s.agenda, tlb1 := s.tlb1, tlb2 := s.tlb2, nextRef := s.nextRef
               calendar := s.calendar, slices := s.slices, dies := s.dies, host := s.host, out := s.out } = s

/-- The location of each lane's word in a list of lanes with theirs. -/
def laneLocs (ls : List (Nat × Nat)) : List (Option Nat) := (List.range 16).map fun l => (ls.find? fun e => e.1 = l).map (·.2)

/-- The little-endian bytes of n-byte numbers. -/
def le (n x : Nat) : List Byte := (List.range n).map fun i => BitVec.ofNat 8 (x / 2 ^ (8 * i))

/-- An answer of memory is due to the strand: one access more in flight, nothing else but memory changed. -/
def Answers (s t : State) (p : Pending) : Prop :=
  Store.get none t.pend s.nextRef = some p ∧ .memoryAnswer s.nextRef ∈ t.agenda
    ∧ { t.c with mark := s.c.mark, w := s.c.w } = s.c ∧ t.ctxs = s.ctxs ∧ t.ranks = s.ranks



/-- R89 to R91: a translation that neither TLB holds is a walk: from the root, whose bits [15:0] are ignored, by the VA bits of each
level, an entry of 8 bytes a level, as an access finds them; it fails, with the level, on V 0, on a reserved field that is not
zero, on a leaf at level 0 or none at level 3, and on a leaf that is not aligned to its size or whose page is not backed; else the leaf
maps 1 GiB, 2 MiB or 64 KiB with its rights, under the tag of the context. A first-level hit comes before one of the second level. -/
def PageWalks : Prop :=
  ∀ (s : State) (c : Ctx) (va : Nat), va < 2 ^ 52 →
    let tag := if c.sv then 4 else 8 * (s.rank c.rank).dom.toNat + (s.rank c.rank).slot
    let hit (e : TlbEntry) : Bool := e.tag = tag && decide (e.va ≤ va ∧ va < e.va + e.size)
    let first := (Store.get [] s.tlb1 c.core).find? hit
    let second := (Store.get [] s.tlb2 c.cluster).find? hit
    let root := (if c.sv then s.ptRootSv else (s.rank c.rank).ptRoot).toNat % 2 ^ 52 / 2 ^ 16 * 2 ^ 16
    let entry (table i : Nat) : DWord := BitVec.ofNat 64 (s.numNow (table + 8 * i) 8)
    let addr (e : DWord) : Nat := e.toNat / 2 ^ 12 % 2 ^ 40 * 2 ^ 12
    let bad (e : DWord) : Prop := e.getLsbD 0 = false ∨ e.toNat / 2 ^ 52 ≠ 0 ∨ e.toNat / 2 ^ 6 % 2 ^ 6 ≠ 0
    let leaf (e : DWord) : Prop := e.getLsbD 1 = true
    let backed (pa n : Nat) : Prop := pa + n ≤ 2 ^ 39 ∨ (2 ^ 40 ≤ pa ∧ pa + n ≤ 2 ^ 40 + 2 ^ 30 * min 3072 s.pwr.tierGib)
      ∨ (2 ^ 51 ≤ pa ∧ pa + n ≤ 2 ^ 52)
    let fails (lvl : BitVec 8) : Prop := s.translate c va = .error lvl
    let maps (lvl : BitVec 8) (n : Nat) (e : DWord) : Prop := (addr e % n ≠ 0 ∨ ¬ backed (addr e) n → fails lvl)
      ∧ (addr e % n = 0 → backed (addr e) n → s.translate c va = .ok ⟨tag, va / n * n, n, addr e, e.extractLsb' 2 4⟩)
    let e0 := entry root (va / 2 ^ 39)
    let e1 := entry (addr e0) (va / 2 ^ 30 % 2 ^ 9)
    let e2 := entry (addr e1) (va / 2 ^ 21 % 2 ^ 9)
    let e3 := entry (addr e2) (va / 2 ^ 16 % 2 ^ 5)
    (∀ e, first = some e → s.translate c va = .ok e)
    ∧ (∀ e, first = none → second = some e → s.translate c va = .ok e)
    ∧ (first = none → second = none →
      (bad e0 ∨ leaf e0 → fails 0)
      ∧ (¬ bad e0 → ¬ leaf e0 → (bad e1 → fails 1) ∧ (¬ bad e1 → leaf e1 → maps 1 (2 ^ 30) e1)
        ∧ (¬ bad e1 → ¬ leaf e1 → (bad e2 → fails 2) ∧ (¬ bad e2 → leaf e2 → maps 2 (2 ^ 21) e2)
          ∧ (¬ bad e2 → ¬ leaf e2 → (bad e3 ∨ ¬ leaf e3 → fails 3) ∧ (¬ bad e3 → leaf e3 → maps 3 (2 ^ 16) e3)))))


/-- R94, R128, R291, R403: the checks of an access in their order: alignment, an address beyond 52 bits, the aperture's bounds, a
fetch or a version instruction in it, and, outside it, a walk that fails, a missing right, a region of the other world, a version instruction to a host line. -/
def AddressChecks : Prop :=
  ∀ (s : State) (c : Ctx) (ea : DWord) (lane align : Nat) (a : Acc) (ver : Bool),
    let va := ea.toNat
    let r := s.rank c.rank
    let l := va / 2 ^ 24 % 32
    let out : Prop := (l ≠ 31 ∧ r.clusters ≤ l) ∨ r.csMib * 2 ^ 20 ≤ va % 2 ^ 24
    let info (x : Word) : Word := BitVec.ofNat 32 lane ||| x
    let fault (cause : BitVec 6) (x : Word) : Prop := s.check c ea lane align a ver = .error ⟨cause, 0, BitVec.ofNat 8 lane, info x, ea⟩
    (va % align ≠ 0 → fault 0x08 0)
    ∧ (va % align = 0 → 2 ^ 52 ≤ va → fault 0x09 0xFF00)
    ∧ (va % align = 0 → va < 2 ^ 52 → inAperture va = true →
      (out → fault 0x09 0xFF00)
      ∧ (¬ out → a = .fetch → fault 0x0A 0x400)
      ∧ (¬ out → a ≠ .fetch → ver = true → fault 0x0B 0)
      ∧ (¬ out → a ≠ .fetch → ver = false → s.check c ea lane align a ver
          = .ok (2 ^ 52 + 2 ^ 24 * (if l = 31 then c.cluster else r.place l) + r.csBase + va % 2 ^ 24)))
    ∧ (va % align = 0 → va < 2 ^ 52 → inAperture va = false →
      (∀ lvl, s.translate c va = .error lvl → fault 0x09 (lvl.setWidth 32 <<< 8))
      ∧ (∀ e, s.translate c va = .ok e → missing e.perm c.sv a ≠ 0 → fault 0x0A (missing e.perm c.sv a))
      ∧ (∀ e, s.translate c va = .ok e → missing e.perm c.sv a = 0 → let pa := e.pa + (va - e.va)
          (s.worldOk (s.secureCluster c.cluster) pa a.isWrite = false →
            s.check c ea lane align a ver = .error ⟨0x06, 0, BitVec.ofNat 8 lane, 0x5000000 ||| BitVec.ofNat 32 (regionOf pa), ea⟩)
          ∧ (s.worldOk (s.secureCluster c.cluster) pa a.isWrite = true → ver = true → isHost pa = true → fault 0x0B 0)
          ∧ (s.worldOk (s.secureCluster c.cluster) pa a.isWrite = true → (ver = false ∨ isHost pa = false) →
            s.check c ea lane align a ver = .ok pa)))

/-- R292, R293, R296 to R299, R301: a load whose addresses check and whose queue has room takes an entry with its landing distance
(at least 1); a disabled lane makes no access, nor a lane of `pf` that would fault, nor a lane of `vldw` outside its plane. -/
def LoadsEnterQueue : Prop :=
  ∀ (s : State) (a : Addr) (q : BitVec 2) (land : BitVec 6) (gl : BitVec 4) (size : BitVec 2) (signed : Bool) (m : LaneSel)
      (w : BitVec 3) (base : BitVec 6) (ix : Opnd) (g : GIndex) (xs : List Word) (bad : List (BitVec 4)) (ls : List (Nat × Nat))
      (loc : Nat),
    let lanes := (List.range 16).filter fun l => (s.rd.rp m.pred).getLsbD l != m.inv
    let at4 := lanes.map fun l => (l, s.ea a + BitVec.ofNat 64 (4 * l))
    let blank : Load := ⟨s.cur, q, List.replicate 16 none, none, false, none, none⟩
    s.fullQueue q = false → s.rd.sBad a.base = false → s.rd.sBad base = false →
    (s.check s.c (s.ea a) 0 (2 ^ size.toNat) .read false = .ok loc →
      Loads (.ld a q land size signed) s q land.toNat { blank with scalar := some (loc, 2 ^ size.toNat, signed) })
    ∧ (s.locate 4 .read false at4 = .ok ls → Loads (.vld a q land m) s q land.toNat { blank with lanes := laneLocs ls })
    ∧ (s.locate 4 .read false (at4.filter fun e => (s.check s.c e.2 e.1 4 .read false).isOk) = .ok ls →
      Loads (.pf a q land m) s q land.toNat { blank with lanes := laneLocs ls, pf := true })
    ∧ (let sz := s.rd.rs (a.base + 1)
       let x0 : Int := ((s.rd.rs (a.base + 2)).extractLsb' 0 32).toInt
       let y0 : Int := ((s.rd.rs (a.base + 2)).extractLsb' 32 32).toInt
       let pitch : Int := (sz.toNat / 2 ^ 48 : Nat)
       let inside := lanes.filter fun (l : Nat) => decide (0 ≤ x0 + (l : Int) ∧ x0 + (l : Int) < (sz.toNat / 2 ^ 32 % 2 ^ 16 : Nat) ∧ 0 ≤ y0
          ∧ y0 < (sz.toNat / 2 ^ 16 % 2 ^ 16 : Nat))
       sz.toNat % 2 ^ 16 = 0 → s.rd.sBad (a.base + 1) = false → s.rd.sBad (a.base + 2) = false →
       s.locate 4 .read false (inside.map fun (l : Nat) => (l, s.ea a + BitVec.ofInt 64 (4 * (y0 * pitch + (x0 + (l : Int)))))) = .ok ls →
       Loads (.vldw a q land m) s q land.toNat { blank with lanes := laneLocs ls })
    ∧ (s.rd.source 9 ix = .ok xs bad → (∀ x ∈ bad, x = 0) →
      s.locate 4 .read false ((List.range 16).map fun l => (l, s.rd.rs base + (gatherIndex g (xs.getD l 0) <<< g.scale.toNat))) = .ok ls →
      Loads (.vgth base ix q gl g) s q gl.toNat { blank with lanes := laneLocs ls })
    ∧ (s.check s.c (s.ea a) 0 64 .read true = .ok loc → Loads (.ldv a q land w) s q land.toNat
        { blank with lanes := (List.range 16).map (fun i => some (loc + 4 * i)), watch := some (w, lineOf loc) })
    ∧ (inAperture (s.ea a).toNat = true → s.check s.c (s.ea a) 0 64 .read false = .ok loc →
      Loads (.ldfe a q land m) s q land.toNat
        { blank with lanes := laneLocs (lanes.map fun l => (l, loc + 4 * l)), ldfe := some (lineOf loc) })

/-- R134, R135, R293: the data of a load lands in its entry: a scalar's value, sign- or zero-extended to 64 bits, its halves in the even
and the odd lanes; a vector's words, zero where a lane made no access. `ldv` sets its watch slot; `ldfe` empties its line, and the
fill that it takes may land waiting plain loads as well (R133). A load that must wait joins those that wait (R132). (A load that a
launch waits for lets its LAND rise as well, R271.) -/
def LoadLands : Prop :=
  ∀ (s : State) (id : Nat) (l : Load), Store.get none s.loads id = some l →
    0 ∉ s.feq → (∀ j, j = id ∨ j ∈ s.feq → ∀ e ∈ s.ranks, ∀ x ∈ e.2.lives, j ∉ x.waits) →
    let lines := match s.inFlightLines id with | some (_, ls) => ls | none => []
    let f := s.flush lines
    let marked (loc : Nat) : Bool := f.marked loc
    let entry (ws : List Word) (poison : BitVec 16) (t : State) : Prop :=
      (∀ (k : BitVec 2) (n : Nat) (x : QEntry), ((s.ctx l.key).queue k)[n]? = some x →
        (x.ref = id → ((t.ctx l.key).queue k)[n]? = some { x with ref := 0, words := ws, poison })
        ∧ (x.ref ≠ id → (l.ldfe = none ∨ x.ref ∉ s.feq) → ((t.ctx l.key).queue k)[n]? = some x))
      ∧ (l.ldfe = none → ∀ j, t.byte j = f.byte j) ∧ Store.get none t.loads id = none
    (s.ready id = false → ∃ t, exec (.loadLanding id) s = .next t ∧ t.feq = (if id ∈ s.feq then s.feq else s.feq ++ [id])
      ∧ { t with feq := s.feq, fenced := s.fenced } = s
      ∧ (∀ x, x ∈ t.fenced ↔ x ∈ s.fenced ∨ (l.ldfe.isSome = true ∧ x = (id, l.key))))
    ∧ (s.ready id = true → ∃ t, exec (.loadLanding id) s = .next t
      ∧ (∀ loc n signed, l.scalar = some (loc, n, signed) → n ∈ [1, 2, 4, 8] →
        let x := f.num loc n
        let v : DWord := if signed = true ∧ 2 ^ (8 * n - 1) ≤ x then BitVec.ofInt 64 ((x : Int) - 2 ^ (8 * n)) else BitVec.ofNat 64 x
        entry ((List.range 16).map fun i => if i % 2 = 0 then v.setWidth 32 else (v >>> 32).setWidth 32)
          (if marked loc then 0xFFFF else 0) t)
      ∧ (l.scalar = none → (∀ i loc, l.lanes.getD i none = some loc → marked loc = false) →
        entry ((List.range 16).map fun i => match l.lanes.getD i none with
          | some loc => BitVec.ofNat 32 (f.num loc 4)
          | none => 0) 0 t)
      ∧ (∀ w line, l.ldfe = none → l.watch = some (w, line) →
        Store.get none (t.ctx l.key).w w.toNat = some ⟨line, f.version line⟩)
      ∧ (∀ line, l.ldfe = some line → t.isFull line = false))

/-- R189, R292, R295 to R299, R309: the stores that make one event of each line: scalar, vector, counted and scatter stores and the
paired store write the bytes of their enabled lanes at the addresses computed here, and nothing else. -/
def StoresWrite : Prop :=
  ∀ (s : State) (a : Addr) (d : BitVec 6) (size : BitVec 2) (o : Opnd) (m : LaneSel) (base : BitVec 6) (ix : BitVec 8) (g : GIndex)
      (xs ws : List Word) (bx bw : List (BitVec 4)) (ls : List (Nat × Nat)) (loc : Nat),
    let lanes := (List.range 16).filter fun l => (s.rd.rp m.pred).getLsbD l != m.inv
    let at4 := lanes.map fun l => (l, s.ea a + BitVec.ofNat 64 (4 * l))
    let words := ls.map fun e => (e.2, le 4 (ws.getD e.1 0).toNat)
    s.rd.sBad a.base = false →
    (s.rd.dataBad d (2 ^ size.toNat) = false → s.check s.c (s.ea a) 0 (2 ^ size.toNat) .write false = .ok loc → Clear s [lineOf loc] →
      Stores (.st a d size) s [(loc, le (2 ^ size.toNat) (s.rd.rs d).toNat)])
    ∧ (s.rd.source 9 o = .ok ws bw → (∀ l ∈ lanes, bw.getD l 0 = 0) → s.locate 4 .write false at4 = .ok ls → ls ≠ [] →
      Clear s (linesOfLocs (ls.map (·.2))) → Stores (.vst a o m) s words)
    ∧ (s.rd.source 9 o = .ok ws bw → (∀ l ∈ lanes, bw.getD l 0 = 0) → s.locate 4 .write false at4 = .ok ls → ls = [] →
      ∃ t, exec (.vst a o m) s = .next t ∧ t.mem = s.mem ∧ t.ver = s.ver)
    ∧ (s.rd.sBad base = false → s.rd.source 9 (.v ix) = .ok xs bx → (∀ x ∈ bx, x = 0) →
      s.rd.source 9 (.v (ix + 1)) = .ok ws bw → (∀ l < 16, bw.getD l 0 = 0) →
      s.locate 4 .write false ((List.range 16).map fun l => (l, s.rd.rs base + (gatherIndex g (xs.getD l 0) <<< g.scale.toNat))) = .ok ls →
      Clear s (linesOfLocs (ls.map (·.2))) → Stores (.vsct base ix g) s words)

/-- R297, R311: `vst.cnt` stores as `vst` does, and an arrival of 4 bytes for each enabled lane at its perch line is due, for the PARTY
in s[BASE + 1][63:48]; other bits of that scalar set take ILLEGAL. -/
def CountedStore : Prop :=
  ∀ (s : State) (a : Addr) (o : Opnd) (line : BitVec 6) (m : LaneSel) (ws : List Word) (bw : List (BitVec 4)) (ls : List (Nat × Nat)),
    let lanes := (List.range 16).filter fun l => (s.rd.rp m.pred).getLsbD l != m.inv
    let p := s.rd.rs (a.base + 1)
    s.rd.sBad a.base = false → s.rd.sBad (a.base + 1) = false → s.rd.source 9 o = .ok ws bw → (∀ l ∈ lanes, bw.getD l 0 = 0) →
    (p.toNat % 2 ^ 48 ≠ 0 → exec (.vstCnt a o line m) s = s.trap (slotTrap s 0x01))
    ∧ (p.toNat % 2 ^ 48 = 0 → s.locate 4 .write false (lanes.map fun l => (l, s.ea a + BitVec.ofNat 64 (4 * l))) = .ok ls → ls ≠ [] →
      Clear s (linesOfLocs (ls.map (·.2))) → ∃ t, exec (.vstCnt a o line m) s = .next t
      ∧ Stored s (ls.map fun e => (e.2, le 4 (ws.getD e.1 0).toNat)) t
      ∧ .countedDecrement s.c.rank line (p.extractLsb' 48 16) (4 * ls.length) ∈ t.agenda)

/-- R309: `pstore` writes the 8 × 8 block of entries k to k + 3 plain at P and transposed at T, element (r, c) from entry k + r/2, lane
8 × (r mod 2) + c, in one event of each line; entry k + 3 at or beyond WIN is ILLEGAL. -/
def PairedStore : Prop :=
  ∀ (s : State) (a : Addr) (d : BitVec 8) (fmt : BitVec 2) (lp lt : Nat),
    let w := pairWidth fmt
    let ent (r : Nat) : Nat := (d.toNat + r / 2 + s.rd.wrot) % s.rd.win
    let el (r c : Nat) : List Byte := le w (s.rd.rv (ent r) (8 * (r % 2) + c)).toNat
    s.rd.sBad a.base = false → s.rd.sBad (a.base + 1) = false →
    (s.rd.win ≤ d.toNat + 3 → exec (.pstore a d fmt) s = s.trap (slotTrap s 0x01))
    ∧ (d.toNat + 3 < s.rd.win →
      (∀ r c, r < 8 → c < 8 → s.rd.rvBad (ent r) (8 * (r % 2) + c) = 0) →
      s.check s.c (s.ea a) 0 (64 * w) .write true = .ok lp → s.check s.c (s.rd.rs (a.base + 1)) 0 (64 * w) .write true = .ok lt →
      Clear s (linesOf lp (64 * w) ++ linesOf lt (64 * w)).eraseDups →
      Stores (.pstore a d fmt) s
        [(lp, (List.range 8).flatMap fun r => (List.range 8).flatMap fun c => el r c),
         (lt, (List.range 8).flatMap fun c => (List.range 8).flatMap fun r => el r c)])

/-- R131, R132, R196, R300: `stfe` into an empty line, no access of its strand waiting, writes its enabled lanes and fills the line;
into a full one, or while an access of its strand waits, it waits, nothing written, and its sequencer goes on. `clrfe` empties the
line of EA, whatever its bit, or waits behind an access that it follows. Outside the aperture both take ALIGN. A waiting access
performs when its wait is over and the host holds no line that it writes. -/
def FullEmpty : Prop :=
  ∀ (s : State) (a : Addr) (o : Opnd) (m : LaneSel) (ws : List Word) (bw : List (BitVec 4)) (loc : Nat),
    let lanes := (List.range 16).filter fun l => (s.rd.rp m.pred).getLsbD l != m.inv
    let pieces := lanes.map fun l => (loc + 4 * l, le 4 (ws.getD l 0).toNat)
    let queued (t : State) (p : Pending) : Prop := Store.get none t.pend s.nextRef = some p
      ∧ t.feq = (if s.nextRef ∈ s.feq then s.feq else s.feq ++ [s.nextRef]) ∧ t.mem = s.mem ∧ t.full = s.full ∧ t.stall = s.stall
      ∧ { t.c with mark := s.c.mark } = s.c
    s.rd.sBad a.base = false →
    (inAperture (s.ea a).toNat = true → s.check s.c (s.ea a) 0 64 .write false = .ok loc → s.rd.source 9 o = .ok ws bw →
      (∀ l ∈ lanes, bw.getD l 0 = 0) → isCs (128 * lineOf loc) = true → Clear s [lineOf loc] →
      (s.isFull (lineOf loc) = false → s.waitingFor s.cur = false → ∃ t, exec (.stfe a o m) s = .next t
        ∧ (∀ j, t.byte j = written pieces ((s.flush (touched pieces)).byte j) j) ∧ t.isFull (lineOf loc) = true
        ∧ { t.c with mark := s.c.mark } = s.c)
      ∧ (s.isFull (lineOf loc) = true ∨ s.waitingFor s.cur = true → ∃ t, exec (.stfe a o m) s = .next t
        ∧ queued t (.store s.cur [lineOf loc] true pieces none)))
    ∧ (inAperture (s.ea a &&& ~~~0x7F).toNat = true → s.check s.c (s.ea a &&& ~~~0x7F) 0 1 .write false = .ok loc →
      s.behind s.feq s.cur [lineOf loc] = false → ∃ t, exec (.clrfe a) s = .next t ∧ (∀ l, t.isFull l = if l = lineOf loc then false else s.isFull l)
        ∧ { t with full := s.full, c := { t.c with mark := s.c.mark } } = s)
    ∧ (inAperture (s.ea a &&& ~~~0x7F).toNat = true → s.check s.c (s.ea a &&& ~~~0x7F) 0 1 .write false = .ok loc →
      s.behind s.feq s.cur [lineOf loc] = true → ∃ t, exec (.clrfe a) s = .next t ∧ queued t (.clrfe s.cur (lineOf loc)))
    ∧ (inAperture (s.ea a &&& ~~~0x7F).toNat = false → exec (.clrfe a) s = s.trap ⟨0x08, 0, 0, 0, s.ea a⟩)
    ∧ (inAperture (s.ea a).toNat = false → s.rd.source 9 o = .ok ws bw → (∀ l ∈ lanes, bw.getD l 0 = 0) →
      exec (.stfe a o m) s = s.trap ⟨0x08, 0, 0, 0, s.ea a⟩)
    ∧ (∀ id, id ∈ s.feq → s.ready id = true → (∀ c ∈ s.copies, c.id ≠ id) → s.heldLines (s.writeLines id) = [] →
      exec (.clusterStoreAccess id) s = .next ((s.perform id).unpark id))

/-- R302, R303: `vset.chk` answers whether every watch slot of its mask is valid with its line's version unchanged; `vset.st` writes its
64 bytes, and advances the slot that watches the line, only where they all are; `casv` writes where the version equals all of sV,
and answers the version it found. A version that has moved leaves memory as it was. -/
def VersionedWrites : Prop :=
  ∀ (s : State) (a : Addr) (b : BitVec 4) (v base : BitVec 6) (o : Opnd) (mask : BitVec 8) (ws : List Word) (bw : List (BitVec 4))
    (loc : Nat),
    let watch (k : Nat) : Option Watch := Store.get none s.rd.w k
    let holds (k : Nat) : Prop := ∃ x, watch k = some x ∧ s.version x.line = x.ver
    let all : Prop := ∀ k < 8, mask.getLsbD k = true → holds k
    let mine (k : Nat) : Prop := mask.getLsbD k = true ∧ ∃ x, watch k = some x ∧ x.line = lineOf loc
    let bytes := ws.flatMap fun w => le 4 w.toNat
    s.wq = [] → s.feq = [] →
    (∃ t ok, exec (.vsetChk b mask) s = .next t ∧ (ok = true ↔ all) ∧ Answers s t (.answerB s.cur b.toNat ok) ∧ t.mem = s.mem)
    ∧ (s.rd.source 9 o = .ok ws bw → (∀ l < 16, bw.getD l 0 = 0) → s.heldLines [lineOf loc] = [] →
      (s.rd.sBad base = false → s.check s.c (s.rd.rs base) 0 64 .write true = .ok loc →
        ((∀ k < 8, ¬ mine k) → ∃ t, exec (.vsetSt base b o mask) s = .next t
          ∧ Answers s t (.answerB s.cur b.toNat false) ∧ t.mem = s.mem ∧ t.c.w = s.c.w)
        ∧ (¬ all → ∃ t, exec (.vsetSt base b o mask) s = .next t
          ∧ Answers s t (.answerB s.cur b.toNat false) ∧ t.mem = s.mem ∧ t.c.w = s.c.w)
        ∧ (∀ k < 8, mine k → (∀ j < k, ¬ mine j) → all → ∃ t, exec (.vsetSt base b o mask) s = .next t
          ∧ Answers s t (.answerB s.cur b.toNat true) ∧ (∀ j, t.byte j = written [(loc, bytes)] (s.byte j) j)
          ∧ Store.get none t.c.w k = some ⟨lineOf loc, s.version (lineOf loc) + 1⟩
          ∧ (∀ j, j ≠ k → Store.get none t.c.w j = Store.get none s.c.w j)))
      ∧ (s.rd.sBad a.base = false → s.check s.c (s.ea a) 0 64 .write true = .ok loc →
        let found := s.version (lineOf loc)
        (∃ t, exec (.casv a v o) s = .next t ∧ Answers s t (.answerS s.cur v.toNat (found.setWidth 64)) ∧ t.c.w = s.c.w
          ∧ (∀ j, t.byte j = if (s.rd.rs v).toNat = found.toNat then written [(loc, bytes)] (s.byte j) j else s.byte j))))

/-- R252, R304: an `amo` to a word its sequencer may read and write is sent to the word's home, with its operands; a marked word takes
POISON. -/
def AtomicIssues : Prop :=
  ∀ (s : State) (a : Addr) (op : AmoOp) (wide : Bool) (o : BitVec 6) (loc : Nat),
    let n := if wide then 8 else 4
    s.rd.sBad a.base = false → s.rd.dataBad o n = false → (op = .cas → s.rd.dataBad (o + 1) n = false) →
    s.check s.c (s.ea a) 0 n .rw false = .ok loc →
    (s.marked loc = true → exec (.amo a op wide o) s = s.trap ⟨0x0C, 0, 0, 1, 0⟩)
    ∧ (s.marked loc = false → ∃ t, exec (.amo a op wide o) s = .next t
      ∧ Answers s t (.amo s.cur op wide loc (s.rd.rs o) (s.rd.rs (o + 1)) o.toNat) ∧ t.mem = s.mem ∧ t.ver = s.ver)

/-- The new value of an atomic on x with operands y and z, by R304; none where a `.cas` fails. -/
def atomic {n : Nat} (op : AmoOp) (x y z : BitVec n) : Option (BitVec n) :=
  match op with
  | .add => some (BitVec.ofNat n (x.toNat + y.toNat))
  | .and => some (x &&& y)
  | .or => some (x ||| y)
  | .xor => some (x ^^^ y)
  | .min => some (if x.toInt ≤ y.toInt then x else y)
  | .max => some (if x.toInt ≤ y.toInt then y else x)
  | .minu => some (if x.toNat ≤ y.toNat then x else y)
  | .maxu => some (if x.toNat ≤ y.toNat then y else x)
  | .swap => some y
  | .cas => if x = y then some z else none

/-- The rest of the machine, memory and what is in flight apart. -/
def OnlyMemory (s t : State) : Prop :=
  { t with mem := s.mem, ver := s.ver, poison := s.poison, full := s.full, host := s.host, slices := s.slices, wq := s.wq
           dies := s.dies, agenda := s.agenda, out := s.out } = s

/-- No launch waits for an access of this number (R271). -/
def Unawaited (s : State) (id : Nat) : Prop := ∀ e ∈ s.ranks, ∀ x ∈ e.2.lives, id ∉ x.waits

/-- A drain with its write-backs has none left to wait for (R194). -/
def Drained (s : State) : Prop :=
  Store.get none s.flushAll.host.wbWait s.cur = some []
    ∨ (Store.get none s.flushAll.host.wbWait s.cur = none ∧ s.flushAll.host.cached.filter (·.2) = [] ∧ s.flushAll.host.wbOut = [])

/-- An access of the strand from before the running bundle waits (R194). -/
def Earlier (s : State) : Prop := ∃ id ∈ s.waitsOf s.cur, id < s.issueRef

/-- The first slot of the strand's cluster on a line's slice is now or has been (R82). -/
def SlotNow (s : State) (line : Nat) : Prop := s.slotAt s.c.cluster (sliceOf line) ≤ s.time.toNat


/-- R294, R304: the answer of an atomic that may perform writes the new value of R304 at the word, where there is one, and s[O] := the old
one, zero-extended, in the context that issued it; the answers of `casv` and of `vset` write their scalar and predicate, and a
`casv` or `vset.st` that waited compares and writes then. One whose line is still empty waits, as does one whose line the host
holds, behind a snoop (R41). -/
def MemoryAnswers : Prop :=
  ∀ (s : State) (id key : Nat) (op : AmoOp) (loc : Nat) (y z v : DWord) (r : BitVec 6) (b : BitVec 4) (ok : Bool), s.wq = [] →
    let setS (t : State) (x : DWord) : Prop := (∀ j, (t.ctx key).rs j = if j = r ∧ r ≠ 0 then x else (s.ctx key).rs j)
    let setB (t : State) (x : Bool) : Prop := (∀ j, (t.ctx key).rb j = if j = b ∧ b ≠ 0 then x else (s.ctx key).rb j)
    (s.ready id = false → exec (.memoryAnswer id) s = .next (s.park id))
    ∧ (s.ready id = true → s.heldLines (s.writeLines id) ≠ [] →
      exec (.memoryAnswer id) s = .next ((s.park id).snoop (s.writeLines id) []))
    ∧ (s.ready id = true → s.heldLines (s.writeLines id) = [] → Unawaited s id → Store.get none s.loads id = none →
      (∀ data, Store.get none s.pend id = some (.casv key r.toNat loc v data) →
        ∃ t, exec (.memoryAnswer id) s = .next t ∧ setS t ((s.version (lineOf loc)).setWidth 64) ∧ ∀ j, t.byte j =
          if v.toNat = (s.version (lineOf loc)).toNat then written [(loc, data)] (s.byte j) j else s.byte j)
      ∧ (∀ data slot want, Store.get none s.pend id = some (.vset key b.toNat loc data slot want) →
        ∃ t, exec (.memoryAnswer id) s = .next t ∧ setB t (decide (s.version (lineOf loc) = want)) ∧ ∀ j, t.byte j =
          if s.version (lineOf loc) = want then written [(loc, data)] (s.byte j) j else s.byte j)
      ∧ (Store.get none s.pend id = some (.amo key op true loc y z r.toNat) →
        let x := BitVec.ofNat 64 (s.num loc 8)
        ∃ t, exec (.memoryAnswer id) s = .next t ∧ setS t x ∧ ∀ j, t.byte j = match atomic op x y z with
          | some n => written [(loc, le 8 n.toNat)] (s.byte j) j
          | none => s.byte j)
      ∧ (Store.get none s.pend id = some (.amo key op false loc y z r.toNat) →
        let x := BitVec.ofNat 32 (s.num loc 4)
        ∃ t, exec (.memoryAnswer id) s = .next t ∧ setS t (x.setWidth 64)
          ∧ ∀ j, t.byte j = match atomic op x (y.setWidth 32) (z.setWidth 32) with
          | some n => written [(loc, le 4 n.toNat)] (s.byte j) j
          | none => s.byte j)
      ∧ (Store.get none s.pend id = some (.answerS key r.toNat v) →
        ∃ t, exec (.memoryAnswer id) s = .next t ∧ setS t v ∧ t.mem = s.mem)
      ∧ (Store.get none s.pend id = some (.answerB key b.toNat ok) →
        ∃ t, exec (.memoryAnswer id) s = .next t ∧ setB t ok ∧ t.mem = s.mem))

/-- R82, R305, R306: a reduction whose enabled elements stand in one line of one slice with no open entry opens one with its adds in
lane order, at the addresses of R306, each with the random bits of R161 for `.sr`, once its slot on the slice has come, and waits for
that slot otherwise; memory does not change yet. With no lane enabled it does nothing. In the aperture it takes ALIGN, at the lowest
enabled lane there. -/
def ReductionsOpenEntries : Prop :=
  ∀ (s : State) (a : Addr) (o : Opnd) (m : LaneSel) (ws : List Word) (bw : List (BitVec 4)) (ls : List (Nat × Nat)) (line : Nat),
    let lanes := (List.range 16).filter fun l => (s.rd.rp m.pred).getLsbD l != m.inv
    let at_ (n : Nat) := lanes.map fun l => (l, s.ea a + BitVec.ofNat 64 (n * l))
    let rnd (l : Nat) : BitVec 16 :=
      srBits (s.rank s.c.rank).key (s.ea a + BitVec.ofNat 64 (2 * l)) (s.rank s.c.rank).step
    let adds (sr : Bool) := ls.map fun e => (e.2, ws.getD e.1 0, if sr then rnd e.1 else 0)
    let opens (i : Instr) (kind : Nat) (sr : Bool) : Prop := let e : WqEntry := ⟨kind, [s.c.rank], [line], 0, 0, 0, adds sr, s.time.toNat⟩
      ∃ t, exec i s = .next t ∧ (SlotNow s line → t.wq = [e])
      ∧ (¬ SlotNow s line → t.wq = [] ∧ s.nextRef ∈ t.feq
        ∧ Store.get none t.pend s.nextRef = some (.red s.cur [e] (s.slotAt s.c.cluster (sliceOf line))))
      ∧ t.mem = s.mem ∧ t.ver = s.ver ∧ { t.c with mark := s.c.mark } = s.c ∧ t.ranks = s.ranks
    s.wq = [] → s.rd.sBad a.base = false → s.rd.source 9 o = .ok ws bw → (∀ l ∈ lanes, bw.getD l 0 = 0) →
    s.behind s.feq s.cur [line] = false →
    ((∀ l ∈ lanes, inAperture (s.ea a + BitVec.ofNat 64 (4 * l)).toNat = false) → s.locate 4 .write false (at_ 4) = .ok ls →
      linesOfLocs (ls.map (·.2)) = [line] → s.heldLines [line] = [] →
      opens (.redAddF32 a o m) 0 false ∧ opens (.redMaxF32 a o m) 5 false ∧ opens (.redAddS32 a o m) 6 false)
    ∧ ((∀ l ∈ lanes, inAperture (s.ea a + BitVec.ofNat 64 (2 * l)).toNat = false) → s.locate 2 .write false (at_ 2) = .ok ls →
      linesOfLocs (ls.map (·.2)) = [line] → s.heldLines [line] = [] →
      opens (.redAddBf16 a o m) 1 false ∧ opens (.redAddBf16Sr a o m) 2 true)
    ∧ (lanes = [] → ∀ i ∈ [Instr.redAddF32 a o m, .redMaxF32 a o m, .redAddS32 a o m, .redAddBf16 a o m, .redAddBf16Sr a o m],
      exec i s = .next s)
    ∧ (∀ l rest, lanes = l :: rest → inAperture (s.ea a + BitVec.ofNat 64 (4 * l)).toNat = true →
      exec (.redAddF32 a o m) s = s.trap ⟨0x08, 0, BitVec.ofNat 8 l, BitVec.ofNat 32 l, s.ea a + BitVec.ofNat 64 (4 * l)⟩)

/-- R306, R308: a reduction into a BDX superblock at EA - j, j = EA[3:0], opens an entry that covers every line of its 272 or 144 bytes,
lane l adding to element 16j + l, once its slot on the slice has come. -/
def BlockReductions : Prop :=
  ∀ (s : State) (a : Addr) (o : Opnd) (m : LaneSel) (ws : List Word) (bw : List (BitVec 4)) (loc : Nat),
    let lanes := (List.range 16).filter fun l => (s.rd.rp m.pred).getLsbD l != m.inv
    let j := (s.ea a).toNat % 16
    let base := s.ea a - BitVec.ofNat 64 j
    let opens (i : Instr) (kind n : Nat) : Prop := inAperture base.toNat = false → inAperture (base + BitVec.ofNat 64 (n - 1)).toNat = false →
      s.pieces s.c .write base n = .ok [(loc, n)] → Clear s (linesOf loc n) → ∃ t, exec i s = .next t
      ∧ t.wq = [⟨kind, [s.c.rank], linesOf loc n, loc, n, 0, lanes.map fun l => (16 * j + l, ws.getD l 0, 0), s.time.toNat⟩]
      ∧ t.mem = s.mem ∧ { t.c with mark := s.c.mark } = s.c ∧ t.ranks = s.ranks
    s.wq = [] → s.rd.sBad a.base = false → s.rd.source 9 o = .ok ws bw → lanes ≠ [] → (∀ l ∈ lanes, bw.getD l 0 = 0) →
    SlotNow s (lineOf loc) →
    opens (.redAddBdx8 a o m) 3 272 ∧ opens (.redAddBdx4 a o m) 4 144

/-- R305, R307: an entry is applied as one write event of its line: its adds in order of arrival, here two to one element; s32 sums are
modulo 2^32. A line without an open entry changes nothing. -/
def ReductionApplied : Prop :=
  ∀ (s : State) (line loc at_ : Nat) (x y : Word) (kind : Nat) (p q : BitVec 16) (ranks : List Nat),
    let e (adds : List (Nat × Word × BitVec 16)) : WqEntry := ⟨kind, ranks, [line], 0, 0, 0, adds, at_⟩
    let w (v : Nat) := redWord kind v
    let n := redSize kind
    let effect (t : State) (v : Nat) : Prop := (∀ j, t.byte j = written [(loc, le n v)] (s.byte j) j) ∧ t.wq = []
      ∧ (isDev (128 * line) = true → ∀ l, t.version l = s.version l + if l = line then 1 else 0) ∧ OnlyMemory s t
    kind ∈ [0, 1, 2, 5, 6] →
    (s.wq = [e [(loc, x, p)]] → ∃ t, exec (.writeQueueApply line) s = .next t ∧ effect t (w (s.num loc n) x p))
    ∧ (s.wq = [e [(loc, x, p), (loc, y, q)]] → ∃ t, exec (.writeQueueApply line) s = .next t
      ∧ effect t (w (w (s.num loc n) x p % 2 ^ (8 * n)) y q))
    ∧ (kind = 6 → ∀ v, w v x p = (v + x.toNat) % 2 ^ 32)
    ∧ ((∀ z ∈ s.wq, line ∉ z.lines) → exec (.writeQueueApply line) s = .next s)

/-- R193, R194, R310: a fence does not hold its strand: open reductions stand in memory, and what the strand accesses later waits behind
its waiting accesses. With nothing open or waiting it changes nothing. A `drain` holds its bundle while an access of the strand
from before it waits; at chip and job scope every dirty host line is then written back, and it ends once the host has completed each
write-back, those under way already among them. -/
def FencesAndDrains : Prop :=
  ∀ (s : State) (k : BitVec 3),
    let fenced (i : Instr) : Prop := ∃ t, exec i s = .next t ∧ t.wq = [] ∧ t.stall = s.stall ∧ t.c = s.c ∧ t.mem = s.flushAll.mem
      ∧ (∀ id ∈ s.feq, (∃ ls, s.inFlightLines id = some (s.cur, ls)) → (id, s.cur) ∈ t.fenced) ∧ (∀ x ∈ s.fenced, x ∈ t.fenced)
    fenced (.fenceRel k) ∧ fenced (.fenceAcq k) ∧ fenced (.fenceSc k)
    ∧ (s.wq = [] → s.feq = [] →
      exec (.fenceRel k) s = .next s ∧ exec (.fenceAcq k) s = .next s ∧ exec (.fenceSc k) s = .next s)
    ∧ (Earlier s → exec (.drain k) s = .next { s with stall := some .hold })
    ∧ (¬ Earlier s → (k.toNat < 4 ∨ Drained s) → ∃ t, exec (.drain k) s = .next t ∧ t.wq = [] ∧ t.c = s.c
      ∧ t.mem = s.flushAll.mem ∧ t.stall = s.stall ∧ (4 ≤ k.toNat → Store.get none t.host.wbWait s.cur = none))
    ∧ (¬ Earlier s → 4 ≤ k.toNat → Store.get none s.flushAll.host.wbWait s.cur = none →
      s.flushAll.host.cached.filter (·.2) ≠ [] ∨ s.flushAll.host.wbOut ≠ [] →
      ∃ t ls, exec (.drain k) s = .next t ∧ t.stall = some .hold ∧ t.wq = [] ∧ t.c = s.c ∧ t.mem = s.flushAll.mem
      ∧ Store.get none t.host.wbWait s.cur = some ls ∧ (∀ l ∈ s.flushAll.host.wbOut, l ∈ ls)
      ∧ ∀ l, Store.get false s.flushAll.host.cached l = true → Store.get false t.host.cached l = false
          ∧ .writeBack l (s.flushAll.bytes (128 * l) 128) ∈ t.out ∧ l ∈ t.host.wbOut ∧ l ∈ ls)
    ∧ (∀ l ls, ¬ Earlier s → 4 ≤ k.toNat → Store.get none s.flushAll.host.wbWait s.cur = some (l :: ls) →
      exec (.drain k) s = .next { s.flushAll with stall := some .hold })
    ∧ (∀ l data, l ∈ s.host.wbOut → let out := s.host.wbOut.erase l
      ∃ t, exec (.cxlCacheResponse l data) s = .next t ∧ t.host.wbOut = out
      ∧ (∀ key, Store.get none t.host.wbWait key
          = (Store.get none s.host.wbWait key).map fun ls => if l ∈ out then ls else ls.filter (· ≠ l))
      ∧ { t with host := { t.host with wbWait := s.host.wbWait, wbOut := s.host.wbOut } } = s)

/-- R205, R206, R311: `arrive` makes an arrival due at its perch line, of s[C][47:0] bytes for the PARTY in s[C][63:48]; behind a fence
that orders a waiting access before it, it waits with that access; `arrive.rel` is a fence and then the arrival. -/
def ArrivalsIssue : Prop :=
  ∀ (s : State) (c line : BitVec 6) (k : BitVec 3), let w := s.rd.rs c
    let due (t : State) (x : State) : Prop := t = { x with
      agenda := x.agenda ++ [.countedDecrement s.c.rank line (w.extractLsb' 48 16) (w.toNat % 2 ^ 48)], c := { s.c with mark := true } }
    let waits (i : Instr) (x : State) : Prop := ∃ t, exec i s = .next t ∧ t.agenda = x.agenda ∧ t.stall = s.stall
      ∧ Store.get none t.pend s.nextRef
          = some (.store s.cur [] false [] (some (s.c.rank, line, w.extractLsb' 48 16, w.toNat % 2 ^ 48)))
      ∧ s.nextRef ∈ t.feq ∧ { t.c with mark := s.c.mark } = s.c
    s.rd.sBad c = false →
    (s.behind s.feq s.cur [] = false → ∃ t, exec (.arrive c line k) s = .next t ∧ due t s)
    ∧ (s.behind s.feq s.cur [] = true → waits (.arrive c line k) s)
    ∧ (s.wq = [] → s.feq = [] → ∃ t, exec (.arriveRel c line k) s = .next t ∧ due t s)
    ∧ (s.waitingFor s.cur = true → waits (.arriveRel c line k) s.flushAll)
    ∧ exec (.arriveRel c line k) s = exec (.arrive c line k) s.fence

/-- R205, R224, R311: a counted write takes its bytes from the counter of its destination where the line is armed by its rank and the
count does not exceed it; otherwise it is an over-arrival, recorded for its own rank, and a counter it exceeds stops at zero. A
count of zero changes nothing. (A destination that has not raised its part keeps the line armed.) -/
def CountedWrites : Prop :=
  ∀ (s : State) (rank : Nat) (line : BitVec 6) (party : BitVec 16) (n : Nat) (p : Perch) (d : Dest),
    let i : Instr := .countedDecrement rank line party n
    let leftIs (t : State) (v : Nat) : Prop := ∃ p', t.perchOf line = some p' ∧ { p' with dests := p.dests, at_ := p.at_ } = p
      ∧ p'.dests = p.dests.map fun e => if e.party = party then { e with left := v } else e
    let ovr (t : State) : Prop := Store.get false (t.rank rank).overran line.toNat = true
    (n = 0 → exec i s = .next s)
    ∧ (0 < n → (s.perchOf line = none ∨ (s.perchOf line = some p ∧ p.rank ≠ rank)
        ∨ (s.perchOf line = some p ∧ ∀ e ∈ p.dests, e.party ≠ party)) →
      ∃ t, exec i s = .next t ∧ ovr t ∧ t.perch = s.perch ∧ (∀ j, j ≠ rank → t.rank j = s.rank j) ∧ { t with ranks := s.ranks } = s)
    ∧ (0 < n → s.perchOf line = some p → p.rank = rank → p.held = false → p.dests.find? (fun e => e.party = party) = some d →
      (∃ e ∈ p.dests, e.party ≠ party ∧ e.left ≠ 0) →
      (n ≤ d.left → ∃ t, exec i s = .next t ∧ leftIs t (d.left - n) ∧ { t with perch := s.perch } = s)
      ∧ (d.left < n → ∃ t, exec i s = .next t ∧ leftIs t 0 ∧ ovr t))

/-- R76, R82, R113: the departure of a rank's requests charges its calendar bucket 128 for each line and its energy bucket 8, in the
token buckets of its domain's slot; a RATE of all ones is never charged, nor is a rank in no domain. A slice holds the line that it
has served; no byte of memory, no rank and no context changes. -/
def RequestsCharged : Prop :=
  ∀ (s : State) (rank : Nat) (lines : List Nat) (write : Bool), ∃ t, exec (.requestDeparture rank ⟨lines, write⟩) s = .next t
    ∧ (∀ dom slot b, b < 4 → let r := s.rank rank
        let k := s.bucket dom slot b
        let n := if b = 1 then 128 * lines.length else 8 * lines.length
        t.bucket dom slot b =
          if r.placed = true ∧ dom = r.dom.toNat ∧ slot = r.slot ∧ k.rate ≠ 0xFFFFFFFF ∧ (b = 1 ∨ b = 2) then
            { k with level := max (-(k.depth.toNat : Int)) (k.level - n) }
          else k)
    ∧ (∀ l, lines = [l] → ∃ d, (l, d) ∈ Store.get [] t.slices (sliceSet l))
    ∧ { t with sched := s.sched, slices := s.slices, dies := s.dies, agenda := s.agenda, out := s.out, host := s.host } = s

/-- R134, R312: `lqadv` on a queue whose oldest entry is poppable has no effect of its own, its bundle popping the entry; on another
queue it takes ILLEGAL. -/
def QueueAdvance : Prop :=
  ∀ (s : State) (q : BitVec 2),
    (∀ e r, s.rd.queue q = e :: r → e.dist ≤ 1 → exec (.lqadv q) s = .next s)
    ∧ ((∀ e r, s.rd.queue q = e :: r → 1 < e.dist) → exec (.lqadv q) s = s.trap (slotTrap s 0x01))
    ∧ popsOf (.lqadv q) = BitVec.twoPow 4 q.toNat

/-- R380, R403: `tlbinv` at supervisor level, once its drain has ended, removes the entries it covers from both levels and no
other: those of a selector that cover a page's VA, those of a selector, or all. At rank level it is PRIV; a selector with a
reserved bit, a tag above 4 or a k0 of no domain is ILLEGAL; an EA at or above 2^52 is a failed walk (R291). -/
def TranslationsInvalidated : Prop :=
  ∀ (s : State) (a : Addr) (base : BitVec 6),
    let tagOf (w : DWord) : Nat := if w.toNat % 8 = 4 then 4 else 8 * (w.toNat / 256 % 32) + w.toNat % 8
    let good (w : DWord) : Prop := w &&& ~~~0x1F07 = 0 ∧ w.toNat % 8 ≤ 4 ∧ (w.toNat % 8 = 4 → w.toNat / 256 % 32 = 0)
      ∧ (w.toNat % 8 ≠ 4 → s.isDom (w.toNat / 256 % 32) = true)
    let open_ (w : DWord) : Prop := w.toNat % 8 = 4 ∨ s.secureCluster (w.toNat / 256 % 32) = false ∨ s.secure = true
    let keeps (t : State) (p : TlbEntry → Prop) : Prop :=
      (∀ k e, e ∈ Store.get [] t.tlb1 k ↔ e ∈ Store.get [] s.tlb1 k ∧ ¬ p e)
      ∧ (∀ k e, e ∈ Store.get [] t.tlb2 k ↔ e ∈ Store.get [] s.tlb2 k ∧ ¬ p e)
      ∧ t.c = s.c ∧ t.mem = s.flushAll.mem
    let va := (s.ea a).toNat / 65536 * 65536
    let sel := s.rd.rs (a.base + 1)
    let priv : TrapInfo := ⟨0x05, 0, 0xFF, BitVec.ofNat 32 (0x8000 + 256 * s.slot + 0x28), 0⟩
    Store.wf [] s.tlb1 = true → Store.wf [] s.tlb2 = true → s.rd.sBad a.base = false → s.rd.sBad base = false →
    (s.rd.sv = false → exec (.tlbinvPage a) s = s.trap priv ∧ exec (.tlbinvCtx base) s = s.trap priv ∧ exec .tlbinvAll s = s.trap priv)
    ∧ (s.rd.sv = true → good sel → open_ sel → 2 ^ 52 ≤ (s.ea a).toNat →
      exec (.tlbinvPage a) s = s.trap ⟨0x09, 0, 0, 0xFF00, s.ea a⟩)
    ∧ (s.rd.sv = true → ¬ Earlier s → Drained s →
      (good sel → open_ sel → (s.ea a).toNat < 2 ^ 52 → ∃ t, exec (.tlbinvPage a) s = .next t
        ∧ keeps t fun e => e.tag = tagOf sel ∧ e.va ≤ va ∧ va < e.va + e.size)
      ∧ (good (s.rd.rs base) → open_ (s.rd.rs base) → ∃ t, exec (.tlbinvCtx base) s = .next t
        ∧ keeps t fun e => e.tag = tagOf (s.rd.rs base))
      ∧ (∃ t, exec .tlbinvAll s = .next t ∧ keeps t fun _ => True)
      ∧ (¬ good (s.rd.rs base) → exec (.tlbinvCtx base) s = s.trap (slotTrap s 0x01)))

/-- A D slot passes its issue checks (R155, R254, R315, R316): its format resolves to one that its row admits, with the row's MINOR, RM and SAT; its register destination names entries; no operand of it is a port, or every port is as it needs. -/
def DIssues (s : State) (op : Nat) (d : DSlot) (r : Resolved) (es : List Nat) : Prop :=
  s.resolve d.fmt = some r ∧ s.rd.portCases d = .go ∧ (Decode.isPort d.dst = true → r.fmt ≤ 4)
  ∧ (if Decode.isReg (dTarget d) then s.rd.entries (dTarget d) = some es else es = [])
  ∧ ∃ row, Decode.dRow op d.minor = some row ∧ r.fmt ∈ row.fmts ∧ row.minor d.minor = true ∧ d.rm.toNat ∈ row.rms
      ∧ (d.sat = true → row.sat = true)

/-- No operand of the slot is a chain port. -/
def NoPorts (d : DSlot) : Prop := ∀ o ∈ [d.sa, d.sb, d.sc, d.dst], Decode.isPort o = false

/-- The lanes in which a slot acts (R314). -/
def laneOn (s : State) (d : DSlot) (l : Nat) : Bool := (s.rd.rp d.pred).getLsbD l != d.pn

/-- A slot has issued: one operation more in flight, which lands at cycle L in its destination, by lane; `n` words of the stream
are drawn; nothing else of the machine has changed. -/
def Issued (s t : State) (d : DSlot) (es : List Nat) (L n : Nat) (o : DOp) : Prop :=
  t.c.dops = s.c.dops ++ [o] ∧ o.ref = s.nextRef ∧ o.dst = d.dst ∧ o.dstEnts = es ∧ o.land = some L ∧ o.age = 0 ∧ o.landed = false
    ∧ t.c.stream = s.c.stream + BitVec.ofNat 64 n
    ∧ { t with c := { t.c with dops := s.c.dops, stream := s.c.stream }, nextRef := s.nextRef } = s

/-- A row whose results are fixed at issue: the word of each lane, how its residue differs from the word's (R330: moves keep it), and no
flag. -/
def Fixed (i : Instr) (s : State) (d : DSlot) (es : List Nat) (L n : Nat) (on : Nat → Bool) (out : Nat → Word × BitVec 4) : Prop :=
  ∃ t o, exec i s = .next t ∧ Issued s t d es L n o ∧ o.fixed = true
    ∧ ∀ l, l < 16 → (o.lane l).en = on l ∧ (o.lane l).flags = 0 ∧ (on l = true → o.out.getD l 0 = (out l).1 ∧ o.badOut.getD l 0 = (out l).2)

/-- Width and sign of an integer format (R140, R151), the value of a word in it, and a result fitted to it by SAT (R328). -/
def width (f : Nat) : Nat := if f = 8 ∨ f = 9 then 32 else if f = 10 ∨ f = 13 then 16 else 8
def signedFmt (f : Nat) : Bool := f = 8 || f = 10 || f = 11
def intVal (f : Nat) (w : Word) : Int :=
  if signedFmt f then (BitVec.ofNat (width f) w.toNat).toInt else ((w.toNat % 2 ^ width f : Nat) : Int)
def fitted (f : Nat) (sat : Bool) (x : Int) : Word :=
  let n := width f
  let lo : Int := if signedFmt f then -(2 ^ (n - 1)) else 0
  let hi : Int := if signedFmt f then 2 ^ (n - 1) - 1 else 2 ^ n - 1
  BitVec.ofInt 32 (if sat then max lo (min hi x) else if signedFmt f then (BitVec.ofInt n x).toInt else x % 2 ^ n)

/-- A row of two integer operands, or one. -/
def IntRow (mk : DSlot → Instr) (op : Nat) (f : Nat → DSlot → Int → Int → Word → Int) : Prop :=
  ∀ (s : State) (d : DSlot) (r : Resolved) (es : List Nat) (a b c : List Word) (ab bb cb : List (BitVec 4)),
    DIssues s op d r es → NoPorts d → s.rd.source r.fmt d.sa = .ok a ab → s.rd.source r.fmt d.sb = .ok b bb →
    s.rd.source r.fmt d.sc = .ok c cb →
    Fixed (mk d) s d es 1 0 (laneOn s d) fun l =>
      (fitted r.fmt d.sat (f (width r.fmt) d (intVal r.fmt (a.getD l 0)) (intVal r.fmt (b.getD l 0)) (b.getD l 0)), 0)

/-- `vsel` and the permutes move whole words: their format forms a literal alone, and the lane number is an integer to them (R329,
R330). -/
def inFmt (op f : Nat) (o : Opnd) : Nat := if (op = 0x26 ∨ (0x30 ≤ op ∧ op ≤ 0x33)) ∧ o = .lane then 9 else f

/-- A row that gives each lane a word and the difference of its residue. -/
def WordRow (mk : DSlot → Instr) (op L : Nat)
    (f : Resolved → DSlot → (Nat → Word) → (Nat → Word) → (Nat → Word) → (Nat → BitVec 4) → (Nat → BitVec 4) → Nat → Word × BitVec 4) :
    Prop :=
  ∀ (s : State) (d : DSlot) (r : Resolved) (es : List Nat) (a b c : List Word) (ab bb cb : List (BitVec 4)),
    DIssues s op d r es → NoPorts d → s.rd.source (inFmt op r.fmt d.sa) d.sa = .ok a ab →
    s.rd.source (inFmt op r.fmt d.sb) d.sb = .ok b bb → s.rd.source (inFmt op r.fmt d.sc) d.sc = .ok c cb →
    Fixed (mk d) s d es L 0 (laneOn s d) (f r d (a.getD · 0) (b.getD · 0) (c.getD · 0) (ab.getD · 0) (bb.getD · 0))

def bitWord (b : Bool) : Word := if b then 1 else 0

/-- Width of a float format with a sign, FMT 0 to 4. -/
def floatWidth (f : Nat) : Nat := if f = 0 then 32 else if f ≤ 2 then 16 else 8

/-- R328: the integer rows, in every integer format, with SAT and without. -/
def IntegerRows : Prop :=
  IntRow .vadd 0x18 (fun _ _ a b _ => a + b) ∧ IntRow .vsub 0x19 (fun _ _ a b _ => a - b) ∧ IntRow .vmul 0x1A (fun _ _ a b _ => a * b)
  ∧ IntRow .vmulh 0x1B (fun n d a b _ => let q := a * b / 2 ^ n; let m := a * b % 2 ^ n
      if d.rm ≠ 1 ∧ (2 ^ n < 2 * m ∨ (2 * m = 2 ^ n ∧ q % 2 = 1)) then q + 1 else q)
  ∧ WordRow .vand 0x1C 1 (fun r _ a b _ _ _ l => (fitted r.fmt false (a l &&& b l).toNat, 0))
  ∧ WordRow .vor 0x1D 1 (fun r _ a b _ _ _ l => (fitted r.fmt false (a l ||| b l).toNat, 0))
  ∧ WordRow .vxor 0x1E 1 (fun r _ a b _ _ _ l => (fitted r.fmt false (a l ^^^ b l).toNat, 0))
  ∧ WordRow .vandn 0x1F 1 (fun r _ a b _ _ _ l => (fitted r.fmt false (a l &&& ~~~(b l)).toNat, 0))
  ∧ IntRow .vshl 0x20 (fun n _ a _ k => if n ≤ k.toNat then 0 else a * 2 ^ k.toNat)
  ∧ IntRow .vshr 0x21 (fun n _ a _ k => if n ≤ k.toNat then 0 else a % 2 ^ n / 2 ^ k.toNat)
  ∧ IntRow .vsar 0x22 (fun n _ a _ k => if n ≤ k.toNat then (if a < 0 then -1 else 0) else a / 2 ^ k.toNat)
  ∧ IntRow .vmin 0x23 (fun _ _ a b _ => if a ≤ b then a else b) ∧ IntRow .vmax 0x24 (fun _ _ a b _ => if a ≤ b then b else a)
  ∧ WordRow .vclz 0x27 1 (fun r _ a _ _ _ _ l => let x := (a l).toNat % 2 ^ width r.fmt
      (BitVec.ofNat 32 (if x = 0 then width r.fmt else width r.fmt - 1 - x.log2), 0))
  ∧ WordRow .vpopc 0x28 1 (fun r _ a _ _ _ _ l => (BitVec.ofNat 32 ((List.range (width r.fmt)).countP (a l).getLsbD), 0))
  ∧ IntRow .vabs 0x29 (fun _ _ a _ _ => a.natAbs) ∧ IntRow .vneg 0x2A (fun _ _ a _ _ => -a)

/-- R329, R330, R332, R333: comparison, selection, permutes, predicate logic, and moves. -/
def WordRows : Prop :=
  WordRow .vcmp 0x25 1 (fun r d a b _ _ _ l => let x := intVal r.fmt (a l); let y := intVal r.fmt (b l)
      (bitWord (match d.minor.toNat with
        | 0 => decide (x = y)
        | 1 => decide (x ≠ y)
        | 2 => decide (x < y)
        | 3 => decide (x ≤ y)
        | 4 => decide (y < x)
        | _ => decide (y ≤ x)), 0))
  ∧ WordRow .vsel 0x26 1 (fun _ _ a b c ab bb l => if c l = 0 then (b l, bb l) else (a l, ab l))
  ∧ WordRow .vperm 0x30 2 (fun _ _ a b _ ab _ l => let j := (b l).toNat % 16; (a j, ab j))
  ∧ WordRow .vrot 0x31 2 (fun _ _ a b _ ab _ l => let j := (l + (b 0).toNat) % 16; (a j, ab j))
  ∧ WordRow .vbcast 0x32 2 (fun _ _ a b _ ab _ _ => let j := (b 0).toNat % 16; (a j, ab j))
  ∧ WordRow .vshuf 0x33 2 (fun _ d a b _ ab bb l => match d.minor.toNat with
      | 0 => if l % 2 = 0 then (a (l / 2), ab (l / 2)) else (b ((l - 1) / 2), bb ((l - 1) / 2))
      | 1 => if l % 2 = 0 then (a (8 + l / 2), ab (8 + l / 2)) else (b (8 + (l - 1) / 2), bb (8 + (l - 1) / 2))
      | 2 => if l < 8 then (a (2 * l), ab (2 * l)) else (b (2 * (l - 8)), bb (2 * (l - 8)))
      | 3 => if l < 8 then (a (2 * l + 1), ab (2 * l + 1)) else (b (2 * (l - 8) + 1), bb (2 * (l - 8) + 1))
      | _ => (a (15 - l), ab (15 - l)))
  ∧ WordRow .pand 0x38 1 (fun _ _ a b _ _ _ l => (bitWord (decide (a l ≠ 0 ∧ b l ≠ 0)), 0))
  ∧ WordRow .por 0x39 1 (fun _ _ a b _ _ _ l => (bitWord (decide (a l ≠ 0 ∨ b l ≠ 0)), 0))
  ∧ WordRow .pxor 0x3A 1 (fun _ _ a b _ _ _ l => (bitWord (decide (¬ (a l ≠ 0 ↔ b l ≠ 0))), 0))
  ∧ WordRow .pandn 0x3B 1 (fun _ _ a b _ _ _ l => (bitWord (decide (a l ≠ 0 ∧ b l = 0)), 0))
  ∧ WordRow .vmov 0x3E 1 (fun _ _ a _ _ ab _ l => (a l, ab l)) ∧ WordRow .vmovi 0x3F 1 (fun _ _ a _ _ _ _ l => (a l, 0))

/-- R142, R145, R332: `ptest` tests each lane for a value other than zero, an FP32, FP16 or BF16 subnormal being a zero while FTZ is set;
a NaN with a clear quiet bit is consumed and sets invalid. -/
def PredicateTest : Prop :=
  ∀ (s : State) (d : DSlot) (r : Resolved) (es : List Nat) (a b c : List Word) (ab bb cb : List (BitVec 4)),
    DIssues s 0x3C d r es → NoPorts d → s.rd.source r.fmt d.sa = .ok a ab → s.rd.source r.fmt d.sb = .ok b bb →
    s.rd.source r.fmt d.sc = .ok c cb →
    let magnitude (l : Nat) : Nat := (a.getD l 0).toNat % 2 ^ (floatWidth r.fmt - 1)
    let subnormal (l : Nat) : Bool := magnitude l < 2 ^ (if r.fmt = 0 then 23 else if r.fmt = 1 then 10 else 7)
    ∃ t o, exec (.ptest d) s = .next t ∧ Issued s t d es 1 0 o ∧ o.fixed = true
      ∧ ∀ l, l < 16 → (o.lane l).en = laneOn s d l
        ∧ (o.lane l).flags = (if r.fmt ≤ 5 ∧ (decodeF r.fmt s.rd.ftz r.xv (a.getD l 0)).snan = true then flInv else 0)
        ∧ (laneOn s d l = true → o.badOut.getD l 0 = 0 ∧ o.out.getD l 0 =
          bitWord (if r.fmt ≤ 2 ∧ s.rd.ftz = true ∧ subnormal l = true then false
            else if r.fmt ≤ 4 then decide (magnitude l ≠ 0)
            else if r.fmt = 5 then !(decodeF 5 false r.xv (a.getD l 0)).v.isZero
            else if 8 ≤ r.fmt then decide ((a.getD l 0).toNat % 2 ^ width r.fmt ≠ 0) else decide (a.getD l 0 ≠ 0)))

/-- R323: the sign operations: `dabs` clears and `dneg` inverts the sign bit of the FMT-wide value in the low bits of the word, of a NaN
as of a number, with no flag; the residue comes from that of SA (R179). -/
def SignBits : Prop :=
  WordRow .dabs 0x08 1 (fun r _ a _ _ ab _ l => (BitVec.ofNat 32 ((a l).toNat % 2 ^ (floatWidth r.fmt - 1)), ab l))
  ∧ WordRow .dneg 0x09 1 (fun r _ a _ _ ab _ l => let n := floatWidth r.fmt
      (BitVec.ofNat 32 (((a l).toNat % 2 ^ n + 2 ^ (n - 1)) % 2 ^ n), ab l))

/-- R327: `vrng` draws one word of the stream for each lane, whatever the predicate, and gives it raw, as a fraction of 24 bits,
or as the outcome of its comparison with p. A format its form does not allow is ILLEGAL. -/
def RandomWords : Prop :=
  ∀ (s : State) (d : DSlot) (r : Resolved) (es : List Nat) (a b c : List Word) (ab bb cb : List (BitVec 4)),
    DIssues s 0x11 d r es → NoPorts d → s.rd.source r.fmt d.sa = .ok a ab → s.rd.source r.fmt d.sb = .ok b bb →
    s.rd.source r.fmt d.sc = .ok c cb →
    let w (l : Nat) : Word := (draw (s.rank s.rd.rank).key s.c.stream 16).getD l 0
    let u (l : Nat) : FVal := .fin false ((w l).toNat / 2 ^ 8) (-24)
    let out (f : Nat → Word) : Prop := Fixed (.vrng d) s d es 2 16 (laneOn s d) fun l => (f l, 0)
    s.rd.stream = s.c.stream →
    (d.minor = 0 → r.fmt = 9 → out w)
    ∧ (d.minor = 1 → r.fmt = 0 → ∃ f, out f ∧ ∀ l, l < 16 → eqVal (decodeF 0 false 0 (f l)).v (u l) = true)
    ∧ (d.minor = 2 → r.fmt = 0 → out fun l => let p := (decodeF 0 s.rd.ftz 0 (a.getD l 0)).v
        bitWord (!p.isNan && ltVal (u l) p))
    ∧ (d.minor ≠ 0 → r.fmt ≠ 0 → exec (.vrng d) s = s.trap (slotTrap s 0x01))
    ∧ (d.minor = 0 → r.fmt ≠ 9 → exec (.vrng d) s = s.trap (slotTrap s 0x01))

/-- R331: `vred` on an integer format gives lane 0 the sum, maximum or minimum of the enabled lanes, fitted by SAT, after 4 cycles,
on a float format the tree's result after 12; with no lane enabled nothing lands. -/
def Reductions : Prop :=
  ∀ (s : State) (d : DSlot) (r : Resolved) (es : List Nat) (a b c : List Word) (ab bb cb : List (BitVec 4)),
    DIssues s 0x34 d r es → NoPorts d → s.rd.source r.fmt d.sa = .ok a ab → s.rd.source r.fmt d.sb = .ok b bb →
    s.rd.source r.fmt d.sc = .ok c cb → s.rd.mode d.rm ≠ 2 →
    let xs := ((List.range 16).filter (laneOn s d)).map fun l => intVal r.fmt (a.getD l 0)
    let one (L : Nat) (w : Word) (fl : Fl) : Prop := ∃ t o, exec (.vred d) s = .next t ∧ Issued s t d es L 0 o ∧ o.fixed = true
      ∧ o.out.getD 0 0 = w ∧ (o.lane 0).flags = fl ∧ ∀ l, l < 16 → (o.lane l).en = decide (l = 0)
    (∀ x rest, 8 ≤ r.fmt → xs = x :: rest →
      (d.minor = 0 → one 4 (fitted r.fmt d.sat xs.sum) 0)
      ∧ (d.minor = 1 → one 4 (fitted r.fmt d.sat (rest.foldl max x)) 0)
      ∧ (d.minor = 2 → one 4 (fitted r.fmt d.sat (rest.foldl min x)) 0))
    ∧ (r.fmt ≤ 4 → ∀ w fl, redFloat r s.rd (s.rd.mode d.rm) d.sat d.minor.toNat (s.rd.dLanes d) a 0 = some (w, fl) → one 12 w fl)
    ∧ ((∀ l, l < 16 → laneOn s d l = false) → exec (.vred d) s = .next s)

/-- An online operation whose sources are registers and whose destination is one: it lands at δ + n, with the effective rounding
mode, the lanes' exact results rounded once; it draws 16 words when that mode is stochastic and it lands a register (R316, R317). -/
def Online (mk : DSlot → Instr) (op : Nat) (cond : FVal → FVal → FVal → Prop) (x : FVal → FVal → FVal → Ex) : Prop :=
  ∀ (s : State) (d : DSlot) (r : Resolved) (es : List Nat) (a b c : List Word) (ab bb cb : List (BitVec 4)),
    DIssues s op d r es → NoPorts d → r.fmt ≤ 5 → s.rd.source r.fmt d.sa = .ok a ab → s.rd.source r.fmt d.sb = .ok b bb →
    s.rd.source r.fmt d.sc = .ok c cb →
    let mode := s.rd.mode d.rm
    let draws : Prop := mode = 2 ∧ op ≠ 0x12 ∧ Decode.isReg d.dst = true
    let stream := draw (s.rank s.rd.rank).key s.c.stream 16
    ∃ t o, exec (mk d) s = .next t
      ∧ Issued s t d es (delay op + digitCount r.fmt) (if draws then 16 else 0) o ∧ o.fixed = false
      ∧ ∀ l, l < 16 → (o.lane l).en = laneOn s d l
        ∧ (laneOn s d l = true →
          let val (ws : List Word) : FVal := (o.word (ws.getD l 0)).v
          let rnd : BitVec 16 := if op = 0x12 then (b.getD l 0).extractLsb' 16 16
            else if draws then (stream.getD l 0).extractLsb' 16 16 else 0
          (val a).isNan = false → (val a).isInf = false → (val b).isNan = false → (val b).isInf = false → (val c).isNan = false →
          (val c).isInf = false → cond (val a) (val b) (val c) →
          landLane t.c.dops o l = roundTo r.fmt mode d.sat s.rd.ftz (o.mn) rnd (x (val a) (val b) (val c)))

/-- R318, R320, R324, R326: the arithmetic rows on finite registers. -/
def OnlineRows : Prop :=
  let any (_ _ _ : FVal) : Prop := True
  Online .dadd 0x01 any (fun a b _ => .val (addFin a b)) ∧ Online .dsub 0x02 any (fun a b _ => .val (addFin a b.negate))
  ∧ Online .dmul 0x03 any (fun a b _ => .val (mulFin a b))
  ∧ Online .dfma 0x04 any (fun a b c => .val (addFin (mulFin a b) c))
  ∧ Online .dfms 0x05 any (fun a b c => .val (addFin (mulFin a b) c.negate))
  ∧ Online .ddiv 0x06 (fun a b _ => a.isZero = false ∧ b.isZero = false)
      (fun a b _ => match a, b with
        | .fin n m e, .fin n' m' e' => .quo (n != n') m m' (e - e')
        | a, _ => .val a)
  ∧ Online .dsqrt 0x07 (fun a _ _ => a.isZero = false ∧ a.neg = false)
      (fun a _ _ => match a with
        | .fin _ m e => .root m e
        | a => .val a)
  ∧ Online .dmax 0x0D any (fun a b _ => .val (if ltMax a b then b else a))
  ∧ Online .dmin 0x0E any (fun a b _ => .val (if ltMax b a then b else a))
  ∧ Online .dcvt 0x0F any (fun a _ _ => .val a)
  ∧ Online .vsr 0x12 any (fun a _ _ => .val a)

/-- A decision's landing: `dcmp` gives the bit of its condition; `dsel` and `dclip` the chosen value, rounded (R319, R321, R322). -/
def Decides (mk : DSlot → Instr) (op : Nat) (p : State → Resolved → DSlot → FVal → FVal → FVal → Word) : Prop :=
  ∀ (s : State) (d : DSlot) (r : Resolved) (es : List Nat) (a b c : List Word) (ab bb cb : List (BitVec 4)),
    DIssues s op d r es → NoPorts d → s.rd.mode d.rm ≠ 2 → s.rd.source r.fmt d.sa = .ok a ab →
    s.rd.source r.fmt d.sb = .ok b bb → s.rd.source r.fmt d.sc = .ok c cb →
    let val (ws : List Word) (l : Nat) : FVal := (decodeF r.fmt s.rd.ftz r.xv (ws.getD l 0)).v
    ∃ t o, exec (mk d) s = .next t ∧ Issued s t d es (1 + digitCount r.fmt) 0 o ∧ o.fixed = false
      ∧ ∀ l, l < 16 → (o.lane l).en = laneOn s d l
        ∧ (laneOn s d l = true → (landLane t.c.dops o l).1 = p s r d (val a l) (val b l) (val c l))

/-- R319, R321, R322: the decisions: `dcmp` on each condition, `dsel` by the sign of c, `dclip` between its bounds. -/
def Decisions : Prop :=
  let rounded (s : State) (r : Resolved) (d : DSlot) (v : FVal) : Word :=
    (roundTo r.fmt (s.rd.mode d.rm) d.sat s.rd.ftz (r.xv.getLsbD 8) 0 (.val v)).1
  Decides .dcmp 0x0A (fun _ _ d a b _ => let un := a.isNan || b.isNan
    bitWord (match d.minor.toNat with
      | 0 => !un && eqVal a b
      | 1 => un || !eqVal a b
      | 2 => !un && ltVal a b
      | 3 => !un && (ltVal a b || eqVal a b)
      | 4 => !un && ltVal b a
      | 5 => !un && (ltVal b a || eqVal a b)
      | 6 => un
      | _ => !un))
  ∧ Decides .dsel 0x0B (fun s r d a b c => rounded s r d (if !c.isNan && ltVal (.fin false 0 0) c then a else b))
  ∧ Decides .dclip 0x0C (fun s r d a lo hi => rounded s r d
      (if a.isNan then a
       else if !lo.isNan && !hi.isNan && ltMax hi lo then hi
       else if !lo.isNan && ltMax a lo then lo
       else if !hi.isNan && ltMax hi a then hi else a))

/-- R324: a conversion into an integer format: of an integer, fitted by SAT after one cycle; of a float, its rounded value after two. -/
def IntegerConversions : Prop :=
  ∀ (s : State) (d : DSlot) (r : Resolved) (es : List Nat) (a b c : List Word) (ab bb cb : List (BitVec 4)),
    let f := d.minor.toNat
    DIssues s 0x0F d r es → NoPorts d → 8 ≤ r.fmt → s.rd.source r.fmt d.sa = .ok a ab → s.rd.source r.fmt d.sb = .ok b bb →
    s.rd.source r.fmt d.sc = .ok c cb → s.rd.mode d.rm ≠ 2 →
    (8 ≤ f → Fixed (.dcvt d) s d es 1 0 (laneOn s d) fun l => (fitted r.fmt d.sat (intVal f (a.getD l 0)), ab.getD l 0))
    ∧ (f ≤ 5 → ∃ t o, exec (.dcvt d) s = .next t ∧ Issued s t d es 2 0 o ∧ o.fixed = true ∧ ∀ l, l < 16 →
        (o.lane l).en = laneOn s d l ∧ (laneOn s d l = true →
          o.out.getD l 0 = (floatToInt r.fmt (s.rd.mode d.rm) d.sat 0 (decodeF f s.rd.ftz s.rd.xv (a.getD l 0)).v).1))

/-- The producer of a port as a slot's operation names it. -/
def producerOf (s : State) (k : BitVec 3) (p : DOp) : Prop :=
  ∃ q, Store.get none s.rd.ports k.toNat = some q ∧ q.consumed = false ∧ findOp s.rd.dops q.prod = some p ∧ delay p.op.toNat ≤ p.age
    ∧ s.nextRef ∉ q.users

/-- R168, R316, R325: `dland` takes a port's chained value: the port is consumed, and the result lands at max(CP, C_in); a port with
no producer, or already consumed, is ILLEGAL; one whose first digit has not left holds the bundle. -/
def ChainLands : Prop :=
  ∀ (s : State) (d : DSlot) (k : BitVec 3) (r : Resolved) (es : List Nat),
    d.sa = .port k → d.sb = .none → d.sc = .none → Decode.isPort d.dst = false → s.resolve d.fmt = some r → r.fmt ≤ 4 →
    (if Decode.isReg d.dst then s.rd.entries d.dst = some es else es = []) → s.rd.ports = s.c.ports →
    (∀ p, producerOf s k p → s.rd.mode d.rm ≠ 2 → ∃ t o q q', exec (.dland d) s = .next t ∧ t.c.dops = s.c.dops ++ [o]
      ∧ o.pa = some q.prod ∧ o.dstEnts = es ∧ o.land = some (max o.cp p.cp) ∧ Store.get none s.c.ports k.toNat = some q
      ∧ Store.get none t.c.ports k.toNat = some q' ∧ q' = { q with consumed := true, users := q'.users }
      ∧ (∀ j, j ≠ k.toNat → Store.get none t.c.ports j = Store.get none s.c.ports j)
      ∧ { t with c := { t.c with dops := s.c.dops, ports := s.c.ports }, nextRef := s.nextRef } = s)
    ∧ ((Store.get none s.rd.ports k.toNat = none ∨ ∃ q, Store.get none s.rd.ports k.toNat = some q ∧ q.consumed = true) →
      exec (.dland d) s = s.trap (slotTrap s 0x01))
    ∧ (∀ q p, Store.get none s.rd.ports k.toNat = some q → q.consumed = false → findOp s.rd.dops q.prod = some p →
      p.age < delay p.op.toNat → exec (.dland d) s = .next { s with stall := some .hold, c := { s.c with fresh := false } })

/-- R163, R166, R177, R178: one cycle of the digit units: every operation is one step older, digits are only added, at most one to a
lane, each within -10 to 10; no register and no memory changes, ASTICKY gaining the issue flags of the lanes that it cancels. Of what a
restored context runs, the chain operations wait for its first bundle (R180). -/
def DigitsStep : Prop :=
  ∀ (s : State), (s.c.fresh = true → ∃ t, exec .digitStep s = .next t
      ∧ t.c.dops = s.c.dops.map (fun o => if o.producer = true ∨ o.pa ≠ none ∨ o.pb ≠ none ∨ o.pc ≠ none then o else { o with age := o.age + 1 })
      ∧ { t with c := { t.c with dops := s.c.dops }, seqs := s.seqs } = s)
    ∧ (s.c.fresh = false → ∃ t, exec .digitStep s = .next t ∧ t.c.dops.length = s.c.dops.length
      ∧ (∀ (n : Nat) (o p : DOp), s.c.dops[n]? = some o → t.c.dops[n]? = some p → p.age = o.age + 1 ∧ p.ref = o.ref ∧ p.land = o.land ∧ p.out = o.out
        ∧ p.landed = o.landed
        ∧ ∀ l, l < 16 → (p.lane l).digits = (o.lane l).digits
          ∨ ∃ z : Int, -10 ≤ z ∧ z ≤ 10 ∧ (p.lane l).digits = (o.lane l).digits ++ [z])
      ∧ (∃ fl : Fl, t.c.asticky = s.c.asticky ||| fl.setWidth 16)
      ∧ { t with c := { t.c with dops := s.c.dops, asticky := s.c.asticky }, seqs := s.seqs } = s)

/-- R173, R314: an operation whose landing cycle has come writes its enabled lanes into the entries it named at issue, or into its
lane predicate, and its flags into ASTICKY; before that cycle nothing lands. -/
def ResultsLand : Prop :=
  ∀ (s : State) (o : DOp) (L : Nat), s.c.dops = [o] → s.c.ports = [] → s.c.mops = [] → s.staged = false → o.fixed = true → o.landed = false → o.land = some L →
    o.producer = false → o.pa = none → o.pb = none → o.pc = none →
    (o.age < L → exec .registerLanding s = .next s)
    ∧ (L ≤ o.age → ∃ t, exec .registerLanding s = .next t ∧ t.c.dops = []
      ∧ (∀ p, o.dst = .pred p → (∀ j, t.c.rp j = if j = p ∧ p ≠ 0 then
            (List.range 16).foldl (fun m l => if (o.lane l).en then (if o.out.getD l 0 = 0 then m &&& ~~~(BitVec.twoPow 16 l)
              else m ||| BitVec.twoPow 16 l) else m) (s.c.rp p) else s.c.rp j) ∧ t.c.v = s.c.v)
      ∧ ((∀ p, o.dst ≠ .pred p) → t.c.p = s.c.p ∧ ∀ e l, l < 16 → t.c.rv e l =
          if o.dstEnts[l]? = some e ∧ (o.lane l).en = true then o.out.getD l 0 else s.c.rv e l)
      ∧ ((∀ p, o.dst ≠ .pred p) → ∀ e l, l < 16 → t.c.rvBad e l =
          if o.dstEnts[l]? = some e ∧ (o.lane l).en = true then o.badOut.getD l 0 else s.c.rvBad e l)
      ∧ (∀ k, k < 16 → t.c.asticky.getLsbD k = (s.c.asticky.getLsbD k
          || (decide (k < 5) && (List.range 16).any fun l => (o.lane l).en && (o.lane l).flags.getLsbD k)))
      ∧ { t with c :=
        { t.c with dops := s.c.dops, v := s.c.v, bad := s.c.bad, tw := s.c.tw, p := s.c.p, asticky := s.c.asticky } } = s)

/-- R218, R221, R222, R228: an empty bundle acts through its header: SEG, and whatever has been performed since, set a rewind point of
every register, with the scalars' residues, but for the SEG of a point that issues again after a rewind; RDV waits while a partner that
has been told of a value rewinds. -/
def EmptyBundle : Prop :=
  ∀ (s : State) (seg rdv ppt : Bool),
    let waits : Prop := rdv = true ∧ ∃ k ∈ s.c.told, (s.ctx k).again ≠ 0 ∨ (s.ctx k).caughtUp = s.time.toNat
    (waits → exec (.emptyBundle seg rdv ppt) s = .next { s with stall := some .freeze })
    ∧ (¬ waits → ∃ t, exec (.emptyBundle seg rdv ppt) s = .next t ∧ t.c.toRegs = s.c.toRegs ∧ t.c.bound = false
      ∧ (if s.c.mark = true ∨ (seg = true ∧ ¬ (s.c.since = 0 ∧ s.c.rewinds ≠ 0)) then
          (∃ x, t.c.snap = some x ∧ x.toRegs = t.c.toRegs ∧ ∀ k < 128,
            Store.get 0 x.sbad k = Store.get 0 s.c.bad k ∧ Store.get 0 x.stw k = Store.get 0 s.c.tw k) ∧ t.c.point = s.nextRef ∧ t.c.rewinds = 0 ∧ t.c.since = 0
          ∧ t.c.mark = false ∧ { t.c with snap := s.c.snap, point := s.c.point, rewinds := s.c.rewinds, since := s.c.since, mark := s.c.mark
                                          bound := s.c.bound } = s.c
          else t.c = { s.c with bound := false })
      ∧ { t with c := s.c } = s)

/-- The rational value of a finite value. -/
def ratOf (v : FVal) : Rat :=
  match v with
  | .fin n m e => (if n then -1 else 1) * (m * 2 ^ e.toNat : Nat) / (2 ^ (-e).toNat : Nat)
  | _ => 0

/-- R318: the exact sums and products that are rounded are those of the rationals. -/
def ExactArithmetic : Prop :=
  ∀ (n n' : Bool) (m m' : Nat) (e e' : Int), let a : FVal := .fin n m e; let b : FVal := .fin n' m' e'
    ratOf (addFin a b) = ratOf a + ratOf b ∧ ratOf (mulFin a b) = ratOf a * ratOf b ∧ ratOf a.negate = - ratOf a
    ∧ ((ltVal a b = true) ↔ ratOf a < ratOf b) ∧ ((eqVal a b = true) ↔ ratOf a = ratOf b)

/-- A power of two. -/
def pow2 (e : Int) : Rat := (2 ^ e.toNat : Nat) / (2 ^ (-e).toNat : Nat)

/-- a ≤ |x|, for an exact result x and a ≥ 0: a value, a quotient, or a square root. -/
def AtLeast (a : Rat) (x : Ex) : Prop :=
  match x with
  | .val v => a ≤ ratOf v ∨ a ≤ - ratOf v
  | .quo _ n d e => d ≠ 0 ∧ a ≤ n / d * pow2 e
  | .root m e => a * a ≤ m * pow2 e

/-- |x| ≤ a. -/
def AtMost (a : Rat) (x : Ex) : Prop :=
  match x with
  | .val v => ratOf v ≤ a ∧ - ratOf v ≤ a
  | .quo _ n d e => d ≠ 0 ∧ n / d * pow2 e ≤ a
  | .root m e => m * pow2 e ≤ a * a

/-- |x| = a. -/
def Exactly (a : Rat) (x : Ex) : Prop := AtLeast a x ∧ AtMost a x

/-- R143, R161: m is |x| in steps of 2^q, rounded: t steps are the whole steps in |x|, and it is one more beyond the middle and at the
middle of an odd t (RNE), never (RTZ), or where the 16 bits below the last kept one and the random bits carry (stochastic). -/
def RoundsMag (x : Ex) (q : Int) (mode : Nat) (r : BitVec 16) (m : Nat) : Prop :=
  ∃ t : Nat, AtLeast (t * pow2 q) x ∧ ¬ AtLeast ((t + 1) * pow2 q) x
    ∧ (let mid : Rat := (2 * t + 1) * pow2 (q - 1)
       let up : Prop := (mode = 0 ∧ AtLeast mid x ∧ (t % 2 = 1 ∨ ¬ AtMost mid x))
         ∨ (mode = 2 ∧ AtLeast ((t * 2 ^ 16 + (2 ^ 16 - r.toNat)) * pow2 (q - 16)) x)
       (up → m = t + 1) ∧ (¬ up → m = t))

/-- The largest finite value of a format (R141). -/
def largest (f : Nat) : Rat :=
  ([(2 ^ 24 - 1) * 2 ^ 104, 65504, 255 * 2 ^ 120, 448, 57344, 6] : List Nat).getD f 0

/-- The width of a format's sign, exponent and fraction (R141). -/
def widthOf (f : Nat) : Nat := ([32, 16, 16, 8, 8, 4] : List Nat).getD f 0

/-- A magnitude's code with its sign. -/
def signed' (f : Nat) (n : Bool) (c : Nat) : Word := BitVec.ofNat 32 (c + if n then 2 ^ (widthOf f - 1) else 0)

/-- R143, R145, R148, R161: the word and the flags of an exact result x, which is neither zero nor infinite nor a NaN, rounded once:
y is its rounded magnitude at the precision of its exponent E, as if exponents had no upper bound. -/
def Rounds (f mode : Nat) (sat ftz : Bool) (r : BitVec 16) (x : Ex) (w : Word) (fl : Fl) : Prop :=
  ∀ (E : Int) (m : Nat), AtLeast (pow2 E) x → ¬ AtLeast (pow2 (E + 1)) x →
    let k := fmtOf f
    let q := max E (1 - k.bias) - k.fb
    RoundsMag x q mode r m →
    let y : Rat := m * pow2 q
    let tiny := y < pow2 (1 - k.bias)
    let v := (decodeF f false 0 w).v
    (largest f < y → fl = flOf ||| flNx ∧ w = signed' f x.neg (if sat = true ∨ (mode = 1 ∧ f ≠ 3)
      then ([0x7F7FFFFF, 0x7BFF, 0x7F7F, 0x7E, 0x7B, 7] : List Nat).getD f 0 else ([0x7F800000, 0x7C00, 0x7F80, 0x7F, 0x7C, 7] : List Nat).getD f 0))
    ∧ (y ≤ largest f → tiny → ftz = true → f ≤ 2 → w = signed' f x.neg 0 ∧ fl = flUf ||| flNx)
    ∧ (y ≤ largest f → ¬ (tiny ∧ ftz = true ∧ f ≤ 2) →
      v.isNan = false ∧ v.isInf = false ∧ ratOf v = (if x.neg then -1 else 1) * y ∧ w.toNat < 2 ^ widthOf f
      ∧ w.getLsbD (widthOf f - 1) = (x.neg && !(f = 5 && m = 0))
      ∧ (Exactly y x → fl = 0) ∧ (¬ Exactly y x → tiny → fl = flUf ||| flNx) ∧ (¬ Exactly y x → ¬ tiny → fl = flNx))

/-- R142, R143, R145, R148, R150, R161, R307: rounding once to a floating-point format, whatever the exact result (a value, a quotient
or a square root): a NaN is quietened, an infinity and an overflow give what the tables name, a tiny result is flushed under FTZ,
and any other is the nearest value, the one towards zero, or the stochastic one. A conversion to an integer rounds likewise, and
clamps. What a memory-side add leaves of an element is that rounding of the exact sum, a NaN of the element first. -/
def RoundsOnce : Prop :=
  (∀ (f mode : Nat) (sat ftz mn : Bool) (r : BitVec 16), f ≤ 5 → mode ≤ 2 →
    let out := roundTo f mode sat ftz mn r
    (∀ x, Rounds f mode sat ftz r x (out x).1 (out x).2)
    ∧ (∀ x, x.isZero = true → out x = (if f = 5 then 0 else signed' f x.neg 0, 0))
    ∧ (∀ n, out (.val (.inf n)) = if f = 3 ∧ sat = false then (signed' 3 n 0x7F, flInv)
        else (signed' f n (if sat = true ∨ f = 5 then ([0x7F7FFFFF, 0x7BFF, 0x7F7F, 0x7E, 0x7B, 7] : List Nat).getD f 0
          else ([0x7F800000, 0x7C00, 0x7F80, 0, 0x7C] : List Nat).getD f 0), if f = 5 then flOf else 0))
    ∧ (∀ n p, out (.val (.nan n p)) = match f with
        | 0 => (signed' 0 n (0x7FC00000 + p.toNat % 2 ^ 22), 0)
        | 1 => (signed' 1 n (0x7E00 + p.toNat / 2 ^ 13 % 2 ^ 9), 0)
        | 2 => (signed' 2 n (0x7FC0 + p.toNat / 2 ^ 16 % 2 ^ 6), 0)
        | 3 => (signed' 3 n 0x7F, 0)
        | 4 => (signed' 4 n (0x7E + p.toNat / 2 ^ 21 % 2), 0)
        | _ => if mn = true then (8, 0) else (0, flInv)))
  ∧ (∀ v : FVal, v.isZero = false → v.isNan = false → v.isInf = false → ∃ fl, Rounds 0 0 false false 0 (.val v) (roundF32 v) fl)
  ∧ (∀ (f mode : Nat) (sat : Bool) (r : BitVec 16), f ∈ [8, 9, 10, 11, 12, 13] → mode ≤ 2 →
    let lo : Int := ([-2147483648, 0, -32768, -128, 0, 0] : List Int).getD (f - 8) 0
    let hi : Int := ([2147483647, 4294967295, 32767, 127, 255, 65535] : List Int).getD (f - 8) 0
    let clamped : Fl := if sat = true then 0 else flInv
    (∀ n p, floatToInt f mode sat r (.nan n p) = (0, flInv))
    ∧ (∀ n, floatToInt f mode sat r (.inf n) = (BitVec.ofInt 32 (if n then lo else hi), clamped))
    ∧ (∀ n a e (m : Nat), let v : FVal := .fin n a e; let i : Int := if n then -(m : Int) else m
      RoundsMag (.val v) 0 mode r m → floatToInt f mode sat r v = if i < lo then (BitVec.ofInt 32 lo, clamped)
        else if hi < i then (BitVec.ofInt 32 hi, clamped) else (BitVec.ofInt 32 i, if ratOf v = i then 0 else flNx)))
  ∧ (∀ (old add : Word) (h : BitVec 16) (r : BitVec 16),
    let x := (decodeF 0 false 0 old).v; let b := (decodeF 2 false 0 (h.setWidth 32)).v; let y := (decodeF 0 false 0 add).v
    let fin (v : FVal) : Prop := v.isNan = false ∧ v.isInf = false
    (∀ kind, kind = 0 ∨ kind = 5 → (x.isNan = true → redWord kind old.toNat add 0 = (old ||| 0x400000).toNat)
      ∧ (x.isNan = false → y.isNan = true → redWord kind old.toNat add 0 = (add ||| 0x400000).toNat))
    ∧ (∀ n, x = .inf n → y = .inf (!n) → redWord 0 old.toNat add 0 = 0x7FC00000)
    ∧ (∀ n, (x = .inf n ∧ y.isNan = false ∧ y ≠ .inf (!n)) ∨ (fin x ∧ y = .inf n) →
      redWord 0 old.toNat add 0 = (signed' 0 n 0x7F800000).toNat)
    ∧ (fin x → fin y → ratOf x + ratOf y ≠ 0 → ∀ z : FVal, ratOf z = ratOf x + ratOf y →
      ∃ fl, Rounds 0 0 false false 0 (.val z) (BitVec.ofNat 32 (redWord 0 old.toNat add 0)) fl)
    ∧ (∀ kind, kind = 1 ∨ kind = 2 → let out := redWord kind h.toNat add r
      (b.isNan = true → out = (h ||| 0x40).toNat)
      ∧ (b.isNan = false → y.isNan = true → out = (add ||| 0x400000).toNat / 2 ^ 16)
      ∧ (∀ n, b = .inf n → y = .inf (!n) → out = 0x7FC0)
      ∧ (∀ n, (b = .inf n ∧ y.isNan = false ∧ y ≠ .inf (!n)) ∨ (fin b ∧ y = .inf n) → out = if n then 0xFF7F else 0x7F7F)
      ∧ (fin b → fin y → ratOf b + ratOf y ≠ 0 → ∀ z : FVal, ratOf z = ratOf b + ratOf y →
        ∃ fl, Rounds 2 (if kind = 1 then 0 else 2) true false r (.val z) (BitVec.ofNat 32 out) fl))
    ∧ (x.isNan = false → y.isNan = false → redWord 5 old.toNat add 0 = if ltVal x y = true then add.toNat
        else if ltVal y x = true then old.toNat else if old = 0x80000000 then add.toNat else old.toNat)
    ∧ redWord 6 old.toNat add 0 = (old.toNat + add.toNat) % 2 ^ 32)

/-- Entries of `rows` row images (R335). -/
def entriesOf (f rows : Nat) : Nat :=
  if f = 6 then 5 * (rows / 4) else if f = 7 then 3 * (rows / 4)
  else if f ∈ [0, 8, 9] then 4 * rows else if f ∈ [1, 2, 10, 13] then 2 * rows else rows

/-- An M or K slot (R336, R337): by another sequencer than the engine's owner, or on a bank outside the mask, it takes NOT_OWNER;
with a resolved format its row does not admit, or entries beyond the window, ILLEGAL; on a bank that a swap still fills it freezes
(R107); while an earlier operation stands in its way, or one of a former owner (R278), it holds its bundle; else it issues. -/
def EngineSlot (x : Instr) (i : EOp) (fmt : BitVec 4) (formats : List Nat) (src : Opnd) (entries : Nat → Nat) (more : Nat → Bool)
    (s : State) (issued : Resolved → Nat → Prop) : Prop :=
  let mine : Prop := (s.mownOf s.rd.core s.rd.rank).extractLsb' 0 2 = BitVec.ofNat 2 (s.rd.seq % 4)
    ∧ ∀ b, bankOf i = some b → s.rd.banks.getLsbD b.toNat = true
  let inside (f : Nat) : Prop := ∀ v, src = .v v → v.toNat + entries f ≤ 224 ∧ v.toNat + entries f ≤ s.rd.win
  let filling : Prop := ∃ b, bankOf i = some b ∧ (s.seqOf s.rd.seq).both.getLsbD b.toNat = true ∧ s.time.toNat < (s.seqOf s.rd.seq).bothAt
  let may : Prop := mayIssue s.rd.mops i s.myEngine.plane = true ∧ s.formerBusy = false
  let first (e : Nat) : Prop := match src with
    | .v v => e = s.rd.entry v.toNat
    | .uni u => e = (s.rd.rs (8 + u.setWidth 6)).toNat % 2 ^ 32 % s.rd.win
    | _ => e = 0
  s.rd.win ≠ 0 →
  (¬ mine → exec x s = s.trap (slotTrap s 0x04))
  ∧ (mine → ∀ r, s.resolve fmt = some r →
    (¬ (r.fmt ∈ formats ∧ more r.fmt = true ∧ inside r.fmt) → exec x s = s.trap (slotTrap s 0x01))
    ∧ (r.fmt ∈ formats → more r.fmt = true → inside r.fmt → ∀ e, first e →
      (filling → exec x s = .next { s with stall := some .freeze })
      ∧ (¬ filling → ¬ may → exec x s = .next { s with stall := some .hold })
      ∧ (¬ filling → may → issued r e)))

/-- An operation has joined those in flight, with what it latches. -/
def Joins (x : Instr) (i : EOp) (s : State) (r : Resolved) (e : Nat) (src : Opnd) (n : Nat) (more : MOp → Prop) : Prop :=
  ∃ t o, exec x s = .next t ∧ t.c.mops = s.c.mops ++ [o] ∧ o.ref = s.nextRef ∧ o.instr = i ∧ o.fmt = r.fmt ∧ o.xv = r.xv ∧ o.entry = e
    ∧ o.zero = decide (src = .zero) ∧ o.win = s.rd.win ∧ o.words = [] ∧ o.age = 0 ∧ more o
    ∧ t.c.stream = s.c.stream + BitVec.ofNat 64 n
    ∧ { t with c := { t.c with mops := s.c.mops, stream := s.c.stream }, nextRef := s.nextRef } = s

/-- The scale that a format-table entry with SCEN gives, or another (R340, R346). -/
def scaleOf (s : State) (r : Resolved) (other : BitVec 8) : BitVec 8 :=
  match r.scale with
  | some t => (s.scr s.rd.core s.rd.rank t.toNat).scale
  | none => other

def blockRows (f rows : Nat) : Bool := decide (f ∉ [6, 7] ∨ rows % 4 = 0)

/-- The engine of the strand's rank on its core is e', and no other has changed. -/
def EngineIs (s t : State) (e' : Engine) : Prop :=
  (∀ core rank, rank < 131072 → t.engine core rank = if core = s.c.core ∧ rank = s.c.rank then e' else s.engine core rank)
    ∧ { t with engines := s.engines } = s

/-- R336, R337, R340 to R349: the issue of each M and K slot. -/
def MatrixIssues : Prop :=
  ∀ (s : State) (fmt : BitVec 4) (plane : BitVec 1) (src : Opnd) (rows : BitVec 8) (row0 rmask cmask ix sr_ tol : BitVec 6)
    (bank : BitVec 3) (ck acc neg trn sr clip col : Bool) (scale : BitVec 8) (b : BitVec 4) (p : BitVec 3), s.c.rank < 131072 →
    EngineSlot (.mload fmt plane src rows row0) (.mload fmt plane src rows row0) fmt [1, 2, 3, 4, 5, 6, 7] src (entriesOf · rows.toNat)
      (fun f => blockRows f rows.toNat && blockRows f row0.toNat) s (fun r e =>
        Joins (.mload fmt plane src rows row0) (.mload fmt plane src rows row0) s r e src 0 fun o => o.plane = plane.toNat
          ∧ o.scale = scaleOf s r 127)
    ∧ EngineSlot .mswap .mswap 0 [0] .none (fun _ => 0) (fun _ => true) s (fun _ _ => ∃ t, exec .mswap s = .next t
        ∧ EngineIs s t { s.myEngine with active := !s.myEngine.active })
    ∧ EngineSlot (.mcfg neg trn) (.mcfg neg trn) 0 [0] .none (fun _ => 0) (fun _ => true) s (fun _ _ => ∃ t,
        exec (.mcfg neg trn) s = .next t ∧ EngineIs s t { s.myEngine with
          cfg := Store.set 0 s.myEngine.cfg (if s.myEngine.active then 0 else 1) (BitVec.ofBool neg ++ BitVec.ofBool trn) })
    ∧ EngineSlot (.mma fmt bank ck acc src rmask cmask rows) (.mma fmt bank ck acc src rmask cmask rows) fmt [1, 2, 3, 4, 5, 6, 7] src
      (entriesOf · rows.toNat) (blockRows · rows.toNat) s (fun r e => Joins (.mma fmt bank ck acc src rmask cmask rows)
        (.mma fmt bank ck acc src rmask cmask rows) s r e src 0 fun o => o.rmask = s.rd.rs rmask ∧ o.cmask = s.rd.rs cmask
          ∧ o.scale = scaleOf s r 127 ∧ ∀ k n, k < 64 → n < 64 →
            let g := Store.get 0 s.myEngine.cfg s.myEngine.plane
            let w := Store.get (FVal.fin false 0 0) s.myEngine.planes
              (4096 * s.myEngine.plane + if g.getLsbD 0 then 64 * n + k else 64 * k + n)
            Store.get (FVal.fin false 0 0) o.wts (64 * k + n) = if g.getLsbD 1 then w.negate else w)
    ∧ EngineSlot (.mchk bank sr_ tol b) (.mchk bank sr_ tol b) 0 [0] .none (fun _ => 0) (fun _ => true) s (fun r e =>
        Joins (.mchk bank sr_ tol b) (.mchk bank sr_ tol b) s r e .none 0 fun _ => True)
    ∧ EngineSlot (.kread bank ix src col) (.kread bank ix src col) 0 [0] src (fun _ => 4) (fun _ => true) s (fun r e =>
        Joins (.kread bank ix src col) (.kread bank ix src col) s r e src 0 fun _ => True)
    ∧ EngineSlot (.kwrite bank ix src col) (.kwrite bank ix src col) 0 [0] src (fun _ => 4) (fun _ => true) s (fun r e =>
        Joins (.kwrite bank ix src col) (.kwrite bank ix src col) s r e src 0 fun _ => True)
    ∧ EngineSlot (.kadd bank ix src col) (.kadd bank ix src col) 0 [0] src (fun _ => 4) (fun _ => true) s (fun r e =>
        Joins (.kadd bank ix src col) (.kadd bank ix src col) s r e src 0 fun _ => True)
    ∧ EngineSlot (.kreadck bank src col) (.kreadck bank src col) 0 [0] src (fun _ => 4) (fun _ => true) s (fun r e =>
        Joins (.kreadck bank src col) (.kreadck bank src col) s r e src 0 fun _ => True)
    ∧ (Decode.isPort src = false → EngineSlot (.mdrain fmt bank src rows scale sr clip) (.mdrain fmt bank src rows scale sr clip) fmt
        (List.range 14) src (entriesOf · rows.toNat) (blockRows · rows.toNat) s (fun r e =>
        Joins (.mdrain fmt bank src rows scale sr clip) (.mdrain fmt bank src rows scale sr clip) s r e src
          (if sr then 64 * rows.toNat else 0) fun o => o.scale = scaleOf s r scale
            ∧ o.rnd = if sr then draw (s.rank s.rd.rank).key s.c.stream (64 * rows.toNat) else []))
    ∧ (p.toNat ≤ 4 → s.rd.ports = [] → s.c.ports = [] →
      EngineSlot (.mdrain 0 bank (.port p) rows scale false clip) (.mdrain 0 bank (.port p) rows scale false clip) 0 (List.range 14)
        (.port p) (fun _ => 0) (fun _ => true) s (fun _ _ => ∃ t o, exec (.mdrain 0 bank (.port p) rows scale false clip) s = .next t
          ∧ t.c.mops = s.c.mops ++ [o] ∧ o.ref = s.nextRef ∧ o.instr = .mdrain 0 bank (.port p) rows scale false clip ∧ o.age = 0
          ∧ (∀ k, Store.get none t.c.ports k = if p.toNat ≤ k ∧ k ≤ p.toNat + 3 then some ⟨o.ref, false, []⟩ else none)
          ∧ { t with c := { t.c with mops := s.c.mops, ports := s.c.ports }, nextRef := s.nextRef } = s))

def finite (v : FVal) : Prop := v.isNan = false ∧ v.isInf = false
def sumRat (l : List Rat) : Rat := l.foldl (· + ·) 0

/-- The code of element n of a row whose image words are given, elements of w bits. -/
def codeOf (w : Nat) (ws : List Word) (n : Nat) : Nat := (ws.getD (n * w / 32) 0).toNat / 2 ^ (n * w % 32) % 2 ^ w

/-- R340: `mload` reads row j of its image in cycle j, and writes its 64 elements into its row of the plane two cycles later, each
decoded exactly and multiplied by 2^(127 - S); no other element of a plane changes. (A block format's decoding is R153's.) -/
def MloadRows : Prop :=
  ∀ (o : MOp) (c : Ctx) (e : Engine) (fmt : BitVec 4) (p : BitVec 1) (src : Opnd) (rows : BitVec 8) (row0 : BitVec 6) (j : Nat),
    o.instr = .mload fmt p src rows row0 → o.fmt ∈ [1, 2, 3, 4, 5] → o.plane ≤ 1 → row0.toNat + rows.toNat ≤ 64 →
    (o.age = j → j < rows.toNat → o.zero = false → (o.act c e).1.words = o.words ++ [(List.range (entriesOf o.fmt 1)).flatMap fun i =>
        c.rvs ((o.entry + (entriesOf o.fmt j + i)) % max 1 o.win)])
    ∧ (o.age = j + 2 → j < rows.toNat → j < o.words.length → ∀ q k n, q ≤ 1 → k < 64 → n < 64 →
      let w : Nat := if o.fmt ≤ 2 then 16 else if o.fmt ≤ 4 then 8 else 4
      let v := (decodeF o.fmt false o.xv (BitVec.ofNat 32 (codeOf w (o.words.getD j []) n))).v
      let new : FVal := match v with
        | .nan _ _ => .cnan
        | v => if o.scale = 255 then .cnan else match v with
          | .fin s m x => if m = 0 then .fin s 0 0 else .fin s m (x + 127 - o.scale.toNat)
          | v => v
      Store.get (FVal.fin false 0 0) (o.act c e).2.planes (4096 * q + 64 * k + n)
        = if q = o.plane ∧ k = row0.toNat + j then new else Store.get (FVal.fin false 0 0) e.planes (4096 * q + 64 * k + n))

/-- R343: `mma` writes row r of its bank 12 + ⌊r/ρ⌋ cycles after issue: in each selected row and column the old value, or +0 without
ACC, plus the exact sum of the 64 products, rounded once; every other element stays. CK = 0 clears CKV with the last row. -/
def MmaRows : Prop :=
  ∀ (o : MOp) (c : Ctx) (e : Engine) (fmt : BitVec 4) (b : BitVec 3) (ck acc : Bool) (src : Opnd) (rm cm : BitVec 6) (rows : BitVec 8)
      (cyc : Nat),
    let rate : Nat := if o.fmt ≤ 2 then 1 else if o.fmt = 5 ∨ o.fmt = 7 then 4 else 2
    let a (r k : Nat) : FVal := (rowElems o.fmt o.xv o.scale (o.words.getD r []) r).getD k (.fin false 0 0)
    let w (k n : Nat) : FVal := Store.get (FVal.fin false 0 0) o.wts (64 * k + n)
    o.instr = .mma fmt b ck acc src rm cm rows → o.fmt ∈ [1, 2, 3, 4, 5, 6, 7] → o.age = 12 + cyc → rows.toNat ≤ 64 →
    (∀ r, r < rows.toNat → r / rate = cyc → r < o.words.length) →
    (∀ (b' : BitVec 3) r n, r < 64 → n < 64 →
      let old := if acc then f32Val (e.elem b r n) else .fin false 0 0
      if b' = b ∧ r < rows.toNat ∧ r / rate = cyc ∧ o.rmask.getLsbD r = true ∧ o.cmask.getLsbD n = true then
        (finite old → (∀ k, k < 64 → finite (a r k) ∧ finite (w k n)) → ∃ x, finite x ∧ (o.act c e).2.elem b' r n = roundF32 x
          ∧ ratOf x = ratOf old + sumRat ((List.range 64).map fun k => ratOf (a r k) * ratOf (w k n)))
      else (o.act c e).2.elem b' r n = e.elem b' r n)
    ∧ (ck = false → (rows.toNat + rate - 1) / rate = cyc + 1 → (o.act c e).2.ckv = e.ckv &&& ~~~(BitVec.twoPow 8 b.toNat))
    ∧ (ck = true → e.ckv.getLsbD b.toNat = false → (o.act c e).2.cr = e.cr ∧ (o.act c e).2.cc = e.cc ∧ (o.act c e).2.ckv = e.ckv)

/-- R345: `mclr` joins the operations in flight, and one cycle later sets all 4,096 elements of its bank to +0; with CK it also sets CR and
CC to +0 and CKV to 1, without it CKV to 0. No other bank, checksum or plane changes. -/
def BankCleared : Prop :=
  (∀ (s : State) (bank : BitVec 3) (ck : Bool), s.c.rank < 131072 →
    EngineSlot (.mclr bank ck) (.mclr bank ck) 0 [0] .none (fun _ => 0) (fun _ => true) s (fun r e =>
      Joins (.mclr bank ck) (.mclr bank ck) s r e .none 0 fun _ => True))
  ∧ ∀ (o : MOp) (c : Ctx) (e : Engine) (b : BitVec 3) (ck : Bool),
    let new := (o.act c e).2
    (o.instr = .mclr b ck → o.age = 1 →
      (∀ (b' : BitVec 3) r n, r < 64 → n < 64 → new.elem b' r n = if b' = b then 0 else e.elem b' r n)
      ∧ (∀ k, k < 8 → new.ckv.getLsbD k = if k = b.toNat then ck else e.ckv.getLsbD k)
      ∧ (∀ (b' : BitVec 3) r, r < 64 → Store.get 0 new.cr (64 * b'.toNat + r) = if b' = b ∧ ck = true then 0 else Store.get 0 e.cr (64 * b'.toNat + r))
      ∧ (∀ (b' : BitVec 3) r, r < 64 → Store.get 0 new.cc (64 * b'.toNat + r) = if b' = b ∧ ck = true then 0 else Store.get 0 e.cc (64 * b'.toNat + r))
      ∧ new.planes = e.planes)

/-- R337, R349: what `kwrite` and `kadd` do to their bank, and when they read their entries; every other element stays. -/
def BankWrites : Prop :=
  ∀ (o : MOp) (c : Ctx) (e : Engine) (b : BitVec 3) (col : Bool) (ix : BitVec 6) (v : Opnd),
    let new := (o.act c e).2
    (o.instr = .kwrite b ix v col →
      (o.age ≠ 1 → o.act c e = (o, e))
      ∧ (o.age = 1 → ∀ (b' : BitVec 3) r n, r < 64 → n < 64 → new.elem b' r n =
          if b' = b ∧ (if col then n else r) = ix.toNat then
            ((List.range 4).flatMap fun j => c.rvs ((o.entry + j) % max 1 o.win)).getD (if col then r else n) 0
          else e.elem b' r n)
      ∧ (o.age = 1 → new.ckv = e.ckv &&& ~~~(BitVec.twoPow 8 b.toNat)))
    ∧ (o.instr = .kadd b ix v col → o.age = 4 → new.ckv = e.ckv ∧ ∀ (b' : BitVec 3) r n, r < 64 → n < 64 →
        let add := ((List.range 4).flatMap fun j => c.rvs ((o.entry + j) % max 1 o.win)).getD (if col then r else n) 0
        new.elem b' r n = if b' = b ∧ (if col then n else r) = ix.toNat then
            (if (f32Val add).isZero then e.elem b r n else roundF32 (addX (f32Val (e.elem b r n)) (f32Val add)))
          else e.elem b' r n)

/-- R346, R348, R349: what `mdrain`, `kread` and `kreadck` land in the window, and when; `mdrain` leaves its bank as it is. -/
def BankReads : Prop :=
  ∀ (o : MOp) (c : Ctx) (e : Engine) (fmt : BitVec 4) (b : BitVec 3) (ix : BitVec 6) (v : Opnd) (col sr clip : Bool) (rows scale : BitVec 8)
      (r : Nat),
    let new := (o.lands c e).2
    let four (ws : List Word) : Prop := ∀ m, m < 64 → new.rv ((o.entry + m / 16) % o.win) (m % 16) = ws.getD m 0
    64 ≤ o.win →
    (o.instr = .kread b ix v col → o.age = 3 →
      four ((List.range 64).map fun m => if col then e.elem b m ix.toNat else e.elem b ix.toNat m))
    ∧ (o.instr = .kreadck b v col → o.age = 3 →
      four ((List.range 64).map fun m => Store.get 0 (if col then e.cc else e.cr) (64 * b.toNat + m)))
    ∧ (o.instr = .mdrain fmt b v rows scale sr clip → Decode.isPort v = false →
      (o.age = r → r < rows.toNat → (o.act c e).1.words = o.words ++ [(List.range 64).map (e.elem b r)] ∧ (o.act c e).2 = e)
      ∧ (o.age = r + 5 → r < rows.toNat → o.fmt ∈ [0, 8, 9] → (o.words.getD r []).length = 64 → ∀ m, m < 64 →
        let x := drainVal o.fmt o.ftz o.scale clip ((o.words.getD r []).getD m 0)
        let rnd : BitVec 16 := (o.rnd.getD (64 * r + m) 0).extractLsb' 16 16
        let mode : Nat := if sr then 2 else 0
        new.rv ((o.entry + (4 * r + m / 16)) % o.win) (m % 16) =
          if o.fmt = 0 then (roundTo 0 mode clip o.ftz (o.xv.getLsbD 8) rnd (.val x)).1 else (floatToInt o.fmt mode clip rnd x).1))

/-- R346, R145: the first two steps of a drain of a finite element: the exact product with 2^(E - 127), and the clip to FMT's range;
under FTZ a subnormal element counts as zero. -/
def DrainSteps : Prop :=
  ∀ (f : Nat) (ftz : Bool) (scale : BitVec 8) (clip : Bool) (w : Word), finite (f32Val w) → scale ≠ 255 →
    let v : Rat := if ftz = true ∧ w.toNat / 2 ^ 23 % 256 = 0 then 0 else ratOf (f32Val w)
    let d := drainVal f ftz scale clip w
    let x := v * 2 ^ scale.toNat / 2 ^ 127
    (clip = false → ratOf d = x)
    ∧ (clip = true → f = 8 → ratOf d = max (-2147483648) (min 2147483647 x))
    ∧ (clip = true → f = 11 → ratOf d = max (-128) (min 127 x))

/-- R348: the masks of `mchk` on finite rows, columns and checksums: a bit is set where the difference exceeds 2^-K of the sum of
magnitudes; b is set where no bit is; with CKV clear the masks are all ones and b is 0. -/
def ChecksumsCompared : Prop :=
  ∀ (e : Engine) (b : BitVec 3) (tol : Nat),
    let mag (x : Rat) : Rat := max x (-x)
    let bad (xs : List Word) (ck : Word) : Prop :=
      mag (ratOf (f32Val ck) - sumRat (xs.map fun w => ratOf (f32Val w))) * 2 ^ tol > sumRat (xs.map fun w => mag (ratOf (f32Val w)))
    let fine (xs : List Word) (ck : Word) : Prop := finite (f32Val ck) ∧ ∀ w ∈ xs, finite (f32Val w)
    let rowOf (r : Nat) : List Word := (List.range 64).map fun n => e.elem b r n
    let colOf (n : Nat) : List Word := (List.range 64).map fun r => e.elem b r n
    let cr (r : Nat) : Word := Store.get 0 e.cr (64 * b.toNat + r)
    let cc (n : Nat) : Word := Store.get 0 e.cc (64 * b.toNat + n)
    (e.ckv.getLsbD b.toNat = true →
      (∀ r, r < 64 → fine (rowOf r) (cr r) → ((e.check b tol).1.getLsbD r = true ↔ bad (rowOf r) (cr r)))
      ∧ (∀ n, n < 64 → fine (colOf n) (cc n) → ((e.check b tol).2.1.getLsbD n = true ↔ bad (colOf n) (cc n)))
      ∧ ((e.check b tol).2.2 = true ↔ (e.check b tol).1 = 0 ∧ (e.check b tol).2.1 = 0))
    ∧ (e.ckv.getLsbD b.toNat = false → e.check b tol = (BitVec.allOnes 64, BitVec.allOnes 64, false))

/-- R336, R337, R346, R348: the completion of an operation: it leaves those in flight; `mchk` writes its two masks and its predicate;
`mdrain` enters its flags; the others change nothing more. A rewind point set after its issue takes the same (log 27). -/
def MatrixCompletes : Prop :=
  ∀ (s : State) (id : Nat) (o : MOp), s.c.mops.find? (fun x => x.ref = id) = some o →
    let left := s.c.mops.filter fun x => x.ref ≠ id
    let snapWith (g : Regs → Regs) : Option Regs := s.c.snap.map fun x => if id < s.c.point then g x.toRegs else x.toRegs
    (∀ bank r tol b, o.instr = .mchk bank r tol b → 1 ≤ r.toNat → r.toNat ≤ 62 → ∃ t, exec (.matrixOperationComplete id) s = .next t
      ∧ (∀ j, t.c.rs j = if j = r + 1 then (o.words.getD 0 []).getD 3 0 ++ (o.words.getD 0 []).getD 2 0
          else if j = r then (o.words.getD 0 []).getD 1 0 ++ (o.words.getD 0 []).getD 0 0 else s.c.rs j)
      ∧ (∀ j, t.c.rb j = if j = b ∧ b ≠ 0 then decide ((o.words.getD 0 []).getD 4 0 = 1) else s.c.rb j)
      ∧ t.c.snap.map (·.toRegs) = snapWith (fun g => ((({ s.c with toRegs := g }.ws r ((o.words.getD 0 []).getD 1 0 ++ (o.words.getD 0 []).getD 0 0)).ws
          (r + 1) ((o.words.getD 0 []).getD 3 0 ++ (o.words.getD 0 []).getD 2 0)).wb b (decide ((o.words.getD 0 []).getD 4 0 = 1))).toRegs)
      ∧ t.c.mops = left ∧ { t with c :=
        { t.c with mops := s.c.mops, s := s.c.s, b := s.c.b, bad := s.c.bad, tw := s.c.tw, snap := s.c.snap } } = s)
    ∧ (∀ f b d n k x y, o.instr = .mdrain f b d n k x y → ∃ t, exec (.matrixOperationComplete id) s = .next t
      ∧ t.c.snap.map (·.toRegs) = snapWith (fun g => { g with asticky := g.asticky ||| o.fl.setWidth 16 })
      ∧ { t with c := { t.c with snap := s.c.snap } }
          = { s with c := { s.c with mops := left, asticky := s.c.asticky ||| o.fl.setWidth 16 } })
    ∧ ((∀ bank r tol b, o.instr ≠ .mchk bank r tol b) → (∀ f b d n k x y, o.instr ≠ .mdrain f b d n k x y) →
      exec (.matrixOperationComplete id) s = .next { s with c := { s.c with mops := left } })

/-- An X slot may perform: the scalars it names have valid residues, its completion object checks (s0 names none), and no access of
its strand waits (R351 to R353). -/
def XReady (s : State) (ss : List (BitVec 6)) (co : BitVec 6) (o : Option Nat) : Prop :=
  (∀ r ∈ ss, s.rd.sBad r = false) ∧ s.feq = []
  ∧ (if co = 0 then o = none else ∃ loc, s.check s.c (s.rd.rs co) 0 8 .write true = .ok loc ∧ o = some loc)

/-- The command has performed: the next bundle sets a rewind point (R218). -/
def performed (s : State) : State := { s with c := { s.c with mark := true } }

/-- The rest of the machine, the lists of engine operations and what checks touch apart. -/
def OnlyEngines (s t : State) : Prop :=
  { t with c := { t.c with mark := s.c.mark }, copies := s.copies, colls := s.colls, decs := s.decs, agenda := s.agenda
           nextRef := s.nextRef, tlb1 := s.tlb1, tlb2 := s.tlb2, slices := s.slices, dies := s.dies, host := s.host, out := s.out } = s

/-- R353, R355: `cp` and `cp2d`: refused exactly on a reserved bit, a pitch below W, or a value off 4 bytes; a count of 0 raises SRC and
LAND at once; with the four copies of the core in flight the bundle is held; else one copy more is in flight, with the pieces
of its rows as its own checks found them, or none and failed. -/
def CopyIssues : Prop :=
  ∀ (s : State) (p q co : BitVec 6) (sc : BitVec 3) (cnt : Bool) (o : Option Nat),
    let dst := s.rd.rs p
    let src := s.rd.rs q
    let n := s.rd.rs (q + 1)
    let pc := s.rd.rs (p + 1)
    let clean : Prop := cnt = true → pc.toNat / 2 ^ 6 % 2 ^ 42 = 0
    let room (s : State) : Prop := (s.copies.filter fun c => c.core = s.c.core).length < 4
    let m := performed s
    let off (a : DWord) : Prop := a.toNat % 4 ≠ 0
    XReady s ([p, q, q + 1, q + 2, co] ++ if cnt then [p + 1] else []) co o →
    ((2 ^ 32 ≤ n.toNat ∨ ¬ clean) → exec (.cp p q co sc cnt) s = s.trap (slotTrap s 0x01))
    ∧ (n.toNat < 2 ^ 32 → clean →
      (off dst → exec (.cp p q co sc cnt) s = s.trap ⟨0x08, 0, 0, 0, dst⟩)
      ∧ (¬ off dst → off src → exec (.cp p q co sc cnt) s = s.trap ⟨0x08, 0, 0, 0, src⟩)
      ∧ (¬ off dst → ¬ off src → off n → exec (.cp p q co sc cnt) s = s.trap ⟨0x08, 0, 0, 0, n⟩)
      ∧ (¬ off dst → ¬ off src → ¬ off n →
        (¬ room s → exec (.cp p q co sc cnt) s = .next { m with stall := some .hold })
        ∧ (room s → n = 0 → exec (.cp p q co sc cnt) s = .next (m.signal o 1 1 false))
        ∧ (room s → n ≠ 0 → (s.rank s.c.rank).st ≠ .ending → ∃ t c, exec (.cp p q co sc cnt) s = .next t ∧ t.copies = s.copies ++ [c]
          ∧ .copySourceRelease c.id ∈ t.agenda ∧ c.id = s.nextRef ∧ c.core = s.c.core ∧ c.rank = s.c.rank ∧ c.co = o ∧ c.read = false
          ∧ c.line = (if cnt then some (pc.extractLsb' 0 6) else none) ∧ c.party = pc.extractLsb' 48 16 ∧ c.bytes = n.toNat
          ∧ (∀ a b, m.pieces m.c .read src n.toNat = .ok [(a, n.toNat)] → m.pieces m.c .write dst n.toNat = .ok [(b, n.toNat)] →
              c.fail = false ∧ c.segs = [(a, b, n.toNat)])
          ∧ ((∃ e, m.pieces m.c .read src n.toNat = .error e) ∨ (∃ e, m.pieces m.c .write dst n.toNat = .error e) → c.fail = true)
          ∧ OnlyEngines s t)))
    ∧ (let w := n.toNat / 2 ^ 32
       let h := n.toNat % 2 ^ 32
       let sp := (s.rd.rs (q + 2)).toNat / 2 ^ 32
       let dp := (s.rd.rs (q + 2)).toNat % 2 ^ 32
       ((¬ clean ∨ (1 < h ∧ dp < w)) → exec (.cp2d p q co sc cnt) s = s.trap (slotTrap s 0x01))
       ∧ (clean → (1 < h → w ≤ dp ∧ sp % 4 = 0 ∧ dp % 4 = 0) → ¬ off dst → ¬ off src → w % 4 = 0 → room s →
         (w * h = 0 → exec (.cp2d p q co sc cnt) s = .next (m.signal o 1 1 false))
         ∧ (w * h ≠ 0 → (s.rank s.c.rank).st ≠ .ending → ∃ t c, exec (.cp2d p q co sc cnt) s = .next t ∧ t.copies = s.copies ++ [c]
           ∧ .copySourceRelease c.id ∈ t.agenda ∧ c.id = s.nextRef ∧ c.co = o ∧ c.bytes = w * h ∧ OnlyEngines s t
           ∧ (∀ f g : Nat → Nat, (∀ i, i < h → m.pieces m.c .read (src + BitVec.ofNat 64 (sp * i)) w = .ok [(f i, w)]
                ∧ m.pieces m.c .write (dst + BitVec.ofNat 64 (dp * i)) w = .ok [(g i, w)]) →
              c.fail = false ∧ c.segs = (List.range h).map fun i => (f i, g i, w)))))

/-- R353, R356: the steps of a copy: a failed translation pass ends it with SRC and LAND and FAIL; else the source is read whole and
SRC rises; its landing writes the bytes as they were read, whatever the overlap, then raises LAND. -/
def CopyMoves : Prop :=
  ∀ (s : State) (id : Nat) (c : Copy) (a b n : Nat) (bs : List Byte) (marks : List Bool), s.copyOf id = some c →
    let rest := { s with copies := s.copies.filter fun x => x.id ≠ id }
    (s.ready id = false → exec (.copySourceRelease id) s = .next (s.park id))
    ∧ (s.ready id = true → c.fail = true → exec (.copySourceRelease id) s = .next (rest.signal c.co 1 1 true))
    ∧ (c.fail = false → s.ready id = true → c.segs = [(a, b, n)] → ∃ u t : State, exec (.copySourceRelease id) s = .next t
      ∧ t = { u.signal c.co 1 0 false with agenda := (u.signal c.co 1 0 false).agenda ++ [.copyLanding id] }
      ∧ u.copies = s.copies.map (fun x => if x.id = id then { c with read := true, data := [(b, s.bytesNow a n,
          (List.range n).map fun i => s.marked (a + i))] } else x)
      ∧ { u with copies := s.copies, agenda := s.agenda } = s)
    ∧ (c.read = true → c.data = [(b, bs, marks)] → c.line = none → s.heldLines (linesOf b bs.length) = [] → marks.all (fun x => !x) = true →
      s.wq = [] → ∃ u : State, exec (.copyLanding id) s = .next (u.signal c.co 0 1 false)
      ∧ (∀ j, u.byte j = if b ≤ j ∧ j < b + bs.length then bs.getD (j - b) 0 else s.byte j)
      ∧ (∀ l, isDev (128 * l) = true → u.version l = s.version l + if l ∈ linesOf b bs.length then 1 else 0)
      ∧ u.copies = rest.copies ∧ u.c = s.c ∧ u.ctxs = s.ctxs)
    ∧ (c.read = true → c.data = [(b, bs, marks)] → s.heldLines (linesOf b bs.length) ≠ [] →
      exec (.copyLanding id) s = .next (s.snoop (pieceLines [(b, bs.length)]) [.copyLanding id]))

/-- The code of a collective's op (R357). -/
def collCode (x : CollOp) : Nat :=
  match x with
  | .addF32 => 0
  | .addBf16 => 1
  | .maxF32 => 2
  | .addS32 => 3

/-- R353, R357, R358: a collective's descriptor is read and checked; the record joins those in flight at its party, with op, op's
form, COUNT and ROOT, and the party says to the others what they compare; a collective of one party exchanges at once. A TAG still in
flight holds its bundle, and so do sixteen in flight. -/
def CollectiveIssues : Prop :=
  ∀ (s : State) (p co : BitVec 6) (x : CollOp) (o : Option Nat) (ps : List (Nat × Nat)) (me : Nat),
    let va := s.rd.rs p
    let f := s.readPieces ps
    let d := cdescOf f
    let m := performed s
    let mine := s.colls.filter fun c => c.rank = s.c.rank
    let joins (i : Instr) (op minor : Nat) : Prop :=
      (d.ok op minor (s.rank s.c.rank).vhdr = false → exec i s = s.trap (slotTrap s 0x01))
      ∧ (d.ok op minor (s.rank s.c.rank).vhdr = true → d.sbuf.toNat % 128 = 0 → d.dbuf.toNat % 128 = 0 →
        ((∃ c ∈ mine, c.tag = d.tag) → exec i s = .next { m with stall := some .hold })
        ∧ ((∀ c ∈ mine, c.tag ≠ d.tag) → 16 ≤ mine.length → exec i s = .next { m with stall := some .hold })
        ∧ ((∀ c ∈ mine, c.tag ≠ d.tag) → mine.length < 16 → (s.rank s.c.rank).st ≠ .ending → ∃ t c, exec i s = .next t
          ∧ t.colls.map (·.id) = s.colls.map (·.id) ++ [s.nextRef] ∧ c ∈ t.colls ∧ c.id = s.nextRef ∧ c.told = true
          ∧ (d.nr = 1 → ∃ same, .collParameterExchange s.nextRef same ∈ t.agenda)
          ∧ c.rank = s.c.rank ∧ c.op = op ∧ c.minor = minor ∧ c.party = me ∧ c.co = o
          ∧ c.tag = field f 20 4 ∧ c.base = field f 24 4 ∧ c.parties = field f 28 4 ∧ c.stride = field f 32 4
          ∧ c.root = field f 36 4 ∧ c.count = field f 16 4 ∧ c.coVa = (if co = 0 then 0 else s.rd.rs co) ∧ c.landed = false ∧ c.started = false ∧ c.own = none ∧ c.result = none
          ∧ (c.srcUp = true ↔ op = 3 ∧ me ≠ d.root)))
    (∀ x ∈ s.colls, x.id ≠ s.nextRef) → XReady s [p, co] co o → va.toNat % 64 = 0 → s.pieces s.c .read va 64 = .ok ps → Readable s ps →
    d.partyOf s.c.rank = some me →
    joins (.collAr p co x) 0 (collCode x) ∧ joins (.collRs p co x) 1 (collCode x) ∧ joins (.collAg p co) 2 0 ∧ joins (.collBc p co) 3 0

/-- R357: the parties of a descriptor. -/
def PartiesNumbered : Prop :=
  ∀ (d : CDesc) (j : Nat), d.nr ≠ 0 → j < d.nr → (d.nr = 1 ∨ d.stride ≠ 0) → d.partyOf (d.base + d.stride * j) = some j

/-- R35, R358, R360, R404: the steps of a collective at a party; its words keep the poison marks of what they come from. -/
def CollectiveMoves : Prop :=
  ∀ (s : State) (id : Nat) (c : Coll) (q : Nat) (data : CWords), s.coll id = some c → c.id = id → c.landed = false →
    let others (k : Check) : Bool := !decide (k.tag = c.tag ∧ k.base = c.base ∧ k.parties = c.parties ∧ k.stride = c.stride)
    let rest := { s with
      colls := s.colls.filter fun x => x.id ≠ id
      fab := if c.group ≠ 0 then s.fab else { s.fab with checks := s.fab.checks.filter others } }
    let src : Nat := if c.srcUp then 0 else 1
    (c.started = false → c.ok = false → ∀ same, exec (.collParameterExchange id same) s = .next (rest.signal c.co src 1 true))
    ∧ (c.started = false → exec (.collParameterExchange id false) s = .next (rest.signal c.co src 1 true))
    ∧ (c.started = false → c.ok = true → c.reads = true → c.cutFrom = [] → exec (.collParameterExchange id true) s = .next
      { s with colls := s.colls.map fun x => if x.id = id then { c with started := true } else x
               agenda := s.agenda ++ [.collSourceRelease id] })
    ∧ (c.started = true → c.own = none → ∃ u : State, exec (.collSourceRelease id) s = .next ((u.signal c.co src 0 false).collGo id)
      ∧ u.colls = s.colls.map (fun x => if x.id = id then
          { c with own := some (leafWords c.op c.minor (s.readPieces c.spieces) (s.marksOf c.spieces)), srcUp := true } else x)
      ∧ { u with colls := s.colls, agenda := s.agenda } = s)
    ∧ (c.result = none → c.op ≠ 3 → c.own = none → (∀ e ∈ c.ins, e.1 ≠ q) → exec (.collEdgeArrival id q false data) s = .next
      { s with colls := s.colls.map fun x => if x.id = id then { c with ins := c.ins ++ [(q, data)] } else x })
    ∧ (c.started = true → c.result = none → c.sentDown = false → treeChildren c.party c.parties = [] →
      ∃ t, exec (.collEdgeArrival id q true data) s = .next t
      ∧ t.colls = s.colls.map (fun x => if x.id = id then { c with result := some data, sentDown := true } else x)
      ∧ t.agenda = s.agenda ++ [.collLanding id false] ∧ { t with colls := s.colls, agenda := s.agenda } = s)
    ∧ (∃ u : State, exec (.collLanding id true) s = .next (u.signal c.co src 1 true) ∧ u.colls = rest.colls ∧ u.mem = s.mem
      ∧ u.ver = s.ver ∧ u.c = s.c ∧ u.ctxs = s.ctxs ∧ u.ranks = s.ranks)
    ∧ (∀ r b n, c.result = some r → c.dpieces = [(b, n)] → c.waits = [] → let ws := c.mine r
      let bytes := finalBytes c.op c.minor (ws.map (·.1))
      bytes.length = n → s.heldLines (linesOf b n) = [] → s.wq = [] →
      ∃ u : State, exec (.collLanding id false) s = .next (u.signal c.co src 1 false) ∧ u.colls = rest.colls
        ∧ (∀ j, u.byte j = if b ≤ j ∧ j < b + n then bytes.getD (j - b) 0 else s.byte j)
        ∧ (∀ i, i < ws.length → (ws.getD i (0, false)).2 = true → u.marked (b + collWidth c.op c.minor * i) = true)
        ∧ u.c = s.c ∧ u.ctxs = s.ctxs ∧ u.ranks = s.ranks)

/-- R359, R404: the tree's shape: party q is a child of p at a level l where 2^(l+1) divides p and q = p + 2^l; every party but 0 is a
child of its parent. -/
def TreeShape : Prop :=
  ∀ (p q nr : Nat), nr ≤ 65536 →
    (q ∈ treeChildren p nr ↔ ∃ l, l < 16 ∧ p % 2 ^ (l + 1) = 0 ∧ q = p + 2 ^ l ∧ q < nr)
    ∧ (0 < q → q < nr → q ∈ treeChildren (treeParent q) nr)

/-- R404: a party whose children have all sent sends its node to its parent, once; party 0 then holds the result, which it sends to
its children and lands; until then nothing moves. -/
def TreeSweeps : Prop :=
  ∀ (s : State) (id : Nat) (c : Coll) (own : CWords), s.coll id = some c → c.id = id → c.result = none → c.own = some own → c.op ≠ 3 →
    c.started = true → c.sentUp = false → c.sentDown = false →
    ((∃ q ∈ treeChildren c.party c.parties, ∀ e ∈ c.ins, e.1 ≠ q) → s.collGo id = s)
    ∧ ((∀ q ∈ treeChildren c.party c.parties, ∃ e ∈ c.ins, e.1 = q) →
      (c.party ≠ 0 → s.collGo id =
        State.edge { s with colls := s.colls.map fun (x : Coll) => if x.id = id then { c with sentUp := true } else x } id
        (treeParent c.party) false (some (c.node own)) (c.entryOf (treeParent c.party)))
      ∧ (c.party = 0 → ∃ t : State, s.collGo id = t ∧ .collLanding id false ∈ t.agenda
        ∧ ∃ x : Coll, x ∈ t.colls ∧ x.id = id ∧ x.result = some (c.node own) ∧ x.sentDown = true))

/-- R359, R35: a node of sums joins its own words with its only child's, element by element, marked where either is; `ag` joins the
words of the subtree. -/
def TreeNodes : Prop :=
  ∀ (c : Coll) (own x : CWords) (q : Nat), treeChildren c.party c.parties = [q] → c.ins = [(q, x)] →
    let word (l : CWords) (i : Nat) : Word := (l.getD i (0, false)).1
    let mark (l : CWords) (i : Nat) : Bool := (l.getD i (0, false)).2
    (c.op = 2 → c.node own = own ++ x)
    ∧ (c.op ≤ 1 → own.length = x.length → (c.node own).length = own.length ∧ ∀ i, i < own.length →
      (mark (c.node own) i = true ↔ mark own i = true ∨ mark x i = true)
      ∧ (c.minor = 3 → word (c.node own) i = word own i + word x i)
      ∧ (c.minor ≤ 1 → finite (f32Val (word own i)) → finite (f32Val (word x i)) → ∃ v, finite v
        ∧ word (c.node own) i = (roundTo 0 0 false false false 0 (.val v)).1
        ∧ ratOf v = ratOf (f32Val (word own i)) + ratOf (f32Val (word x i))))

/-- Scruple slot `k` of a rank on a core is x, and no other has changed. -/
def SlotIs (s t : State) (core rank k : Nat) (x : Scruple) : Prop :=
  (∀ c r j, r < 131072 → j < 16 → t.scr c r j = if c = core ∧ r = rank ∧ j = k then x else s.scr c r j)
    ∧ { t with scruple := s.scruple, c := { t.c with mark := s.c.mark } } = s

/-- R366 to R369: the Scruple commands and `seed`. A snapshot waits for the `mdrain`s before it that still read their banks (R367). -/
def ScrupleCommands : Prop :=
  ∀ (s : State) (n : BitVec 4) (p q co : BitVec 6) (o : Option Nat), s.c.rank < 131072 →
    let w := s.rd.rs p
    let v := s.rd.rs q
    let x := s.scr s.c.core s.c.rank n.toNat
    let becomes (i : Instr) (y : Scruple) : Prop := ∃ t, exec i s = .next t ∧ SlotIs s t s.c.core s.c.rank n.toNat y
    let good : Prop := w.toNat % 128 / 16 = 0 ∧ w.toNat < 256 ∧ w.toNat / 8 % 16 ≤ 1 ∧ -160 ≤ v.toInt ∧ v.toInt ≤ 127
    let above (b : Nat) : Nat := ((List.range 32).map fun i => if b < i then (Store.get 0 x.counts i).toNat else 0).sum
    let q16 := w.toNat
    let top : Int := if v = 1 ∨ v = 4 then 15 else if v = 2 then 127 else if v = 3 then 8 else 2
    let m := performed s
    (∀ y ∈ [p, q, co], s.rd.sBad y = false) →
    (good → becomes (.histOn n p q) ⟨s.c.seq % 4, [], 0, BitVec.ofInt 16 v.toInt, true, w.getLsbD 3, w.getLsbD 7, w.extractLsb' 0 3, x.scale, x.gen + 1⟩)
    ∧ (¬ good → exec (.histOn n p q) s = s.trap (slotTrap s 0x01))
    ∧ becomes (.histOff n) { x with on := false }
    ∧ (65536 ≤ q16 ∨ v.toNat < 1 ∨ 5 < v.toNat → exec (.hscale n p q) s = s.trap (slotTrap s 0x01))
    ∧ (q16 < 65536 → 1 ≤ v.toNat → v.toNat ≤ 5 →
      (x.total = 0 → becomes (.hscale n p q) { x with scale := 127 })
      ∧ (x.total ≠ 0 → ∀ b : Nat, b < 32 → above b ≤ q16 * x.total.toNat / 65536 → (∀ b', b' < b → q16 * x.total.toNat / 65536 < above b') →
        becomes (.hscale n p q) 
          { x with scale := (if b = 0 then 127 else BitVec.ofInt 8 (min 254 (max 0 (127 + top - (x.ebase.toInt + b - 1) - 1)))) }))
    ∧ (w.toNat % 256 ≠ 0 → exec (.histRd n p co) s = s.trap ⟨0x08, 0, 0, 0, w⟩)
    ∧ (w.toNat % 256 = 0 → XReady s [p, co] co o →
      let reads : Prop := ∃ c ∈ s.c :: s.ctxs.map (·.2), c.core = s.c.core ∧ c.rank = s.c.rank
        ∧ ∃ o ∈ c.mops, o.ref < s.issueRef ∧ ∃ f b d rows k x y, o.instr = .mdrain f b d rows k x y
          ∧ o.age < (if Decode.isPort d then 1 else rows.toNat)
      (∀ loc, m.check m.c w 0 256 .write false = .ok loc → isDev loc = true →
        let snap : Instr := .histSnapshot s.c.core s.c.rank n.toNat loc o
        (¬ reads → ∃ t, exec (.histRd n p co) s = .next t ∧ snap ∈ t.agenda ∧ t.nextRef = s.nextRef ∧ OnlyEngines s t)
        ∧ (reads → ∃ t, exec (.histRd n p co) s = .next t ∧ Store.get none t.pend s.nextRef = some (.event s.cur s.issueRef snap)
          ∧ s.nextRef ∈ t.feq ∧ OnlyEngines s { t with pend := s.pend, feq := s.feq }))
      ∧ (∀ loc, m.check m.c w 0 256 .write false = .ok loc → isDev loc = false → exec (.histRd n p co) s = .next (m.signal o 1 1 true))
      ∧ (∀ e, m.check m.c w 0 256 .write false = .error e → exec (.histRd n p co) s = .next (m.signal o 1 1 true)))
    ∧ exec (.seed p) s = .next { s with c := { s.c with stream := w, mark := true } }

/-- R367: the snapshot: SRC, then the 256 bytes, whose request departs (R82), then LAND; and their layout. -/
def SnapshotWritten : Prop :=
  ∀ (s : State) (core rank slot loc : Nat) (co : Option Nat) (x : Scruple),
    (s.heldLines (linesOf loc 256) = [] → exec (.histSnapshot core rank slot loc co) s
      = .next ((((s.signal co 1 0 false).write loc (s.scr core rank slot).image).departOf rank (linesOf loc 256) true).signal co 0 1 false))
    ∧ (s.heldLines (linesOf loc 256) ≠ [] →
      exec (.histSnapshot core rank slot loc co) s = .next (s.snoop (linesOf loc 256) [.histSnapshot core rank slot loc co]))
    ∧ x.image.length = 256 ∧ (∀ b, b < 32 → field x.image (4 * b) 4 = (Store.get 0 x.counts b).toNat)
    ∧ field x.image 0x80 4 = x.total.toNat ∧ field x.image 0x84 1 = x.scale.toNat
    ∧ field x.image 0x85 1 = (if x.on then 1 else 0) + (if x.drain then 2 else 0) + (if x.vst then 4 else 0)
    ∧ field x.image 0x86 2 = x.ebase.toNat ∧ field x.image 0x88 1 = x.bank.toNat ∧ ∀ j, 0x89 ≤ j → j < 256 → field x.image j 1 = 0

/-- R366: where one word is counted: zero in bin 0, an infinity in bin 31, a value of binary exponent e in the bin of R366, a NaN in
none. -/
def BinsCounted : Prop :=
  ∀ (x : Scruple) (w : Word), let v := f32Val w
    (v.isNan = true → x.count w = x)
    ∧ (∀ b : Nat, b < 32 → ((v.isZero = true ∧ b = 0) ∨ (v.isInf = true ∧ b = 31)
        ∨ (∃ n m e, v = .fin n m e ∧ m ≠ 0 ∧ (b : Int) = min 31 (max 1 ((m.log2 : Int) + e - x.ebase.toInt + 1)))) →
      (∀ k, Store.get 0 (x.count w).counts k = if k = b ∧ Store.get 0 x.counts b ≠ 0xFFFFFFFF then Store.get 0 x.counts b + 1
        else Store.get 0 x.counts k)
      ∧ (x.count w).total = (if x.total = 0xFFFFFFFF then x.total else x.total + 1)
      ∧ { x.count w with counts := x.counts, total := x.total } = x)

/-- R48, R353, R361: `dec`: a secure decoder from the non-secure world takes WORLD, a record with a bad field ILLEGAL, OUT outside the
aperture ALIGN; four records hold the bundle; else the command completes, and the record joins its decoder's queue, which it starts
if it stands alone. -/
def DecoderIssues : Prop :=
  ∀ (s : State) (d : BitVec 4) (p co : BitVec 6) (o : Option Nat) (ps : List (Nat × Nat)),
    let va := s.rd.rs p
    let bs := s.readPieces ps
    let b := decBlockOf bs
    let m := performed s
    let q := Store.get [] s.decs d.toNat
    (s.rd.sBad p = false → s.rd.sBad co = false → s.world.decoders.getLsbD d.toNat = true → s.secure = false →
      exec (.dec d p co) s = s.trap ⟨0x06, 0, 0xFF, BitVec.ofNat 32 (2 ^ 24 + d.toNat), 0⟩)
    ∧ ((s.world.decoders.getLsbD d.toNat = false ∨ s.secure = true) → XReady s [p, co] co o → va.toNat % 128 = 0 →
      s.pieces s.c .read va 128 = .ok ps → Readable s ps →
      (b.ok = false → exec (.dec d p co) s = s.trap (slotTrap s 0x01))
      ∧ (b.ok = true → inAperture b.out.toNat = false → exec (.dec d p co) s = s.trap ⟨0x08, 0, 0, 0, b.out⟩)
      ∧ (b.ok = true → inAperture b.out.toNat = true → b.ctx.toNat % 4096 = 0 → b.mask.toNat % 8 = 0 → b.stat.toNat % 64 = 0 →
        (4 ≤ q.length → exec (.dec d p co) s = .next { m with stall := some .hold })
        ∧ (q.length < 4 → (s.rank s.c.rank).st ≠ .ending → ∃ t, exec (.dec d p co) s = .next t
          ∧ (∀ k, Store.get [] t.decs k = if k = d.toNat then
              q ++ [⟨s.nextRef, bs, s.c.rank, s.c.seq, s.c.sv, o, false, false, false, false, false⟩] else Store.get [] s.decs k)
          ∧ { t with decs := s.decs, agenda := s.agenda, nextRef := s.nextRef } = m
          ∧ t.agenda = s.agenda ++ if q = [] then [.decoderRecordStart d] else [])))

/-- R361: the fields that `dec` admits. -/
def DecoderFields : Prop :=
  ∀ (bs : List Byte), let f := field bs
    ((decBlockOf bs).ok = true ↔
      (1 ≤ f 8 4 ∧ f 8 4 ≤ 2 ^ 24) ∧ f 12 2 ≤ 4095 ∧ f 14 1 ≤ 3 ∧ f 15 1 < 8 ∧ f 32 4 % 256 = 0 ∧ f 36 2 % 2 = 0 ∧ f 38 2 % 2 = 0
      ∧ (2 ≤ f 40 2 ∧ f 40 2 ≤ 4096 ∧ f 40 2 % 2 = 0) ∧ (2 ≤ f 42 2 ∧ f 42 2 ≤ 4096 ∧ f 42 2 % 2 = 0)
      ∧ f 40 2 * (if f 14 1 = 2 then 1 else 2) ≤ f 32 4 ∧ f 46 1 ≤ 63 ∧ f 47 1 = 0 ∧ f 64 64 = 0)

/-- With WAITIN, a decoder's wait is over (R363 step 2): its counter has been zero, or is, in a phase that the rank has armed. -/
def WaitOver (s : State) (d : BitVec 4) (r : DecRec) : Prop :=
  let b := decBlockOf r.block
  b.waitin = false ∨ r.met = true ∨ ∃ p, s.perchOf (BitVec.ofNat 6 b.line) = some p ∧ p.rank = r.rank
    ∧ ∃ x ∈ p.dests, x.party = BitVec.ofNat 16 (0x8000 + d.toNat) ∧ x.left = 0

/-- A plane of a frame stands in the window from `base` on (R363 step 5): a row every `pitch` bytes, elements of OFMT's width, the sample
of the frame at (x0 + i, y0 + r), or zero outside its w × h samples, as OFMT writes it. -/
def PlaneWritten (u : State) (b : DecBlock) (depth base pitch x0 y0 cols rows w h : Nat) (samples : List Nat) : Prop :=
  ∀ r i, r < rows → i < cols →
    let x := if x0 + i < w ∧ y0 + r < h then samples.getD (w * (y0 + r) + x0 + i) 0 else 0
    let at_ := base + pitch * r + i * (if b.ofmt = 2 then 1 else 2)
    let unit : Ex := if x = 0 then .val (.fin false 0 0) else .quo false x (2 ^ depth - 1) 0
    (b.ofmt = 0 → u.num at_ 2 = (roundTo 1 0 false false false 0 unit).1.toNat % 2 ^ 16)
    ∧ (b.ofmt = 1 → u.num at_ 2 = (roundTo 2 0 false false false 0 unit).1.toNat % 2 ^ 16)
    ∧ (b.ofmt = 2 → u.num at_ 1 = (if depth = 10 then min 255 ((x + 2) / 4) else x % 256))
    ∧ (b.ofmt = 3 → u.num at_ 2 = x % 2 ^ 16)

/-- R353, R363, R364: a decoder's record starts: a region that fails its check ends it with SRC, LAND and FAIL; with WAITIN it waits;
else it starts, its part of the line raised and its stream found BUSY or not; then the bitstream is read, SRC rises and BUSY is
set. -/
def DecoderStarts : Prop :=
  ∀ (s : State) (d : BitVec 4) (r : DecRec) (q : List DecRec) (xl n ol ml tl : Nat), s.decQ d = r :: q →
    let b := decBlockOf r.block
    let others (t : State) : Prop := ∀ k : BitVec 4, k ≠ d → t.decQ k = s.decQ k
    let regions := [[(xl, 4096)], [(ol, n)], [(ml, 8)], [(tl, 64)]]
    let cached (t : State) : Prop := { t with decs := s.decs, agenda := s.agenda, tlb1 := s.tlb1, tlb2 := s.tlb2, slices := s.slices
                                              dies := s.dies, host := s.host, out := s.out } = s
    (r.started = false → s.opWaits r.id = false → (r.checked = false ∨ WaitOver s d r) → s.decRegions r = none →
      ∃ u : State, exec (.decoderRecordStart d) s = .next (u.signal r.co 1 1 true) ∧ u.decQ d = q ∧ others u ∧ { u with decs := s.decs } = s)
    ∧ (r.started = false → s.opWaits r.id = false → r.checked = false → ¬ WaitOver s d r → s.decRegions r = some regions →
      ∃ t, exec (.decoderRecordStart d) s = .next t ∧ t.decQ d = { r with checked := true } :: q ∧ others t ∧ cached t)
    ∧ (r.started = false → s.opWaits r.id = false → WaitOver s d r → s.decRegions r = some regions →
      ∃ t, exec (.decoderRecordStart d) s = .next t ∧ .decoderSourceRelease d ∈ t.agenda ∧ t.mem = s.mem
      ∧ (∃ h, t.decQ d = h :: q ∧ h.started = true ∧ h.busy = ((s.bytesNow xl 4096).getD 8 0).getLsbD 0 ∧ h.block = r.block ∧ h.co = r.co)
      ∧ (b.waitin = false → others t ∧ cached t))
    ∧ (r.started = true → r.srcUp = false → s.decRegions r = some regions → ∃ v : State, v.decQ d = { r with srcUp := true } :: q ∧ others v
      ∧ { v with decs := s.decs, agenda := s.agenda } = s
      ∧ (r.busy = true → exec (.decoderSourceRelease d) s = .next (v.signal r.co 1 0 false))
      ∧ (r.busy = false → s.heldLines (linesOf (xl + 8) 1) = [] → let u := v.signal r.co 1 0 false
        exec (.decoderSourceRelease d) s
          = .next ((u.writeAll [(xl + 8, [(s.bytesNow xl 4096).getD 8 0 ||| 1])]).departOf r.rank (linesOf (xl + 8) 1) true)))

/-- R362 to R365: a frame done: its window stands at OUT, zero where STATUS is 3 or 4; its mask bit is clear unless it is valid; the
stream's context has BUSY clear, SEQ, TAINT, RVALID and FRAMES as the frame leaves them, but for a BUSY record, which leaves it; its
status record stands at STAT; its bytes are counted, as a counted write of them is; LAND rises, and the next record is at the head. -/
def DecoderMoves : Prop :=
  ∀ (s : State) (d : BitVec 4) (r : DecRec) (q : List DecRec) (f : Frame) (xl ol ml tl : Nat), s.decQ d = r :: q →
    let b := decBlockOf r.block
    let apart (a n a' n' : Nat) : Prop := a + n ≤ a' ∨ a' + n' ≤ a
    let e : Nat := if b.ofmt = 2 then 1 else 2
    let bytes : Nat := if b.chroma then b.w * b.h * e + b.w * b.h * e / 2 else b.w * b.h * e
    r.srcUp = true → b.ok = true → s.decRegions r = some [[(xl, 4096)], [(ol, b.span)], [(ml, 8)], [(tl, 64)]] →
    s.heldLines (pieceLines [(xl, 4096), (ol, b.span), (ml, 8), (tl, 64)]) = [] → s.wq = [] →
    apart xl 4096 ol b.span → apart xl 4096 ml 8 → apart xl 4096 tl 64 → apart ol b.span ml 8 → apart ol b.span tl 64 → apart ml 8 tl 64 →
    let cx (i : Nat) : Byte := s.byte (xl + i)
    let status : Nat := if r.busy = true then 4 else if f.status = 3 then 3
      else if f.status ≠ 0 ∨ f.shown = false ∨ f.refs &&& ~~~(cx 10) ≠ 0 then 1 else if f.refs &&& cx 9 ≠ 0 then 2 else 0
    let frames := s.num (xl + 12) 4 + if f.shown = true ∧ status < 3 then 1 else 0
    let fw := if status < 3 then f.width.toNat else 0
    let fh := if status < 3 then f.height.toNat else 0
    let refresh : BitVec 8 := if status = 3 then 0 else f.refresh
    ∃ v w u : State, exec (.decoderFrameDone d f) s = .next (u.signal r.co 0 1 false) ∧ u.decQ d = q ∧ { u with decs := w.decs } = w
      ∧ (b.counted = true → exec (.countedDecrement r.rank (BitVec.ofNat 6 b.line) b.party bytes) v = .next w)
      ∧ (b.counted = false → w = v) ∧ w.mem = v.mem
      ∧ PlaneWritten v b f.depth.toNat ol b.pitch b.x0 b.y0 b.w b.h fw fh f.luma
      ∧ (b.chroma = true →
        PlaneWritten v b f.depth.toNat (ol + b.pitch * b.h) (b.pitch / 2) (b.x0 / 2) (b.y0 / 2) (b.w / 2) (b.h / 2)
          ((fw + 1) / 2) ((fh + 1) / 2) f.chromaU
        ∧ PlaneWritten v b f.depth.toNat (ol + 5 * b.pitch * b.h / 4) (b.pitch / 2) (b.x0 / 2) (b.y0 / 2) (b.w / 2) (b.h / 2)
          ((fw + 1) / 2) ((fh + 1) / 2) f.chromaV)
      ∧ (∀ i, i < 64 → (v.num ml 8).testBit i = ((s.num ml 8).testBit i && decide (status = 0 ∨ i ≠ b.sample % 64)))
      ∧ (status = 4 → ∀ i, i < 4096 → v.byte (xl + i) = cx i)
      ∧ (status ≠ 4 → v.byte (xl + 8) = ((cx 8 &&& 2) ||| if f.seqHdr then 2 else 0)
        ∧ v.byte (xl + 9) = (if status = 0 then cx 9 &&& ~~~refresh else cx 9 ||| refresh)
        ∧ v.byte (xl + 10) = cx 10 ||| refresh ∧ v.num (xl + 12) 4 = frames % 2 ^ 32 ∧ ∀ i, i < 8 → v.byte (xl + i) = cx i)
      ∧ v.num tl 4 = status ∧ v.num (tl + 4) 4 = frames % 2 ^ 32 ∧ v.num (tl + 8) 2 = f.width.toNat ∧ v.num (tl + 10) 2 = f.height.toNat
      ∧ v.num (tl + 12) 2 = f.badTiles.toNat ∧ v.byte (tl + 14) = f.depth ∧ v.byte (tl + 15) = f.ftype ∧ v.num (tl + 16) 8 = s.time.toNat
      ∧ v.num (tl + 24) 2 = f.grain.toNat % 4

/-- A decoder's and a rank's end events complete in every state: what has nothing to do leaves the machine as it is (R361, R363). -/
def EventsAnswer : Prop :=
  ∀ (s : State) (d : BitVec 4) (f : Frame),
    (∃ t, exec (.decoderRecordStart d) s = .next t) ∧ (∃ t, exec (.decoderSourceRelease d) s = .next t)
    ∧ (∃ t, exec (.decoderFrameDone d f) s = .next t)
    ∧ (s.decQ d = [] → exec (.decoderRecordStart d) s = .next s ∧ exec (.decoderSourceRelease d) s = .next s
      ∧ exec (.decoderFrameDone d f) s = .next s)

/-- R217, R353, R370: the `migr` commands: a faulty residue rewinds; PRIV below supervisor level; a bit outside the fields ILLEGAL; a
result block off 16 bytes ALIGN; with an operation of the rank on hand all but `.end` freeze (log 71); a result block that fails the
engine's check ends the command with SRC, LAND and FAIL; else the operation is due, with its result block and completion object. -/
def LeagueCommands : Prop :=
  ∀ (s : State) (p q co : BitVec 6) (o : Option Nat),
    let b := s.rd.rs q
    let va := s.rd.rs p
    let rank := b.toNat / 2 ^ 48
    let m := performed s
    let all (out : Out) : Prop := exec (.migrMove p q co) s = out ∧ exec (.migrPark p q co) s = out ∧ exec (.migrRecall p q co) s = out
      ∧ exec (.migrEnd p q co) s = out
    let priv := s.trap ⟨0x05, 0, 0xFF, BitVec.ofNat 32 (0x8000 + 256 * s.slot + 0x20), 0⟩
    let sound : Prop := ∀ r ∈ [p, q, co], s.rd.sBad r = false
    let fields (k : Nat) : Prop := match k with
      | 0 => b &&& 0xF000FF00FFE0 = 0
      | 2 => b.toNat % 2 ^ 48 < 32
      | _ => b.toNat % 2 ^ 48 = 0
    let ops : List (Nat × Instr × (CmdRec → Instr)) := [(0, .migrMove p q co, .migrateRank), (1, .migrPark p q co, .parkRank),
      (2, .migrRecall p q co, .recallRank), (3, .migrEnd p q co, .endRank)]
    let record (loc : Nat) : CmdRec := ⟨0, false, BitVec.ofNat 32 rank, 0, BitVec.ofNat 64 (b.toNat / 2 ^ 32 % 2 ^ 12),
      BitVec.ofNat 64 (b.toNat / 2 ^ 16 % 2 ^ 8), BitVec.ofNat 64 (b.toNat % 32), 0, 0,
      some (⟨none, o, some loc, if co = 0 then 0 else s.rd.rs co⟩, true)⟩
    (¬ sound → all (.next (s.rewindFrom 1)))
    ∧ (sound → s.rd.sv = false → all priv)
    ∧ (sound → s.rd.sv = true → ∀ x ∈ ops, ¬ fields x.1 → exec x.2.1 s = s.trap (slotTrap s 0x01))
    ∧ (sound → s.rd.sv = true → s.secure = true → va.toNat % 16 ≠ 0 → ∀ x ∈ ops, fields x.1 → exec x.2.1 s = s.trap ⟨0x08, 0, 0, 0, va⟩)
    ∧ (s.rd.sv = true → s.secure = true → XReady s [p, q, co] co o → va.toNat % 16 = 0 → ∀ x ∈ ops, fields x.1 →
      (x.1 ≠ 3 → (s.rank rank).league ≠ none → exec x.2.1 s = .next { m with stall := some .freeze })
      ∧ ((x.1 = 3 ∨ (s.rank rank).league = none) →
        (∀ e, s.check s.c va 0 16 .write false = .error e → exec x.2.1 s = .next (m.signal o 1 1 true))
        ∧ (∀ loc, s.check s.c va 0 16 .write false = .ok loc → ∃ t, exec x.2.1 s = .next t ∧ x.2.2 (record loc) ∈ t.agenda
          ∧ t.nextRef = s.nextRef ∧ OnlyEngines s t)))

/-- An event leaves the machine as it is but for its power state. -/
def PowerIs (i : Instr) (s : State) (p : Power) : Prop := exec i s = .next { s with pwr := p }

/-- R16: what a reset leaves: no rank, no strand, no version, every register at its reset value, phase 0 again; the fuses stay. -/
def ResetFrom (s t : State) : Prop :=
  t.pwr = { Power.reset with form := s.pwr.form } ∧ t.host = { State.reset.host with boots := s.host.boots + 1 }
  ∧ { t with pwr := Power.reset, host := State.reset.host, out := [], nextRef := 0, free := 0, mem := [] }
    = { State.reset with pwr := Power.reset, out := [], nextRef := 0, free := 0, mem := [] }

/-- R14 to R16: the resets. Each zeroes the chip's own memory and keeps the host's, but for the host lines that the chip held dirty: a
warm reset writes them back where the link is up, and they are lost with PERST_N or at power-on. Power-on alone ends a thermal trip. -/
def Resets : Prop :=
  ∀ (s : State) (perst linkUp : Bool),
    (∃ t, exec .powerOnReset s = .next t ∧ ResetFrom s t ∧ t.out = s.out
      ∧ ∀ e, e ∈ t.mem ↔ e ∈ s.mem ∧ isHost e.1 = true ∧ ∀ l, (l, true) ∈ s.host.cached → e.1 / 128 ≠ l)
    ∧ ((s.pwr.trip = true ∨ s.pwr.orderErr = true) → exec (.warmReset perst linkUp) s = .next s)
    ∧ (s.pwr.trip = false → s.pwr.orderErr = false → ∃ t, exec (.warmReset false true) s = .next t
      ∧ ResetFrom s t ∧ (∀ e, e ∈ t.mem ↔ e ∈ s.mem ∧ isHost e.1 = true)
      ∧ ∀ l, (l, true) ∈ s.host.cached → .writeBack l (s.bytes (128 * l) 128) ∈ t.out)
    ∧ (s.pwr.trip = false → s.pwr.orderErr = false → (perst = true ∨ linkUp = false) → ∃ t, exec (.warmReset perst linkUp) s = .next t
      ∧ ResetFrom s t ∧ t.out = s.out ∧ ∀ e, e ∈ t.mem ↔ e ∈ s.mem ∧ isHost e.1 = true ∧ ∀ l, (l, true) ∈ s.host.cached → e.1 / 128 ≠ l)

/-- R11, R14, R15: a thermal trip stops the clocks and ends the link, with error code 6, and asks for every rail but VDD_AUX to be
dropped; a brown-out does the same and takes power-good away; a rail out of order in phase 0 leaves error code 8. (That other
registers of power survive a trip, and that in another phase the event is dropped, is the model's choice, log 9.) -/
def Trips : Prop :=
  ∀ (s : State),
    (∃ t, exec .thermalTrip s = .next t ∧ t.pwr = { s.pwr with trip := true, clocks := false, link := false, memActive := false, err := 6 }
      ∧ t.ranks = [] ∧ t.out = s.out ++ [.dropRails] ∧ t.ctxs = [] ∧ ∀ e ∈ t.mem, isHost e.1 = true)
    ∧ (∃ t, exec .brownOut s = .next t
      ∧ t.pwr = { s.pwr with trip := true, clocks := false, link := false, memActive := false, err := 6, good := false } ∧ t.ranks = [] ∧ t.ctxs = [] ∧ ∀ e ∈ t.mem, isHost e.1 = true)
    ∧ (s.pwr.phase = 0 → PowerIs .railOrderError s { s.pwr with err := 8, orderErr := true })
    ∧ (s.pwr.phase ≠ 0 → exec .railOrderError s = .next s)

/-- The limit in force (R13, R14). -/
def limitOf (p : Power) : Nat := min p.thermal.toNat (max 300 (min 1450 p.limit.toNat))

/-- R12 to R14, R20: the power limit and what moves it, 50 W every 4,000,000 cycles (1 ms) while the temperature asks for it; ALERT_STAT:
RAIL is set when a rail that was in its range leaves it, whichever others are out, and written ones clear, to be set again in the
next cycle where the cause still holds (`State.powerTick`). (The floor of 0 W is the model's choice, log 9, and that the first 50 W
go at once, log 70; which rail a crossing is of is a free value, log 56.) -/
def PowerMoves : Prop :=
  ∀ (s : State) (tj : BitVec 8) (avg : BitVec 16) (bits : Word),
    let p := s.pwr
    let rail := (Config.railOf p.rails).val
    let crossed : Power := { p with railsOut := p.railsOut ^^^ BitVec.twoPow 6 rail, rails := p.rails + 1 }
    let causes : BitVec 4 := (if 95 ≤ p.tj.toNat then 1 else 0) ||| (if p.phase = 15 then 2 else 0) ||| (if p.railsOut ≠ 0 then 4 else 0)
      ||| (if s.fab.ports.any fun e => e.2.fell then 8 else 0)
    let read : Power := { p with tj := tj, alert := if 95 ≤ tj.toNat then p.alert ||| 1 else p.alert }
    let steps : Prop := p.trip = false ∧ p.thermAt ≤ s.time.toNat
    (p.railsOut.getLsbD rail = false → PowerIs .railAlert s { crossed with alert := p.alert ||| 4 })
    ∧ (p.railsOut.getLsbD rail = true → PowerIs .railAlert s crossed)
    ∧ (110 ≤ tj.toNat → exec (.thermalLimitLower tj) s = exec .thermalTrip { s with pwr := { p with tj := tj, alert := p.alert ||| 1 } }
      ∧ exec (.thermalLimitRaise tj) s = exec .thermalTrip { s with pwr := { p with tj := tj, alert := p.alert ||| 1 } })
    ∧ (95 ≤ tj.toNat → tj.toNat < 110 → steps → PowerIs (.thermalLimitLower tj) s
        { read with thermal := BitVec.ofNat 16 (limitOf p - 50), thermAt := s.time.toNat + 4000000 })
    ∧ (tj.toNat < 110 → (tj.toNat < 95 ∨ ¬ steps) → PowerIs (.thermalLimitLower tj) s read)
    ∧ (tj.toNat < 90 → steps → PowerIs (.thermalLimitRaise tj) s { read with thermAt := s.time.toNat + 4000000, thermal :=
        (if limitOf p + 50 < max 300 (min 1450 p.limit.toNat) then BitVec.ofNat 16 (limitOf p + 50) else 1450) })
    ∧ (tj.toNat < 110 → (90 ≤ tj.toNat ∨ ¬ steps) → PowerIs (.thermalLimitRaise tj) s read)
    ∧ PowerIs (.powerWindowEvaluation avg) s 
        { p with avg := avg, throt := (if limitOf p < avg.toNat then true else if 100 * avg.toNat ≤ 98 * limitOf p then false else p.throt) }
    ∧ (1 ≤ p.phase → PowerIs (.alertStatClear bits) s { p with alert := p.alert &&& ~~~(bits.extractLsb' 0 4) })
    ∧ s.alertCauses = causes
    ∧ (p.phase = 0 → exec (.alertStatClear bits) s = .next s)

/-- R20: the sideband, which answers from phase 1 on, and the frames of VIDB, whose set-points end at code 50. -/
def Sideband : Prop :=
  ∀ (s : State) (a : BitVec 7) (code addr : BitVec 8) (data : Word),
    let boot := BitVec.ofNat 32 (256 * s.pwr.pass.toNat + 16 * s.pwr.err.toNat + s.pwr.phase)
    let answers (a : BitVec 8) (w : Word) : Prop := exec (.sidebandRead a) s = .next { s with out := s.out ++ [.i3c w] }
    (s.pwr.phase = 0 → exec (.sidebandRead addr) s = .next s ∧ exec (.sidebandWrite addr data) s = .next s ∧ exec (.entdaa a) s = .next s)
    ∧ (1 ≤ s.pwr.phase → PowerIs (.entdaa a) s { s.pwr with i3c := some a }
      ∧ answers 0x10 boot ∧ answers 0x14 (s.pwr.limit.setWidth 32) ∧ answers 0x1C (s.pwr.alert.setWidth 32)
      ∧ PowerIs (.sidebandWrite 0x14 data) s { s.pwr with limit := data.extractLsb' 0 16 }
      ∧ exec (.sidebandWrite 0x1C data) s = exec (.alertStatClear data) s
      ∧ (addr ≠ 0x14 → addr ≠ 0x1C → exec (.sidebandWrite addr data) s = .next s))
    ∧ (50 < code.toNat → exec (.vidbFrame code) s = .next s)
    ∧ (code.toNat ≤ 50 → ∃ w : BitVec 20, exec (.vidbFrame code) s = .next { s with out := s.out ++ [.vidb w], pwr := { s.pwr with vid := code } }
      ∧ w.extractLsb' 16 4 = 0b1010 ∧ w.extractLsb' 8 8 = code ∧ w.extractLsb' 1 7 = 0
      ∧ (w.getLsbD 0 = true ↔ ((List.range 8).countP code.getLsbD) % 2 = 1))

/-- R17, R18: the phases of bring-up, each run in its own phase alone; what each leaves, and its failures. -/
def BringUp : Prop :=
  ∀ (s : State) (hops form : BitVec 8) (pass : BitVec 24) (hbm : BitVec 8) (ports : BitVec 16) (ok a b : Bool) (root : DWord)
      (gib : Nat) (port : BitVec 4) (node : BitVec 12),
    let p := s.pwr
    let fails (i : Instr) (q : Power) (e : BitVec 4) : Prop := PowerIs i s { q with phase := 15, err := e, alert := q.alert ||| 2 }
    (p.phase = 0 → p.err = 0 → PowerIs (.fuseLoad ⟨true, form⟩) s { p with phase := 1, form := form }
      ∧ PowerIs (.fuseLoad ⟨false, form⟩) s { p with err := 1, form := form })
    ∧ (p.phase ≠ 0 → exec (.fuseLoad ⟨ok, form⟩) s = .next s)
    ∧ (p.phase = 1 → exec (.pllLock true a) s = .next { s with pwr := { p with phase := 2 }, time := 0 }
        ∧ fails (.pllLock false a) { p with link := a } 0)
    ∧ (p.phase ≠ 1 → exec (.pllLock ok a) s = .next s)
    ∧ (p.phase = 0 → p.err = 1 → fails (.cxlLinkTraining ok) { p with link := ok } 1)
    ∧ (p.phase = 2 → PowerIs (.cxlLinkTraining true) s { p with link := true, phase := 3 }
        ∧ fails (.cxlLinkTraining false) { p with link := false } 0)
    ∧ (p.phase ≠ 2 → ¬ (p.phase = 0 ∧ p.err = 1) → exec (.cxlLinkTraining ok) s = .next s)
    ∧ (p.phase = 3 → (pass ≠ 0 → PowerIs (.selfTest pass true true) s { p with pass := pass, phase := 4 })
        ∧ fails (.selfTest pass false b) { p with pass := pass } 2 ∧ fails (.selfTest pass true false) { p with pass := pass } 5
        ∧ fails (.selfTest 0 true true) { p with pass := 0 } 7)
    ∧ (p.phase ≠ 3 → exec (.selfTest pass a b) s = .next s)
    ∧ (p.phase = 4 → ∃ t, exec (.memoryTraining hbm ⟨a, gib⟩ ports) s = .next t
        ∧ (∀ k, k < 16 → (t.port k).up = ports.getLsbD k ∧ (t.port k).replay = [] ∧ (t.port k).held = false)
        ∧ t.pwr.tierGib = min 3072 (if p.form = 3 then gib * 16 / 17 else gib) ∧ t.pwr.hbmPass = hbm ∧ (hbm = 0xFF → a = true → t.pwr.phase = 5 ∧ t.pwr.err = p.err)
        ∧ (hbm ≠ 0xFF → t.pwr.phase = 15 ∧ t.pwr.err = 3) ∧ (hbm = 0xFF → a = false → t.pwr.phase = 15 ∧ t.pwr.err = 4)
        ∧ { t with pwr := p, fab := { t.fab with ports := s.fab.ports } } = s)
    ∧ (p.phase ≠ 4 → exec (.memoryTraining hbm ⟨a, gib⟩ ports) s = .next s)
    ∧ (p.phase = 5 → ∃ t, exec .hardwareZeroing s = .next t ∧ (∀ e, e ∈ t.mem ↔ e ∈ s.mem ∧ isDev e.1 = false) ∧ (∀ l, t.version l = 0)
        ∧ { t with mem := s.mem, ver := s.ver, poison := s.poison } = { s with pwr := { p with phase := 6 } })
    ∧ (p.phase ≠ 5 → exec .hardwareZeroing s = .next s)
    ∧ (p.phase = 6 → ∃ t, exec (.timeDiscipline root ⟨⟨hops, node⟩, port⟩) s = .next t ∧ t.time = (if hops = 0xFF then s.time else root)
        ∧ t.pwr = { p with phase := 7, thermAt := p.thermAt + t.time.toNat - s.time.toNat }
        ∧ (∀ k, (t.port k).up = (s.port k).up)
        ∧ (∀ e ∈ s.fab.ports, e.1 ≠ port.toNat → (t.port e.1).tryAt = (s.port e.1).tryAt + t.time.toNat - s.time.toNat)
        ∧ { t with time := s.time, fab := s.fab, pwr := p } = s)
    ∧ (p.phase ≠ 6 → exec (.timeDiscipline root ⟨⟨hops, node⟩, port⟩) s = .next s)

/-- R17, R18, R377: phase 7: each resident supervisor strand on a cluster that is not fenced starts, at its entry, at supervisor
level, on slot 4 of its sequencer. -/
def SupervisorStarts : Prop :=
  ∀ (s : State) (x : SvStrand),
    (s.pwr.phase ≠ 7 → exec (.supervisorStart [x]) s = .next s)
    ∧ (s.pwr.phase = 7 → exec (.supervisorStart []) s = .next { s with pwr := { s.pwr with phase := 8, memActive := true } })
    ∧ (s.pwr.phase = 7 → x.seq < 768 → s.pwr.pass.getLsbD (x.seq / 32) = true → 64 ≤ x.win → x.win ≤ 1024 → x.win % 64 = 0 →
      ∃ t, exec (.supervisorStart [x]) s = .next t ∧ t.pwr = { s.pwr with phase := 8, memActive := true }
        ∧ (t.ctx (8 * x.seq + 4)).live = true ∧ (t.ctx (8 * x.seq + 4)).sv = true ∧ (t.ctx (8 * x.seq + 4)).resident = true
        ∧ (t.ctx (8 * x.seq + 4)).pc = x.entry &&& ~~~3 ∧ (t.ctx (8 * x.seq + 4)).win = x.win
        ∧ (∀ k, k ≠ 8 * x.seq + 4 → t.ctx k = s.ctx k)
        ∧ (∀ q, t.seqOf q = if q = x.seq then { s.seqOf q with active := some 4, lastSlot := 4 } else s.seqOf q) ∧ t.mem = s.mem)

/-- Port `x` after one flit of channel `ch` has left over it: it is in the replay buffer under the next number of the port (R23). -/
def flitSent (s : State) (x : SPort) (ch : BitVec 8) : SPort :=
  { x with replay := x.replay ++ [(x.sent, some ch)], sent := x.sent + 1, ackAt := if x.replay.isEmpty then s.time.toNat else x.ackAt }

/-- Messages of channel `ch` are sent, a flit of each over every port of the channel that is up (R27); nothing else changes. -/
def SentOnAll (s t : State) (ch : BitVec 8) (sent : List OutMsg) : Prop :=
  t.out = s.out ++ sent
  ∧ ∀ k, t.port k = if sent ≠ [] ∧ (s.chan ch).cports.getLsbD k = true ∧ (s.port k).up = true then flitSent s (s.port k) ch else s.port k

/-- Channel `ch` becomes c and at most one message is sent; no other channel and nothing else changes. -/
def ChanIs (i : Instr) (s : State) (ch : BitVec 8) (c : Chan) (sent : List OutMsg) : Prop :=
  ∃ t, exec i s = .next t ∧ (∀ k, t.chan k = if k = ch then c else s.chan k) ∧ SentOnAll s t ch sent
    ∧ { t with out := s.out, fab := { t.fab with chans := s.fab.chans, ports := s.fab.ports } } = s

/-- No transfer over a channel is outstanding. -/
def NoXfers (s : State) (ch : BitVec 8) : Prop := ∀ x ∈ s.fab.xfers, x.chan ≠ ch

/-- Whether a channel end in FENCING has every marker and every transfer's end, and is FENCED (R27). -/
def Fenced (s : State) (ch : BitVec 8) (c : Chan) : Prop := s.portsUp ch &&& ~~~c.markers = 0 ∧ NoXfers s ch

/-- R25 to R27, R38: the commands on the selected channel, and a write of FAB_NODE. -/
def ChannelCommands : Prop :=
  ∀ (s : State) (val : DWord) (sec : Bool) (node : BitVec 12),
    let ch := s.fab.chanSel
    let c := s.chan ch
    let refused (i : Instr) : Prop := ChanIs i s ch { c with lastErr := 1 } []
    (c.st = .closed → ChanIs (.chanCfgWrite val) s ch
        { c with peer := val.extractLsb' 52 12, cports := val.extractLsb' 36 16, domains := val.extractLsb' 12 24 } [])
    ∧ (c.st ≠ .closed → refused (.chanCfgWrite val) ∧ refused (.chanCmdOpen sec))
    ∧ (c.st = .closed → s.cfgOk ch sec = false → ChanIs (.chanCmdOpen sec) s ch { c with lastErr := 6 } [])
    ∧ (c.st = .closed → s.cfgOk ch sec = true → ChanIs (.chanCmdOpen sec) s ch
        { c with st := .opening, lastErr := 0, since := s.time.toNat, markers := 0 } [.openMsg ch s.fab.node c.peer c.gen false])
    ∧ (c.st = .opened → ¬ Fenced s ch c →
        ChanIs .chanCmdFence s ch { c with st := .fencing, lastErr := 0, since := s.time.toNat } [.fenceMarker ch])
    ∧ (c.st = .opened → Fenced s ch c →
        ChanIs .chanCmdFence s ch { c with st := .fenced, lastErr := 0, since := s.time.toNat } [.fenceMarker ch])
    ∧ (c.st ≠ .opened → refused .chanCmdFence)
    ∧ (c.st = .fenced → ChanIs .chanCmdUnmap s ch { c with st := .closed, gen := c.gen + 1, admits := false, lastErr := 0 } [])
    ∧ (c.st ≠ .fenced → refused .chanCmdUnmap)
    ∧ ((∀ e ∈ s.fab.chans, e.2.st = .closed) → exec (.fabNodeWrite node) s = .next { s with fab := { s.fab with node := node } })
    ∧ ((∃ e ∈ s.fab.chans, e.2.st ≠ .closed) → exec (.fabNodeWrite node) s = .next s)

/-- R27: the configuration that OPEN admits. -/
def OpenAdmits : Prop :=
  ∀ (s : State) (ch : BitVec 8) (sec : Bool), let c := s.chan ch
    (s.cfgOk ch sec = true ↔ c.cports ≠ 0 ∧ c.peer ≠ s.fab.node
      ∧ (∀ e ∈ s.fab.chans, e.1 ≠ ch.toNat → e.2.st ≠ .closed → e.2.peer ≠ c.peer)
      ∧ (∀ p, p < 16 → c.cports.getLsbD p = true → s.world.wports.getLsbD p = sec)
      ∧ (∀ k, k < 24 → c.domains.getLsbD k = true → s.secureCluster k = sec))

/-- R27: what arrives and what times out at a channel end. -/
def ChannelEvents : Prop :=
  ∀ (s : State) (ch : BitVec 8) (src dst : BitVec 12) (gen : BitVec 16) (reply : Bool) (port : BitVec 4),
    let c := s.chan ch
    let at_ (l : List (BitVec 8)) : Prop := s.chansWith (fun c => (c.st = .opening || c.st = .opened) && decide (c.peer = src)) = l
    let i : Instr := .openArrival src dst gen reply
    let overdue : Prop := c.since + max 1 s.fab.timeout.toNat ≤ s.time.toNat
    let marked : Chan := { c with markers := c.markers ||| BitVec.twoPow 16 port.toNat }
    (at_ [] → exec i s = .next s)
    ∧ (∀ l, at_ (ch :: l) →
      (c.st = .opening → dst ≠ s.fab.node → ChanIs i s ch { c with st := .closed, lastErr := 4 } [])
      ∧ (c.st = .opening → dst = s.fab.node → ∀ ups, (∀ k, k < 16 → ups.getLsbD k = (s.port k).up) →
        (c.cports &&& ups ≠ 0 → ChanIs i s ch { c with st := .opened, pgen := gen, admits := true, psent := 0, pgot := [] }
          [.openMsg ch s.fab.node c.peer c.gen true])
        ∧ (c.cports &&& ups = 0 → exec i s = .next s))
      ∧ (c.st = .opened → dst ≠ s.fab.node → exec i s = .next s)
      ∧ (c.st = .opened → dst = s.fab.node → gen = c.pgen → reply = false →
        ChanIs i s ch c [.openMsg ch s.fab.node c.peer c.gen true])
      ∧ (c.st = .opened → dst = s.fab.node → gen = c.pgen → reply = true → exec i s = .next s)
      ∧ (c.st = .opened → dst = s.fab.node → gen ≠ c.pgen → ¬ Fenced s ch c →
        ChanIs i s ch { c with st := .fencing, since := s.time.toNat } [.fenceMarker ch]))
    ∧ (c.st = .opening → c.since < s.time.toNat → (s.time.toNat - c.since) % 40000 = 0 →
      ChanIs (.openRepeat ch) s ch c [.openMsg ch s.fab.node c.peer c.gen false])
    ∧ (c.st ≠ .opening → exec (.openRepeat ch) s = .next s ∧ exec (.openingTimeout ch) s = .next s)
    ∧ (c.st = .opening → overdue → ChanIs (.openingTimeout ch) s ch { c with st := .closed, lastErr := 3 } [])
    ∧ (c.st = .fencing → overdue → ChanIs (.fencingTimeout ch) s ch { c with st := .fenced, lastErr := 3 } [])
    ∧ (c.st ≠ .fencing → exec (.fencingTimeout ch) s = .next s)
    ∧ (c.st = .fencing → ¬ Fenced s ch marked → ChanIs (.fenceMarkerArrival ch port) s ch marked [])
    ∧ (c.st = .fencing → Fenced s ch marked → ChanIs (.fenceMarkerArrival ch port) s ch { marked with st := .fenced } [])
    ∧ (c.st = .opened → ¬ Fenced s ch marked →
      ChanIs (.fenceMarkerArrival ch port) s ch { marked with st := .fencing, since := s.time.toNat } [.fenceMarker ch])
    ∧ (c.st ≠ .opened → c.st ≠ .fencing → exec (.fenceMarkerArrival ch port) s = .next s)

/-- Port `p` becomes x and nothing else changes. -/
def PortIs (i : Instr) (s : State) (p : BitVec 4) (x : SPort) : Prop :=
  ∃ t, exec i s = .next t ∧ (∀ k, t.port k = if k = p.toNat then x else s.port k)
    ∧ { t with fab := { t.fab with ports := s.fab.ports } } = s

/-- R20, R23, R24, R26: acknowledgement, replay, training and hold of a port; a port that goes down is down with ALERT_STAT.LINK set,
leaves PORTS_UP of every channel, and trains again of itself 1 ms later; a trained port is in PORTS_UP of every channel that names it. -/
def PortEvents : Prop :=
  ∀ (s : State) (p : BitVec 4) (n : Nat), let x := s.port p.toNat
    let isDown (t : State) : Prop := (t.port p.toNat).up = false ∧ (t.port p.toNat).training = false ∧ (t.port p.toNat).replay = []
      ∧ t.pwr = { s.pwr with alert := s.pwr.alert ||| 8 }
      ∧ (t.port p.toNat).fell = true ∧ (t.port p.toNat).tryAt = s.time.toNat + 4000000
      ∧ ∀ ch, (t.portsUp ch).getLsbD p.toNat = false
    let starts (i : Instr) : Prop := (x.up = false → x.held = false → PortIs i s p { x with training := true })
      ∧ (x.up = true ∨ x.held = true → exec i s = .next s)
    PortIs (.flitAck p n) s p { x with replay := x.replay.filter (fun f => decide (n < f.1)), replays := 0, ackAt := s.time.toNat }
    ∧ (x.up = true → x.replay ≠ [] → x.replays < 15 → ∃ t, exec (.flitReplay p) s = .next t
      ∧ t.out = s.out ++ [.flits p (x.replay.take 1)] ∧ (∀ k, t.port k = if k = p.toNat then { x with replays := x.replays + 1 } else s.port k)
      ∧ { t with out := s.out, fab := { t.fab with ports := s.fab.ports } } = s)
    ∧ (x.up = true → x.replay ≠ [] → 15 ≤ x.replays → ∃ t, exec (.flitReplay p) s = .next t ∧ isDown t)
    ∧ (x.up = false → exec (.flitReplay p) s = .next s ∧ PortIs (.portDown p) s p { x with training := false })
    ∧ (x.up = true → ∃ t, exec (.portDown p) s = .next t ∧ isDown t ∧ (t.port p.toNat).held = x.held)
    ∧ (x.up = true → ∃ t, exec (.portCmdHold p) s = .next t ∧ isDown t ∧ (t.port p.toNat).held = true)
    ∧ PortIs (.portCmdRelease p) s p { x with held := false }
    ∧ starts (.portRetrain p) ∧ starts (.portCmdRetrain p)
    ∧ (x.training = true → ∃ t, exec (.portUp p) s = .next t
      ∧ (∀ k, t.port k = if k = p.toNat then
          { x with up := true, training := false, fell := false, replay := [], replays := 0, ackAt := s.time.toNat, nhops := 0xFF }
          else s.port k)
      ∧ (∀ ch, (s.chan ch).cports.getLsbD p.toNat = true → (t.portsUp ch).getLsbD p.toNat = true)
      ∧ { t with fab := { t.fab with ports := s.fab.ports } } = s)
    ∧ (x.training = false → exec (.portUp p) s = .next s)

/-- An answer of one flit has left for a node (R23): over the lowest port that is up of the first channel end whose peer it is. -/
def SentBack (t s : State) (node : BitVec 12) : Prop :=
  match t.chansWith fun c => (c.st = .opened || c.st = .fencing) && c.peer = node with
  | ch :: _ => ∀ k, t.port k =
      if (t.portsUp ch).getLsbD k = true ∧ ∀ j, j < k → (t.portsUp ch).getLsbD j = false then flitSent s (s.port k) ch else s.port k
  | [] => ∀ k, t.port k = s.port k

/-- R21, R23, R29, R32, R35: a packet with a bad CRC is as if it had not come; a packet that no channel end admits, or of more than 256
bytes, is rejected, and so a packet of an old generation, whatever its number; a duplicate is acknowledged flit by flit and does
nothing more; one whose rank's entry is not local or whose epoch differs is rejected as stale; else its bytes are written, or its
words go to their collective, its number is noted, and a transfer whose parts have all come is acknowledged. What a migration brings
is kept for its rank. (That League traffic passes the test of its entry is the model's choice, log 69.) -/
def PacketsLand : Prop :=
  ∀ (s : State) (p : Packet) (port : BitVec 4) (flit loc : Nat),
    let e := s.mapEntry p.rank
    let i : Instr := .packetArrival ⟨port, flit, true, p⟩
    let admitted : Prop := p.body.size ≤ 256 ∧ ∃ x ∈ s.fab.chans, (x.2.st = .opened ∨ x.2.st = .fencing) ∧ x.2.admits = true
      ∧ x.2.peer = p.src ∧ x.2.gen = p.gen ∧ x.2.domains.getLsbD p.dom.toNat = true
    let rejects (stale : Bool) : Prop := ∃ t, exec i s = .next t ∧ t.out = s.out ++ [.flitAck port flit, .reject p.src p.xfer stale]
      ∧ SentBack t s p.src ∧ { t with out := s.out, fab := { t.fab with ports := s.fab.ports } } = s
    let noted (t : State) : Prop := ∀ ch, s.endOf p = some ch → p.seqNo ∈ (t.chan ch).pgot
    let first : Prop := ∀ x ∈ s.fab.ins, ¬ (x.src = p.src ∧ x.id = p.xfer)
    exec (.packetArrival ⟨port, flit, false, p⟩) s = .next s
    ∧ (¬ admitted → rejects false)
    ∧ (admitted → s.seen p = true → exec i s = .next { s with out := s.out ++ [.flitAck port flit] })
    ∧ (s.seen p = false → admitted → (∀ n m, p.body ≠ .league n m) → (entState e ≠ 1 ∨ entEpoch e ≠ p.epoch) → rejects true)
    ∧ (s.seen p = false → admitted → first → p.last = true → p.part = 0 → ∀ n m, p.body = .league n (some m) →
      (s.rank p.rank).st = .incoming → ∃ t, exec i s = .next t ∧ noted t ∧ Store.get none t.fab.arrived p.rank = some m
        ∧ SentBack t s p.src ∧ t.out = s.out ++ [.flitAck port flit, .ack p.src p.xfer] ∧ t.mem = s.mem ∧ t.ctxs = s.ctxs)
    ∧ (s.seen p = false → admitted → entState e = 1 → entEpoch e = p.epoch → first →
      (∀ va bytes poison line party count, p.body = .data va bytes poison line party count →
        let found := s.pieces (s.asRank p.rank) .write (BitVec.ofNat 64 va) bytes.length
        (∀ f, found = .error f → rejects false)
        ∧ (found = .ok [(loc, bytes.length)] → poison = 0 → line = none → bytes ≠ [] → s.wq = [] → s.heldLines (linesOf loc bytes.length) = [] →
          ∃ t, exec i s = .next t ∧ noted t
            ∧ (∀ j, t.byte j = if loc ≤ j ∧ j < loc + bytes.length then bytes.getD (j - loc) 0 else s.byte j)
            ∧ (p.last = false → said t = said s ++ [.flitAck port flit] ∧ ∀ k, t.port k = s.port k)
            ∧ (p.last = true → p.part = 0 → said t = said s ++ [.flitAck port flit, .ack p.src p.xfer] ∧ SentBack t s p.src)
            ∧ t.c = s.c ∧ t.ctxs = s.ctxs ∧ t.ranks = s.ranks))
      ∧ (∀ tag base nr stride party down ws c, p.body = .coll tag base nr stride party down ws → p.last = true → p.part = 0 →
        (s.parties tag base nr stride).find? (fun (x : Coll) => x.rank = p.rank) = some c → ∃ t, exec i s = .next t ∧ noted t
          ∧ t.agenda = .collEdgeArrival c.id party down ws :: s.agenda ∧ t.out = s.out ++ [.flitAck port flit, .ack p.src p.xfer]
          ∧ SentBack t s p.src ∧ { t with agenda := s.agenda, out := s.out, fab := s.fab } = s))

/-- R32, R34, R38: the ends of a transfer of League traffic; a failure is entered in FAB_ERR and told to the operation it is of. -/
def TransfersEnd : Prop :=
  ∀ (s : State) (id : Nat) (x : Xfer) (rank op : Nat) (stale : Bool), s.xfer id = some x → x.what = .league rank op →
    (s.chan x.chan).st ≠ .fencing →
    let rest := { s.fab with xfers := s.fab.xfers.filter fun y => y.id ≠ id }
    let fails (i : Instr) (code : Nat) : Prop := ∃ t, exec i s = .next t
      ∧ t.fab = { rest with err := BitVec.ofNat 4 code ++ (x.chan ++ x.co.setWidth 52 : BitVec 60) }
      ∧ t.rank rank = { s.rank rank with league := (s.rank rank).league.map fun l => if l.id = op then { l with failed := some code } else l }
      ∧ (∀ j, j ≠ rank → t.rank j = s.rank j) ∧ { t with fab := s.fab, ranks := s.ranks } = s
    exec (.transferAcknowledged id) s = .next { s with fab := rest }
    ∧ fails (.rejectionArrival id stale) (if stale then 3 else 2)
    ∧ (x.at_ + max 1 s.fab.timeout.toNat ≤ s.time.toNat → fails (.transferTimeout id) 6)
    ∧ (s.time.toNat < x.at_ + max 1 s.fab.timeout.toNat → exec (.transferTimeout id) s = .next s)

/-- R6, R36, R37: an exchange over a port that is up tells what the neighbour says of itself, from which HOPS and the parent follow:
the lowest root node, then the fewest hops, then the lowest port. With the parent it holds or doubles a count, at most once in 4,096
cycles, and counts toward LOCK, which clears after 100 µs without one; a chip that is not locked goes on correcting as often and in
the direction that it last did. (That a positive OFFSET is this chip's lead, log 28, and that the last disciplined rate is that of the
last two corrections, log 62, are the model's readings.) -/
def TimeKept : Prop :=
  ∀ (s : State) (port : BitVec 4) (offset : BitVec 16) (hops : BitVec 8) (root : BitVec 12),
    let x := s.port port.toNat
    let i : Instr := .timeExchange port offset ⟨hops, root⟩
    let slew : Prop := offset ≠ 0 ∧ s.fab.slewAt + 4096 ≤ s.time.toNat
    let near : Prop := -8 ≤ offset.toInt ∧ offset.toInt ≤ 8
    let follows (t : State) : Prop := ∃ a b, t.parent = some (a, b, port.toNat)
    let overdue : Prop := s.fab.exchangeAt + 400000 ≤ s.time.toNat
    let gap : Int := s.time.toNat - s.fab.slewAt
    let leads : Prop := s.fab.root = false ∨ s.parent ≠ none
    (x.up = false → exec i s = .next s)
    ∧ (x.up = true → ∃ t, exec i s = .next t ∧ t.fab.hops = t.hopsNow
      ∧ (∀ k, t.port k = if k = port.toNat then { x with nhops := hops, nroot := root } else s.port k)
      ∧ (follows t → t.fab.offset = offset ∧ t.fab.exchangeAt = s.time.toNat
        ∧ t.fab.good = (if near then s.fab.good + 1 else 0)
        ∧ (t.fab.lock = true ↔ near ∧ (s.fab.lock = true ∨ 3 ≤ s.fab.good))
        ∧ t.fab.slewAt = (if slew then s.time.toNat else s.fab.slewAt)
        ∧ (t.fab.hold = true ↔ s.fab.hold = true ∨ (slew ∧ 0 < offset.toInt))
        ∧ (t.fab.skip = true ↔ s.fab.skip = true ∨ (slew ∧ offset.toInt < 0))
        ∧ t.fab.rate = (if slew ∧ s.fab.slewAt ≠ 0 then (if 0 < offset.toInt then gap else -gap) else s.fab.rate))
      ∧ (¬ follows t → t.fab = { s.fab with ports := t.fab.ports, hops := t.fab.hops })
      ∧ { t with fab := s.fab } = s)
    ∧ (∀ y, s.parent = some y → y ∈ s.timeNbrs ∧ ∀ z ∈ s.timeNbrs,
        y.1 < z.1 ∨ (y.1 = z.1 ∧ (y.2.1 < z.2.1 ∨ (y.2.1 = z.2.1 ∧ y.2.2 ≤ z.2.2))))
    ∧ (s.fab.lock = true → leads → overdue →
      exec .timeLockLoss s = .next { s with fab := { s.fab with lock := false, good := 0, rateAt := s.time.toNat + s.fab.rate.natAbs } })
    ∧ (s.fab.lock = false → leads → s.fab.rate ≠ 0 → max s.fab.rateAt (s.fab.slewAt + 4096) ≤ s.time.toNat → s.coast = { s with fab :=
        { s.fab with hold := s.fab.hold || decide (0 < s.fab.rate), skip := s.fab.skip || decide (s.fab.rate < 0)
                     slewAt := s.time.toNat, rateAt := s.time.toNat + s.fab.rate.natAbs } })
    ∧ ((s.fab.lock = false ∨ (s.fab.root = true ∧ s.parent = none) ∨ ¬ overdue) → exec .timeLockLoss s = .next s)

/-- An event only sends messages. -/
def Sends (i : Instr) (s : State) (l : List OutMsg) : Prop := exec i s = .next { s with out := s.out ++ l }

/-- A write event at a location: the bytes stand, the other ones stay, each device line of it has one version more. -/
def WrittenAt (s u : State) (loc : Nat) (bs : List Byte) : Prop :=
  (∀ j, u.byte j = if loc ≤ j ∧ j < loc + bs.length then bs.getD (j - loc) 0 else s.byte j)
  ∧ (∀ l, isDev (128 * l) = true → u.version l = s.version l + if l ∈ linesOf loc bs.length then 1 else 0)

/-- R17 to R19, R39, R42: CXL.io: no answer without the link; configuration requests get the retry status until phase 8, and in phase
0xF BOOT_STAT alone is read; from phase 8 on the DVSEC registers, whose descriptors take BASE while EN is 0, and SECURE from a secure
stream alone; while EN is 1 a write that changes either is ignored, its EN bit too. The rest of configuration space the spec leaves
open (log 8). -/
def CxlIoAnswers : Prop :=
  ∀ (s : State) (off : BitVec 12) (val : DWord) (stream : Option (BitVec 3)) (t : Nat),
    let boot : DWord := BitVec.ofNat 64 (256 * s.pwr.pass.toNat + 16 * s.pwr.err.toNat + s.pwr.phase)
    let c := s.cmdt t
    let read (off : BitVec 12) : Instr := .cxlIoRequest (.dvsecRead off)
    let write : Instr := .cxlIoRequest (.dvsecWrite off val stream)
    let others : List Instr := [.cxlIoRequest (.cfgRead off), .cxlIoRequest (.cfgWrite off val)]
    let base := val.extractLsb' 12 40
    let secure := match stream with
      | some k => if 1 ≤ k.toNat ∧ k.toNat ≤ 4 ∧ Store.get false s.host.ide k.toNat = true then val.getLsbD 2 else c.secure
      | none => c.secure
    (s.pwr.link = false → exec (read off) s = .next s ∧ exec write s = .next s ∧ exec (.cxlIoRequest .other) s = .next s
      ∧ ∀ i ∈ others, exec i s = .next s)
    ∧ (s.pwr.link = true → Sends (.cxlIoRequest .other) s [.cxlUr]
      ∧ (s.pwr.phase < 8 → Sends (read off) s [.cxlRetry] ∧ Sends write s [.cxlRetry] ∧ ∀ i ∈ others, Sends i s [.cxlRetry])
      ∧ (s.pwr.phase = 15 → Sends (read 0x40) s [.cxlCfg boot] ∧ (off ≠ 0x40 → Sends (read off) s [.cxlUr]) ∧ Sends write s [.cxlUr]
        ∧ ∀ i ∈ others, Sends i s [.cxlUr])
      ∧ (s.pwr.phase = 8 → (Sends (read 0x40) s [.cxlCfg boot]) ∧ Sends (.cxlIoRequest (.cfgRead off)) s [.cxlCfg (Config.cfgSpace off)]
        ∧ exec (.cxlIoRequest (.cfgWrite off val)) s = .next s
        ∧ (t < 4 → off.toNat = 0x48 + 8 * t → c.en = true → (base ≠ c.base ∨ secure ≠ c.secure) → exec write s = .next s)
        ∧ (t < 4 → Sends (read (BitVec.ofNat 12 (0x48 + 8 * t))) s [.cxlCfg (BitVec.ofNat 64 (2 ^ 12 * c.base.toNat
            + (if c.secure then 4 else 0) + (if c.en then 1 else 0)))])
        ∧ Sends (read 0x68) s [.cxlCfg (s.host.cmdtErr.setWidth 64)]
        ∧ (t < 4 → off.toNat = 0x48 + 8 * t → c.en = false → c.state ≠ 1 → val.getLsbD 0 = false → ∃ u, exec write s = .next u
          ∧ (∀ k, u.cmdt k = if k = t then { c with base := base, secure := secure } else s.cmdt k)
          ∧ { u with host := { u.host with cmdts := s.host.cmdts } } = s)))

/-- R46: EN written to 1: CONS := PROD, STATE := serving, both written to the device line, at once or once the record that is still
being executed has ended; EN written to 0 while no record runs: STATE := idle. -/
def TablesSwitched : Prop :=
  ∀ (s : State) (t : BitVec 2), let c := s.cmdt t.toNat
    let a := 4096 * c.base.toNat
    let prod : Word := BitVec.ofNat 32 (s.num (a + 8) 4)
    s.wq = [] → s.heldLines [a / 128 + 1] = [] →
    (c.en = false → c.busy = false → ∃ u, exec (.cmdtEnable t) s = .next u
      ∧ u.cmdt t.toNat = { c with
          en := true, cons := prod, state := 1, busy := false, again := false, done := none, batch := none, waits := none }
      ∧ WrittenAt s u (a + 0x80) (le 4 prod.toNat ++ [1, 0]) ∧ u.c = s.c)
    ∧ (c.en = false → c.busy = true → ∃ u, exec (.cmdtEnable t) s = .next u ∧ u.cmdt t.toNat = { c with en := true, again := true }
      ∧ { u with host := { u.host with cmdts := s.host.cmdts } } = s)
    ∧ (c.en = true → exec (.cmdtEnable t) s = .next s)
    ∧ (c.state = 1 → c.busy = false → ∃ u, exec (.cmdtDisable t) s = .next u ∧ u.cmdt t.toNat = { c with en := false, state := 0 }
      ∧ WrittenAt s u (a + 0x84) [0] ∧ u.c = s.c)
    ∧ ((c.state ≠ 1 ∨ c.busy = true) → ∃ u, exec (.cmdtDisable t) s = .next u ∧ u.cmdt t.toNat = { c with en := false }
      ∧ { u with host := { u.host with cmdts := s.host.cmdts } } = s)

/-- R39 to R41, R49, R50: accesses over CXL; a request that R39 does not list, or outside the ranges, completes with an error. -/
def CxlAccesses : Prop :=
  ∀ (s : State) (pa line loc n : Nat) (data : List Byte) (stream : Option (BitVec 3)), s.wq = [] →
    let a := pa / 64 * 64
    let secure := decide (stream = some 0) && Store.get false s.host.ide 0
    let awaited := line ∈ s.host.wbOut
    let inside (x n : Nat) : Prop := x + n ≤ 2 ^ 39 ∨ (2 ^ 40 ≤ x ∧ x + n ≤ 2 ^ 40 + 2 ^ 30 * min 3072 s.pwr.tierGib)
    let bad := (List.range 8).any fun g => s.marked (a + 8 * g)
    (s.pwr.phase ≠ 8 ∨ ¬ inside a 64 → Sends (.cxlMemRead pa stream) s [.cxlError])
    ∧ (s.pwr.phase = 8 → inside a 64 → s.worldOk secure a false = false → exec (.cxlMemRead pa stream) s =
        .next { s with host := { s.host with rasUr := true }, out := s.out ++ [.cxlData (List.replicate 64 0) true] })
    ∧ (s.pwr.phase = 8 → inside a 64 → s.worldOk secure a false = true → ∃ t wb, exec (.cxlMemRead pa stream) s = .next t
      ∧ t.out = s.out ++ wb ++ [.cxlData (s.bytes a 64) bad] ∧ (∀ m ∈ wb, ∃ l, m = .writeBack l (s.bytes (128 * l) 128))
      ∧ t.mem = s.mem ∧ Store.get false t.host.held (a / 128) = true)
    ∧ (s.pwr.phase ≠ 8 ∨ data = [] ∨ 64 < pa % 64 + data.length ∨ ¬ inside pa data.length →
      Sends (.cxlMemWrite pa data ⟨stream, true⟩) s [.cxlError])
    ∧ Sends (.cxlMemWrite pa data ⟨stream, false⟩) s [.cxlError] ∧ Sends (.hostSnoop ⟨line, false⟩) s [.cxlError]
    ∧ (s.pwr.phase = 8 → data ≠ [] → pa % 64 + data.length ≤ 64 → inside pa data.length →
      (s.worldOk secure pa true = false → exec (.cxlMemWrite pa data ⟨stream, true⟩) s
        = .next { s with host := { s.host with rasUr := true } })
      ∧ (s.worldOk secure pa true = true → ∃ t, exec (.cxlMemWrite pa data ⟨stream, true⟩) s = .next t ∧ WrittenAt s t pa data
        ∧ Store.get false t.host.held (pa / 128) = false ∧ t.c = s.c ∧ t.ctxs = s.ctxs))
    ∧ (Store.get false s.host.cachedSet line = false → exec (.hostSnoop ⟨line, true⟩) s = .next s)
    ∧ (Store.get false s.host.cachedSet line = true → ∃ t, exec (.hostSnoop ⟨line, true⟩) s = .next t
      ∧ t.out = s.out ++ [.writeBack line (s.bytes (128 * line) 128)] ∧ Store.get false t.host.cachedSet line = false
      ∧ Store.get false t.host.cached line = false ∧ t.mem = s.mem)
    ∧ (awaited → ∃ t, exec (.cxlCacheResponse line data) s = .next t ∧ t.host.wbOut = s.host.wbOut.erase line
      ∧ { t with host := { t.host with wbOut := s.host.wbOut, wbWait := s.host.wbWait } } = s)
    ∧ (¬ awaited → isHost (128 * line) = true → Store.get false s.host.cachedSet line = false → data.length = 128 →
      ∃ t, exec (.cxlCacheResponse line data) s = .next t ∧ Store.get false t.host.cachedSet line = true
        ∧ (∀ j, t.byte j = if 128 * line ≤ j ∧ j < 128 * line + 128 then data.getD (j - 128 * line) 0 else s.byte j) ∧ t.ver = s.ver)
    ∧ (¬ awaited → (isHost (128 * line) = false ∨ Store.get false s.host.cachedSet line = true) →
      exec (.cxlCacheResponse line data) s = .next s)
    ∧ (∀ evs, s.host.biWait.find? (fun w => w.1 = line) = some (line, evs) → ∃ t, exec (.backInvalidateResponse line) s = .next t
      ∧ t.agenda = evs ++ s.agenda ∧ Store.get false t.host.held line = false
      ∧ t.host.biWait = s.host.biWait.filter (fun w => w.1 ≠ line) ∧ t.mem = s.mem)
    ∧ (s.host.biWait.find? (fun w => w.1 = line) = none → exec (.backInvalidateResponse line) s = .next s)
    ∧ (∃ t, exec (.sharedCacheAccess (.read loc n)) s = .next t ∧ t.mem = s.mem ∧ t.ver = s.ver ∧ t.c = s.c ∧ t.ctxs = s.ctxs
      ∧ (isHost loc = true → 0 < n → n ≤ 128 - loc % 128 → Store.get false t.host.cachedSet (loc / 128) = true))
    ∧ (s.heldLines (linesOf loc data.length) = [] → ∃ t, exec (.sharedCacheAccess (.write loc data)) s = .next t ∧ WrittenAt s t loc data
      ∧ t.c = s.c ∧ t.ctxs = s.ctxs)
    ∧ (s.heldLines (linesOf loc data.length) ≠ [] → exec (.sharedCacheAccess (.write loc data)) s
      = .next (s.snoop (linesOf loc data.length) [.sharedCacheAccess (.write loc data)]))

/-- R39, R49, R52, R53: SPDM from phase 8 on: each request has one answer, algorithms that are not supported UnsupportedRequest, and
certificate slots but 0 an error; the certificate stays, measurement blocks 1 to 3 change at a reset alone, and block 4 has the
digest of the world bitmap; a session stands after a KEY_EXCHANGE, once algorithms are negotiated, and its FINISH; IDE_KM sets the
keys of one of the five streams within one. (The other bytes of the answers the spec leaves open, log 8.) -/
def SpdmAnswers : Prop :=
  ∀ (s : State) (slot : BitVec 8) (nonce : BitVec 256) (sec ok : Bool) (stream : BitVec 3), s.pwr.phase = 8 →
    let answers (i : Instr) (more : List Byte) (h : HostIf) : Prop := exec i s = .next { s with
      out := s.out ++ [.spdm (Config.spdmBytes s.free ++ more)], host := h, free := s.free + 1 }
    let refused (i : Instr) : Prop := Sends i s [.spdmError false]
    let m (i : Nat) : List Byte := le 64 (Config.measurement s.host.boots i).toNat
    let bitmap := if s.world.mapBase = 0 then [] else s.bytes (s.world.mapBase.toNat / 65536 * 65536) 229376
    answers .getVersion [] s.host ∧ answers .getCapabilities [] s.host
    ∧ answers (.negotiateAlgorithms true) [] { s.host with negotiated := true }
    ∧ Sends (.negotiateAlgorithms false) s [.spdmError true]
    ∧ (slot = 0 → answers (.getDigests slot) Config.certificateDigest s.host ∧ answers (.getCertificate slot) Config.certificate s.host
      ∧ answers (.challenge slot nonce) [] s.host)
    ∧ (slot ≠ 0 → refused (.getDigests slot) ∧ refused (.getCertificate slot) ∧ refused (.challenge slot nonce))
    ∧ answers (.getMeasurements nonce) (m 1 ++ m 2 ++ m 3 ++ s.deviceRecord (shake256 bitmap)) s.host
    ∧ (s.host.negotiated = true →
      answers (.keyExchange sec nonce) [] { s.host with keyed := true, session := false, sessionSecure := sec })
    ∧ (s.host.negotiated = false → refused (.keyExchange sec nonce))
    ∧ (s.host.keyed = true → answers .finish [] { s.host with keyed := false, session := true })
    ∧ (s.host.keyed = false → refused .finish)
    ∧ (s.host.session = true → stream.toNat < 5 → exec (.ideKmRequest stream ok) s = .next { s with host := { s.host with
        ide := Store.set false s.host.ide stream.toNat (ok && s.host.sessionSecure)
        idePresent := s.host.idePresent ||| BitVec.twoPow 8 stream.toNat } })
    ∧ (s.host.session = false ∨ 5 ≤ stream.toNat → refused (.ideKmRequest stream ok))

/-- R53: the layout of the device state record, 128 bytes. -/
def DeviceRecordLayout : Prop :=
  ∀ (s : State) (dig : List Byte), dig.length = 64 →
    let f := s.deviceRecord dig
    field f 0 1 = 1 ∧ field f 2 1 = s.pwr.form.toNat ∧ field f 3 1 = s.pwr.hbmPass.toNat ∧ field f 4 4 = s.bootStat.toNat
    ∧ field f 8 4 = s.pwr.pass.toNat ∧ field f 12 4 = min 3072 s.pwr.tierGib ∧ field f 16 4 = s.world.clusters.toNat
    ∧ field f 20 2 = s.world.decoders.toNat ∧ field f 22 2 = s.world.leagues.toNat ∧ field f 24 2 = s.world.wports.toNat
    ∧ (∀ k, k < 192 → (BitVec.ofNat 192 (field f 32 24)).getLsbD k = Store.get false s.world.copies k) ∧ field f 56 8 = s.time.toNat ∧ f.drop 64 = dig ∧ f.length = 128

/-- R48, R50, R51: the worlds: a block that is busy keeps its world, STATUS 1; another takes it, STATUS 0, and a cluster's store is to
be zeroed next; a write of WORLD_REGION asks for a change, once the host holds none of the lines that it writes, and the change applies
from the next cycle on: the region's bit is written in the bitmap, and a region that changes world is to be zeroed next. -/
def WorldsSet : Prop :=
  ∀ (s : State) (val : DWord), s.secure = true →
    let cls := val.toNat / 2 ^ 56
    let i := val.toNat / 2 ^ 48 % 2 ^ 8
    let v := val.getLsbD 0
    let r := val.toNat % 2 ^ 21
    let seqIs (t : State) (st : BitVec 8) : Prop := ∀ q, t.seqOf q = if q = s.c.seq then { s.seqOf q with status := st } else s.seqOf q
    let b := s.world.mapBase.toNat / 65536 * 65536 + r / 8
    (blocksOf cls ≤ i → exec (.worldBlkWrite val) s = .next { s with world := { s.world with blk := val &&& 0xFFFF000000000000 } })
    ∧ (i < blocksOf cls → s.blockBusy cls i = true → ∃ t, exec (.worldBlkWrite val) s = .next t ∧ seqIs t 1
      ∧ { t with seqs := s.seqs } = { s with world := { s.world with blk := val &&& 0xFFFF000000000000 } })
    ∧ (i < blocksOf cls → s.blockBusy cls i = false → ∃ t, exec (.worldBlkWrite val) s = .next t ∧ seqIs t 0
      ∧ (∀ c k, k < blocksOf c → c ≤ 4 → t.blockSecure c k = if c = cls ∧ k = i then v else s.blockSecure c k)
      ∧ t.agenda = (if cls = 0 then [.bufferZeroingEnd (.csLines i 0 131071)] else []) ++ s.agenda
      ∧ { t with seqs := s.seqs, world := s.world, agenda := s.agenda } = s)
    ∧ (val.toNat / 2 ^ 21 % 2 ^ 42 ≠ 0 ∨ s.world.mapBase = 0 ∨ s.regionBacked r = false →
      exec (.worldRegionWrite val) s = s.trap (slotTrap s 0x01))
    ∧ (val.toNat / 2 ^ 21 % 2 ^ 42 = 0 → s.world.mapBase ≠ 0 → s.regionBacked r = true → s.heldLines (s.regionLines r) ≠ [] →
      exec (.worldRegionWrite val) s = .next { s.snoop (s.regionLines r) [] with stall := some .freeze })
    ∧ (val.toNat / 2 ^ 21 % 2 ^ 42 = 0 → s.world.mapBase ≠ 0 → s.regionBacked r = true → s.heldLines (s.regionLines r) = [] →
      ∃ t, exec (.worldRegionWrite val) s = .next t ∧ seqIs t 0
        ∧ { t with seqs := s.seqs } = { s with world := { s.world with changes := s.world.changes ++ [(r, val.getLsbD 63)] } })
    ∧ (∀ (w : Bool) (loc : Nat), s.world.changes = [(r, w)] → s.regionBacked r = true → s.heldLines (s.regionLines r) = [] → s.wq = [] →
      loc = b → let t := s.regionsDue
        t.world.changes = []
        ∧ (∃ x : Byte, WrittenAt s t loc [x] ∧ ∀ k, k < 8 → x.getLsbD k = if k = r % 8 then w else (s.byte loc).getLsbD k)
        ∧ ((s.byte loc).getLsbD (r % 8) ≠ w →
          ∃ lo, t.agenda.head? = some (.bufferZeroingEnd (.region lo (lo + 2 ^ 21))) ∧ regionOf lo = r ∧ lo % 2 ^ 21 = 0))
    ∧ (∃ t, exec (.worldMapBaseWrite val) s = .next t ∧ t.world.mapBase.toNat = val.toNat % 2 ^ 52 / 2 ^ 16 * 2 ^ 16
      ∧ { t with world := s.world } = s)

/-- R51: what the zeroing of a buffer leaves; of a region, no reduction is left that would be applied later. -/
def BuffersZeroed : Prop :=
  ∀ (s : State) (key cluster lo hi core slot rank : Nat) (b : BitVec 3) (r : Rank),
    (∃ t, exec (.bufferZeroingEnd (.window key)) s = .next t ∧ (∀ e l, (t.ctx key).rv e l = 0)
      ∧ (∀ j, (t.ctx key).rs j = (s.ctx key).rs j) ∧ ∀ k, k ≠ key → t.ctx k = s.ctx k)
    ∧ (s.ranks.find? (fun e => e.2.placed && decide (e.2.slot = slot) && e.2.domain.contains (core / 8)) = some (rank, r) →
      ∃ t, exec (.bufferZeroingEnd (.bank core slot b)) s = .next t
        ∧ (∀ x n, x < 64 → n < 64 → (t.engine core rank).elem b x n = 0)
        ∧ (∀ (b' : BitVec 3) x n, b' ≠ b → x < 64 → n < 64 → (t.engine core rank).elem b' x n = (s.engine core rank).elem b' x n)
        ∧ { t with engines := s.engines } = s)
    ∧ (lo ≤ hi → hi < 131072 → ∃ t, exec (.bufferZeroingEnd (.csLines cluster lo hi)) s = .next t
      ∧ ∀ j, csBaseLoc cluster + 128 * lo ≤ j → j < csBaseLoc cluster + 128 * (hi + 1) → t.byte j = 0)
    ∧ (isDev hi = true → lo < hi → s.heldIn lo (hi - lo) = [] → ∃ t, exec (.bufferZeroingEnd (.region lo hi)) s = .next t
      ∧ (∀ j, lo ≤ j → j < hi → t.byte j = 0)
      ∧ ∀ e ∈ t.wq, ∀ l ∈ e.lines, 128 * l + 127 < lo ∨ hi ≤ 128 * l)

/-- From a state, u is the state in which a table's record has ended: its STATUS and DETAIL stand to be written (R46). -/
def Ends (s u : State) (t : BitVec 2) (st det : Nat) : Prop :=
  (∀ k, u.cmdt k = if k = t.toNat then { s.cmdt t.toNat with done := some (st, det) } else s.cmdt k)
    ∧ { u with host := { u.host with cmdts := s.host.cmdts } } = s

/-- A record is refused: it ends, and nothing else changes. -/
def RecordEnds (i : Instr) (s : State) (t : BitVec 2) (st det : Nat) : Prop := ∃ u, exec i s = .next u ∧ Ends s u t st det

/-- The one who asks for an operation by a command record. -/
def asker (t : BitVec 2) : EndOp := ⟨some t.toNat, none, none, 0⟩

/-- Rank `rank` becomes r; no other changes, nor anything else. -/
def RankIs (s u : State) (rank : Nat) (r : Rank) : Prop :=
  (∀ k, u.rank k = if k = rank then r else s.rank k) ∧ { u with ranks := s.ranks } = s

/-- R41, R45, R70, R370: the end of an operation on a rank with status n: LAST takes n; a record ends with STATUS 0 or 0x100 + n, a
command's result block takes n, DETAIL and the time, and then LAND rises, with FAIL where n ≠ 0, both once the host holds no line of
either. A refusal raises SRC first. -/
def OperationsReport : Prop :=
  ∀ (s : State) (rank n det loc : Nat) (t : BitVec 2) (o : Option Nat) (va : DWord),
    let block := le 4 n ++ le 4 det ++ le 8 s.time.toNat
    let ls := linesOf loc 16 ++ o.toList.flatMap fun o => linesOf o 8
    ∃ u, RankIs s u rank (if (s.rank rank).st = .absent then s.rank rank else { s.rank rank with last := BitVec.ofNat 8 n })
      ∧ Ends u (s.leagueDone rank n det (asker t)) t (if n = 0 then 0 else 0x100 + n) det
      ∧ s.leagueRefuse rank n det (asker t) = s.leagueDone rank n det (asker t)
      ∧ (s.heldLines ls = [] → s.leagueDone rank n det ⟨none, o, some loc, va⟩ = (u.write loc block).signal o 0 1 (n ≠ 0))
      ∧ (s.heldLines ls ≠ [] → s.leagueDone rank n det ⟨none, o, some loc, va⟩
        = u.snoop ls (.sharedCacheAccess (.write loc block) :: o.toList.map fun o => .sharedCacheAccess (.signal o 0 1 (n ≠ 0))))
      ∧ s.leagueRefuse rank n det ⟨none, o, some loc, va⟩ = (s.signal o 1 0 false).leagueDone rank n det ⟨none, o, some loc, va⟩

/-- R45: the records that start, move or end a rank: WORLD where what they name is not theirs, MIGRATE_RANK: BAD_ARG
beyond its fields, START_RANK: WRONG_STATE for a rank that is not HOT; else the operation starts as R61 has it, once the host
holds no line that it writes (R41); and so for a `migr` command past its checks. An END_RANK that a migration's
source has forwarded ends the rank here, at once or as soon as its entry has come (R62). -/
def RankRecords : Prop :=
  ∀ (s : State) (r : CmdRec),
    let t := r.table
    let rank := r.rank.toNat
    let k0 := r.a2.toNat
    let sec := (s.cmdt t.toNat).secure
    let nobody : EndOp := ⟨none, none, none, 0⟩
    let held := s.heldLines (s.endLines rank)
    let ends (w : EndOp) : Prop := (held = [] → exec (.endRank r) s = .next (s.endRank rank w))
      ∧ (held ≠ [] → exec (.endRank r) s = .next (s.snoop (s.endLines rank) [.endRank r]))
    (r.fwd = true → let q := s.rank rank
      (q.st = .absent → exec (.endRank r) s = .next s)
      ∧ (q.st = .incoming → ∃ u, exec (.endRank r) s = .next u ∧ RankIs s u rank { q with ends := q.ends ++ [nobody] })
      ∧ (q.st ≠ .absent → q.st ≠ .incoming → ends nobody))
    ∧ (∀ (w : EndOp) (world : Bool), (r.mig = none ∧ sec = true ∧ w = asker t ∧ world = true) ∨ r.mig = some (w, world) →
      exec (.parkRank r) s = .next (s.parkStart rank w)
      ∧ exec (.recallRank r) s = .next (s.recallStart rank k0 world w)
      ∧ (r.fwd = false → ends w)
      ∧ (r.mig ≠ none ∨ (r.a0.toNat < 4096 ∧ r.a1.toNat < 256 ∧ k0 < 32) → exec (.migrateRank r) s
          = .next (s.migrateStart rank (r.a0.setWidth 12) (r.a1.setWidth 8) (r.a2.setWidth 5) w)))
    ∧ (sec = true →
      (r.mig = none → (4096 ≤ r.a0.toNat ∨ 256 ≤ r.a1.toNat ∨ 32 ≤ k0) → RecordEnds (.migrateRank r) s t 2 0)
      ∧ ((s.rank rank).st ≠ .hot → RecordEnds (.startRank r) s t 0x108 0)
      ∧ ((s.rank rank).st = .hot → (∀ f, s.launchCheck (s.asRank rank) r.a0 false = .error f → RecordEnds (.startRank r) s t 2 f.cause.toNat)
        ∧ ∀ bs co ac, s.launchCheck (s.asRank rank) r.a0 false = .ok (bs, co, ac) → let x := recOf bs
          ∃ u, exec (.startRank r) s = .next u
          ∧ Ends (s.queueLaunch rank r.a0 false x co ac) u t (if s.refuses rank x = true then 2 else 0) 0))
    ∧ (r.fwd = false → r.mig = none → sec = false → (s.rank rank).st ≠ .absent → s.secureCluster (s.rank rank).dom.toNat = true →
      RecordEnds (.parkRank r) s t 3 0 ∧ RecordEnds (.recallRank r) s t 3 0 ∧ RecordEnds (.endRank r) s t 3 0
      ∧ RecordEnds (.migrateRank r) s t 3 0 ∧ RecordEnds (.startRank r) s t 3 0)

/-- R61, R71: a park: WRONG_STATE but from HOT, NO_MEMORY without a run in the second tier; else PARKING until a step boundary. -/
def ParkBegins : Prop :=
  ∀ (s : State) (rank b : Nat) (w : EndOp), let r := s.rank rank
    let n := 65536 * (pageAddrs (s.mapped rank)).length + r.shapeX * r.shapeY * (r.csMib * 2 ^ 20)
    let l : League := { League.new .quiesce w s.time.toNat with run := (b, n) }
    ((r.st ≠ .hot ∨ r.league ≠ none) → s.parkStart rank w = s.leagueRefuse rank 8 0 w)
    ∧ (r.st = .hot → r.league = none → s.tierRun (s.secureCluster r.dom.toNat) n = none →
      s.parkStart rank w = s.leagueRefuse rank 7 0 w)
    ∧ (r.st = .hot → r.league = none → s.tierRun (s.secureCluster r.dom.toNat) n = some b → r.heldRelease = false →
      s.still rank = false → RankIs (s.signal w.co 1 0 false) (s.parkStart rank w) rank { r with st := .parking, league := some l })

/-- R58 to R61, R71: a recall: WRONG_STATE but from COLD; the status of its placement; NO_MEMORY; else RECALLING in the lowest free slot of
the domain, its cluster-store lines there zeroed. -/
def RecallBegins : Prop :=
  ∀ (s : State) (rank k0 b cs : Nat) (sec : Bool) (w : EndOp), let r := s.rank rank
    let n := s.placeStatus rank k0 r.shapeX r.shapeY r.csMib r.prot sec r.dist
    let bytes := tableBytes (r.pages.map (·.va)) + 65536 * (pageAddrs r.pages).length
    let begins := s.recallStart rank k0 sec w
    let free := lowestRun r.csMib 0 ((s.allotments rank k0).map fun e => (e.2.csBase, e.2.csMib))
    ((r.st ≠ .cold ∨ r.league ≠ none) → begins = s.leagueRefuse rank 8 0 w)
    ∧ (r.st = .cold → r.league = none →
      (24 ≤ k0 → begins = s.leagueRefuse rank 3 0 w)
      ∧ (k0 < 24 → n ≠ 0 → begins = s.leagueRefuse rank n 0 w)
      ∧ (k0 < 24 → n = 0 → s.hbmRun sec bytes = none → begins = s.leagueRefuse rank 7 0 w)
      ∧ (k0 < 24 → n = 0 → s.hbmRun sec bytes = some b → free = some cs → w.co = none →
        (∀ k, begins.rank k = if k = rank then { r with st := .recalling, dom := BitVec.ofNat 5 k0, slot := s.freeSlot rank k0, csBase := cs
                                                        league := some { League.new .recall w s.time.toNat with run := (b, bytes) } }
          else s.rank k)
        ∧ begins.agenda = s.agenda ++ [.recallComplete rank] ∧ begins.c = s.c ∧ begins.ver = s.ver
        ∧ (∀ j, j < 2 ^ 52 → begins.byte j = s.byte j)
        ∧ (∀ k j, k ∈ domClusters k0 r.shapeX r.shapeY → csBaseLoc k + cs ≤ j → j < csBaseLoc k + cs + r.csMib * 2 ^ 20 → begins.byte j = 0)))

/-- R61, R67: a migration is asked for: WRONG_STATE but from HOT; LINK_FAILED, code 4, where the channel is not open to that chip; else
the destination is asked, and the rank stays HOT until it answers. -/
def MigrationAsked : Prop :=
  ∀ (s : State) (rank : Nat) (node : BitVec 12) (ch : BitVec 8) (dom : BitVec 5) (w : EndOp), let r := s.rank rank
    let l : League := { League.new .request w s.time.toNat with id := s.nextRef, node := node, chan := ch, dom := dom }
    let begins := s.migrateStart rank node ch dom w
    ((r.st ≠ .hot ∨ r.league ≠ none) → begins = s.leagueRefuse rank 8 0 w)
    ∧ (r.st = .hot → r.league = none →
      (((s.chan ch).st ≠ .opened ∨ (s.chan ch).peer ≠ node) → begins = s.leagueRefuse rank 10 4 w)
      ∧ ((s.chan ch).st = .opened → (s.chan ch).peer = node →
        (∀ k, begins.rank k = if k = rank then { r with league := some l } else s.rank k)
        ∧ (∃ x p, begins.fab.xfers = s.fab.xfers ++ [x] ∧ x.chan = ch ∧ x.gen = (s.chan ch).pgen ∧ x.what = .league rank l.id
          ∧ p.src = s.fab.node ∧ p.gen = x.gen ∧ p.dom = dom ∧ p.rank = rank ∧ p.xfer = x.id ∧ p.last = true ∧ p.body = .league 0 none
          ∧ begins.out = s.out ++ .packet ch p :: leagueOut begins node "request" rank (BitVec.ofNat 64 dom.toNat))
        ∧ begins.mem = s.mem ∧ begins.c = s.c ∧ begins.ctxs = s.ctxs ∧ begins.agenda = s.agenda))

/-- R61, R62: END_RANK: WRONG_STATE for an absent rank, and for an incoming one, which is given up and refused to its source; a rank
that commits a move ends at its destination, and the record that moved it completes with WRONG_STATE; any other is ENDING, and ends at once where it has no strand. -/
def EndBegins : Prop :=
  ∀ (s : State) (rank : Nat) (w : EndOp), let r := s.rank rank
    let begins := s.endRank rank w
    let more := { r with ends := r.ends ++ [w] }
    -- a message of the League leaves u, in flits of the port it takes
    let sends (u v : State) (node : BitVec 12) (what : String) (e : DWord) : Prop :=
      ∃ ports, v = { u with out := u.out ++ leagueOut u node what rank e, fab := { u.fab with ports } }
    (r.st = .absent → begins = s.leagueRefuse rank 8 0 w)
    ∧ (r.st = .ending → RankIs (s.signal w.co 1 0 false) begins rank more)
    ∧ (∀ l, r.st = .outgoing → r.league = some l → l.step = .commit →
      ∃ v, sends ((s.leagueDone rank 8 0 l.who).signal w.co 1 0 false) v l.node "end" 0
        ∧ RankIs v begins rank { more with last := 8, league := some { l with rcd := none, co := none, rblk := none, coVa := 0 } })
    ∧ (∀ l, r.st = .incoming → r.league = some l → ∃ v, sends (s.giveUp rank) v l.node "answer" 8 ∧ begins = v.leagueRefuse rank 8 0 w)
    ∧ (r.st = .hot → r.league = none → r.queue = [] → s.orphans rank = [] → s.engineBusy rank = false →
      let e : Rank := { more with st := .ending, league := none }
      let u := s.signal w.co 1 0 false
      (s.strands rank = [] → RankIs { u with agenda := u.agenda ++ [.rankEndComplete rank] } begins rank e)
      ∧ (s.strands rank ≠ [] → RankIs u begins rank e))

/-- R51, R61, R62, R30: the end of an ENDING rank completes once it has no strand and no operation that has still to signal, and the host
holds no line that it writes: its run, its pages outside every rank's run and its cluster-store allotment read 0, its entry is
absent, with EPOCH + 1, and is sent to every chip that a remote or held entry names; the rank is ABSENT, and each END_RANK ends with status 0. -/
def RankEnds : Prop :=
  ∀ (s : State) (rank : Nat) (t : BitVec 2), let r := s.rank rank
    let ended : Prop := r.st = .ending ∧ s.strands rank = [] ∧ s.eventsOf rank = []
    let v := (if r.ptRoot = 0 then s else s.vacateDomain rank).vacateRun rank (s.mapped rank)
    let old := v.mapEntry rank
    let e := mkEntry 0 (entDomain old) (entChan old) (entChip old) (entEpoch old + 1)
    let entry (j : Nat) : Prop := s.mapLoc rank ≤ j ∧ j < s.mapLoc rank + 8
    (¬ ended → exec (.rankEndComplete rank) s = .next s)
    ∧ (ended → s.heldLines (s.vacateLines rank) ≠ [] →
      exec (.rankEndComplete rank) s = .next (s.snoop (s.vacateLines rank) [.rankEndComplete rank]))
    ∧ (ended → s.heldLines (s.vacateLines rank) = [] →
      ∃ u, exec (.rankEndComplete rank) s = .next (r.ends.foldl (fun x w => x.report w 0 0) u) ∧ u.rank rank = Rank.reset
        ∧ (r.ends = [asker t] → ∃ x, exec (.rankEndComplete rank) s = .next x ∧ Ends u x t 0 0)
        ∧ (NoReds s → (∀ k, k ≠ rank → u.rank k = s.rank k) ∧ u.mapEntry rank = e
          ∧ (∀ j, r.base ≤ j → j < r.base + r.bytes → ¬ entry j → u.byte j = 0)
          ∧ (r.ptRoot ≠ 0 → ∀ k j, k ∈ domClusters r.dom.toNat r.shapeX r.shapeY → csBaseLoc k + r.csBase ≤ j →
            j < csBaseLoc k + r.csBase + r.csMib * 2 ^ 20 → ¬ entry j → u.byte j = 0)
          ∧ (∀ a ∈ pageAddrs (s.mapped rank), isDev a = true → (∀ b ∈ s.runs, b.2 = 0 ∨ a < b.1 ∨ b.1 + b.2 ≤ a) →
            ∀ j, a ≤ j → j < a + 65536 → ¬ entry j → u.byte j = 0)
          ∧ (∀ n ∈ v.chipsOf rank [2, 3], ∀ m ∈ leagueOut s n "entry" rank e, m ∈ u.out) ∧ StrandsKept s u))

/-- R45, R26: SET_CHANNEL: BAD_ARG beyond its fields; WORLD for a non-secure table where the channel, or the record's configuration of it,
holds what is secure; else the channel is selected, configured while CLOSED, and given the command, 4 to 7 being
BAD_CMD, and DETAIL is CHAN_STAT[15:0]. -/
def ChannelRecord : Prop :=
  ∀ (s : State) (r : CmdRec),
    let t := r.table
    let ch : BitVec 8 := r.a0.setWidth 8
    let c := s.chan ch
    let sec := (s.cmdt t.toNat).secure
    let picked : State := { s with fab := { s.fab with chanSel := ch } }
    let theirs : Prop := s.secureChan c.cports c.domains = true
      ∨ (c.st = .closed ∧ s.secureChan (r.a1.extractLsb' 36 16) (r.a1.extractLsb' 12 24) = true)
    let code (w : State) : Nat := match (w.chan ch).st with
      | .closed => 0
      | .opening => 1
      | .opened => 2
      | .fencing => 3
      | .fenced => 4
    ((256 ≤ r.a0.toNat ∨ 8 ≤ r.a2.toNat) → RecordEnds (.setChannel r) s t 2 0)
    ∧ (r.a0.toNat < 256 → r.a2.toNat < 8 → sec = false → theirs → RecordEnds (.setChannel r) s t 3 0)
    ∧ (r.a0.toNat < 256 → r.a2.toNat < 8 → sec = true ∨ ¬ theirs → ∃ v w u : State,
      (if c.st = .closed then exec (.chanCfgWrite r.a1) picked = .next v else v = picked)
      ∧ (r.a2 = 0 → w = v) ∧ (r.a2 = 1 → exec (.chanCmdOpen sec) v = .next w) ∧ (r.a2 = 2 → exec .chanCmdFence v = .next w)
      ∧ (r.a2 = 3 → exec .chanCmdUnmap v = .next w)
      ∧ (4 ≤ r.a2.toNat → (∀ k, w.chan k = if k = ch then { v.chan ch with lastErr := 2 } else v.chan k)
        ∧ { w with fab := { w.fab with chans := v.fab.chans } } = v)
      ∧ exec (.setChannel r) s = .next u ∧ Ends w u t 0 (256 * (w.chan ch).lastErr.toNat + code w))

/-- R45, R48, R50: SET_WORLD: WORLD from a non-secure table, BAD_ARG for a class, number, bit or region that is not there, BLOCK_BUSY for a
block that is busy; else the block takes the world, or the region's bit is written and a region that changes world is zeroed next, once the host holds none of the lines. -/
def WorldRecord : Prop :=
  ∀ (s : State) (r : CmdRec),
    let t := r.table
    let cls := r.a0.toNat
    let i := r.a1.toNat
    let b := s.world.mapBase.toNat / 65536 * 65536 + i / 8
    ((s.cmdt t.toNat).secure = false → RecordEnds (.setWorld r) s t 3 0)
    ∧ ((s.cmdt t.toNat).secure = true →
      ((5 < cls ∨ 1 < r.a2.toNat) → RecordEnds (.setWorld r) s t 2 0)
      ∧ (cls < 5 → r.a2.toNat ≤ 1 → blocksOf cls ≤ i → RecordEnds (.setWorld r) s t 2 0)
      ∧ (cls < 5 → r.a2.toNat ≤ 1 → i < blocksOf cls → s.blockBusy cls i = true → RecordEnds (.setWorld r) s t 4 0)
      ∧ (cls < 5 → r.a2.toNat ≤ 1 → i < blocksOf cls → s.blockBusy cls i = false → ∃ v u, exec (.setWorld r) s = .next u ∧ Ends v u t 0 0
        ∧ (∀ c k, k < blocksOf c → c ≤ 4 → v.blockSecure c k = if c = cls ∧ k = i then decide (r.a2 = 1) else s.blockSecure c k)
        ∧ v.agenda = (if cls = 0 then [.bufferZeroingEnd (.csLines i 0 131071)] else []) ++ s.agenda
        ∧ { v with world := s.world, agenda := s.agenda } = s)
      ∧ (cls = 5 → r.a2.toNat ≤ 1 → (s.world.mapBase = 0 ∨ 2 ^ 21 ≤ i ∨ s.regionBacked i = false) → RecordEnds (.setWorld r) s t 2 0)
      ∧ (cls = 5 → r.a2.toNat ≤ 1 → s.world.mapBase ≠ 0 → i < 2 ^ 21 → s.regionBacked i = true → s.heldLines (s.regionLines i) ≠ [] →
        exec (.setWorld r) s = .next (s.snoop (s.regionLines i) [.setWorld r]))
      ∧ (cls = 5 → r.a2.toNat ≤ 1 → s.world.mapBase ≠ 0 → i < 2 ^ 21 → s.regionBacked i = true → s.heldLines (s.regionLines i) = [] →
        s.wq = [] →
        ∃ v u, exec (.setWorld r) s = .next u ∧ Ends v u t 0 0
          ∧ (∃ x : Byte, WrittenAt s v b [x] ∧ ∀ k, k < 8 → x.getLsbD k = if k = i % 8 then decide (r.a2 = 1) else (s.byte b).getLsbD k)
          ∧ (if (s.byte b).getLsbD (i % 8) = decide (r.a2 = 1) then asked v = asked s
            else ∃ lo, asked v = .bufferZeroingEnd (.region lo (lo + 2 ^ 21)) :: asked s ∧ regionOf lo = i ∧ lo % 2 ^ 21 = 0)))

/-- R45, R54 to R61: LOAD_RANK of a secure table: BAD_ARG for arguments off their bounds; then WRONG_STATE, BAD_IMAGE, BAD_ARG for a rank
beyond V, BAD_IMAGE for another JOB, JOB_MISMATCH, the placement's status and NO_MEMORY, in this order; else the rank is LOADING
in the lowest free slot of its domain, with its image's fields, its key, tables and pages, and its cluster-store lines zeroed. -/
def LoadBegins : Prop :=
  ∀ (s : State) (r : CmdRec) (i : Image) (segs : List SegEnt) (base cs : Nat),
    let t := r.table
    let rank := r.rank.toNat
    let k0 := r.a2.toNat
    let badArg : Prop := 65536 ≤ rank ∨ r.a3.toNat % 4 ≠ 0 ∨ r.a4.toNat % 4096 ≠ 0 ∨ 2 ^ 51 < r.a0.toNat + r.a1.toNat
    let refused (n : Nat) : Prop := exec (.loadRank r) s = .next (s.leagueRefuse rank n 0 (asker t))
    let dist := match i.sects.find? fun x => x.kind = 3 with
      | some x => s.bytesNow (r.a0.toNat + x.off) x.size
      | none => []
    let n := s.placeStatus rank k0 i.sx i.sy i.mib i.prot true dist
    let tabs := tableBytes ((pagesOf i.sects 0).map (·.va))
    (badArg → RecordEnds (.loadRank r) s t 2 0)
    ∧ (¬ badArg → (s.cmdt t.toNat).secure = true →
      ((s.rank rank).st ≠ .absent → refused 8)
      ∧ ((s.rank rank).st = .absent → (s.image r.a0.toNat r.a1.toNat = none → refused 2)
        ∧ (s.image r.a0.toNat r.a1.toNat = some i → (s.segTable r.a0.toNat i = none → refused 2)
          ∧ (s.segTable r.a0.toNat i = some segs →
            (i.v ≤ rank → RecordEnds (.loadRank r) s t 2 0)
            ∧ (rank < i.v → i.job ≠ r.job → refused 2)
            ∧ (rank < i.v → i.job = r.job → (∃ e ∈ s.ranks, e.2.st ≠ .absent ∧ e.2.job ≠ i.job) → refused 9)
            ∧ (rank < i.v → i.job = r.job → (∀ e ∈ s.ranks, e.2.st = .absent ∨ e.2.job = i.job) →
              (24 ≤ k0 → refused 3)
              ∧ (k0 < 24 → n ≠ 0 → refused n)
              ∧ (k0 < 24 → n = 0 → s.hbmRun true (tabs + 65536 * (pagesOf i.sects 0).length) = none → refused 7)
              ∧ (k0 < 24 → n = 0 → s.hbmRun true (tabs + 65536 * (pagesOf i.sects 0).length) = some base →
                lowestRun i.mib 0 ((s.allotments rank k0).map fun e => (e.2.csBase, e.2.csMib)) = some cs →
                ∃ u, exec (.loadRank r) s = .next u ∧ (∀ k, k ≠ rank → u.rank k = s.rank k)
                  ∧ (let q := u.rank rank
                     q.st = .loading ∧ q.dom.toNat = k0 ∧ q.job = i.job ∧ q.shapeX = i.sx ∧ q.shapeY = i.sy ∧ q.stepline = i.stepline
                     ∧ q.csMib = i.mib ∧ q.prot = i.prot ∧ q.slot = s.freeSlot rank k0 ∧ q.arg3 = r.a3 ∧ q.arg4 = r.a4 ∧ q.segs = segs
                     ∧ q.csBase = cs ∧ q.pages = pagesOf i.sects (base + tabs) ∧ q.base = base
                     ∧ q.key = mix64 (i.seed + 0x9E3779B97F4A7C15 * BitVec.ofNat 64 (rank + 1)))
                  ∧ u.agenda = s.agenda ++ [.loadCopyEnd rank] ∧ u.c = s.c ∧ u.ver = s.ver
                  ∧ (∀ j, j < 2 ^ 52 → u.byte j = s.byte j)
                  ∧ (∀ k j, k ∈ domClusters k0 i.sx i.sy → csBaseLoc k + cs ≤ j → j < csBaseLoc k + cs + i.mib * 2 ^ 20 → u.byte j = 0)))))))

/-- R51, R61, R89, R90: the section copy: it waits for a line that the host holds. It ends with the rank HOT with STEP 0, its own entry
local with EPOCH + 1, and LOAD_RANK's record with STATUS 0; in the rank's run each section's file stands at its place, the page
tables map its pages with a table for each level that they need, and every other byte is 0. -/
def LoadEnds : Prop :=
  ∀ (s : State) (rank : Nat) (l : League) (t : BitVec 2), let r := s.rank rank
    let ps := s.sectionPieces r l.run.2
    let tabs := tableEntries r.base r.pages
    let lines := linesOf (s.mapLoc rank) 8 ++ s.heldIn r.base r.bytes
    let e := s.mapEntry rank
    let inRun (a n : Nat) : Prop := r.base ≤ a ∧ a + n ≤ r.base + r.bytes
    ((r.st ≠ .loading ∨ r.league = none) → exec (.loadCopyEnd rank) s = .next s)
    ∧ (r.st = .loading → r.league = some l →
      (s.heldLines lines ≠ [] → exec (.loadCopyEnd rank) s = .next (s.snoop lines [.loadCopyEnd rank]))
      ∧ (s.heldLines lines = [] → l.who = asker t → NoReds s → (s.mapLoc rank + 8 ≤ r.base ∨ r.base + r.bytes ≤ s.mapLoc rank) →
        r.base % 128 = 0 → r.bytes % 128 = 0 → (∀ p ∈ ps, inRun p.1 p.2.length) → (∀ x ∈ tabs, inRun x.1 8) →
        ∃ u, exec (.loadCopyEnd rank) s = .next u
          ∧ u.mapEntry rank = mkEntry 1 r.dom (entChan e) s.fab.node (entEpoch e + 1)
          ∧ (∀ j, (j < s.mapLoc rank ∨ s.mapLoc rank + 8 ≤ j) → (j < r.base ∨ r.base + r.bytes ≤ j) → u.byte j = s.byte j)
          ∧ (∀ j, inRun j 1 → (∀ p ∈ ps, j < p.1 ∨ p.1 + p.2.length ≤ j) → (∀ x ∈ tabs, j < x.1 ∨ x.1 + 8 ≤ j) → u.byte j = 0)
          ∧ (∀ p ∈ ps, ∀ i, i < p.2.length → (∀ q ∈ ps, q = p ∨ p.1 + i < q.1 ∨ q.1 + q.2.length ≤ p.1 + i) →
            (∀ x ∈ tabs, p.1 + i < x.1 ∨ x.1 + 8 ≤ p.1 + i) → u.byte (p.1 + i) = p.2.getD i 0)
          ∧ (∀ x ∈ tabs, (∀ y ∈ tabs, y = x ∨ x.1 + 8 ≤ y.1 ∨ y.1 + 8 ≤ x.1) → u.num x.1 8 = x.2 % 2 ^ 64)
          ∧ (∀ k, u.rank k = if k = rank then { r with st := .hot, step := 0, league := none, image := 0, last := 0
                                                       ptRoot := BitVec.ofNat 64 r.base } else s.rank k)
          ∧ (∀ k, u.cmdt k = if k = t.toNat then { s.cmdt t.toNat with done := some (0, 0) } else s.cmdt k)
          ∧ u.c = s.c ∧ u.ctxs = s.ctxs ∧ asked u = asked s))
    ∧ (∀ p : Page, tableEntries r.base [p] = let at_ (k i : Nat) : Nat := r.base + 65536 + 4096 * k + 8 * i
        [(r.base + 8 * (p.va / 2 ^ 39), at_ 0 0 + 1), (at_ 0 (p.va / 2 ^ 30 % 2 ^ 9), at_ 1 0 + 1), (at_ 1 (p.va / 2 ^ 21 % 2 ^ 9), at_ 2 0 + 1),
          (at_ 2 (p.va / 2 ^ 16 % 2 ^ 5), p.pa + 4 * p.perm.toNat + 3)])

/-- R46, R43, R44: a record of an enabled table completes: STATUS, DETAIL and DONE_TIME in it, then CONS, in the device line and in
the server; MSI-X where its FLAGS ask for it (log 31), once the host holds none of the lines. Record and table are where they were when
it was taken. -/
def RecordsComplete : Prop :=
  ∀ (s : State) (t st det : Nat), let c := s.cmdt t
    let a := c.home
    let loc := c.rcd
    let fl := s.num (loc + 6) 2
    c.done = some (st, det) →
    (s.heldLines [loc / 128, (a + 0x80) / 128] ≠ [] → s.finishRecord t = s.snoop [loc / 128, (a + 0x80) / 128] [])
    ∧ (s.heldLines [loc / 128, (a + 0x80) / 128] = [] → s.wq = [] → c.en = true → c.again = false → st < 2 ^ 32 → det < 2 ^ 32 →
      (loc + 128 ≤ a + 0x80 ∨ a + 0x84 ≤ loc) → ∃ u, s.finishRecord t = u
      ∧ u.num (loc + 0x60) 4 = st ∧ u.num (loc + 0x64) 4 = det ∧ u.num (loc + 0x68) 8 = s.time.toNat
      ∧ u.num (a + 0x80) 4 = (c.cons + 1).toNat
      ∧ (∀ j, ¬ (loc + 0x60 ≤ j ∧ j < loc + 0x70) → ¬ (a + 0x80 ≤ j ∧ j < a + 0x84) → u.byte j = s.byte j)
      ∧ (∀ k, u.cmdt k = if k = t then { c with cons := c.cons + 1, busy := false, again := false, done := none, waits := none }
        else s.cmdt k)
      ∧ said u = said s ++ (if fl.testBit 0 then [.msix (fl / 256 % 64)] else []) ∧ u.c = s.c ∧ u.ctxs = s.ctxs)

/-- Does a channel end admit what a source sends under a generation (R29)? -/
def Admits (s : State) (m : MsgSrc) : Prop :=
  ∃ x ∈ s.fab.chans, (x.2.st = .opened ∨ x.2.st = .fencing) ∧ x.2.admits = true ∧ x.2.peer = m.node ∧ x.2.gen = m.gen

/-- A message that no channel end admits is rejected, and nothing else changes (R29). -/
def MessageRejected (i : Instr) (s : State) (node : BitVec 12) : Prop :=
  ∃ t, exec i s = .next t ∧ t.out = s.out ++ [.reject node 0 false] ∧ SentBack t s node
    ∧ { t with out := s.out, fab := { t.fab with ports := s.fab.ports } } = s

/-- R67: the destination's status of a migration request, and its run. -/
def RequestChecked : Prop :=
  ∀ (s : State) (m : MigReq) (bytes : Nat),
    let sec := s.secureCluster m.dom.toNat
    let n := s.placeStatus m.rank m.dom.toNat m.shapeX m.shapeY m.csMib m.prot sec (m.dslice ++ m.dcc)
    ((s.rank m.rank).st ≠ .absent → (s.requestStatus m bytes).1 = 8)
    ∧ ((s.rank m.rank).st = .absent → (∃ e ∈ s.ranks, e.2.st ≠ .absent ∧ e.2.job ≠ m.job) → (s.requestStatus m bytes).1 = 9)
    ∧ ((s.rank m.rank).st = .absent → (∀ e ∈ s.ranks, e.2.st = .absent ∨ e.2.job = m.job) →
      (n ≠ 0 → (s.requestStatus m bytes).1 = n)
      ∧ (n = 0 → s.hbmRun sec bytes = none → (s.requestStatus m bytes).1 = 7)
      ∧ (∀ b, n = 0 → s.hbmRun sec bytes = some b → s.requestStatus m bytes = (0, b)))

/-- R61, R67, R29: a migration request arrives: rejected where its channel end does not admit it for the domain; refused with its status,
and nothing changes; else the rank is INCOMING in the lowest free slot of the domain, its cluster-store lines there zeroed, and the source is answered 0. -/
def MigrationArrives : Prop :=
  ∀ (s : State) (m : MigReq) (cs n b : Nat),
    s.requestStatus m (65536 + 65536 * ((12288 * m.pages + 65535) / 65536) + 65536 * m.pages) = (n, b) →
    let admitted : Prop := ∃ x ∈ s.fab.chans, (x.2.st = .opened ∨ x.2.st = .fencing) ∧ x.2.admits = true
      ∧ x.2.peer = m.src ∧ x.2.gen = m.gen ∧ x.2.domains.getLsbD m.dom.toNat = true
    let answers (u : State) (k : Nat) : Prop := u.out = s.out ++ leagueOut s m.src "answer" m.rank (BitVec.ofNat 64 k)
    (¬ admitted → MessageRejected (.migrateRequestReceived m) s m.src)
    ∧ (admitted → n ≠ 0 → ∃ u, exec (.migrateRequestReceived m) s = .next u ∧ answers u n
      ∧ { u with out := s.out, fab := { u.fab with ports := s.fab.ports } } = s)
    ∧ (admitted → n = 0 → lowestRun m.csMib 0 ((s.allotments m.rank m.dom.toNat).map fun e => (e.2.csBase, e.2.csMib)) = some cs →
      ∃ u, exec (.migrateRequestReceived m) s = .next u ∧ (∀ k, k ≠ m.rank → u.rank k = s.rank k)
        ∧ (let q := u.rank m.rank
           q.st = .incoming ∧ q.dom = m.dom ∧ q.job = m.job ∧ q.shapeX = m.shapeX ∧ q.shapeY = m.shapeY ∧ q.csMib = m.csMib
           ∧ q.prot = m.prot ∧ q.slot = s.freeSlot m.rank m.dom.toNat ∧ q.csBase = cs ∧ q.base = b)
        ∧ answers u 0 ∧ u.c = s.c ∧ u.ver = s.ver
        ∧ (∀ j, j < 2 ^ 52 → u.byte j = s.byte j)
        ∧ (∀ k j, k ∈ domClusters m.dom.toNat m.shapeX m.shapeY → csBaseLoc k + cs ≤ j → j < csBaseLoc k + cs + m.csMib * 2 ^ 20 →
          u.byte j = 0))

/-- R68: what giving a move up before its commit does, where no strand has been saved and no release is held: the destination is told,
the entry that was held is restored here and on the chips that hold it, the rank is HOT, and the operation ends with its status. -/
def MovesGivenUp : Prop :=
  ∀ (s : State) (rank n det : Nat) (l : League) (t : BitVec 2), let r := s.rank rank
    let hot : Rank := { r with st := .hot, league := none, last := BitVec.ofNat 8 n }
    let told := if r.st = .outgoing then leagueOut s l.node "abort" rank 0 else []
    r.league = some l → r.saved = [] → r.heldRelease = false → l.who = asker t → (r.st = .parking ∨ r.st = .outgoing) →
    ((l.step = .precopy ∨ l.step = .quiesce) → ∃ v ports, Ends v (s.leagueAbort rank n det) t (if n = 0 then 0 else 0x100 + n) det
      ∧ RankIs { s with out := s.out ++ told, fab := { s.fab with ports } } v rank hot)
    ∧ ((l.step = .hold ∨ l.step = .snapshot ∨ l.step = .transfer) → s.wq = [] → s.heldLines [s.mapLoc rank / 128] = [] →
      ∃ v w : State, Ends v (s.leagueAbort rank n det) t (if n = 0 then 0 else 0x100 + n) det
      ∧ WrittenAt s w (s.mapLoc rank) (le 8 l.before.toNat)
      ∧ said w = said s ++ told ++ (l.chips.flatMap fun k => leagueOut s k "restore" rank 0)
      ∧ RankIs w v rank hot ∧ w.c = s.c ∧ w.ctxs = s.ctxs ∧ w.ranks = s.ranks ∧ { w.fab with ports := s.fab.ports } = s.fab)

/-- R67, R68, R62, R28, R34: the destination answers. Before it has: a refusal ends the operation with REFUSED and n; else the rank is
OUTGOING, and the first round sends every page; on a channel that is no longer OPEN its transfer fails at once, with code 1 in
FENCING and FENCED. After it: a refusal, before the commit, gives the move up. -/
def DestinationAnswers : Prop :=
  ∀ (s : State) (rank : Nat) (n : BitVec 8) (l : League), let r := s.rank rank
    let ch := (s.chan l.chan).st
    (r.league = none → exec (.destAnswer rank n) s = .next s)
    ∧ (r.league = some l →
      (l.step = .request → r.st = .hot → n ≠ 0 → ∃ v, RankIs s v rank { r with league := none }
        ∧ exec (.destAnswer rank n) s = .next (v.leagueRefuse rank 12 n.toNat l.who))
      ∧ (l.step = .request → r.st = .hot → n = 0 → l.co = none → ∃ (t : State) (sent : Store (BitVec 48)),
        let n := if l.round = 0 then 65536 * (pageAddrs (s.mapped rank)).length
          else 128 * (sent.filter fun e => Store.get 0 l.sent e.1 ≠ e.2).length
        let code := if ch = .fencing ∨ ch = .fenced then 1 else 4
        let l' : League := { l with step := .precopy, round := l.round + 1, sent := sent, bytes := n }
        let lasts (l : League) : Prop := ∀ k, t.rank k = if k = rank then { r with st := .outgoing, league := some l } else s.rank k
        exec (.destAnswer rank n) s = .next t
        ∧ (∀ p ∈ s.mapped rank, isDev p.pa = true → p.pa % 65536 = 0 → ∀ k, p.pa / 128 ≤ k → k < (p.pa + 65536) / 128 →
          Store.get 0 sent k = s.version k)
        ∧ (ch = .opened → lasts { l' with kept := s.time.toNat }
          ∧ ∃ x, t.fab.xfers = s.fab.xfers ++ [x] ∧ x.chan = l.chan ∧ x.what = .league rank l.id)
        ∧ (ch ≠ .opened → lasts { l' with failed := some code }
          ∧ t.fab = { s.fab with err := BitVec.ofNat 4 code ++ (l.chan ++ l.coVa.setWidth 52 : BitVec 60) })
        ∧ t.mem = s.mem ∧ t.c = s.c)
      ∧ (r.st = .outgoing → l.step ≠ .commit → n ≠ 0 → exec (.destAnswer rank n) s = .next (s.leagueAbort rank 12 n.toNat))
      ∧ (r.st = .outgoing → (l.step = .commit ∨ n = 0) → exec (.destAnswer rank n) s = .next s))

/-- R68 step 1: the end of a round of pre-copy, once its transfers have ended: the eighth, or one below PRECOPY_STOP pages of 64 KiB,
ends it, and the rank waits for a step boundary; else another round follows. -/
def RoundsEnd : Prop :=
  ∀ (s : State) (rank : Nat) (l : League), let r := s.rank rank
    let idle := ∀ x ∈ s.fab.xfers, x.what ≠ .league rank l.id
    ((r.st ≠ .outgoing ∨ r.league = none) → exec (.precopyRoundEnd rank) s = .next s)
    ∧ (r.st = .outgoing → r.league = some l →
      ((l.step ≠ .precopy ∨ ¬ idle ∨ l.failed ≠ none) → exec (.precopyRoundEnd rank) s = .next s)
      ∧ (l.step = .precopy → idle → (l.bytes < 65536 * s.sched.precopyStop.toNat ∨ 8 ≤ l.round) → l.failed = none → r.heldRelease = false →
        s.still rank = false → ∃ t, exec (.precopyRoundEnd rank) s = .next t ∧ RankIs s t rank { r with league := some { l with step := .quiesce } })
      ∧ (l.step = .precopy → idle → l.failed = none → 65536 * s.sched.precopyStop.toNat ≤ l.bytes → l.round < 8 →
        (s.chan l.chan).st = .opened → ∃ t l', exec (.precopyRoundEnd rank) s = .next t
        ∧ (∀ k, t.rank k = if k = rank then { r with league := some l' } else s.rank k) ∧ l'.step = .precopy ∧ l'.round = l.round + 1
        ∧ (∃ x, t.fab.xfers = s.fab.xfers ++ [x] ∧ x.chan = l.chan ∧ x.what = .league rank l.id) ∧ t.mem = s.mem ∧ t.c = s.c))

/-- R29, R68 step 2: a hold arrives, and is rejected where its channel end does not admit it: the entry is held, its previous value kept,
once the host holds no line of it; BUSY while a collective owes an edge to the rank by an entry read before; else ready, once no
transfer toward the rank is outstanding. -/
def HoldsArrive : Prop :=
  ∀ (s : State) (rank : Nat) (src : MsgSrc), let e := s.mapEntry rank
    let i : Instr := .mapHoldReceived rank src
    let answers (v t : State) (what : String) : Prop := t.out = v.out ++ leagueOut s src.node what rank 0
      ∧ { t with out := v.out, fab := { t.fab with ports := v.fab.ports } } = v
    (¬ Admits s src → MessageRejected i s src.node)
    ∧ (Admits s src → s.heldLines [s.mapLoc rank / 128] ≠ [] → exec i s = .next (s.snoop [s.mapLoc rank / 128] [i]))
    ∧ (Admits s src → s.wq = [] → s.heldLines [s.mapLoc rank / 128] = [] → s.fab.holds = [] →
    ∃ v t, WrittenAt s v (s.mapLoc rank) (le 8 (e ||| 3).toNat) ∧ said v = said s
      ∧ v.fab = { s.fab with before := Store.set none s.fab.before rank (some e) } ∧ v.ranks = s.ranks ∧ v.c = s.c ∧ v.ctxs = s.ctxs
      ∧ exec i s = .next t
      ∧ ((∃ c ∈ s.colls, c.owes rank = true) → answers v t "busy")
      ∧ ((∀ c ∈ s.colls, c.owes rank = false) → (∀ x ∈ s.fab.xfers, x.dest ≠ rank) → answers v t "ready")
      ∧ ((∀ c ∈ s.colls, c.owes rank = false) → (∃ x ∈ s.fab.xfers, x.dest = rank) →
        t = { v with fab := { v.fab with holds := [(rank, src.node)] } }))

/-- R68 steps 2 to 4, R71: a hold's answer: BUSY, or none within FAB_TIMEOUT, gives the move up; an answer that is not awaited does nothing;
with the last one the snapshot begins, and, for a park with every strand at a pre-emption point saved, the move into the second
tier. The strand that runs is saved as its last cycle on the sequencer leaves it (R106, R180). -/
def HoldsAnswered : Prop :=
  ∀ (s : State) (rank key : Nat) (node : BitVec 12) (ready : Bool) (l : League) (c : Ctx), let r := s.rank rank
    let i : Instr := .mapHoldAnswer rank node ready
    let rest := l.waiting.filter (· ≠ node)
    (r.league = none → exec i s = .next s ∧ exec (.mapHoldTimeout rank) s = .next s)
    ∧ (r.league = some l → s.orphans rank = [] →
      ((l.step ≠ .hold ∨ node ∉ l.waiting) → exec i s = .next s)
      ∧ (l.step = .hold → node ∈ l.waiting → ready = false → exec i s = .next (s.leagueAbort rank 1 0))
      ∧ (l.step = .hold → node ∈ l.waiting → ready = true → rest ≠ [] → ∃ t, exec i s = .next t
        ∧ RankIs s t rank { r with league := some { l with waiting := rest } })
      ∧ (l.step = .hold → node ∈ l.waiting → ready = true → rest = [] → r.st = .parking →
        ∃ u t, RankIs s u rank { r with league := some { l with waiting := [], step := .snapshot } } ∧ exec i s = .next t
        ∧ (s.strands rank = [] →
          RankIs { s with agenda := s.agenda ++ [.parkComplete rank] } t rank { r with league := some { l with waiting := [], step := .transfer } })
        ∧ (s.strands rank = [(key, c)] → u.atPoint c = false → t = u)
        ∧ (s.strands rank = [(key, c)] → s.ctx key = c → key / 8 = c.seq → u.atPoint c = true → s.quiet key c = true → c.mops = [] →
          s.waitingFor key = false →
          (s.seqOf c.seq).swapTo = none → t.agenda = s.agenda ++ [.parkComplete rank]
          ∧ ((s.seqOf c.seq).active ≠ some (key % 8) → (t.rank rank).saved = r.saved ++ [c])
          ∧ ((s.seqOf c.seq).active = some (key % 8) → (t.rank rank).saved
              = r.saved ++ [{ (c.lastCycle false).1.settle false with mark := true, fresh := true, snap := none }])
          ∧ (t.rank rank).st = .parking
          ∧ (t.rank rank).league = some { l with waiting := [], step := .transfer }
          ∧ (t.ctx key).live = false ∧ (t.seqOf c.seq).active ≠ some (key % 8) ∧ (t.seqOf c.seq).shadow ≠ some (key % 8) ∧ t.mem = s.mem))
      ∧ (l.step = .hold → l.at_ + max 1 s.fab.timeout.toNat ≤ s.time.toNat → exec (.mapHoldTimeout rank) s = .next (s.leagueAbort rank 1 0))
      ∧ ((l.step ≠ .hold ∨ s.time.toNat < l.at_ + max 1 s.fab.timeout.toNat) → exec (.mapHoldTimeout rank) s = .next s))

/-- R68 step 5: the destination is ready: the rank's own entry names it, remote, with EPOCH + 1, once the host holds no line of it; every
chip of step 2 is sent the new entry, and the destination its own, local; their acknowledgements are waited for. -/
def CommitBegins : Prop :=
  ∀ (s : State) (rank : Nat) (l : League), let r := s.rank rank
    let e := s.mapEntry rank
    let chips := l.chips.filter (· ≠ l.node)
    let entry (st : Nat) (ch : BitVec 8) : DWord := mkEntry st l.dom ch l.node (entEpoch e + 1)
    ((r.st ≠ .outgoing ∨ r.league = none) → exec (.migrationDestReady rank) s = .next s)
    ∧ (r.st = .outgoing → r.league = some l → l.step ≠ .transfer → exec (.migrationDestReady rank) s = .next s)
    ∧ (r.st = .outgoing → r.league = some l → l.step = .transfer → s.heldLines [s.mapLoc rank / 128] ≠ [] →
      exec (.migrationDestReady rank) s = .next (s.snoop [s.mapLoc rank / 128] [.migrationDestReady rank]))
    ∧ (r.st = .outgoing → r.league = some l → l.step = .transfer → s.wq = [] → s.heldLines [s.mapLoc rank / 128] = [] → ∃ t,
      exec (.migrationDestReady rank) s = .next t
      ∧ WrittenAt s t (s.mapLoc rank) (le 8 (entry 2 l.chan).toNat)
      ∧ said t = said s ++ (chips.flatMap fun n => leagueOut s n "entry" rank (entry 2 (entChan e)))
        ++ leagueOut s l.node "entry" rank (entry 1 (entChan e))
      ∧ (∀ k, t.rank k = if k = rank then
          { r with league := some { l with step := .commit, waiting := chips ++ [l.node], at_ := s.time.toNat } }
        else s.rank k)
      ∧ t.c = s.c ∧ t.ctxs = s.ctxs)

/-- R68 step 5, R70, R71: a chip acknowledges, or does not within FAB_TIMEOUT: with the last one a parking rank is COLD, and an outgoing one
ABSENT here, its lines zeroed, once the host holds none of them; with status 0, or MAP_PARTIAL where one did not. -/
def CommitEnds : Prop :=
  ∀ (s : State) (rank : Nat) (node : BitVec 12) (l : League) (t : BitVec 2), let r := s.rank rank
    let i : Instr := .mapAckReceived rank node
    let j : Instr := .mapAckTimeout rank node
    let rest := l.waiting.filter (· ≠ node)
    let late := l.at_ + max 1 s.fab.timeout.toNat ≤ s.time.toNat
    let cold (n : Nat) : Rank := { r with st := .cold, league := none, last := BitVec.ofNat 8 n }
    (r.league = none → exec i s = .next s ∧ exec j s = .next s)
    ∧ (r.league = some l →
      ((l.step ≠ .commit ∨ node ∉ l.waiting) → exec i s = .next s ∧ exec j s = .next s)
      ∧ (¬ late → exec j s = .next s)
      ∧ (l.step = .commit → node ∈ l.waiting → rest ≠ [] →
        (∃ u, exec i s = .next u ∧ RankIs s u rank { r with league := some { l with waiting := rest } })
        ∧ (late → ∃ u, exec j s = .next u ∧ RankIs s u rank { r with league := some { l with waiting := rest, late := some (l.late.getD node) } }))
      ∧ (l.step = .commit → node ∈ l.waiting → rest = [] → l.late = none → l.who = asker t → r.st = .parking →
        (∃ v u, exec i s = .next u ∧ Ends v u t 0 0 ∧ RankIs s v rank (cold 0))
        ∧ (late → ∃ v u, exec j s = .next u ∧ Ends v u t 0x10B node.toNat ∧ RankIs s v rank (cold 11)))
      ∧ (l.step = .commit → node ∈ l.waiting → rest = [] → r.st = .outgoing → s.heldLines (s.vacateLines rank) ≠ [] →
        ∃ u, RankIs s u rank { r with league := some { l with waiting := [] } } ∧ exec i s = .next (u.snoop (s.vacateLines rank) []))
      ∧ (l.step = .commit → node ∈ l.waiting → rest = [] → l.late = none → l.who = asker t → r.st = .outgoing → r.ends = [] →
        s.heldLines (s.vacateLines rank) = [] → NoReds s →
        ∃ u, exec i s = .next u ∧ (∀ k, u.rank k = if k = rank then Rank.reset else s.rank k)
          ∧ (∀ k, u.cmdt k = if k = t.toNat then { s.cmdt t.toNat with done := some (0, 0) } else s.cmdt k)
          ∧ (∀ j, r.base ≤ j → j < r.base + r.bytes → u.byte j = 0)
          ∧ (∀ k j, k ∈ domClusters r.dom.toNat r.shapeX r.shapeY → csBaseLoc k + r.csBase ≤ j →
            j < csBaseLoc k + r.csBase + r.csMib * 2 ^ 20 → u.byte j = 0)
          ∧ StrandsKept s u))

/-- R68: League traffic toward the destination before the commit, one flit over the channel that is open to it, and its arrival there. -/
def KeepaliveSent : Prop :=
  ∀ (s : State) (rank : Nat) (l : League), let r := s.rank rank
    (r.st ≠ .incoming → (r.st ≠ .outgoing ∨ r.league = none) → exec (.leagueKeepalive rank) s = .next s)
    ∧ (r.st = .incoming → r.league = some l → ∃ t, exec (.leagueKeepalive rank) s = .next t
      ∧ RankIs s t rank { r with league := some { l with kept := s.time.toNat } })
    ∧ (r.st = .outgoing → r.league = some l →
      (l.step = .commit → exec (.leagueKeepalive rank) s = .next s)
      ∧ (l.step ≠ .commit → ∃ t ports, exec (.leagueKeepalive rank) s = .next t
        ∧ RankIs { s with out := s.out ++ leagueOut s l.node "keepalive" rank 0, fab := { s.fab with ports } } t rank
          { r with league := some { l with kept := s.time.toNat } }
        ∧ (match s.chansWith fun c => c.st = .opened && c.peer = l.node with
           | ch :: _ => ∀ k, t.port k =
               if (s.portsUp ch).getLsbD k = true ∧ ∀ j, j < k → (s.portsUp ch).getLsbD j = false then flitSent s (s.port k) ch else s.port k
           | [] => t.fab = s.fab)))

/-- R29, R41, R62, R68: the source gives the migration up, by a message that its channel end admits, or is silent for FAB_TIMEOUT: an
INCOMING rank is ABSENT, its domain and run zeroed, once the host holds no line of them. -/
def IncomingGivenUp : Prop :=
  ∀ (s : State) (m : RankMsg) (l : League), let rank := m.rank
    let r := s.rank rank
    let abort : Instr := .migrationAbortReceived m
    let late := l.kept + max 1 s.fab.timeout.toNat ≤ s.time.toNat
    let gone (i : Instr) : Prop := ∃ u, exec i s = .next u ∧ (∀ k, u.rank k = if k = rank then Rank.reset else s.rank k)
      ∧ (∀ j, r.base ≤ j → j < r.base + r.bytes → u.byte j = 0)
      ∧ (∀ k j, k ∈ domClusters r.dom.toNat r.shapeX r.shapeY → csBaseLoc k + r.csBase ≤ j →
        j < csBaseLoc k + r.csBase + r.csMib * 2 ^ 20 → u.byte j = 0)
      ∧ StrandsKept s u
    let held := s.heldLines (s.vacateLines rank)
    (¬ Admits s m.src → MessageRejected abort s m.src.node)
    ∧ (r.st = .incoming → held = [] → NoReds s →
      (Admits s m.src → gone abort) ∧ (r.league = some l → late → gone (.incomingTimeout rank)))
    ∧ (r.st = .incoming → held ≠ [] → (Admits s m.src → exec abort s = .next (s.snoop (s.vacateLines rank) [abort]))
      ∧ (r.league = some l → late → exec (.incomingTimeout rank) s = .next (s.snoop (s.vacateLines rank) [])))
    ∧ ((r.league = none ∨ (r.league = some l ∧ ¬ late)) → exec (.incomingTimeout rank) s = .next s)
    ∧ (r.st ≠ .incoming → (Admits s m.src → exec abort s = .next s) ∧ exec (.incomingTimeout rank) s = .next s)

/-- Two runs of bytes have none in common. -/
def Apart (a m b n : Nat) : Prop := a + m ≤ b ∨ b + n ≤ a

/-- R29, R66, R68 steps 2 and 5: what no channel end admits is rejected; a new entry is written, with CHAN unchanged where it is remote
or held, and acknowledged; a hold given up writes the previous one back; at the destination of a migration, where the entry is local
and its CHAN 0, the rank is HOT with what has been brought, in the domain reserved for it, its page's bytes at their new place. All wait for lines that the host holds. -/
def EntriesArrive : Prop :=
  ∀ (s : State) (rank : Nat) (entry : DWord) (src : MsgSrc) (m : Moved) (p : Page), let r := s.rank rank
    -- CHAN names a channel of the chip's own, and is ignored of a local entry
    let e : DWord := if entry.toNat % 4 = 0 then entry else if entry.toNat % 4 = 1 then entry &&& ~~~0xFF00
      else (entry &&& ~~~0xFF00) ||| (s.mapEntry rank &&& 0xFF00)
    let got (restore : Bool) : Instr := .mapEntryReceived rank entry src restore
    let line := [s.mapLoc rank / 128]
    (¬ Admits s src → ∀ b, MessageRejected (got b) s src.node) ∧ (Admits s src → NoReds s →
    (∀ b, s.heldLines line ≠ [] → r.st ≠ .incoming → exec (got b) s = .next (s.snoop line [got b]))
    ∧ (s.heldLines line = [] → Store.get none s.fab.before rank = none → exec (got true) s = .next s)
    ∧ (∀ old, s.heldLines line = [] → Store.get none s.fab.before rank = some old → ∃ t, exec (got true) s = .next t
      ∧ WrittenAt s t (s.mapLoc rank) (le 8 old.toNat) ∧ said t = said s ∧ t.ranks = s.ranks ∧ t.c = s.c ∧ t.ctxs = s.ctxs
      ∧ t.fab = { s.fab with
          before := Store.set none s.fab.before rank none, holds := s.fab.holds.filter fun h => decide (h.1 ≠ rank) })
    ∧ (s.heldLines line = [] → (r.st ≠ .incoming ∨ entry.toNat % 4 ≠ 1) → ∃ t, exec (got false) s = .next t
      ∧ WrittenAt s t (s.mapLoc rank) (le 8 e.toNat) ∧ said t = said s ++ leagueOut s src.node "ack" rank entry ∧ t.ranks = s.ranks
      ∧ { t.fab with ports := s.fab.ports } = { s.fab with before := Store.set none s.fab.before rank none } ∧ t.c = s.c ∧ t.ctxs = s.ctxs)
    ∧ (r.st = .incoming → entry.toNat % 4 = 1 → r.ends = [] → Store.get none s.fab.arrived rank = some m →
      s.heldLines (line ++ s.heldIn r.base r.bytes) = [] → m.rank.pages = [p] → isDev p.pa = true → m.rank.heldRelease = false → ∃ t,
      exec (got false) s = .next t
      ∧ (let q := t.rank rank
         q.st = .hot ∧ q.league = none ∧ q.last = 0 ∧ q.dom = r.dom ∧ q.slot = r.slot ∧ q.csBase = r.csBase ∧ q.step = m.rank.step
         ∧ q.key = m.rank.key ∧ q.fmt = m.rank.fmt ∧ q.segs = m.rank.segs ∧ q.groups = dropEmpty (fun _ => true) m.rank.groups ∧ q.saved = []
         ∧ q.pages = [{ p with pa := r.base + tableBytes [p.va] }])
      ∧ (∀ k, k ≠ rank → t.rank k = s.rank k) ∧ (∀ x ∈ leagueOut s src.node "ack" rank entry, x ∈ t.out)
      ∧ Store.get none t.fab.arrived rank = none
      ∧ (p.size = 65536 → p.pa % 65536 = 0 → r.base % 65536 = 0 → p.va < 2 ^ 52 → m.cs = [] → r.base + tableBytes [p.va] + 65536 ≤ 2 ^ 51 →
        ∀ j, j < 65536 → t.byte (r.base + tableBytes [p.va] + j) = Store.get 0 m.mem (p.pa + j))))

/-- R66, R71: a park ends, once the host holds no line that it writes: the page that the rank's tables map stands in the second tier with
its versions, without a write event; what the rank held of HBM4E and of its domain is zeroed; its entry is held, absent of a chip's
hold, with EPOCH + 1; the rank is COLD once the other chips have acknowledged. -/
def ParkEnds : Prop :=
  ∀ (s : State) (rank : Nat) (l : League) (p : Page) (t : BitVec 2), let r := s.rank rank
    let e := s.mapEntry rank
    let at1 := l.run.1
    ((r.st ≠ .parking ∨ r.league = none) → exec (.parkComplete rank) s = .next s)
    ∧ (r.st = .parking → r.league = some l → l.step ≠ .transfer → exec (.parkComplete rank) s = .next s)
    ∧ (r.st = .parking → r.league = some l → l.step = .transfer → s.heldLines (s.vacateLines rank) ≠ [] →
      exec (.parkComplete rank) s = .next (s.snoop (s.vacateLines rank) [.parkComplete rank]))
    ∧ (r.st = .parking → r.league = some l → l.step = .transfer → s.heldLines (s.vacateLines rank) = [] → l.who = asker t →
      s.mapped rank = [p] → isDev p.pa = true → p.size = 65536 → NoReds s →
      p.pa % 65536 = 0 → at1 % 65536 = 0 → p.pa + 65536 ≤ 2 ^ 51 → at1 + l.run.2 ≤ 2 ^ 51 → l.run.2 = r.coldBytes [p] → r.base + r.bytes ≤ 2 ^ 51 →
      r.base % 128 = 0 → r.bytes % 128 = 0 → Apart p.pa 65536 at1 l.run.2 → Apart r.base r.bytes at1 l.run.2 →
      Apart (s.mapLoc rank) 8 at1 l.run.2 → Apart (s.mapLoc rank) 8 r.base r.bytes → Apart (s.mapLoc rank) 8 p.pa 65536 →
      s.mapLoc rank + 8 ≤ 2 ^ 52 → ∃ u, exec (.parkComplete rank) s = .next u
        ∧ (∀ j, j < 65536 → u.byte (at1 + j) = s.byte (p.pa + j) ∧ u.version ((at1 + j) / 128) = s.version ((p.pa + j) / 128))
        ∧ (∀ j, r.base ≤ j → j < r.base + r.bytes → u.byte j = 0)
        ∧ u.mapEntry rank = (mkEntry 3 (entDomain e) (entChan e) (entChip e) (entEpoch e + 1) ||| 3)
        ∧ (let q := u.rank rank
           q.pages = [{ p with pa := at1 }] ∧ q.base = at1 ∧ q.ptRoot = 0
           ∧ (q.st = .cold ∧ q.league = none ∨ q.st = .parking ∧ ∃ l', q.league = some l' ∧ l'.step = .commit ∧ l'.waiting ≠ []))
        ∧ StrandsKept s u)

/-- R66, R71: a recall ends, once the host holds no line that it writes: the page stands in HBM4E with its versions; the second tier's
run is zeroed; the entry is local, with EPOCH + 1; the rank is HOT once the other chips have acknowledged. -/
def RecallEnds : Prop :=
  ∀ (s : State) (rank : Nat) (l : League) (p : Page) (t : BitVec 2), let r := s.rank rank
    let e := s.mapEntry rank
    let at1 := l.run.1 + tableBytes [p.va]
    ((r.st ≠ .recalling ∨ r.league = none) → exec (.recallComplete rank) s = .next s)
    ∧ (r.st = .recalling → r.league = some l → l.step ≠ .recall → exec (.recallComplete rank) s = .next s)
    ∧ (r.st = .recalling → r.league = some l → l.step = .recall → s.heldLines (s.vacateLines rank ++ s.heldIn l.run.1 l.run.2) = [] →
      l.who = asker t → r.pages = [p] → isDev p.pa = true → p.size = 65536 → NoReds s →
      p.va < 2 ^ 52 → p.pa % 65536 = 0 → l.run.1 % 65536 = 0 → p.pa + 65536 ≤ 2 ^ 51 → l.run.1 + l.run.2 ≤ 2 ^ 51 →
      l.run.2 = tableBytes [p.va] + 65536 → r.base = p.pa → 65536 ≤ r.bytes → r.base + r.bytes ≤ 2 ^ 51 → r.bytes % 128 = 0 →
      Apart r.base r.bytes l.run.1 l.run.2 → Apart (s.mapLoc rank) 8 l.run.1 l.run.2 → Apart (s.mapLoc rank) 8 r.base r.bytes →
      s.mapLoc rank + 8 ≤ 2 ^ 52 →
      ∃ u, exec (.recallComplete rank) s = .next u
        ∧ (∀ j, j < 65536 → u.byte (at1 + j) = s.byte (p.pa + j) ∧ u.version ((at1 + j) / 128) = s.version ((p.pa + j) / 128))
        ∧ (∀ j, r.base ≤ j → j < r.base + r.bytes → u.byte j = 0)
        ∧ u.mapEntry rank = mkEntry 1 r.dom (entChan e) s.fab.node (entEpoch e + 1)
        ∧ (let q := u.rank rank
           q.pages = [{ p with pa := at1 }] ∧ q.base = l.run.1 ∧ q.ptRoot = BitVec.ofNat 64 l.run.1
           ∧ (q.st = .hot ∧ q.league = none ∨ q.st = .recalling ∧ ∃ l', q.league = some l' ∧ l'.step = .commit ∧ l'.waiting ≠ [])))

/-- A sequencer becomes q; no other changes, nor anything else. -/
def SeqIs (s t : State) (seq : Nat) (q : Seq) : Prop := (∀ k, t.seqOf k = if k = seq then q else s.seqOf k) ∧ { t with seqs := s.seqs } = s

/-- R101: of the launches of a rank whose dependence is met and that have a strand for a core, the one of lowest effective priority is
granted; none only where there is none. -/
def LaunchChosen : Prop :=
  ∀ (s : State) (r : Rank) (lcore : Nat), let n := 8 * r.clusters
    let fit (l : Launch) : Prop := l ∈ r.queue ∧ s.depMet l = true ∧ l.strandFor n lcore ≠ none
    (∀ l, s.chooseLaunch r lcore = some l → fit l ∧ ∀ l', fit l' → s.priority l ≤ s.priority l')
    ∧ (s.chooseLaunch r lcore = none → ∀ l, ¬ fit l)

/-- R101: a launch's priority falls by one with every AGE_STEP cycles of its waiting. -/
def LaunchAges : Prop :=
  ∀ (s : State) (l : Launch), s.sched.ageStep ≠ 0 → l.at_ ≤ s.time.toNat →
    s.priority l = l.prio - (s.time.toNat - l.at_) / s.sched.ageStep.toNat

/-- R96, R101: a free sequencer is given the chosen launch's next strand: its context starts at ENTRY, unprivileged, with its coordinates
in s1 to s3, the record's VA in s4, the arguments from s16 up and every other scalar 0, its window and banks as the launch has them; the
engine's banks it declares are zero; the launch leaves the queue with its last strand. Without one, nothing changes. -/
def StrandGranted : Prop :=
  ∀ (s : State) (seq slot rank lcore g : Nat) (r : Rank) (l : Launch),
    s.ranks.find? (fun e => e.2.placed && decide (e.2.slot = slot) && e.2.domain.contains (seq / 32)) = some (rank, r) → s.rank rank = r →
    slot < 4 → 1 ≤ r.shapeX → r.shapeX ≤ 6 → r.coreAt lcore = seq / 4 →
    (((s.ctx (8 * seq + slot)).live = true ∨ (r.prot = true ∧ seq % 2 = 1) ∨ r.grants = false ∨ s.chooseLaunch r lcore = none) →
      exec (.strandGrant seq slot) s = .next s)
    ∧ ((s.ctx (8 * seq + slot)).live = false → (r.prot = false ∨ seq % 2 = 0) → r.grants = true → s.chooseLaunch r lcore = some l →
      l.strandFor (8 * r.clusters) lcore = some g → l.args.length = 16 →
      ∃ t, exec (.strandGrant seq slot) s = .next t
        ∧ (let c := t.ctx (8 * seq + slot)
           c.live = true ∧ c.seq = seq ∧ c.rank = rank ∧ c.lcore = lcore ∧ c.sv = false ∧ c.pc = l.entry ∧ c.launch = l.id
           ∧ c.win = l.win % 2 ^ 11 ∧ c.wrot = 0 ∧ c.banks = l.banks ∧ c.tstat = 0 ∧ c.loops = []
           ∧ c.stream = l.stream + BitVec.ofNat 64 (g * 2 ^ 32) ∧ (∀ b : BitVec 4, b ≠ 0 → c.rb b = false) ∧ (∀ e k, c.rv e k = 0)
           ∧ ∀ i : BitVec 6, c.rs i = if i = 1 then BitVec.ofNat 64 (g % l.cx) else if i = 2 then BitVec.ofNat 64 (g / l.cx % l.cy)
               else if i = 3 then BitVec.ofNat 64 (g / (l.cx * l.cy)) else if i = 4 then l.recVA
               else if 16 ≤ i.toNat ∧ i.toNat < 32 then l.args.getD (i.toNat - 16) 0 else 0)
        ∧ (∀ k, k ≠ 8 * seq + slot → t.ctx k = s.ctx k)
        ∧ (∀ (b : BitVec 3) x n, x < 64 → n < 64 → (t.engine (seq / 4) rank).elem b x n
            = if l.banks.getLsbD b.toNat = true then 0 else (s.engine (seq / 4) rank).elem b x n)
        ∧ (∀ k, k ≠ rank → t.rank k = s.rank k)
        ∧ (let granted := Store.set 0 l.granted lcore (Store.get 0 l.granted lcore + 1)
           (t.rank rank).queue = if (granted.map (·.2)).sum = l.cx * l.cy * l.cz then r.queue.filter (fun x => x.id ≠ l.id)
             else r.queue.map fun x => if x.id = l.id then { x with granted } else x)
        ∧ t.seqs = s.seqs ∧ t.mem = s.mem)

/-- R106 to R108, R115, R183: the shadow swap: it begins where the chosen context stands filled in the shadow and the active strand
stands at a pre-emption point with its loads landed and no M or K operation more than 15 cycles from its end, takes 48 cycles, and
ends with the two exchanged, the incoming one's image checked, and the outgoing one's spill running; MINRES is 48 cycles and that
spill from its beginning on; what a context spills. A bank that the incoming strand shares with the outgoing one, or with the one that
left before, takes its spill and fill too. (When it holds its own data is the model's reading, log 67.) -/
def ShadowSwaps : Prop :=
  ∀ (s : State) (seq w a slot : Nat), let q := s.seqOf seq
    let c := s.ctx (8 * seq + a)
    let own : Nat := if c.resident = false ∧ (s.mownOf c.core c.rank).toNat % 4 = c.seq % 4 then 1024 else 0
    let time := s.time.toNat
    let spill := s.spillTime (8 * seq + a)
    let both := c.banks &&& (s.ctx (8 * seq + w)).banks
    let left := q.lastBanks &&& (s.ctx (8 * seq + w)).banks
    let swapped := { q with swapTo := some w, want := none, swapAt := s.time.toNat + 48 }
    let comes (u : State) : Prop :=
      (∀ k, u.ctx k = if k = 8 * seq + w then { (s.ctx k).imageChecked with mark := true, fresh := true, snap := none } else s.ctx k)
      ∧ { u with c := s.c, ctxs := s.ctxs } = s
    (s.swapReady seq = false → exec (.swapBegin seq) s = .next s)
    ∧ ((q.swapTo ≠ none ∨ q.spilling = true ∨ q.filling ≠ none ∨ q.want = none ∨ q.want ≠ q.shadow
        ∨ (q.active = some a ∧ (s.atPoint c = false ∨ s.quiet (8 * seq + a) c = false))) → s.swapReady seq = false)
    ∧ (q.swapTo = none → q.spilling = false → q.filling = none → q.want = some w → q.shadow = some w →
      (q.active = none → ∃ t, exec (.swapBegin seq) s = .next t ∧ SeqIs s t seq swapped)
      ∧ (q.active = some a → s.atPoint c = true → s.quiet (8 * seq + a) c = true → ∃ u t : State, exec (.swapBegin seq) s = .next t
        ∧ SeqIs u t seq swapped ∧ (∀ k, u.ctx k = if k = 8 * seq + a then c.settle false else s.ctx k)
        ∧ { u with c := s.c, ctxs := s.ctxs } = s))
    ∧ (q.swapTo = none → exec (.swapComplete seq) s = .next s)
    ∧ (q.swapTo = some w → q.active = some a → s.tableOf seq = none → ∃ u t : State, exec (.swapComplete seq) s = .next t ∧ comes u
      ∧ SeqIs u t seq { q with active := some w, shadow := some a, swapTo := none, lastSlot := w, swapInAt := time, minres := spill
                               early := false, spilling := true, spillAt := time + spill, lastBanks := 0
                               both, bothAt := time + spill + 512 * popByte both })
    ∧ (q.swapTo = some w → q.active = none → s.tableOf seq = none → ∃ u t : State, exec (.swapComplete seq) s = .next t ∧ comes u
      ∧ SeqIs u t seq { q with active := some w, shadow := none, swapTo := none, lastSlot := w, swapInAt := time, minres := 0
                               early := false, spilling := false, spillAt := time, lastBanks := 0
                               both := left, bothAt := time + 512 * popByte left })
    ∧ (c.imageChecked = c ∨ c.imageChecked = { c with due := some (⟨0x01, 0, 0xFF, 0xFF, 0⟩, false) })
    ∧ spill = 64 + 2 * c.win + 512 * popByte c.banks + own
    ∧ (∃ t, exec (.spillEnd seq) s = .next t ∧ SeqIs s t seq { q with spilling := false })
    ∧ (q.filling = some slot → ∃ t, exec (.fillEnd seq slot) s = .next t ∧ SeqIs s t seq { q with filling := none, shadow := some slot })
    ∧ (q.filling ≠ some slot → ∃ t, exec (.fillEnd seq slot) s = .next t ∧ SeqIs s t seq q)
    ∧ (q.swapInAt + q.minres ≤ s.time.toNat → ∃ t, exec (.minresExpiry seq) s = .next t ∧ SeqIs s t seq { q with minres := 0 })
    ∧ (s.time.toNat < q.swapInAt + q.minres → ∃ t, exec (.minresExpiry seq) s = .next t ∧ SeqIs s t seq q)

/-- A domain's scheduler becomes d; nothing else changes. -/
def DomIs (s t : State) (k : Nat) (d : Dom) : Prop :=
  (∀ i, t.domOf i = if i = k then d else s.domOf i) ∧ { t with sched := { t.sched with doms := s.sched.doms } } = s

/-- R113, R116: a refill raises each bucket of a domain's ranks by RATE, up to DEPTH; a rank is funded where no limited bucket of its three is empty;
a write of TB_CFG sets RATE and DEPTH of the selected bucket of the selected rank slot and brings its level within them, and is
ignored where the selection names none. -/
def BucketsKept : Prop :=
  ∀ (s : State) (val : DWord) (rank : Nat),
    let b := s.sched.tbSel.toNat % 4
    let slot := s.sched.tbSel.toNat / 4
    let k := s.sched.domSel.toNat
    let d : Int := val.toNat / 2 ^ 32
    (∃ t, exec .bucketRefill s = .next t ∧ { t with sched := { t.sched with doms := s.sched.doms } } = s
      ∧ ∀ k, { t.domOf k with buckets := (s.domOf k).buckets } = s.domOf k
        ∧ ∀ slot i, slot < 4 → i < 3 → let x := s.bucket k slot i
          t.bucket k slot i = if ∃ e ∈ s.ranks, e.2.placed = true ∧ e.2.dom.toNat = k
            then { x with level := min x.depth.toNat (x.level + x.rate.toNat) } else x)
    ∧ (s.funded rank = true ↔ ∀ i, i < 3 → let x := s.bucket (s.rank rank).dom.toNat (s.rank rank).slot i
      x.rate = 0xFFFFFFFF ∨ 0 < x.level)
    ∧ ((b = 3 ∨ s.isDom k = false) → exec (.tbCfgWrite val) s = .next s)
    ∧ (b < 3 → s.isDom k = true → ∃ t d', exec (.tbCfgWrite val) s = .next t ∧ DomIs s t k d'
      ∧ { d' with buckets := (s.domOf k).buckets } = s.domOf k
      ∧ ∀ slot' i, i < 3 → t.bucket k slot' i = if slot' = slot ∧ i = b
          then ⟨max (-d) (min d (s.bucket k slot b).level), val.extractLsb' 0 32, val.extractLsb' 32 32⟩ else s.bucket k slot' i)

/-- R111, R112, R116, R117: a write of DOM_CFG, ignored where DOM_SEL names no domain; and a timetable slot's start: at a period's start a
table that waits takes effect. (That the table goes once MODE is 0 and no sequencer of the domain runs by it any more is the model's
reading, log 59.) -/
def DomainsKept : Prop :=
  ∀ (s : State) (val : DWord) (k : BitVec 5) (t p : Timetable) (x : Nat × Rank) (r i b e : Nat),
    let sel := s.sched.domSel.toNat
    let d := s.domOf k.toNat
    let runs : Prop := ∃ e ∈ s.seqs, e.2.mode = true ∧ e.2.active ≠ none ∧ e.1 / 32 ∈ x.2.domain
    let new : Dom := { s.domOf sel with mode := val.getLsbD 0, hard := val.getLsbD 1 }
    (s.ranks.find? (fun e => e.2.placed && decide (e.2.dom.toNat = sel)) = some x → ∃ u, exec (.domCfgWrite val) s = .next u
      ∧ ((val.getLsbD 0 = true ∨ runs) → DomIs s u sel new)
      ∧ (val.getLsbD 0 = false → ¬ runs → DomIs s u sel { new with tt := none, pending := none }))
    ∧ (s.isDom sel = false → exec (.domCfgWrite val) s = .next s)
    ∧ ((d.tt = none ∨ d.pending = none) → exec (.timetableSlotStart k) s = .next s)
    ∧ (d.tt = some t → t.now s.time.toNat = (r, i, b, e) →
      (b ≠ s.time.toNat ∨ i ≠ 0 → exec (.timetableSlotStart k) s = .next s)
      ∧ (b = s.time.toNat → d.pending = some p → i = 0 → ∃ u, exec (.timetableSlotStart k) s = .next u
        ∧ DomIs s u k.toNat { d with tt := some { p with start := s.time.toNat }, pending := none }))

/-- R117: a sequencer follows DOM_CFG of its domain from its next pre-emption point on, or at once without an active strand. -/
def ModeFollowed : Prop :=
  ∀ (s : State) (seq k a : Nat) (cl : List Nat), let q := s.seqOf seq
    let d := s.domOf k
    let follows : Prop := (∀ j, (s.adopt seq).seqOf j = if j = seq then { q with mode := d.mode, hard := d.hard } else s.seqOf j)
      ∧ { s.adopt seq with seqs := s.seqs, sched := { (s.adopt seq).sched with doms := s.sched.doms } } = s
    s.domainAt seq = some (k, cl) →
    (q.mode = d.mode → q.hard = d.hard → s.adopt seq = s)
    ∧ (q.active = some a → s.atPoint (s.ctx (8 * seq + a)) = false → s.adopt seq = s)
    ∧ ((q.mode ≠ d.mode ∨ q.hard ≠ d.hard) →
      (q.active = none ∨ (q.active = some a ∧ s.atPoint (s.ctx (8 * seq + a)) = true)) → follows)

/-- R110: the slot that a timetable runs at a time: its rank slot, its number, its start and the next one's. -/
def TimetableRuns : Prop :=
  ∀ (t : Timetable) (time i : Nat), let period := 16 * (t.slots.map (·.2)).sum
    let at_ (i : Nat) : Nat := 16 * ((t.slots.take i).map (·.2)).sum
    let off := (time - t.start) % period
    t.start ≤ time → i < t.slots.length → at_ i ≤ off → off < at_ (i + 1) →
    t.now time = ((t.slots.getD i (0, 0)).1, i, time - off + at_ i, time - off + at_ (i + 1))

/-- R114: a strand whose buckets have tokens, and that is in no unmet wait, goes on; one that is in such a wait yields to the next in
cyclic order whose buckets have tokens; where there is none, it is swapped out with HARD = 1 and goes on without. -/
def TokensChoose : Prop :=
  ∀ (s : State) (seq a w : Nat), (s.seqOf seq).active = some a → a < 4 →
    let c := s.ctx (8 * seq + a)
    (s.unmet (8 * seq + a) = false → c.resident = false → s.funded c.rank = true → s.tokenPlan seq = .go)
    ∧ (s.unmet (8 * seq + a) = true → (∀ j, 1 ≤ j → j < w → s.qualifies seq true ((a + j) % 5) = false) → 1 ≤ w → w ≤ 4 →
      s.qualifies seq true ((a + w) % 5) = true → s.tokenPlan seq = .switch ((a + w) % 5) false)
    ∧ (s.unmet (8 * seq + a) = true → (∀ j, 1 ≤ j → j ≤ 4 → s.qualifies seq true ((a + j) % 5) = false) →
      s.tokenPlan seq = if (s.seqOf seq).hard = true then .leave else .go)

/-- R224: FORCE: a line with waiters is disarmed; each waiter has its stall status; no STEP advances, and a group of the line that all
have left ends (R275); a line without is left alone. Of the decoders' records no more changes than that one which waited for the line may start. -/
def LinesForced : Prop :=
  ∀ (s : State) (line : BitVec 6) (p : Perch),
    (s.perchOf line = none → exec (.pwCmdForce line) s = .next s)
    ∧ (s.perchOf line = some p → p.waiters = [] → exec (.pwCmdForce line) s = .next s)
    ∧ (s.perchOf line = some p → p.waiters ≠ [] → ∃ t, exec (.pwCmdForce line) s = .next t
      ∧ (∀ l, t.perchOf l = if l = line then none else s.perchOf l)
      ∧ (∀ k, Store.get none t.releases k = if k ∈ p.waiters then some .stall else Store.get none s.releases k)
      ∧ (∀ k, { t.rank k with overran := (s.rank k).overran, heldRelease := (s.rank k).heldRelease, groups := (s.rank k).groups } = s.rank k)
      ∧ (∀ k, k ≠ p.rank → t.rank k = s.rank k)
      ∧ (∀ e, e ∈ (t.rank p.rank).groups ↔ e ∈ (s.rank p.rank).groups ∧ ¬ ∃ x, e.2 = some x ∧ x.members = [] ∧ x.line = line)
      ∧ (let blind (x : State) := x.decs.map fun e => (e.1, e.2.map fun r => { r with met := false })
         blind t = blind s)
      ∧ { t with perch := s.perch, releases := s.releases, ranks := s.ranks, decs := s.decs } = s)

/-- R225: a write of ERRINJ, by a supervisor of the secure world: ILLEGAL for MODE 3 and for a target that is not there; MODE 0 and 2 keep
the value, with MODE 2 armed; MODE 1 flips the named bit at once, past its residue, and keeps the value with MODE 0. (A bit of a twin's
register leaves the leader's word as it is, and is held as a difference between the two, log 42.) -/
def ErrorsInjected : Prop :=
  ∀ (s : State) (val : DWord), s.secure = true →
    let e := errInjOf val
    let key := s.injKey e
    let bit (n k : Nat) : BitVec n := if s.injTwin e then 0 else BitVec.twoPow n k
    let c := s.ctx key
    let pair : Bool := (s.rank c.rank).prot && !c.resident
    -- how the residue of a word differs from it once the word has changed under it
    let past (bad : BitVec 4) (w : Word) : BitVec 4 :=
      bad ^^^ BitVec.ofNat 4 (w.toNat % 15) ^^^ BitVec.ofNat 4 ((w ^^^ bit 32 e.bitNo).toNat % 15)
    let differs (t : State) (k : Nat) : Prop := ∀ j, Store.get 0 (t.ctx key).tw j
      = if pair = true ∧ j = k then Store.get 0 c.tw j ^^^ BitVec.twoPow 36 e.bitNo else Store.get 0 c.tw j
    let kept (mask : DWord) : State := { s with prot := { s.prot with errinj := val &&& ~~~mask } }
    let flips (f : State → Prop) : Prop := ∃ t, exec (.errinjWrite val) s = .next t ∧ f t ∧ t.mem = s.mem ∧ t.prot = (kept 0x3FFFFFF).prot
      ∧ t.ranks = s.ranks ∧ ∀ k, k ≠ key → t.ctx k = s.ctx k
    ((e.mode = 3 ∨ s.errTarget e = false) → exec (.errinjWrite val) s = s.trap (slotTrap s 0x01))
    ∧ (s.errTarget e = true →
      (e.mode = 0 → exec (.errinjWrite val) s = .next (kept 0x3FFFFFF))
      ∧ (e.mode = 2 → exec (.errinjWrite val) s = .next (kept 0x3FFFFFC))
      ∧ (e.mode = 1 → e.tgt = 1 → e.lane < 16 → flips fun t =>
        (∀ i l, l < 16 → let here := i = e.index ∧ l = e.lane
          (t.ctx key).rv i l = (if here then c.rv i l ^^^ bit 32 e.bitNo else c.rv i l)
          ∧ (t.ctx key).rvBad i l = if here then past (c.rvBad i l) (c.rv i l) else c.rvBad i l)
        ∧ differs t (128 + 16 * e.index + e.lane)
        ∧ { t.ctx key with v := c.v, bad := c.bad, tw := c.tw } = c)
      ∧ (e.mode = 1 → e.tgt = 2 → e.index ≠ 0 → let half := e.lane % 2
        flips fun t =>
        (∀ i : BitVec 6, (t.ctx key).rs i = if i.toNat = e.index then c.rs i ^^^ bit 64 (32 * half + e.bitNo) else c.rs i)
        ∧ (∀ k, Store.get 0 (t.ctx key).bad k = if k = 2 * e.index + half
            then past (Store.get 0 c.bad k) ((c.rs (BitVec.ofNat 6 e.index)).extractLsb' (32 * half) 32) else Store.get 0 c.bad k)
        ∧ differs t (2 * e.index + half)
        ∧ { t.ctx key with s := c.s, bad := c.bad, tw := c.tw } = c))

/-- R225: what ERRINJ may name of a core: one of a cluster that is not fenced and is in the supervisor's world; of a queue an entry that it
can have, of a residue one of its four bits. -/
def ErrorTargets : Prop :=
  ∀ (s : State) (e : ErrInj), s.errTarget e = true → e.tgt ≤ 7
    ∧ (e.tgt ≠ 0 → e.tgt ≠ 6 → e.core < 192 ∧ s.pwr.pass.getLsbD (e.core / 8) = true ∧ s.secureCluster (e.core / 8) = s.secure)
    ∧ (e.tgt = 6 → s.backed (s.prot.erraddr.toNat / 128 * 128) 128 = true)
    ∧ (e.tgt = 4 → e.index < 16) ∧ (e.tgt = 7 → e.bitNo < 4) ∧ (e.tgt = 2 → e.index < 64)

/-- R225: an armed injection flips its bit, once, with the step that writes its target: it has changed, or the same step from another
value of it ends with the value that stands there (log 23); until then it stays armed. A step without one is the machine's own move. -/
def ArmedErrorsAct : Prop :=
  ∀ (s t : State), let e := errInjOf s.prot.errinj
    let key := s.injKey e
    (e.mode ≠ 2 → step s = s.move)
    ∧ (e.mode = 2 → e.tgt ≠ 0 → s.move = .next t → t.prot.errinj = s.prot.errinj →
      let flipped := let u := t.errFlip e; { u with prot := { u.prot with errinj := u.prot.errinj &&& ~~~3 } }
      (s.errWatch e key ≠ t.errWatch e key → step s = .next flipped)
      ∧ (s.errWatch e key = t.errWatch e key → (e.tgt = 5 ∨ e.tgt = 6) → step s = .next t)
      ∧ (∀ u, s.errWatch e key = t.errWatch e key → (e.tgt ≤ 4 ∨ e.tgt = 7) → (s.errOther e).move = .next u →
        (u.errWatch e key = t.errWatch e key → step s = .next flipped) ∧ (u.errWatch e key ≠ t.errWatch e key → step s = .next t)))

/-- R223: the watchdog: a watched line whose counters have stood for PW_WINDOW cycles has its census written, as one write event on each of
its eight lines, once the host holds none of them, and a new window starts; any other line is left alone. -/
def CensusWritten : Prop :=
  ∀ (s : State) (line : BitVec 6) (p : Perch), s.wq = [] →
    let w := s.prot.window.toNat
    let base := s.prot.log.toNat / 65536 * 65536 + 1024 * line.toNat
    (s.perchOf line = none → exec (.perchWatchdogCensus line) s = .next s)
    ∧ (s.perchOf line = some p → (p.waiters = [] ∨ w = 0 ∨ s.time.toNat < p.at_ + w) → exec (.perchWatchdogCensus line) s = .next s)
    ∧ (s.perchOf line = some p → p.waiters ≠ [] → w ≠ 0 → p.at_ + w ≤ s.time.toNat → s.heldLines (linesOf base 1024) ≠ [] →
      exec (.perchWatchdogCensus line) s = .next (s.snoop (linesOf base 1024) []))
    ∧ (s.perchOf line = some p → p.waiters ≠ [] → w ≠ 0 → p.at_ + w ≤ s.time.toNat → s.heldLines (linesOf base 1024) = [] →
      ∃ t, exec (.perchWatchdogCensus line) s = .next t ∧ WrittenAt s t base (censusBytes s.time line.toNat p)
        ∧ (∀ l, t.perchOf l = if l = line then some { p with at_ := s.time.toNat } else s.perchOf l)
        ∧ t.c = s.c ∧ t.ctxs = s.ctxs ∧ t.ranks = s.ranks ∧ said t = said s)

/-- R223: the layout of a census. -/
def CensusLayout : Prop :=
  ∀ (time : DWord) (line : Nat) (p : Perch), line < 64 → p.rank < 65536 → (p.dests.map (·.left)).sum < 2 ^ 64 →
    let f := censusBytes time line p
    let n := (p.dests.filter fun d => d.left ≠ 0).length
    f.length = 1024 ∧ field f 0x00 8 = time.toNat ∧ field f 0x08 2 = p.rank ∧ field f 0x0A 1 = line ∧ field f 0x0B 1 = min 120 n
      ∧ field f 0x0C 4 = (if 120 < n then 1 else 0) ∧ field f 0x10 8 = (p.dests.map (·.left)).sum

/-- A strand's operations that were issued after its rewind point are in flight no more; the earlier ones are (R219). -/
def Cancelled (s t : State) : Prop :=
  (∀ id, id < s.c.point → Store.get none t.loads id = Store.get none s.loads id ∧ Store.get none t.pend id = Store.get none s.pend id)
    ∧ (∀ id l, s.c.point ≤ id → Store.get none t.loads id = some l → l.key ≠ s.cur)
    ∧ t.c.mops = s.c.mops.filter fun o => decide (o.ref < s.c.point)

/-- R219, R221, R222: a rewind: every register of the snapshot is restored, the rewind-point bundle is next, what was issued after the point
is cancelled, RWCOUNT rises, and the strands that share a group are told; memory and the window stand. As many bundles are to issue
again as have issued since the point, or as an earlier rewind has left to. The fourth to a point traps with REWIND_LIMIT after the restore; an error in the snapshot area does so at once. -/
def Rewinds : Prop :=
  ∀ (s : State) (src : BitVec 3) (r : Snap),
    let mate (x : Ctx) : Bool := (s.rank s.c.rank).groups.any fun g => match g.2 with
      | some gr => gr.members.contains s.c.party && gr.members.contains x.party
      | none => false
    let goes : Prop := s.c.live = true ∧ src ≠ 5 ∧ s.c.mark = false
    (s.c.live = false → exec (.rewind src) s = .next s)
    ∧ (s.c.live = true → src = 5 → exec (.rewind src) s = .next (s.trapNow ⟨0x11, 0, 0xFF, 5, 0⟩ true))
    -- an effect has performed since the point: the point is the bundle that is next (R220)
    ∧ (s.c.live = true → src ≠ 5 → s.c.mark = true → ∃ t, exec (.rewind src) s = .next t ∧ t.c.toRegs = s.c.toRegs ∧ t.c.npc = s.c.pc
      ∧ t.c.rewinds = 1 ∧ t.c.v = s.c.v ∧ t.mem = s.mem ∧ t.prot = { s.prot with rw := s.prot.rw + 1 }
      ∧ ∀ id, id < s.nextRef → Store.get none t.loads id = Store.get none s.loads id ∧ Store.get none t.pend id = Store.get none s.pend id)
    ∧ (goes → s.c.snap = none → ∃ t, exec (.rewind src) s = .next t ∧ t.c = { s.c with npc := s.c.pc } ∧ t.mem = s.mem
      ∧ t.prot = { s.prot with rw := s.prot.rw + 1 })
    ∧ (goes → s.c.snap = some r → s.c.rewinds < 3 → ∃ t, exec (.rewind src) s = .next t
      ∧ t.c.toRegs = r.toRegs ∧ (∀ k, Store.get 0 t.c.bad k = Store.get 0 (r.sbad ++ s.c.bad.filter fun e => decide (128 ≤ e.1)) k
        ∧ Store.get 0 t.c.tw k = Store.get 0 (r.stw ++ s.c.tw.filter fun e => decide (128 ≤ e.1)) k)
      ∧ t.c.npc = r.pc ∧ t.c.rewinds = s.c.rewinds + 1 ∧ t.c.since = 0 ∧ t.c.v = s.c.v
      ∧ t.c.again = (if s.c.again = 0 then s.c.since + 1 else max (s.c.since + 1) (s.c.again + s.c.since))
      ∧ t.c.snap = some r ∧ Cancelled s t ∧ t.mem = s.mem ∧ t.full = s.full ∧ t.engines = s.engines ∧ t.ranks = s.ranks
      ∧ t.prot = { s.prot with rw := s.prot.rw + 1 }
      ∧ ∀ k, k ≠ s.cur → t.ctx k = if (s.ctx k).live = true ∧ (s.ctx k).rank = s.c.rank ∧ mate (s.ctx k) = true
          then { s.ctx k with told := (s.ctx k).told ++ [s.cur] } else s.ctx k)
    ∧ (goes → s.c.snap = some r → 3 ≤ s.c.rewinds → ∃ u : State, u.c.toRegs = r.toRegs ∧ u.c.rewinds = 0 ∧ u.c.npc = r.pc ∧ u.mem = s.mem
      ∧ exec (.rewind src) s = .next (u.takeTrap ⟨0x11, 2, 0xFF, src.setWidth 32, 0⟩ true).landAt.fresh)

/-- R216: an error that arises of itself: one corrected in place is counted; one found in memory marks its granule; one in core storage
rewinds the strand that is active there, and does nothing where none is. -/
def ErrorsArise : Prop :=
  ∀ (s u : State) (loc seq a : Nat),
    exec (.softError .corrected) s = .next { s with prot := { s.prot with ce := s.prot.ce + 1 } }
    ∧ (∃ t, exec (.softError (.memory loc)) s = .next t ∧ (∀ x, t.marked x = true ↔ s.marked x = true ∨ x / 8 = loc / 8)
      ∧ { t with poison := s.poison } = s)
    ∧ ((s.seqOf seq).active = none → exec (.softError (.core seq)) s = .next s)
    ∧ ((s.seqOf seq).active = some a → (s.ctx (8 * seq + a)).live = true → exec (.rewind 2) (s.focus (8 * seq + a)) = .next u →
      exec (.softError (.core seq)) s = .next (u.focus s.cur))

/-- R276, R104: the end of a wait: a strand whose condition holds waits no more; one whose condition does not waits on. -/
def WaitsEnd : Prop :=
  ∀ (s : State) (seq a : Nat) (w : Wait), let key := 8 * seq + a
    ((s.seqOf seq).active = none → exec (.waitConditionMet seq) s = .next s)
    ∧ ((s.seqOf seq).active = some a → (s.ctx key).wait = none → exec (.waitConditionMet seq) s = .next s)
    ∧ ((s.seqOf seq).active = some a → (s.ctx key).wait = some w → s.waitMet key (s.ctx key) w = false → exec (.waitConditionMet seq) s = .next s)
    ∧ ((s.seqOf seq).active = some a → (s.ctx key).wait = some w → s.waitMet key (s.ctx key) w = true → ∃ t, exec (.waitConditionMet seq) s = .next t
      ∧ (∀ k, t.ctx k = if k = key then { s.ctx key with wait := none } else s.ctx k) ∧ { t with c := s.c, ctxs := s.ctxs } = s)

/-- R276: the conditions: a time reached before this cycle, a version moved, and SRC or LAND of a completion object at least the value
asked for. -/
def WaitsMet : Prop :=
  ∀ (s : State) (key : Nat) (c : Ctx) (t : DWord) (line o : Nat) (v : BitVec 48) (n : Word) (m : BitVec 31), s.wq = [] →
    (s.waitMet key c (.time t) = true ↔ t.toNat < s.time.toNat) ∧ (s.waitMet key c (.version line v) = true ↔ s.version line ≠ v)
    ∧ (s.waitMet key c (.src o n) = true ↔ n.toNat ≤ s.num o 4) ∧ (s.waitMet key c (.land o m) = true ↔ m.toNat ≤ s.num (o + 4) 4 % 2 ^ 31)

/-- R89, R91, R92: a translation returns: where the access checks, both TLBs hold the translation that it had, its walk having read
through the shared cache; else the strand traps, with the fault of R94. -/
def TranslationsReturn : Prop :=
  ∀ (s : State) (va : DWord) (write : Bool) (loc : Nat) (f : TrapInfo),
    let a : Acc := if write then .write else .read
    (s.check s.c va 0 1 a false = .ok loc → ∃ t, exec (.translationReturn va write) s = .next t
      ∧ { t with tlb1 := s.tlb1, tlb2 := s.tlb2, slices := s.slices, dies := s.dies, host := s.host, out := s.out, agenda := s.agenda } = s
      ∧ said t = said s ∧ asked t = asked s
      ∧ (inAperture va.toNat = false → ∃ e, s.translate s.c va.toNat = .ok e
        ∧ tlbFind (Store.get [] t.tlb1 s.c.core) (s.tag s.c) va.toNat = some e ∧ e ∈ Store.get [] t.tlb2 s.c.cluster))
    ∧ (s.check s.c va 0 1 a false = .error f → exec (.translationReturn va write) s = .next (s.trapNow f (supCause f.cause)))

/-- R86, R88: the row tracker: an activation of a row it lists counts; at the threshold the neighbours are refreshed, the row leaves and
RM_COUNT rises; a new row takes a free entry, or, with none, every count falls by one and the zeros go. The window's end empties all. -/
def RowsTracked : Prop :=
  ∀ (s : State) (bank row n : Nat), let t := Store.get [] s.trk bank
    let i : Instr := .rowActivate bank row
    let thr := max 64 s.rmThresh.toNat
    let becomes (u : State) (t' : Tracker) : Prop := (∀ b, Store.get [] u.trk b = if b = bank then t' else Store.get [] s.trk b)
    let around (d : Nat) : List OutMsg := (if d ≤ row then [.directedRefresh bank (row - d)] else []) ++ [.directedRefresh bank (row + d)]
    ((∀ e ∈ t, e.1 ≠ row) → t.length < 16 → ∃ u, exec i s = .next u ∧ becomes u (t ++ [(row, 1)]) ∧ { u with trk := s.trk } = s)
    ∧ ((∀ e ∈ t, e.1 ≠ row) → 16 ≤ t.length → ∃ u, exec i s = .next u
      ∧ becomes u ((t.map fun e => (e.1, e.2 - 1)).filter fun e => decide (e.2 ≠ 0)) ∧ { u with trk := s.trk } = s)
    ∧ (t.find? (fun e => decide (e.1 = row)) = some (row, n) →
      (n + 1 < thr → ∃ u, exec i s = .next u ∧ becomes u (t.map fun e => if e.1 = row then (row, n + 1) else e) ∧ { u with trk := s.trk } = s)
      ∧ (thr ≤ n + 1 → ∃ u, exec i s = .next u ∧ becomes u (t.filter fun e => decide (e.1 ≠ row)) ∧ u.rmCount = s.rmCount + 1
        ∧ u.out = s.out ++ (if s.rmRadius.toNat ≤ 1 then around 1 else around 1 ++ around 2)
        ∧ { u with trk := s.trk, rmCount := s.rmCount, out := s.out } = s))
    ∧ exec .refreshWindowEnd s = .next { s with trk := [] }

/-! ## A step runs what it decodes (R92, R134, R209, R210, R229) -/

/-- The machine in the turn of the sequencer that moves next, when its strand of slot a goes on: what is charged, and who is live. -/
def turnState (s : State) (a : Nat) : State :=
  let u := (s.turnOrTrap (s.cur / 8)).2.fresh.focus (8 * (s.cur / 8) + a)
  u.charge u.c.rank 0 1

/-- Nothing holds the strand of slot a back from issuing in this step. -/
def MayIssue (s : State) (a : Nat) : Prop :=
  let q := s.cur / 8
  let u := turnState s a
  s.agenda = [] ∧ s.pwr.clocks = true ∧ s.pwr.phase = 8 ∧ s.opening = false ∧ (errInjOf s.prot.errinj).mode ≠ 2
  ∧ (s.ctx (s.activeKey q)).wait = none ∧ (s.turnOrTrap q).1 = none ∧ ((s.turnOrTrap q).2.seqOf q).active = some a
  ∧ u.c.live = true ∧ u.c.pause = false ∧ u.c.due = none ∧ (u.seqOf q).stopped = false ∧ u.throttled q = false

/-- The bytes at the PC, up to the end of their fetch line, are this bundle. -/
def FetchesBundle (u : State) (loc : Nat) (b : Decode.Bundle) : Prop :=
  u.check u.c u.c.pc 0 4 .fetch false = .ok loc ∧ Decode.bundle (u.bytesNow loc (64 - u.c.pc.toNat % 64)) = .bundle b

/-- The state that the slots of a bundle are given: the rewind point as the header says, the next PC behind the bundle. -/
def slotState (u : State) (loc : Nat) (b : Decode.Bundle) : State :=
  ((u.fetched u.c.pc loc).opens b.hdr.seg b.hdr.rdv).slotted b

/-- What a step does behind a bundle of the strand of slot a: the segment that it has entered is noted, the cycle ends, and the next
sequencer's turn comes. -/
def restOfStep (s : State) (a : Nat) (o : Host.Outcome State Fault Refusal) : Host.Outcome State Fault Refusal :=
  let u := turnState s a
  match o with
  | .next v => match (if isSeg (u.nextHeader u.c) && v.stall.isNone then v.noteEntry (s.cur / 8) else v).cycleEnd with
    | .next w => .next w.fresh.dues.advance
    | e => e
  | e => e

/-- The boundary of a hardware loop behind a bundle that did not jump. -/
def boundaryOf (u : State) : Host.Outcome State Fault Refusal := if u.jumped then .next u else exec .loopBoundary u

/-- The boundary, and the strand's next bundle where it points. -/
def boundary (u : State) : Host.Outcome State Fault Refusal :=
  match boundaryOf u with
  | .next w => .next w.landAt
  | e => e

/-- When the bytes at the PC decode to a bundle of one well-formed instruction, a step is exec of that instruction on the state the
bundle's header left, with what the issue adds around it: what its X slot's strand has due before it, in protected mode the
comparison of the twins, the loop boundary and the landing. An instruction that acts after the other slots of its bundle acts behind
that boundary, and one that takes the strand elsewhere once all of the strand's has landed. -/
def StepRunsDecoded : Prop :=
  ∀ (s : State) (a loc : Nat) (b : Decode.Bundle) (k : Nat) (i : Instr) (t v w z : State),
    let u := turnState s a
    let f := u.fetched u.c.pc loc
    let p := slotState u loc b
    let alike : Prop := p.mismatch b [t] = none ∧ p.spoilt = false
    let moves : Prop := match i with
      | .rfi g | .swapctx g _ => w.rd.rb g.bp ≠ g.bn
      | _ => False
    MayIssue s a → FetchesBundle u loc b → b.slots = [(k, i)] → f.locked i = false → p.stall = none →
    exec i { p with slot := k } = .next t →
      (t.stall = none → t.trapped = none → alike → actsAfter i = false →
        exec i { (if k = 7 then p.readsDone else p) with slot := k } = .next v → v.stall = none → v.trapped = none →
        step s = restOfStep s a (boundary (v.commit p.c b)))
      ∧ (t.stall = none → (∀ x, t.trapped = some x → x.kind ≠ 0) → alike → actsAfter i = true →
        boundaryOf (p.commit p.c b) = .next w →
        (moves → exec i { w.landAll.drainMet with slot := k } = .next z) → (¬ moves → exec i { w with slot := k } = .next z) →
        z.stall = none → step s = restOfStep s a (.next z.landAt))
      ∧ (∀ src, t.stall = none → p.mismatch b [t] = some src → step s = restOfStep s a (.next (p.unspoilt.rewindFrom src).landAt))
      ∧ (t.stall = none → t.trapped = none → p.mismatch b [t] = none → p.spoilt = true →
        step s = restOfStep s a (.next (p.unspoilt.rewindFrom 3).landAt))
      ∧ (t.stall = some .rewind → step s = restOfStep s a (.next t.landAt))
      ∧ (t.stall ≠ none → t.stall ≠ some .rewind → step s = restOfStep s a (.next (f.keepPoint t)))
      ∧ (∀ x, t.stall = none → t.trapped = some x → x.kind = 0 → p.mismatch b [t] = none → step s = restOfStep s a (.next t.landAt))

/-- The same of a bundle of several slots, each of which alone neither waits, rewinds nor traps: what reads the chip or the engine as the
bundle finds them runs first, then the others, in slot order. -/
def StepRunsSlots : Prop :=
  ∀ (s : State) (a loc : Nat) (b : Decode.Bundle) (ts : List State) (t : State),
    let u := turnState s a
    let p := slotState u loc b
    MayIssue s a → FetchesBundle u loc b → b.slots ≠ [] →
    (∀ x ∈ b.slots, (u.fetched u.c.pc loc).locked x.2 = false ∧ actsAfter x.2 = false) → p.stall = none →
    tryAlone p b.slots = .ok ts → (∀ v ∈ ts, v.stall = none ∧ v.trapped = none) → p.mismatch b ts = none → p.spoilt = false →
    runSlots (issueOrder b.slots) p = .next t → t.stall = none → t.trapped = none → step s = restOfStep s a (boundary (t.commit p.c b))

/-! ## Decoding and encoding -/

/-- The encoder's word of a well-formed instruction decodes to it, every operand at every value. -/
def WordsDecodeBack : Prop :=
  ∀ (i : Instr) (w : Encode.SlotWord), i.wf = true → encode i = some w → w.decode = some i

/-- What a slot's word decodes to is well formed. -/
def DecodedAreWellFormed : Prop := ∀ (w : Encode.SlotWord) (i : Instr), w.decode = some i → i.wf = true

/-- The header word of a bundle of one slot (R227): its presence bit, and the extension where there is one. -/
def headerOf (k : Nat) : Option (BitVec 16) → Nat
  | none => 2 ^ k
  | some e => 2 ^ 16 * e.toNat + 2 ^ 13 * k + 2 ^ 11 + 2 ^ k

/-- The bytes of a bundle of one slot: its header, then the slot's word, both little-endian. -/
def bundleOf : Encode.SlotWord → Nat × List Byte
  | .short k e w => (k, Decode.leBytes 4 (headerOf k e) ++ Decode.leBytes 4 w.toNat)
  | .long k e w => (k, Decode.leBytes 4 (headerOf k e) ++ Decode.leBytes 8 w.toNat)

/-- The bytes of a well-formed instruction's bundle, with anything behind them, are a bundle of that one instruction. -/
def LaidOutDecode : Prop :=
  ∀ (i : Instr) (w : Encode.SlotWord) (rest : List Byte), i.wf = true → encode i = some w →
    ∃ b, Decode.bundle ((bundleOf w).2 ++ rest) = .bundle b ∧ b.slots = [((bundleOf w).1, i)] ∧ b.size = (bundleOf w).2.length

/-- Words written out from the slot layouts of R230 to R236 and the rows of R250 to R258. -/
def WordsFromTheTables : Prop :=
  Encode.SlotWord.decode (.short 0 none (0b000011#6 ++ 0b0101#4 ++ 0b1#1 ++ 0b111111111111111111000#21)) = some (.call ⟨5, true⟩ (-8))
  ∧ Encode.SlotWord.decode (.short 1 (some 0xFFF0) (0b000001#6 ++ 0b000111#6 ++ 0b11111010#8 ++ 0b000011#6 ++ 0b000110#6))
    = some (.ld ⟨7, 0xFFF0⟩ 2 3 2 true)
  ∧ Encode.SlotWord.decode (.short 2 none (0b000010#6 ++ 0b000001#6 ++ 0b000010#6 ++ 0b000011#6 ++ 0b00000000#8)) = some (.sub 1 2 3)
  ∧ Encode.SlotWord.decode (.long 3 none (0b000001#6 ++ 0b0000#4 ++ 0b0011#4 ++ 0b1#1 ++ 0b0#1 ++ 0x05#8 ++ 0x06#8 ++ 0xF9#8 ++ 0xFF#8
      ++ 0xFF#8 ++ 0b10#2 ++ 0b1#1 ++ 0b00111#5))
    = some (.dadd ⟨0, 3, true, false, .v 5, .v 6, .queue 1, .none, .none, 2, true, 7⟩)
  ∧ Encode.SlotWord.decode (.long 5 none (0b000011#6 ++ 0b0001#4 ++ 0b010#3 ++ 0b0#1 ++ 0b1#1 ++ 0b1#1 ++ 0x10#8 ++ 0b000001#6
      ++ 0b000010#6 ++ 0x08#8 ++ 0x00#8 ++ 0x000#12))
    = some (.mma 1 2 true true (.v 16) 1 2 8)
  ∧ Encode.SlotWord.decode (.short 6 none (0b000010#6 ++ 0b001#3 ++ 0b000101#6 ++ 0x20#8 ++ 0x00#8 ++ 0b1#1)) = some (.kwrite 1 5 (.v 32) true)
  ∧ Encode.SlotWord.decode (.short 7 none (0b000001#6 ++ 0b001010#6 ++ 0b001011#6 ++ 0b000100#6 ++ 0b00001010#8))
    = some (.cp 10 11 4 2 true)

/-- What reset leaves in the registers to which their tables give a reset value, by number (R260), and in a bucket (R116). -/
def ResetRegisters : Prop :=
  Bucket.reset.rate = 0xFFFFFFFF ∧ Bucket.reset.depth = 0xFFFFFFFF ∧ Bucket.reset.level = 0 ∧ ∀ x ∈ ([(0x008, 0), (0x009, 0), (0x00A, 0), (0x00B, 0), (0x00C, 0), (0x200, 0), (0x201, 0), (0x202, 0), (0x205, 0), (0x206, 4000000),
      (0x207, 32), (0x208, 0), (0x400, 0), (0x402, 256), (0x403, 1024), (0x502, 512), (0x503, 1), (0x504, 0), (0x600, 0), (0x601, 0),
      (0x603, 0), (0x606, 262144), (0x700, 40000000), (0x701, 0), (0x703, 0), (0x704, 0), (0x705, 0),
      (0x706, 0)] : List (Nat × DWord)), State.reset.regRead x.1 = x.2

/-- R16, R17: after a reset the chip stands in phase 0 with no error, its clocks running, no rank, no strand, no command table. -/
def ResetState : Prop :=
  State.reset.pwr.phase = 0 ∧ State.reset.pwr.err = 0 ∧ State.reset.pwr.clocks = true ∧ State.reset.ranks = [] ∧ State.reset.c.live = false
  ∧ State.reset.ctxs = [] ∧ State.reset.mem = [] ∧ (∀ l, State.reset.version l = 0) ∧ State.reset.agenda = []

/-! ## Memory -/

/-- Reset memory lists nothing. -/
def ResetMemoryIsCanonical : Prop := Memory.wf State.reset.mem = true

/-- A byte read after a write event of a range of bytes: the bytes written, and elsewhere what stood there before, with the open
entries of the write queue on those lines applied. -/
def ReadAfterWrite : Prop :=
  ∀ (s : State) (loc : Nat) (bs : List Byte) (j : Nat),
    ((s.write loc bs).byte j = if h : loc ≤ j ∧ j < loc + bs.length then bs[j - loc] else (s.flush (linesOf loc bs.length)).byte j)
    ∧ ((∀ e ∈ s.wq, ∀ l ∈ e.lines, l ∉ linesOf loc bs.length) → (j < loc ∨ loc + bs.length ≤ j) → (s.write loc bs).byte j = s.byte j)

/-- Every step keeps memory in its canonical form. -/
def StepsKeepMemoryCanonical : Prop :=
  ∀ (s t : State), Memory.wf s.mem = true → step s = .next t → Memory.wf t.mem = true

end Sys2Proof.Claims

open Sys2Proof Sys2Proof.Machine Sys2Proof.Claims

/-- The scalar results of the S slot, each leaving all else as it was. -/
def Obligations.ScalarResults : Prop :=
  Claims.ScalarArithmetic ∧ Claims.ScalarBitwiseAndShift ∧ Claims.ScalarMinMaxCount ∧ Claims.ScalarImmediate ∧ Claims.ScalarBitField

/-- Scalar compares, selects, predicate logic, constants and addresses. -/
def Obligations.ScalarDecisions : Prop :=
  Claims.ScalarCompareSelect ∧ Claims.ScalarConstantAddress

/-- A taken transfer goes to its target and ends every loop level. -/
def Obligations.TransfersEndLoops : Prop :=
  Claims.TransferTaken ∧ Claims.CallLinks

/-- A C slot with a false predicate does nothing; a misaligned target traps. -/
def Obligations.GuardsAndTargets : Prop :=
  Claims.GuardFalse ∧ Claims.TransferMisaligned

/-- Hardware loops: entry, refusal, iteration and break; the count without stages is the model's reading (log 10). -/
def Obligations.LoopsRun : Prop :=
  Claims.LoopEntered ∧ Claims.LoopRefused ∧ Claims.LoopIterates ∧ Claims.LoopBreak

/-- What spawn makes, and when it is refused. -/
def Obligations.StrandsSpawned : Prop :=
  Claims.SpawnMakesStrand ∧ Claims.SpawnRefused

/-- Launches: their checks, their queue, their completion. -/
def Obligations.LaunchesQueued : Prop :=
  Claims.LaunchIssues ∧ Claims.LaunchQueued ∧ Claims.LaunchLand

/-- Groups and perch phases: joining, arming and waiting. -/
def Obligations.GroupsAndPerch : Prop :=
  Claims.GroupJoinLeave ∧ Claims.GroupWait ∧ Claims.PerchArmed ∧ Claims.PerchWait

/-- Waits retire or hold; tfence and setft. -/
def Obligations.WaitsAndSelectors : Prop :=
  Claims.WaitsRetireOrHold ∧ Claims.FlagFenceFormatSelect

/-- The matrix engine is claimed, released and given. -/
def Obligations.EngineOwnership : Prop :=
  Claims.EngineClaim ∧ Claims.EngineGiven

/-- Taking a trap: what is saved, what changes, where the strand goes on. -/
def Obligations.TrapsTaken : Prop :=
  Claims.TrapTaken ∧ Claims.PadsPassed ∧ Claims.TrapEntryEvent ∧ Claims.DoubleTrap

/-- The trap frame byte by byte, and the return from it. -/
def Obligations.TrapFrames : Prop :=
  Claims.TrapFrameLayout ∧ Claims.ReturnFromTrap

/-- exit, halt, dbg, swapctx and ttload. -/
def Obligations.StrandsEndAndSwap : Prop :=
  Claims.StrandEnds ∧ Claims.DebugStop ∧ Claims.ContextSwapped ∧ Claims.TimetableLoaded

/-- Control registers: reads, writes, refusals and the window. -/
def Obligations.ControlRegisters : Prop :=
  Claims.RegisterRead ∧ Claims.RegisterWrite ∧ Claims.RegisterRefused ∧ Claims.WindowResized

/-- The walk of the page tables, the checks of an address and the traps they give. -/
def Obligations.AddressesChecked : Prop :=
  Claims.PageWalks ∧ Claims.AddressChecks

/-- Loads enter their queue and land their data. -/
def Obligations.LoadsLand : Prop :=
  Claims.LoadsEnterQueue ∧ Claims.LoadLands

/-- Stores write their bytes and no others. -/
def Obligations.StoresPerform : Prop :=
  Claims.StoresWrite ∧ Claims.CountedStore ∧ Claims.PairedStore

/-- Full and empty lines, and versioned writes. -/
def Obligations.FullEmptyAndVersions : Prop :=
  Claims.FullEmpty ∧ Claims.VersionedWrites

/-- Atomics issue, perform and answer. -/
def Obligations.AtomicsAnswer : Prop :=
  Claims.AtomicIssues ∧ Claims.MemoryAnswers

/-- Reductions to memory gather in the write queue and are applied. -/
def Obligations.MemoryReductions : Prop :=
  Claims.ReductionsOpenEntries ∧ Claims.BlockReductions ∧ Claims.ReductionApplied

/-- Fences, drains, arrivals and counted writes. -/
def Obligations.OrderAndArrivals : Prop :=
  Claims.FencesAndDrains ∧ Claims.ArrivalsIssue ∧ Claims.CountedWrites

/-- Request charges, queue advance and translation invalidation. -/
def Obligations.QueuesAndTranslations : Prop :=
  Claims.RequestsCharged ∧ Claims.QueueAdvance ∧ Claims.TranslationsInvalidated

/-- dabs and dneg act on the sign bit alone, and a result lands in the lanes that its slot enabled. -/
def Obligations.SignBitsAndLandings : Prop :=
  Claims.SignBits ∧ Claims.ResultsLand

/-- The integer, permute, predicate and move rows of the D slots. -/
def Obligations.IntegerAndWordResults : Prop :=
  Claims.IntegerRows ∧ Claims.WordRows ∧ Claims.PredicateTest

/-- Random words and reductions over the lanes. -/
def Obligations.RandomAndReduced : Prop :=
  Claims.RandomWords ∧ Claims.Reductions

/-- Online arithmetic: exact results rounded once, and what rounding once gives; decisions and conversions. -/
def Obligations.OnlineResults : Prop :=
  Claims.ExactArithmetic ∧ Claims.RoundsOnce ∧ Claims.OnlineRows ∧ Claims.Decisions ∧ Claims.IntegerConversions

/-- Chained values, the digits of one cycle, and empty bundles. -/
def Obligations.ChainsAndDigits : Prop :=
  Claims.ChainLands ∧ Claims.DigitsStep ∧ Claims.EmptyBundle

/-- mclr clears its bank. -/
def Obligations.BanksCleared : Prop :=
  Claims.BankCleared

/-- M and K slots issue to the engine and complete. -/
def Obligations.MatrixOperations : Prop :=
  Claims.MatrixIssues ∧ Claims.MatrixCompletes

/-- Weights, products and writes of the banks. -/
def Obligations.MatrixProducts : Prop :=
  Claims.MloadRows ∧ Claims.MmaRows ∧ Claims.BankWrites

/-- Drains, reads and checksum comparison of the banks. -/
def Obligations.MatrixResults : Prop :=
  Claims.BankReads ∧ Claims.DrainSteps ∧ Claims.ChecksumsCompared

/-- Copies: their checks and what they move. -/
def Obligations.Copies : Prop :=
  Claims.CopyIssues ∧ Claims.CopyMoves

/-- Collectives among the chips of a job. -/
def Obligations.Collectives : Prop :=
  Claims.CollectiveIssues ∧ Claims.PartiesNumbered ∧ Claims.CollectiveMoves

/-- The reduction tree of a collective. -/
def Obligations.ReductionTree : Prop :=
  Claims.TreeShape ∧ Claims.TreeSweeps ∧ Claims.TreeNodes

/-- Histogram slots: commands, counts and snapshots. -/
def Obligations.Histograms : Prop :=
  Claims.ScrupleCommands ∧ Claims.SnapshotWritten ∧ Claims.BinsCounted

/-- Decoder contexts: records, fields and frames; the events of decoders and channels that complete in every state. -/
def Obligations.Decoders : Prop :=
  Claims.DecoderIssues ∧ Claims.DecoderFields ∧ Claims.DecoderStarts ∧ Claims.DecoderMoves ∧ Claims.EventsAnswer

/-- Resets, trips, power limits and the sideband. -/
def Obligations.ResetsAndPower : Prop :=
  Claims.Resets ∧ Claims.Trips ∧ Claims.PowerMoves ∧ Claims.Sideband

/-- The phases of bring-up. -/
def Obligations.BringUpRuns : Prop :=
  Claims.BringUp ∧ Claims.SupervisorStarts

/-- Fabric channels: commands, handshakes and fencing. -/
def Obligations.Channels : Prop :=
  Claims.ChannelCommands ∧ Claims.OpenAdmits ∧ Claims.ChannelEvents

/-- Ports, packets, transfers and network time. -/
def Obligations.PacketsAndPorts : Prop :=
  Claims.PortEvents ∧ Claims.PacketsLand ∧ Claims.TransfersEnd ∧ Claims.TimeKept

/-- Host accesses and command tables. -/
def Obligations.HostAccesses : Prop :=
  Claims.CxlIoAnswers ∧ Claims.TablesSwitched ∧ Claims.CxlAccesses

/-- Attestation, worlds and the zeroing between them. -/
def Obligations.AttestationAndWorlds : Prop :=
  Claims.SpdmAnswers ∧ Claims.DeviceRecordLayout ∧ Claims.WorldsSet ∧ Claims.BuffersZeroed

/-- Command records and what they report. -/
def Obligations.CommandRecords : Prop :=
  Claims.OperationsReport ∧ Claims.RankRecords ∧ Claims.ChannelRecord ∧ Claims.WorldRecord ∧ Claims.RecordsComplete ∧ Claims.LeagueCommands

/-- LOAD_RANK from its checks to its end. -/
def Obligations.RanksLoad : Prop :=
  Claims.LoadBegins ∧ Claims.LoadEnds

/-- Ranks are parked and recalled. -/
def Obligations.ParkAndRecall : Prop :=
  Claims.ParkBegins ∧ Claims.RecallBegins ∧ Claims.ParkEnds ∧ Claims.RecallEnds

/-- Ranks end. -/
def Obligations.RanksEnd : Prop :=
  Claims.EndBegins ∧ Claims.RankEnds

/-- Migrations are asked for, admitted or refused. -/
def Obligations.MigrationsAdmitted : Prop :=
  Claims.MigrationAsked ∧ Claims.RequestChecked ∧ Claims.MigrationArrives ∧ Claims.DestinationAnswers ∧ Claims.MovesGivenUp

/-- Migrations copy, hold and commit. -/
def Obligations.MigrationsCommit : Prop :=
  Claims.RoundsEnd ∧ Claims.HoldsArrive ∧ Claims.HoldsAnswered ∧ Claims.CommitBegins ∧ Claims.CommitEnds

/-- Keepalives and map entries between chips. -/
def Obligations.MapEntriesSpread : Prop :=
  Claims.KeepaliveSent ∧ Claims.IncomingGivenUp ∧ Claims.EntriesArrive

/-- Which launch is granted, and where. -/
def Obligations.LaunchesScheduled : Prop :=
  Claims.LaunchChosen ∧ Claims.LaunchAges ∧ Claims.StrandGranted

/-- Swaps, token buckets and timetables. -/
def Obligations.SequencersShared : Prop :=
  Claims.ShadowSwaps ∧ Claims.BucketsKept ∧ Claims.DomainsKept ∧ Claims.ModeFollowed ∧ Claims.TimetableRuns ∧ Claims.TokensChoose

/-- Injected and arising errors, and what a rewind restores; a resumption has no rewind point until its first bundle (log 27). -/
def Obligations.ErrorsAndRewinds : Prop :=
  Claims.ErrorsInjected ∧ Claims.ErrorTargets ∧ Claims.ArmedErrorsAct ∧ Claims.Rewinds ∧ Claims.ErrorsArise

/-- The watchdog's census of a perch line. -/
def Obligations.Census : Prop :=
  Claims.CensusWritten ∧ Claims.CensusLayout ∧ Claims.LinesForced

/-- Waits that end, late translations, and the row tracker. -/
def Obligations.LateAnswers : Prop :=
  Claims.WaitsEnd ∧ Claims.WaitsMet ∧ Claims.TranslationsReturn ∧ Claims.RowsTracked

/-- A step runs the instructions decoded at the PC. -/
def Obligations.StepRunsDecoded : Prop :=
  Claims.StepRunsDecoded ∧ Claims.StepRunsSlots

/-- Words written out from the encoding tables decode to their instructions. -/
def Obligations.WordsFromTheTables : Prop :=
  Claims.WordsFromTheTables

/-- Decoding undoes encoding for every well-formed instruction. -/
def Obligations.DecodeEncode : Prop :=
  Claims.WordsDecodeBack ∧ Claims.DecodedAreWellFormed ∧ Claims.LaidOutDecode

/-- What reset leaves. -/
def Obligations.ResetLeaves : Prop :=
  Claims.ResetState ∧ Claims.ResetRegisters ∧ Claims.ResetMemoryIsCanonical

/-- A byte read after a write event. -/
def Obligations.ReadAfterWrite : Prop :=
  Claims.ReadAfterWrite

/-- Every step keeps memory in its canonical form. -/
def Obligations.MemoryStaysCanonical : Prop :=
  Claims.StepsKeepMemoryCanonical
end

