-- ==== Sys2Proof/Laws/PerInstr.lean ====
section
/-!
SUPPORT. PerInstr.lean: one lemma per constructor of `Instr` for each family of statements about the instruction as syntax. Slots: an
instruction is encoded in its own slot class (R227, R250 to R258), and an event in none.
-/
namespace Sys2Proof.Laws

/-- The slot index of a slot's word. -/
def slotOfWord : Encode.SlotWord → Nat
  | .short k _ _ => k
  | .long k _ _ => k

/-- The slot class of an instruction, by its lowest slot index; an event has none. -/
def slotClass : Instr → Option Nat
  | .br .. => some 0
  | .braAny .. => some 0
  | .braAll .. => some 0
  | .call .. => some 0
  | .ret .. => some 0
  | .jmpi .. => some 0
  | .loop .. => some 0
  | .lbrk .. => some 0
  | .spawn .. => some 0
  | .launch .. => some 0
  | .launchAfter .. => some 0
  | .exit .. => some 0
  | .gjoin .. => some 0
  | .gleave .. => some 0
  | .gwait .. => some 0
  | .parm .. => some 0
  | .pwait .. => some 0
  | .tfence .. => some 0
  | .waitt .. => some 0
  | .waitv .. => some 0
  | .waitcSrc .. => some 0
  | .waitcLand .. => some 0
  | .mclaim .. => some 0
  | .mrel .. => some 0
  | .setft .. => some 0
  | .trap .. => some 0
  | .svc .. => some 0
  | .rfi .. => some 0
  | .ttload .. => some 0
  | .swapctx .. => some 0
  | .halt .. => some 0
  | .dbg .. => some 0
  | .ld .. => some 1
  | .st .. => some 1
  | .vld .. => some 1
  | .vst .. => some 1
  | .vstCnt .. => some 1
  | .vldw .. => some 1
  | .pf .. => some 1
  | .vgth .. => some 1
  | .vsct .. => some 1
  | .ldfe .. => some 1
  | .stfe .. => some 1
  | .clrfe .. => some 1
  | .ldv .. => some 1
  | .vsetChk .. => some 1
  | .vsetSt .. => some 1
  | .casv .. => some 1
  | .amo .. => some 1
  | .redAddF32 .. => some 1
  | .redAddBf16 .. => some 1
  | .redAddBf16Sr .. => some 1
  | .redAddBdx8 .. => some 1
  | .redAddBdx4 .. => some 1
  | .redMaxF32 .. => some 1
  | .redAddS32 .. => some 1
  | .pstore .. => some 1
  | .fenceRel .. => some 1
  | .fenceAcq .. => some 1
  | .fenceSc .. => some 1
  | .drain .. => some 1
  | .arrive .. => some 1
  | .arriveRel .. => some 1
  | .lqadv .. => some 1
  | .tlbinvPage .. => some 1
  | .tlbinvCtx .. => some 1
  | .tlbinvAll => some 1
  | .add .. => some 2
  | .sub .. => some 2
  | .mul .. => some 2
  | .mulh .. => some 2
  | .and .. => some 2
  | .or .. => some 2
  | .xor .. => some 2
  | .andn .. => some 2
  | .shl .. => some 2
  | .shr .. => some 2
  | .sar .. => some 2
  | .rol .. => some 2
  | .addi .. => some 2
  | .andi .. => some 2
  | .ori .. => some 2
  | .xori .. => some 2
  | .shli .. => some 2
  | .shri .. => some 2
  | .sari .. => some 2
  | .roli .. => some 2
  | .bfx .. => some 2
  | .bfi .. => some 2
  | .clz .. => some 2
  | .popc .. => some 2
  | .min .. => some 2
  | .max .. => some 2
  | .minu .. => some 2
  | .maxu .. => some 2
  | .cmp .. => some 2
  | .cmpi .. => some 2
  | .sel .. => some 2
  | .band .. => some 2
  | .bor .. => some 2
  | .bxor .. => some 2
  | .bandn .. => some 2
  | .movi .. => some 2
  | .lui .. => some 2
  | .getc .. => some 2
  | .putc .. => some 2
  | .lea .. => some 2
  | .leai .. => some 2
  | .dadd .. => some 3
  | .dsub .. => some 3
  | .dmul .. => some 3
  | .dfma .. => some 3
  | .dfms .. => some 3
  | .ddiv .. => some 3
  | .dsqrt .. => some 3
  | .dabs .. => some 3
  | .dneg .. => some 3
  | .dcmp .. => some 3
  | .dsel .. => some 3
  | .dclip .. => some 3
  | .dmax .. => some 3
  | .dmin .. => some 3
  | .dcvt .. => some 3
  | .dland .. => some 3
  | .vrng .. => some 3
  | .vsr .. => some 3
  | .vadd .. => some 3
  | .vsub .. => some 3
  | .vmul .. => some 3
  | .vmulh .. => some 3
  | .vand .. => some 3
  | .vor .. => some 3
  | .vxor .. => some 3
  | .vandn .. => some 3
  | .vshl .. => some 3
  | .vshr .. => some 3
  | .vsar .. => some 3
  | .vmin .. => some 3
  | .vmax .. => some 3
  | .vcmp .. => some 3
  | .vsel .. => some 3
  | .vclz .. => some 3
  | .vpopc .. => some 3
  | .vabs .. => some 3
  | .vneg .. => some 3
  | .vperm .. => some 3
  | .vrot .. => some 3
  | .vbcast .. => some 3
  | .vshuf .. => some 3
  | .vred .. => some 3
  | .pand .. => some 3
  | .por .. => some 3
  | .pxor .. => some 3
  | .pandn .. => some 3
  | .ptest .. => some 3
  | .vmov .. => some 3
  | .vmovi .. => some 3
  | .mload .. => some 5
  | .mswap => some 5
  | .mma .. => some 5
  | .mcfg .. => some 5
  | .mclr .. => some 5
  | .mdrain .. => some 5
  | .mchk .. => some 5
  | .kread .. => some 6
  | .kwrite .. => some 6
  | .kadd .. => some 6
  | .kreadck .. => some 6
  | .cp .. => some 7
  | .cp2d .. => some 7
  | .launchX .. => some 7
  | .launchAfterX .. => some 7
  | .collAr .. => some 7
  | .collRs .. => some 7
  | .collAg .. => some 7
  | .collBc .. => some 7
  | .dec .. => some 7
  | .histOn .. => some 7
  | .histOff .. => some 7
  | .histRd .. => some 7
  | .hscale .. => some 7
  | .seed .. => some 7
  | .migrMove .. => some 7
  | .migrPark .. => some 7
  | .migrRecall .. => some 7
  | .migrEnd .. => some 7
  | .emptyBundle .. => none
  | .loopBoundary => none
  | .fuseLoad .. => none
  | .pllLock .. => none
  | .cxlLinkTraining .. => none
  | .selfTest .. => none
  | .memoryTraining .. => none
  | .hardwareZeroing => none
  | .timeDiscipline .. => none
  | .supervisorStart .. => none
  | .digitStep => none
  | .registerLanding => none
  | .matrixOperationComplete .. => none
  | .loadLanding .. => none
  | .memoryAnswer .. => none
  | .clusterStoreAccess .. => none
  | .requestDeparture .. => none
  | .writeQueueApply .. => none
  | .countedDecrement .. => none
  | .trapEntry .. => none
  | .rewind .. => none
  | .waitConditionMet .. => none
  | .launchRecordRead .. => none
  | .strandGrant .. => none
  | .swapBegin .. => none
  | .swapComplete .. => none
  | .spillEnd .. => none
  | .fillEnd .. => none
  | .bucketRefill => none
  | .bufferZeroingEnd .. => none
  | .copySourceRelease .. => none
  | .copyLanding .. => none
  | .collParameterExchange .. => none
  | .collSourceRelease .. => none
  | .collEdgeArrival .. => none
  | .collLanding .. => none
  | .decoderRecordStart .. => none
  | .decoderSourceRelease .. => none
  | .histSnapshot .. => none
  | .loadCopyEnd .. => none
  | .parkComplete .. => none
  | .recallComplete .. => none
  | .rankEndComplete .. => none
  | .translationReturn .. => none
  | .sharedCacheAccess .. => none
  | .decoderFrameDone .. => none
  | .packetArrival .. => none
  | .mapHoldReceived .. => none
  | .mapEntryReceived .. => none
  | .powerOnReset => none
  | .warmReset .. => none
  | .railOrderError => none
  | .brownOut => none
  | .railAlert => none
  | .thermalTrip => none
  | .thermalLimitLower .. => none
  | .thermalLimitRaise .. => none
  | .powerWindowEvaluation .. => none
  | .vidbFrame .. => none
  | .entdaa .. => none
  | .sidebandRead .. => none
  | .sidebandWrite .. => none
  | .alertStatClear .. => none
  | .flitAck .. => none
  | .flitReplay .. => none
  | .portDown .. => none
  | .portRetrain .. => none
  | .portUp .. => none
  | .portCmdRetrain .. => none
  | .portCmdHold .. => none
  | .portCmdRelease .. => none
  | .chanCfgWrite .. => none
  | .chanCmdOpen .. => none
  | .chanCmdFence => none
  | .chanCmdUnmap => none
  | .fabNodeWrite .. => none
  | .openArrival .. => none
  | .openRepeat .. => none
  | .openingTimeout .. => none
  | .fenceMarkerArrival .. => none
  | .fencingTimeout .. => none
  | .transferAcknowledged .. => none
  | .rejectionArrival .. => none
  | .transferTimeout .. => none
  | .timeExchange .. => none
  | .timeLockLoss => none
  | .cxlIoRequest .. => none
  | .cmdtEnable .. => none
  | .cmdtDisable .. => none
  | .cxlMemRead .. => none
  | .cxlMemWrite .. => none
  | .hostSnoop .. => none
  | .backInvalidateResponse .. => none
  | .getVersion => none
  | .getCapabilities => none
  | .negotiateAlgorithms .. => none
  | .getDigests .. => none
  | .getCertificate .. => none
  | .challenge .. => none
  | .getMeasurements .. => none
  | .keyExchange .. => none
  | .finish => none
  | .loadRank .. => none
  | .startRank .. => none
  | .parkRank .. => none
  | .recallRank .. => none
  | .migrateRank .. => none
  | .endRank .. => none
  | .setChannel .. => none
  | .setWorld .. => none
  | .migrateRequestReceived .. => none
  | .destAnswer .. => none
  | .precopyRoundEnd .. => none
  | .mapHoldAnswer .. => none
  | .mapHoldTimeout .. => none
  | .migrationDestReady .. => none
  | .mapAckReceived .. => none
  | .mapAckTimeout .. => none
  | .leagueKeepalive .. => none
  | .migrationAbortReceived .. => none
  | .incomingTimeout .. => none
  | .rowActivate .. => none
  | .refreshWindowEnd => none
  | .timetableSlotStart .. => none
  | .minresExpiry .. => none
  | .tbCfgWrite .. => none
  | .domCfgWrite .. => none
  | .wcfgWrite .. => none
  | .mownWrite .. => none
  | .worldBlkWrite .. => none
  | .worldRegionWrite .. => none
  | .worldMapBaseWrite .. => none
  | .pwCmdForce .. => none
  | .errinjWrite .. => none
  | .perchWatchdogCensus .. => none
  | .debuggerResume .. => none
  | .cxlCacheResponse .. => none
  | .ideKmRequest .. => none
  | .debuggerAttach .. => none
  | .softError .. => none

/-- The word of an instruction stands in its slot class. -/
def Slots.Statement (i : Instr) : Prop := (encode i).map slotOfWord = slotClass i

theorem Slots.br (g : Guard) (off : BitVec 21) : Slots.Statement (.br g off) := rfl
theorem Slots.braAny (g : Guard) (p : BitVec 4) (off : BitVec 16) : Slots.Statement (.braAny g p off) := rfl
theorem Slots.braAll (g : Guard) (p : BitVec 4) (off : BitVec 16) : Slots.Statement (.braAll g p off) := rfl
theorem Slots.call (g : Guard) (off : BitVec 21) : Slots.Statement (.call g off) := rfl
theorem Slots.ret (g : Guard) (k : BitVec 6) : Slots.Statement (.ret g k) := rfl
theorem Slots.jmpi (g : Guard) (k : BitVec 6) : Slots.Statement (.jmpi g k) := rfl
theorem Slots.loop (g : Guard) (c : BitVec 6) (len : BitVec 10) (stages : BitVec 3) (step : BitVec 2) : Slots.Statement (.loop g c len stages step) := rfl
theorem Slots.lbrk (g : Guard) (k : BitVec 3) : Slots.Statement (.lbrk g k) := rfl
theorem Slots.spawn (g : Guard) (k : BitVec 2) (e : BitVec 6) (a : BitVec 6) (n : BitVec 4) : Slots.Statement (.spawn g k e a n) := rfl
theorem Slots.launch (g : Guard) (r : BitVec 6) : Slots.Statement (.launch g r) := rfl
theorem Slots.launchAfter (g : Guard) (r : BitVec 6) : Slots.Statement (.launchAfter g r) := rfl
theorem Slots.exit (g : Guard) : Slots.Statement (.exit g) := rfl
theorem Slots.gjoin (g : Guard) (grp : BitVec 6) (line : BitVec 6) : Slots.Statement (.gjoin g grp line) := rfl
theorem Slots.gleave (g : Guard) (grp : BitVec 6) : Slots.Statement (.gleave g grp) := rfl
theorem Slots.gwait (g : Guard) (grp : BitVec 6) : Slots.Statement (.gwait g grp) := rfl
theorem Slots.parm (g : Guard) (h : BitVec 6) : Slots.Statement (.parm g h) := rfl
theorem Slots.pwait (g : Guard) (line : BitVec 6) (b : BitVec 4) : Slots.Statement (.pwait g line b) := rfl
theorem Slots.tfence (g : Guard) : Slots.Statement (.tfence g) := rfl
theorem Slots.waitt (g : Guard) (t : BitVec 6) : Slots.Statement (.waitt g t) := rfl
theorem Slots.waitv (g : Guard) (a v : BitVec 6) : Slots.Statement (.waitv g a v) := rfl
theorem Slots.waitcSrc (g : Guard) (c n : BitVec 6) : Slots.Statement (.waitcSrc g c n) := rfl
theorem Slots.waitcLand (g : Guard) (c n : BitVec 6) : Slots.Statement (.waitcLand g c n) := rfl
theorem Slots.mclaim (g : Guard) (b : BitVec 4) : Slots.Statement (.mclaim g b) := rfl
theorem Slots.mrel (g : Guard) : Slots.Statement (.mrel g) := rfl
theorem Slots.setft (g : Guard) (base : BitVec 6) (level : BitVec 3) : Slots.Statement (.setft g base level) := rfl
theorem Slots.trap (g : Guard) (imm : BitVec 16) : Slots.Statement (.trap g imm) := rfl
theorem Slots.svc (g : Guard) (imm : BitVec 16) : Slots.Statement (.svc g imm) := rfl
theorem Slots.rfi (g : Guard) : Slots.Statement (.rfi g) := rfl
theorem Slots.ttload (g : Guard) (t : BitVec 6) : Slots.Statement (.ttload g t) := rfl
theorem Slots.swapctx (g : Guard) (a : BitVec 6) : Slots.Statement (.swapctx g a) := rfl
theorem Slots.halt (g : Guard) : Slots.Statement (.halt g) := rfl
theorem Slots.dbg (g : Guard) (imm : BitVec 16) : Slots.Statement (.dbg g imm) := rfl
theorem Slots.ld (a : Addr) (q : BitVec 2) (land : BitVec 6) (size : BitVec 2) (signed : Bool) : Slots.Statement (.ld a q land size signed) := rfl
theorem Slots.st (a : Addr) (d : BitVec 6) (size : BitVec 2) : Slots.Statement (.st a d size) := rfl
theorem Slots.vld (a : Addr) (q : BitVec 2) (land : BitVec 6) (m : LaneSel) : Slots.Statement (.vld a q land m) := rfl
theorem Slots.vst (a : Addr) (d : Opnd) (m : LaneSel) : Slots.Statement (.vst a d m) := rfl
theorem Slots.vstCnt (a : Addr) (d : Opnd) (line : BitVec 6) (m : LaneSel) : Slots.Statement (.vstCnt a d line m) := rfl
theorem Slots.vldw (a : Addr) (q : BitVec 2) (land : BitVec 6) (m : LaneSel) : Slots.Statement (.vldw a q land m) := rfl
theorem Slots.pf (a : Addr) (q : BitVec 2) (land : BitVec 6) (m : LaneSel) : Slots.Statement (.pf a q land m) := rfl
theorem Slots.vgth (base : BitVec 6) (ix : Opnd) (q : BitVec 2) (land : BitVec 4) (g : GIndex) : Slots.Statement (.vgth base ix q land g) := rfl
theorem Slots.vsct (base : BitVec 6) (ix : BitVec 8) (g : GIndex) : Slots.Statement (.vsct base ix g) := rfl
theorem Slots.ldfe (a : Addr) (q : BitVec 2) (land : BitVec 6) (m : LaneSel) : Slots.Statement (.ldfe a q land m) := rfl
theorem Slots.stfe (a : Addr) (d : Opnd) (m : LaneSel) : Slots.Statement (.stfe a d m) := rfl
theorem Slots.clrfe (a : Addr) : Slots.Statement (.clrfe a) := rfl
theorem Slots.ldv (a : Addr) (q : BitVec 2) (land : BitVec 6) (w : BitVec 3) : Slots.Statement (.ldv a q land w) := rfl
theorem Slots.vsetChk (b : BitVec 4) (mask : BitVec 8) : Slots.Statement (.vsetChk b mask) := rfl
theorem Slots.vsetSt (base : BitVec 6) (b : BitVec 4) (d : Opnd) (mask : BitVec 8) : Slots.Statement (.vsetSt base b d mask) := rfl
theorem Slots.casv (a : Addr) (v : BitVec 6) (d : Opnd) : Slots.Statement (.casv a v d) := rfl
theorem Slots.amo (a : Addr) (op : AmoOp) (wide : Bool) (o : BitVec 6) : Slots.Statement (.amo a op wide o) := rfl
theorem Slots.redAddF32 (a : Addr) (d : Opnd) (m : LaneSel) : Slots.Statement (.redAddF32 a d m) := rfl
theorem Slots.redAddBf16 (a : Addr) (d : Opnd) (m : LaneSel) : Slots.Statement (.redAddBf16 a d m) := rfl
theorem Slots.redAddBf16Sr (a : Addr) (d : Opnd) (m : LaneSel) : Slots.Statement (.redAddBf16Sr a d m) := rfl
theorem Slots.redAddBdx8 (a : Addr) (d : Opnd) (m : LaneSel) : Slots.Statement (.redAddBdx8 a d m) := rfl
theorem Slots.redAddBdx4 (a : Addr) (d : Opnd) (m : LaneSel) : Slots.Statement (.redAddBdx4 a d m) := rfl
theorem Slots.redMaxF32 (a : Addr) (d : Opnd) (m : LaneSel) : Slots.Statement (.redMaxF32 a d m) := rfl
theorem Slots.redAddS32 (a : Addr) (d : Opnd) (m : LaneSel) : Slots.Statement (.redAddS32 a d m) := rfl
theorem Slots.pstore (a : Addr) (d : BitVec 8) (fmt : BitVec 2) : Slots.Statement (.pstore a d fmt) := rfl
theorem Slots.fenceRel (scope : BitVec 3) : Slots.Statement (.fenceRel scope) := rfl
theorem Slots.fenceAcq (scope : BitVec 3) : Slots.Statement (.fenceAcq scope) := rfl
theorem Slots.fenceSc (scope : BitVec 3) : Slots.Statement (.fenceSc scope) := rfl
theorem Slots.drain (scope : BitVec 3) : Slots.Statement (.drain scope) := rfl
theorem Slots.arrive (c : BitVec 6) (line : BitVec 6) (scope : BitVec 3) : Slots.Statement (.arrive c line scope) := rfl
theorem Slots.arriveRel (c : BitVec 6) (line : BitVec 6) (scope : BitVec 3) : Slots.Statement (.arriveRel c line scope) := rfl
theorem Slots.lqadv (q : BitVec 2) : Slots.Statement (.lqadv q) := rfl
theorem Slots.tlbinvPage (a : Addr) : Slots.Statement (.tlbinvPage a) := rfl
theorem Slots.tlbinvCtx (base : BitVec 6) : Slots.Statement (.tlbinvCtx base) := rfl
theorem Slots.tlbinvAll : Slots.Statement .tlbinvAll := rfl
theorem Slots.add (d a b : BitVec 6) : Slots.Statement (.add d a b) := rfl
theorem Slots.sub (d a b : BitVec 6) : Slots.Statement (.sub d a b) := rfl
theorem Slots.mul (d a b : BitVec 6) : Slots.Statement (.mul d a b) := rfl
theorem Slots.mulh (d a b : BitVec 6) (unsigned : Bool) : Slots.Statement (.mulh d a b unsigned) := rfl
theorem Slots.and (d a b : BitVec 6) : Slots.Statement (.and d a b) := rfl
theorem Slots.or (d a b : BitVec 6) : Slots.Statement (.or d a b) := rfl
theorem Slots.xor (d a b : BitVec 6) : Slots.Statement (.xor d a b) := rfl
theorem Slots.andn (d a b : BitVec 6) : Slots.Statement (.andn d a b) := rfl
theorem Slots.shl (d a b : BitVec 6) : Slots.Statement (.shl d a b) := rfl
theorem Slots.shr (d a b : BitVec 6) : Slots.Statement (.shr d a b) := rfl
theorem Slots.sar (d a b : BitVec 6) : Slots.Statement (.sar d a b) := rfl
theorem Slots.rol (d a b : BitVec 6) : Slots.Statement (.rol d a b) := rfl
theorem Slots.addi (d a : BitVec 6) (imm : BitVec 16) : Slots.Statement (.addi d a imm) := by
  show Option.map slotOfWord (Encode.encode _) = _
  simp only [Encode.encode]
  unfold Encode.si
  split <;> rfl
theorem Slots.andi (d a : BitVec 6) (imm : BitVec 16) : Slots.Statement (.andi d a imm) := by
  show Option.map slotOfWord (Encode.encode _) = _
  simp only [Encode.encode]
  unfold Encode.si
  split <;> rfl
theorem Slots.ori (d a : BitVec 6) (imm : BitVec 16) : Slots.Statement (.ori d a imm) := by
  show Option.map slotOfWord (Encode.encode _) = _
  simp only [Encode.encode]
  unfold Encode.si
  split <;> rfl
theorem Slots.xori (d a : BitVec 6) (imm : BitVec 16) : Slots.Statement (.xori d a imm) := by
  show Option.map slotOfWord (Encode.encode _) = _
  simp only [Encode.encode]
  unfold Encode.si
  split <;> rfl
theorem Slots.shli (d a : BitVec 6) (k : BitVec 6) : Slots.Statement (.shli d a k) := rfl
theorem Slots.shri (d a : BitVec 6) (k : BitVec 6) : Slots.Statement (.shri d a k) := rfl
theorem Slots.sari (d a : BitVec 6) (k : BitVec 6) : Slots.Statement (.sari d a k) := rfl
theorem Slots.roli (d a : BitVec 6) (k : BitVec 6) : Slots.Statement (.roli d a k) := rfl
theorem Slots.bfx (d a : BitVec 6) (width : BitVec 6) (pos : BitVec 6) (signed : Bool) : Slots.Statement (.bfx d a width pos signed) := rfl
theorem Slots.bfi (d a : BitVec 6) (width : BitVec 6) (pos : BitVec 6) : Slots.Statement (.bfi d a width pos) := rfl
theorem Slots.clz (d a : BitVec 6) : Slots.Statement (.clz d a) := rfl
theorem Slots.popc (d a : BitVec 6) : Slots.Statement (.popc d a) := rfl
theorem Slots.min (d a b : BitVec 6) : Slots.Statement (.min d a b) := rfl
theorem Slots.max (d a b : BitVec 6) : Slots.Statement (.max d a b) := rfl
theorem Slots.minu (d a b : BitVec 6) : Slots.Statement (.minu d a b) := rfl
theorem Slots.maxu (d a b : BitVec 6) : Slots.Statement (.maxu d a b) := rfl
theorem Slots.cmp (c : SCond) (d : BitVec 4) (a b : BitVec 6) : Slots.Statement (.cmp c d a b) := rfl
theorem Slots.cmpi (c : SCond) (d : BitVec 4) (a : BitVec 6) (imm : BitVec 16) : Slots.Statement (.cmpi c d a imm) := by
  show Option.map slotOfWord (Encode.encode _) = _
  simp only [Encode.encode]
  unfold Encode.si
  split <;> rfl
theorem Slots.sel (d : BitVec 6) (c : BitVec 4) (a b : BitVec 6) : Slots.Statement (.sel d c a b) := rfl
theorem Slots.band (d a b : BitVec 4) (inv : Bool) : Slots.Statement (.band d a b inv) := rfl
theorem Slots.bor (d a b : BitVec 4) (inv : Bool) : Slots.Statement (.bor d a b inv) := rfl
theorem Slots.bxor (d a b : BitVec 4) (inv : Bool) : Slots.Statement (.bxor d a b inv) := rfl
theorem Slots.bandn (d a b : BitVec 4) (inv : Bool) : Slots.Statement (.bandn d a b inv) := rfl
theorem Slots.movi (d : BitVec 6) (imm : BitVec 36) : Slots.Statement (.movi d imm) := by
  show Option.map slotOfWord (Encode.encode _) = _
  simp only [Encode.encode]
  split <;> rfl
theorem Slots.lui (d : BitVec 6) (imm : BitVec 32) : Slots.Statement (.lui d imm) := by
  show Option.map slotOfWord (Encode.encode _) = _
  simp only [Encode.encode]
  split <;> rfl
theorem Slots.getc (d : BitVec 6) (num : BitVec 14) : Slots.Statement (.getc d num) := rfl
theorem Slots.putc (num : BitVec 14) (a : BitVec 6) : Slots.Statement (.putc num a) := rfl
theorem Slots.lea (d a b : BitVec 6) (j : BitVec 3) : Slots.Statement (.lea d a b j) := rfl
theorem Slots.leai (d a : BitVec 6) (imm : BitVec 16) : Slots.Statement (.leai d a imm) := by
  show Option.map slotOfWord (Encode.encode _) = _
  simp only [Encode.encode]
  unfold Encode.si
  split <;> rfl
theorem Slots.dadd (d : DSlot) : Slots.Statement (.dadd d) := rfl
theorem Slots.dsub (d : DSlot) : Slots.Statement (.dsub d) := rfl
theorem Slots.dmul (d : DSlot) : Slots.Statement (.dmul d) := rfl
theorem Slots.dfma (d : DSlot) : Slots.Statement (.dfma d) := rfl
theorem Slots.dfms (d : DSlot) : Slots.Statement (.dfms d) := rfl
theorem Slots.ddiv (d : DSlot) : Slots.Statement (.ddiv d) := rfl
theorem Slots.dsqrt (d : DSlot) : Slots.Statement (.dsqrt d) := rfl
theorem Slots.dabs (d : DSlot) : Slots.Statement (.dabs d) := rfl
theorem Slots.dneg (d : DSlot) : Slots.Statement (.dneg d) := rfl
theorem Slots.dcmp (d : DSlot) : Slots.Statement (.dcmp d) := rfl
theorem Slots.dsel (d : DSlot) : Slots.Statement (.dsel d) := rfl
theorem Slots.dclip (d : DSlot) : Slots.Statement (.dclip d) := rfl
theorem Slots.dmax (d : DSlot) : Slots.Statement (.dmax d) := rfl
theorem Slots.dmin (d : DSlot) : Slots.Statement (.dmin d) := rfl
theorem Slots.dcvt (d : DSlot) : Slots.Statement (.dcvt d) := rfl
theorem Slots.dland (d : DSlot) : Slots.Statement (.dland d) := rfl
theorem Slots.vrng (d : DSlot) : Slots.Statement (.vrng d) := rfl
theorem Slots.vsr (d : DSlot) : Slots.Statement (.vsr d) := rfl
theorem Slots.vadd (d : DSlot) : Slots.Statement (.vadd d) := rfl
theorem Slots.vsub (d : DSlot) : Slots.Statement (.vsub d) := rfl
theorem Slots.vmul (d : DSlot) : Slots.Statement (.vmul d) := rfl
theorem Slots.vmulh (d : DSlot) : Slots.Statement (.vmulh d) := rfl
theorem Slots.vand (d : DSlot) : Slots.Statement (.vand d) := rfl
theorem Slots.vor (d : DSlot) : Slots.Statement (.vor d) := rfl
theorem Slots.vxor (d : DSlot) : Slots.Statement (.vxor d) := rfl
theorem Slots.vandn (d : DSlot) : Slots.Statement (.vandn d) := rfl
theorem Slots.vshl (d : DSlot) : Slots.Statement (.vshl d) := rfl
theorem Slots.vshr (d : DSlot) : Slots.Statement (.vshr d) := rfl
theorem Slots.vsar (d : DSlot) : Slots.Statement (.vsar d) := rfl
theorem Slots.vmin (d : DSlot) : Slots.Statement (.vmin d) := rfl
theorem Slots.vmax (d : DSlot) : Slots.Statement (.vmax d) := rfl
theorem Slots.vcmp (d : DSlot) : Slots.Statement (.vcmp d) := rfl
theorem Slots.vsel (d : DSlot) : Slots.Statement (.vsel d) := rfl
theorem Slots.vclz (d : DSlot) : Slots.Statement (.vclz d) := rfl
theorem Slots.vpopc (d : DSlot) : Slots.Statement (.vpopc d) := rfl
theorem Slots.vabs (d : DSlot) : Slots.Statement (.vabs d) := rfl
theorem Slots.vneg (d : DSlot) : Slots.Statement (.vneg d) := rfl
theorem Slots.vperm (d : DSlot) : Slots.Statement (.vperm d) := rfl
theorem Slots.vrot (d : DSlot) : Slots.Statement (.vrot d) := rfl
theorem Slots.vbcast (d : DSlot) : Slots.Statement (.vbcast d) := rfl
theorem Slots.vshuf (d : DSlot) : Slots.Statement (.vshuf d) := rfl
theorem Slots.vred (d : DSlot) : Slots.Statement (.vred d) := rfl
theorem Slots.pand (d : DSlot) : Slots.Statement (.pand d) := rfl
theorem Slots.por (d : DSlot) : Slots.Statement (.por d) := rfl
theorem Slots.pxor (d : DSlot) : Slots.Statement (.pxor d) := rfl
theorem Slots.pandn (d : DSlot) : Slots.Statement (.pandn d) := rfl
theorem Slots.ptest (d : DSlot) : Slots.Statement (.ptest d) := rfl
theorem Slots.vmov (d : DSlot) : Slots.Statement (.vmov d) := rfl
theorem Slots.vmovi (d : DSlot) : Slots.Statement (.vmovi d) := rfl
theorem Slots.mload (fmt : BitVec 4) (plane : BitVec 1) (src : Opnd) (rows : BitVec 8) (row0 : BitVec 6) : Slots.Statement (.mload fmt plane src rows row0) := rfl
theorem Slots.mswap : Slots.Statement .mswap := rfl
theorem Slots.mma (fmt : BitVec 4) (bank : BitVec 3) (ck acc : Bool) (src : Opnd) (rmask cmask : BitVec 6) (rows : BitVec 8) : Slots.Statement (.mma fmt bank ck acc src rmask cmask rows) := rfl
theorem Slots.mcfg (neg trans : Bool) : Slots.Statement (.mcfg neg trans) := rfl
theorem Slots.mclr (bank : BitVec 3) (ck : Bool) : Slots.Statement (.mclr bank ck) := rfl
theorem Slots.mdrain (fmt : BitVec 4) (bank : BitVec 3) (dst : Opnd) (rows : BitVec 8) (scale : BitVec 8) (sr clip : Bool) : Slots.Statement (.mdrain fmt bank dst rows scale sr clip) := rfl
theorem Slots.mchk (bank : BitVec 3) (r : BitVec 6) (tol : BitVec 6) (b : BitVec 4) : Slots.Statement (.mchk bank r tol b) := rfl
theorem Slots.kread (bank : BitVec 3) (index : BitVec 6) (opnd : Opnd) (col : Bool) : Slots.Statement (.kread bank index opnd col) := rfl
theorem Slots.kwrite (bank : BitVec 3) (index : BitVec 6) (opnd : Opnd) (col : Bool) : Slots.Statement (.kwrite bank index opnd col) := rfl
theorem Slots.kadd (bank : BitVec 3) (index : BitVec 6) (opnd : Opnd) (col : Bool) : Slots.Statement (.kadd bank index opnd col) := rfl
theorem Slots.kreadck (bank : BitVec 3) (opnd : Opnd) (col : Bool) : Slots.Statement (.kreadck bank opnd col) := rfl
theorem Slots.cp (p q co : BitVec 6) (scope : BitVec 3) (cnt : Bool) : Slots.Statement (.cp p q co scope cnt) := rfl
theorem Slots.cp2d (p q co : BitVec 6) (scope : BitVec 3) (cnt : Bool) : Slots.Statement (.cp2d p q co scope cnt) := rfl
theorem Slots.launchX (p : BitVec 6) : Slots.Statement (.launchX p) := rfl
theorem Slots.launchAfterX (p : BitVec 6) : Slots.Statement (.launchAfterX p) := rfl
theorem Slots.collAr (p co : BitVec 6) (op : CollOp) : Slots.Statement (.collAr p co op) := rfl
theorem Slots.collRs (p co : BitVec 6) (op : CollOp) : Slots.Statement (.collRs p co op) := rfl
theorem Slots.collAg (p co : BitVec 6) : Slots.Statement (.collAg p co) := rfl
theorem Slots.collBc (p co : BitVec 6) : Slots.Statement (.collBc p co) := rfl
theorem Slots.dec (d : BitVec 4) (p co : BitVec 6) : Slots.Statement (.dec d p co) := rfl
theorem Slots.histOn (t : BitVec 4) (p q : BitVec 6) : Slots.Statement (.histOn t p q) := rfl
theorem Slots.histOff (t : BitVec 4) : Slots.Statement (.histOff t) := rfl
theorem Slots.histRd (t : BitVec 4) (p co : BitVec 6) : Slots.Statement (.histRd t p co) := rfl
theorem Slots.hscale (t : BitVec 4) (p q : BitVec 6) : Slots.Statement (.hscale t p q) := rfl
theorem Slots.seed (p : BitVec 6) : Slots.Statement (.seed p) := rfl
theorem Slots.migrMove (p q co : BitVec 6) : Slots.Statement (.migrMove p q co) := rfl
theorem Slots.migrPark (p q co : BitVec 6) : Slots.Statement (.migrPark p q co) := rfl
theorem Slots.migrRecall (p q co : BitVec 6) : Slots.Statement (.migrRecall p q co) := rfl
theorem Slots.migrEnd (p q co : BitVec 6) : Slots.Statement (.migrEnd p q co) := rfl
theorem Slots.emptyBundle (seg rdv ppt : Bool) : Slots.Statement (.emptyBundle seg rdv ppt) := rfl
theorem Slots.loopBoundary : Slots.Statement .loopBoundary := rfl
theorem Slots.fuseLoad (fuses : Fuses) : Slots.Statement (.fuseLoad fuses) := rfl
theorem Slots.pllLock (ok link : Bool) : Slots.Statement (.pllLock ok link) := rfl
theorem Slots.cxlLinkTraining (ok : Bool) : Slots.Statement (.cxlLinkTraining ok) := rfl
theorem Slots.selfTest (pass : BitVec 24) (slicesOk bridgeOk : Bool) : Slots.Statement (.selfTest pass slicesOk bridgeOk) := rfl
theorem Slots.memoryTraining (hbm : BitVec 8) (tier : TierTraining) (ports : BitVec 16) : Slots.Statement (.memoryTraining hbm tier ports) := rfl
theorem Slots.hardwareZeroing : Slots.Statement .hardwareZeroing := rfl
theorem Slots.timeDiscipline (rootTime : DWord) (flit : TimeFlit) : Slots.Statement (.timeDiscipline rootTime flit) := rfl
theorem Slots.supervisorStart (strands : List SvStrand) : Slots.Statement (.supervisorStart strands) := rfl
theorem Slots.digitStep : Slots.Statement .digitStep := rfl
theorem Slots.registerLanding : Slots.Statement .registerLanding := rfl
theorem Slots.matrixOperationComplete (id : Nat) : Slots.Statement (.matrixOperationComplete id) := rfl
theorem Slots.loadLanding (id : Nat) : Slots.Statement (.loadLanding id) := rfl
theorem Slots.memoryAnswer (id : Nat) : Slots.Statement (.memoryAnswer id) := rfl
theorem Slots.clusterStoreAccess (id : Nat) : Slots.Statement (.clusterStoreAccess id) := rfl
theorem Slots.requestDeparture (rank : Nat) (req : Request) : Slots.Statement (.requestDeparture rank req) := rfl
theorem Slots.writeQueueApply (line : Nat) : Slots.Statement (.writeQueueApply line) := rfl
theorem Slots.countedDecrement (rank : Nat) (line : BitVec 6) (party : BitVec 16) (bytes : Nat) : Slots.Statement (.countedDecrement rank line party bytes) := rfl
theorem Slots.trapEntry (t : TrapInfo) (supervisor : Bool) : Slots.Statement (.trapEntry t supervisor) := rfl
theorem Slots.rewind (source : BitVec 3) : Slots.Statement (.rewind source) := rfl
theorem Slots.waitConditionMet (seq : Nat) : Slots.Statement (.waitConditionMet seq) := rfl
theorem Slots.launchRecordRead (rank : Nat) (va : DWord) (read : LaunchRead) : Slots.Statement (.launchRecordRead rank va read) := rfl
theorem Slots.strandGrant (seq slot : Nat) : Slots.Statement (.strandGrant seq slot) := rfl
theorem Slots.swapBegin (seq : Nat) : Slots.Statement (.swapBegin seq) := rfl
theorem Slots.swapComplete (seq : Nat) : Slots.Statement (.swapComplete seq) := rfl
theorem Slots.spillEnd (seq : Nat) : Slots.Statement (.spillEnd seq) := rfl
theorem Slots.fillEnd (seq slot : Nat) : Slots.Statement (.fillEnd seq slot) := rfl
theorem Slots.bucketRefill : Slots.Statement .bucketRefill := rfl
theorem Slots.bufferZeroingEnd (b : ZBuf) : Slots.Statement (.bufferZeroingEnd b) := rfl
theorem Slots.copySourceRelease (id : Nat) : Slots.Statement (.copySourceRelease id) := rfl
theorem Slots.copyLanding (id : Nat) : Slots.Statement (.copyLanding id) := rfl
theorem Slots.collParameterExchange (id : Nat) (same : Bool) : Slots.Statement (.collParameterExchange id same) := rfl
theorem Slots.collSourceRelease (id : Nat) : Slots.Statement (.collSourceRelease id) := rfl
theorem Slots.collEdgeArrival (id party : Nat) (down : Bool) (data : List (Word × Bool)) : Slots.Statement (.collEdgeArrival id party down data) := rfl
theorem Slots.collLanding (id : Nat) (failed : Bool) : Slots.Statement (.collLanding id failed) := rfl
theorem Slots.decoderRecordStart (d : BitVec 4) : Slots.Statement (.decoderRecordStart d) := rfl
theorem Slots.decoderSourceRelease (d : BitVec 4) : Slots.Statement (.decoderSourceRelease d) := rfl
theorem Slots.histSnapshot (core rank slot loc : Nat) (co : Option Nat) : Slots.Statement (.histSnapshot core rank slot loc co) := rfl
theorem Slots.loadCopyEnd (rank : Nat) : Slots.Statement (.loadCopyEnd rank) := rfl
theorem Slots.parkComplete (rank : Nat) : Slots.Statement (.parkComplete rank) := rfl
theorem Slots.recallComplete (rank : Nat) : Slots.Statement (.recallComplete rank) := rfl
theorem Slots.rankEndComplete (rank : Nat) : Slots.Statement (.rankEndComplete rank) := rfl
theorem Slots.translationReturn (va : DWord) (write : Bool) : Slots.Statement (.translationReturn va write) := rfl
theorem Slots.sharedCacheAccess (a : Access) : Slots.Statement (.sharedCacheAccess a) := rfl
theorem Slots.decoderFrameDone (d : BitVec 4) (f : Frame) : Slots.Statement (.decoderFrameDone d f) := rfl
theorem Slots.packetArrival (a : Arrival) : Slots.Statement (.packetArrival a) := rfl
theorem Slots.mapHoldReceived (rank : Nat) (src : MsgSrc) : Slots.Statement (.mapHoldReceived rank src) := rfl
theorem Slots.mapEntryReceived (rank : Nat) (entry : DWord) (src : MsgSrc) (restore : Bool) : Slots.Statement (.mapEntryReceived rank entry src restore) := rfl
theorem Slots.powerOnReset : Slots.Statement .powerOnReset := rfl
theorem Slots.warmReset (perst linkUp : Bool) : Slots.Statement (.warmReset perst linkUp) := rfl
theorem Slots.railOrderError : Slots.Statement .railOrderError := rfl
theorem Slots.brownOut : Slots.Statement .brownOut := rfl
theorem Slots.railAlert : Slots.Statement .railAlert := rfl
theorem Slots.thermalTrip : Slots.Statement .thermalTrip := rfl
theorem Slots.thermalLimitLower (tj : BitVec 8) : Slots.Statement (.thermalLimitLower tj) := rfl
theorem Slots.thermalLimitRaise (tj : BitVec 8) : Slots.Statement (.thermalLimitRaise tj) := rfl
theorem Slots.powerWindowEvaluation (avg : BitVec 16) : Slots.Statement (.powerWindowEvaluation avg) := rfl
theorem Slots.vidbFrame (code : BitVec 8) : Slots.Statement (.vidbFrame code) := rfl
theorem Slots.entdaa (addr : BitVec 7) : Slots.Statement (.entdaa addr) := rfl
theorem Slots.sidebandRead (addr : BitVec 8) : Slots.Statement (.sidebandRead addr) := rfl
theorem Slots.sidebandWrite (addr : BitVec 8) (data : Word) : Slots.Statement (.sidebandWrite addr data) := rfl
theorem Slots.alertStatClear (bits : Word) : Slots.Statement (.alertStatClear bits) := rfl
theorem Slots.flitAck (port : BitVec 4) (seqNo : Nat) : Slots.Statement (.flitAck port seqNo) := rfl
theorem Slots.flitReplay (port : BitVec 4) : Slots.Statement (.flitReplay port) := rfl
theorem Slots.portDown (port : BitVec 4) : Slots.Statement (.portDown port) := rfl
theorem Slots.portRetrain (port : BitVec 4) : Slots.Statement (.portRetrain port) := rfl
theorem Slots.portUp (port : BitVec 4) : Slots.Statement (.portUp port) := rfl
theorem Slots.portCmdRetrain (port : BitVec 4) : Slots.Statement (.portCmdRetrain port) := rfl
theorem Slots.portCmdHold (port : BitVec 4) : Slots.Statement (.portCmdHold port) := rfl
theorem Slots.portCmdRelease (port : BitVec 4) : Slots.Statement (.portCmdRelease port) := rfl
theorem Slots.chanCfgWrite (val : DWord) : Slots.Statement (.chanCfgWrite val) := rfl
theorem Slots.chanCmdOpen (secure : Bool) : Slots.Statement (.chanCmdOpen secure) := rfl
theorem Slots.chanCmdFence : Slots.Statement .chanCmdFence := rfl
theorem Slots.chanCmdUnmap : Slots.Statement .chanCmdUnmap := rfl
theorem Slots.fabNodeWrite (node : BitVec 12) : Slots.Statement (.fabNodeWrite node) := rfl
theorem Slots.openArrival (src dst : BitVec 12) (gen : BitVec 16) (reply : Bool) : Slots.Statement (.openArrival src dst gen reply) := rfl
theorem Slots.openRepeat (ch : BitVec 8) : Slots.Statement (.openRepeat ch) := rfl
theorem Slots.openingTimeout (ch : BitVec 8) : Slots.Statement (.openingTimeout ch) := rfl
theorem Slots.fenceMarkerArrival (ch : BitVec 8) (port : BitVec 4) : Slots.Statement (.fenceMarkerArrival ch port) := rfl
theorem Slots.fencingTimeout (ch : BitVec 8) : Slots.Statement (.fencingTimeout ch) := rfl
theorem Slots.transferAcknowledged (id : Nat) : Slots.Statement (.transferAcknowledged id) := rfl
theorem Slots.rejectionArrival (id : Nat) (stale : Bool) : Slots.Statement (.rejectionArrival id stale) := rfl
theorem Slots.transferTimeout (id : Nat) : Slots.Statement (.transferTimeout id) := rfl
theorem Slots.timeExchange (port : BitVec 4) (offset : BitVec 16) (nbr : TimeNbr) : Slots.Statement (.timeExchange port offset nbr) := rfl
theorem Slots.timeLockLoss : Slots.Statement .timeLockLoss := rfl
theorem Slots.cxlIoRequest (r : CxlIo) : Slots.Statement (.cxlIoRequest r) := rfl
theorem Slots.cmdtEnable (t : BitVec 2) : Slots.Statement (.cmdtEnable t) := rfl
theorem Slots.cmdtDisable (t : BitVec 2) : Slots.Statement (.cmdtDisable t) := rfl
theorem Slots.cxlMemRead (pa : Nat) (stream : Option (BitVec 3)) : Slots.Statement (.cxlMemRead pa stream) := rfl
theorem Slots.cxlMemWrite (pa : Nat) (data : List Byte) (way : CxlWay) : Slots.Statement (.cxlMemWrite pa data way) := rfl
theorem Slots.hostSnoop (snoop : CxlSnoop) : Slots.Statement (.hostSnoop snoop) := rfl
theorem Slots.backInvalidateResponse (line : Nat) : Slots.Statement (.backInvalidateResponse line) := rfl
theorem Slots.getVersion : Slots.Statement .getVersion := rfl
theorem Slots.getCapabilities : Slots.Statement .getCapabilities := rfl
theorem Slots.negotiateAlgorithms (supported : Bool) : Slots.Statement (.negotiateAlgorithms supported) := rfl
theorem Slots.getDigests (slot : BitVec 8) : Slots.Statement (.getDigests slot) := rfl
theorem Slots.getCertificate (slot : BitVec 8) : Slots.Statement (.getCertificate slot) := rfl
theorem Slots.challenge (slot : BitVec 8) (nonce : BitVec 256) : Slots.Statement (.challenge slot nonce) := rfl
theorem Slots.getMeasurements (nonce : BitVec 256) : Slots.Statement (.getMeasurements nonce) := rfl
theorem Slots.keyExchange (secure : Bool) (data : BitVec 256) : Slots.Statement (.keyExchange secure data) := rfl
theorem Slots.finish : Slots.Statement .finish := rfl
theorem Slots.loadRank (r : CmdRec) : Slots.Statement (.loadRank r) := rfl
theorem Slots.startRank (r : CmdRec) : Slots.Statement (.startRank r) := rfl
theorem Slots.parkRank (r : CmdRec) : Slots.Statement (.parkRank r) := rfl
theorem Slots.recallRank (r : CmdRec) : Slots.Statement (.recallRank r) := rfl
theorem Slots.migrateRank (r : CmdRec) : Slots.Statement (.migrateRank r) := rfl
theorem Slots.endRank (r : CmdRec) : Slots.Statement (.endRank r) := rfl
theorem Slots.setChannel (r : CmdRec) : Slots.Statement (.setChannel r) := rfl
theorem Slots.setWorld (r : CmdRec) : Slots.Statement (.setWorld r) := rfl
theorem Slots.migrateRequestReceived (m : MigReq) : Slots.Statement (.migrateRequestReceived m) := rfl
theorem Slots.destAnswer (rank : Nat) (n : BitVec 8) : Slots.Statement (.destAnswer rank n) := rfl
theorem Slots.precopyRoundEnd (rank : Nat) : Slots.Statement (.precopyRoundEnd rank) := rfl
theorem Slots.mapHoldAnswer (rank : Nat) (node : BitVec 12) (ready : Bool) : Slots.Statement (.mapHoldAnswer rank node ready) := rfl
theorem Slots.mapHoldTimeout (rank : Nat) : Slots.Statement (.mapHoldTimeout rank) := rfl
theorem Slots.migrationDestReady (rank : Nat) : Slots.Statement (.migrationDestReady rank) := rfl
theorem Slots.mapAckReceived (rank : Nat) (node : BitVec 12) : Slots.Statement (.mapAckReceived rank node) := rfl
theorem Slots.mapAckTimeout (rank : Nat) (node : BitVec 12) : Slots.Statement (.mapAckTimeout rank node) := rfl
theorem Slots.leagueKeepalive (rank : Nat) : Slots.Statement (.leagueKeepalive rank) := rfl
theorem Slots.migrationAbortReceived (m : RankMsg) : Slots.Statement (.migrationAbortReceived m) := rfl
theorem Slots.incomingTimeout (rank : Nat) : Slots.Statement (.incomingTimeout rank) := rfl
theorem Slots.rowActivate (bank row : Nat) : Slots.Statement (.rowActivate bank row) := rfl
theorem Slots.refreshWindowEnd : Slots.Statement .refreshWindowEnd := rfl
theorem Slots.timetableSlotStart (dom : BitVec 5) : Slots.Statement (.timetableSlotStart dom) := rfl
theorem Slots.minresExpiry (seq : Nat) : Slots.Statement (.minresExpiry seq) := rfl
theorem Slots.tbCfgWrite (val : DWord) : Slots.Statement (.tbCfgWrite val) := rfl
theorem Slots.domCfgWrite (val : DWord) : Slots.Statement (.domCfgWrite val) := rfl
theorem Slots.wcfgWrite (val : DWord) : Slots.Statement (.wcfgWrite val) := rfl
theorem Slots.mownWrite (val : DWord) : Slots.Statement (.mownWrite val) := rfl
theorem Slots.worldBlkWrite (val : DWord) : Slots.Statement (.worldBlkWrite val) := rfl
theorem Slots.worldRegionWrite (val : DWord) : Slots.Statement (.worldRegionWrite val) := rfl
theorem Slots.worldMapBaseWrite (val : DWord) : Slots.Statement (.worldMapBaseWrite val) := rfl
theorem Slots.pwCmdForce (line : BitVec 6) : Slots.Statement (.pwCmdForce line) := rfl
theorem Slots.errinjWrite (val : DWord) : Slots.Statement (.errinjWrite val) := rfl
theorem Slots.perchWatchdogCensus (line : BitVec 6) : Slots.Statement (.perchWatchdogCensus line) := rfl
theorem Slots.debuggerResume (seq : Nat) : Slots.Statement (.debuggerResume seq) := rfl
theorem Slots.cxlCacheResponse (line : Nat) (data : List Byte) : Slots.Statement (.cxlCacheResponse line data) := rfl
theorem Slots.ideKmRequest (stream : BitVec 3) (secure : Bool) : Slots.Statement (.ideKmRequest stream secure) := rfl
theorem Slots.debuggerAttach (seq : Nat) (on : Bool) : Slots.Statement (.debuggerAttach seq on) := rfl
theorem Slots.softError (e : ErrSite) : Slots.Statement (.softError e) := rfl

end Sys2Proof.Laws
end

