-- ==== Sys2Proof/Tests/Slice0.lean ====
section
/-!
SUPPORT. Slice0.lean: the author's tests: the checks of WellFormed refuse what they should, words that the spec writes out decode to
the instructions it names, and concrete states meet the hypotheses of every obligation, clause by clause.
-/
namespace Sys2Proof.Tests
open Sys2Proof.Machine Sys2Proof.Claims

set_option maxRecDepth 20000

/-! ## A small machine -/

/-- A guard that acts: b0 reads 1. -/
def go : Guard := ⟨0, false⟩
def off : Guard := ⟨0, true⟩

/-- A HOT rank of one cluster. -/
def rk : Rank := { Rank.reset with st := .hot, shapeX := 1, shapeY := 1, csMib := 1 }

/-- s5 points at a mapped page, s6 at the own cluster store, s7 is odd, s8 at a launch record, s9 at a phase header, s10 at a timetable,
s13 at a save area, s14 at a plane. -/
def scalars : Store DWord :=
  [(3, 3), (5, 0x10000), (6, 0xFF0001F000000), (7, 3), (8, 0x10100), (9, 0x10300), (10, 0x10400), (11, 0xFFFFFFFF), (12, 0xFF0001F000080), (13, 0x11000), (14, 0x10000),
   (15, 0x0010001000010000), (20, 2), (21, 0x10200), (22, 0x10280)]

def strand : Ctx := { Ctx.reset with live := true, pc := 0x10000, npc := 0x10000, tfp := 0x10000, tfpSv := 0x10000, s := scalars }

/-- Two bundles of one `nop`, a launch record, a phase header, a timetable, a save area. -/
def bytes0 : Store Byte :=
  [(0x10000, [1, 0, 0, 0, 0, 0, 0x20, 4, 1, 0, 0, 0, 0, 0, 0x20, 4]),
   (0x10100, [0, 0, 1, 0, 0, 0, 0, 0, 1, 0, 1, 0, 1, 0, 0, 0, 0, 0, 64, 0, 0, 0, 0, 0, 0, 2, 1, 0, 0, 0, 0, 0, 0, 2, 1]),
   (0x10300, [3, 4, 1, 0, 0, 0, 0, 0, 4]),
   (0x10400, [1, 0, 0, 0, 64, 0, 64, 0, 64, 0, 64, 0, 0, 0, 0, 0, 0, 0, 9]), (0x11000, [1, 0, 0, 0, 0, 0, 0, 0, 5])].foldl (fun m (x : Nat × List Byte) => Store.setRange 0 m x.1 x.2) []

/-- The machine in phase 8 with that strand on sequencer 0 of that rank. The page at 0x10000 is mapped at rank and at supervisor level. -/
def st : State := { State.reset with
  pwr := { Power.reset with phase := 8, pass := 0xFFFFFF }
  c := strand
  ranks := [(0, rk)]
  seqs := [(0, { Seq.reset with active := some 0 })]
  tlb1 := [(0, [⟨0, 0x10000, 0x10000, 0x10000, 0x7⟩, ⟨4, 0x10000, 0x10000, 0x10000, 0x7⟩])]
  mem := bytes0 }

/-- The same with another context. -/
def stc (f : Ctx → Ctx) : State := { st with c := f strand }

/-- The same at supervisor level. -/
def sv : State := stc fun c => { c with sv := true }

/-- A level of a hardware loop over the second bundle. -/
def lv : Loop := ⟨0, 2, 0x10000, 2, 0x10008, 0⟩

/-- An access of the strand to the line at 0x10000 that still waits. -/
def waits0 (s : State) : State := { s with feq := [7], pend := [(7, some (.store 0 [512] true [(0x10000, [1])] none))] }

/-- The machine with one access pending, with a line that the host holds, with another host side. -/
def pending (p : Pending) : State := { st with pend := [(9, some p)] }
def hosted (h : HostIf) : State := { st with host := h }
def hostHolds (l : Nat) (s : State) : State := { s with host := { HostIf.reset with held := [(l, true)] } }

theorem acts_go : Acts st go := by unfold Acts; decide
theorem acts_of (f : Ctx → Ctx) : Acts (stc f) go := by unfold Acts; rfl

theorem ok_of {ε α : Type} {e : Except ε α} {x : α} (h : e.toOption = some x) : e = .ok x := by
  cases e with
  | error _ => cases h
  | ok y => cases h; rfl

theorem err_of {ε α : Type} {e : Except ε α} (h : e.toOption.isNone = true) : ∃ t, e = .error t := by
  cases e with
  | error t => exact ⟨t, rfl⟩
  | ok y => cases h

theorem noReds_of {s : State} (hw : s.wq = []) (hp : s.pend = []) : NoReds s := ⟨hw, fun e h => by rw [hp] at h; cases h⟩

/-- A block of whole granules of plain memory can be read. -/
theorem readable_one {s : State} {a n : Nat} (h : s.readWaits (linesOf a n) = false)
    (hm : ∀ i < (n + 7) / 8, s.marked (a + 8 * i) = false) : Readable s [(a, n)] := by
  refine ⟨by simpa using h, fun p hp i hi => ?_⟩
  obtain rfl := List.mem_singleton.1 hp
  exact hm i (by have : 8 * i < n := hi; omega)

theorem readable_plain {s : State} {a n : Nat} (h : s.readWaits (linesOf a n) = false) (hp : s.poison = []) : Readable s [(a, n)] :=
  readable_one h fun _ _ => by simp [State.marked, hp, Store.get]

theorem ok_ex {ε α : Type} {e : Except ε α} (h : e.toOption.isSome = true) : ∃ x, e = .ok x := by
  cases e with
  | error _ => cases h
  | ok y => exact ⟨y, rfl⟩

/-! ## Hypotheses of the obligations: control flow -/

theorem wit_GuardFalse : guardOf? (.exit off) = some off ∧ ¬ Acts st off := by unfold Acts; decide
theorem wit_TransferTaken : Acts st go ∧ st.rd.rp 0 ≠ 0 ∧ st.rd.rp 1 = 0 ∧ st.rd.rp 0 = 0xFFFF ∧ st.rd.rp 1 ≠ 0xFFFF
    ∧ (st.rd.rs 5).toNat % 4 = 0 := ⟨acts_go, by decide⟩
theorem wit_TransferMisaligned : Acts st go ∧ (st.rd.rs 7).toNat % 4 ≠ 0 := ⟨acts_go, by decide⟩
theorem wit_LoopEntered : Acts st go ∧ st.c.loops.length < 6 ∧ (st.rd.rs 3).toNat % 2 ^ 32 ≠ 0 ∧ (st.rd.rs 3).toNat % 2 ^ 32 + max 1 1 - 1 < 2 ^ 32
    ∧ st.bundleFrom 4096 0 st.c.npc = .ok (0x10000, 8) ∧ st.bundleFrom 4096 (2 - 1) st.c.npc = .ok (0x10008, 8)
    ∧ (st.rd.rs 0).toNat % 2 ^ 32 = 0 ∧ st.c.loops = [] := ⟨acts_go, by decide, by decide, by decide, rfl, rfl, by decide, rfl⟩
theorem wit_LoopRefused : (stc fun c => { c with loops := List.replicate 6 lv }).c.loops.length = 6
    ∧ 0 < (2 : BitVec 3).toNat ∧ 2 ^ 32 ≤ (st.rd.rs 11).toNat % 2 ^ 32 + (2 : BitVec 3).toNat - 1 := by decide
theorem wit_LoopIterates : let s := stc fun c => { c with loops := [lv] }; let e := stc fun c => { c with loops := [lv], pc := 0x10008 }
    let z := stc fun c => { c with loops := [{ lv with i := 1 }], pc := 0x10008 }
    s.c.win ≠ 0 ∧ s.c.win ≤ 1024 ∧ s.c.wrot < s.c.win ∧ s.c.pc ≠ lv.stop ∧ e.c.pc = lv.stop ∧ lv.i.toNat + 1 < lv.n.toNat
    ∧ z.c.pc = lv.stop ∧ (1 : Word).toNat + 1 = lv.n.toNat := by decide
theorem wit_LoopBreak : let s := stc fun c => { c with loops := [lv] }
    s.c.loops[(0 : BitVec 3).toNat]? = some lv ∧ s.fetchWord lv.stop = .ok 1 ∧ s.c.loops.length ≤ (1 : BitVec 3).toNat :=
  ⟨rfl, rfl, by decide⟩
theorem wit_SpawnMakesStrand : 4 * st.c.core + (1 : BitVec 2).toNat ≠ st.c.seq ∧ st.cur ≠ 8 ∧ st.busy 8 = false
    ∧ (st.rd.rs 5).toNat % 4 = 0 ∧ (16 : BitVec 6).toNat + (2 : BitVec 4).toNat ≤ 64 ∧ st.waitingFor st.cur = false := by decide
theorem wit_SpawnRefused : 4 * st.c.core + (0 : BitVec 2).toNat = st.c.seq
    ∧ { st with ctxs := [(8, strand)] }.busy 8 = true ∧ ¬ (4 * st.c.core + 1 = st.c.seq ∨ st.busy 8 = true)
    ∧ (st.rd.rs 7).toNat % 4 ≠ 0 ∧ (waits0 st).waitingFor (waits0 st).cur = true ∧ (waits0 st).busy 8 = false := by decide
theorem wit_LaunchIssues : st.rd.sBad 8 = false ∧ st.check st.c (st.rd.rs 8) 0 128 .read false = .ok 0x10100
    ∧ st.waitingFor st.cur = false ∧ st.readWaits (linesOf 0x10100 128) = false
    ∧ (∃ x, st.launchCheck st.c (st.rd.rs 8) false = .ok x) ∧ (∃ x, st.launchCheck st.c (st.rd.rs 8) true = .ok x)
    ∧ (∃ t, { st with poison := [(514, 1)] }.launchCheck st.c (st.rd.rs 8) true = .error t)
    ∧ (waits0 st).waitingFor (waits0 st).cur = true ∧ (waits0 st).check st.c (st.rd.rs 8) 0 128 .read false = .ok 0x10100
    ∧ (∃ t, st.check st.c (st.rd.rs 7) 0 128 .read false = .error t) := by
  refine ⟨rfl, ok_of (by decide), by decide, by decide, ok_ex ?_, ok_ex ?_, err_of ?_, by decide, ok_of (by decide), err_of ?_⟩ <;> decide
/-- The bytes of the launch record at 0x10100, with a count of cx. -/
def record (cx : Byte) : List Byte := st.bytesNow 0x10100 8 ++ cx :: st.bytesNow 0x10109 119
theorem wit_LaunchQueued : st.refuses 0 (recOf (record 1)) = false ∧ { st with ranks := [] }.refuses 0 (recOf (record 1)) = true
    ∧ (recOf (record 1)).cx * (recOf (record 1)).cy * (recOf (record 1)).cz ≠ 0
    ∧ st.refuses 0 (recOf (record 0)) = false ∧ (recOf (record 0)).cx * (recOf (record 0)).cy * (recOf (record 0)).cz = 0 := by decide
theorem wit_LaunchLand : ∀ l ∈ [(⟨7, 0x10200, 1, false, []⟩ : LiveLaunch), ⟨7, 0x10200, 2, false, []⟩, ⟨7, 0x10200, 1, false, [4]⟩],
    ({ st with ranks := [(0, { rk with lives := [l] })] }.rank 0).lives.find? (fun x => x.id = 7) = some l := by decide

/-! ## Groups, perch lines, waits -/

/-- The strand's rank with a group 1 on line 3 of the members given. -/
def grouped (ms : List Nat) : State := { st with ranks := [(0, { rk with groups := [(1, some ⟨ms, 3⟩)] })] }

theorem wit_GroupJoinLeave : let r := st.rank st.c.rank
    Store.get none r.groups 1 = none ∧ r.groups = [] ∧ Store.get none ((grouped [4]).rank 0).groups 1 = some ⟨[4], 3⟩
    ∧ (grouped [4]).c.party ∉ [4] ∧ Store.get none ((grouped [0]).rank 0).groups 1 = some ⟨[0], 3⟩ ∧ (grouped [0]).c.party ∈ [0]
    ∧ (⟨[0], 3⟩ : Group).line ≠ 5 ∧ Store.get none ((grouped [0]).rank 0).groups 2 = none
    ∧ (∃ e ∈ ((grouped [0]).rank 0).groups, ∃ x, e.2 = some x ∧ x.line = 3 ∧ e.1 ≠ 2) ∧ (grouped [0]).perchOf 3 = none := by
  refine ⟨rfl, rfl, rfl, by decide, rfl, by decide, by decide, rfl, ⟨(1, some ⟨[0], 3⟩), by decide, _, rfl, rfl, by decide⟩, rfl⟩
theorem wit_PerchArmed : st.rd.sBad 9 = false ∧ st.check st.c (st.rd.rs 9) 0 8 .read false = .ok 0x10300
    ∧ st.pieces st.c .read (st.rd.rs 9) (8 + 8 * min (st.numNow (0x10300 + 2) 2) 120) = .ok [(0x10300, 16)]
    ∧ st.hdrOk 0 (hdrOf (st.readPieces [(0x10300, 16)])) = true ∧ st.perchOf 3 = none
    ∧ { st with mem := Store.set 0 bytes0 0x10301 7 }.hdrOk 0 (hdrOf ({ st with mem := Store.set 0 bytes0 0x10301 7 }.readPieces [(0x10300, 16)])) = false
    ∧ Readable st [(0x10300, 8)] ∧ Readable st [(0x10300, 16)] :=
  ⟨rfl, ok_of (by decide), ok_of (by decide), by decide, rfl, by decide, readable_one (by decide) (by decide), readable_one (by decide) (by decide)⟩
theorem wit_PerchArmed_armed : (st.setPerch 3 (some ⟨0, st.rd.rs 9, 4, [], [], false, 0⟩)).perchOf 3 = some ⟨0, st.rd.rs 9, 4, [], [], false, 0⟩
    ∧ (0x10380 : DWord) ≠ st.rd.rs 9 ∧ (1 : Nat) ≠ st.c.rank := by decide
theorem wit_PerchWait : st.perchOf 3 = none ∧ Store.get none st.releases st.cur = none
    ∧ (st.setPerch 3 (some ⟨0, 0, 4, [⟨0, 0, false, none⟩], [], false, 0⟩)).perchOf 3 = some ⟨0, 0, 4, [⟨0, 0, false, none⟩], [], false, 0⟩
    ∧ (0 : BitVec 16).toNat = st.c.party ∧ (st.rank 0).holdsStep = false ∧ Store.get false (st.rank 0).overran 3 = false := by decide
theorem wit_GroupWait : Store.get none ((grouped [4]).rank (grouped [4]).c.rank).groups 1 = some ⟨[4], 3⟩ ∧ (grouped [4]).perchOf 3 = none
    ∧ (grouped [4]).waitingFor (grouped [4]).cur = false ∧ (grouped [4]).c.party ∉ [4] ∧ (grouped [0]).c.party = 0 ∧ ((grouped [0]).rank 0).holdsStep = false
    ∧ ((grouped [0]).rank 0).stepline ≠ (3 : BitVec 6).setWidth 8
    ∧ Store.get none ((grouped [0, 1]).rank 0).groups 1 = some ⟨[(grouped [0, 1]).c.party, 1], 3⟩ ∧ Store.get none st.releases st.cur = none
    ∧ Store.get false ((grouped [0]).rank 0).overran 3 = false := by decide
theorem wit_WaitsRetireOrHold : (st.rd.rs 0).toNat ≤ st.time.toNat ∧ st.time.toNat < (st.rd.rs 5).toNat ∧ st.rd.sBad 5 = false
    ∧ st.check st.c (st.rd.rs 5) 0 1 .read true = .ok 0x10000 ∧ st.check st.c (st.rd.rs 5) 0 8 .read true = .ok 0x10000
    ∧ (st.version (0x10000 / 128)).toNat ≠ (st.rd.rs 3).toNat % 2 ^ 48 ∧ (st.version (0x10000 / 128)).toNat = (st.rd.rs 0).toNat % 2 ^ 48
    ∧ (∃ t, st.check st.c (st.rd.rs 6) 0 1 .read true = .error t) ∧ (∃ t, st.check st.c (st.rd.rs 7) 0 8 .read true = .error t) :=
  ⟨by decide, by decide, rfl, ok_of (by decide), ok_of (by decide), by decide, by decide, err_of (by decide), err_of (by decide)⟩
theorem wit_WaitsRetireOrHold_reads : st.behind st.feq st.cur [0x10000 / 128] = false ∧ Readable st [(0x10000, 8)] :=
  ⟨by decide, readable_one (by decide) (by decide)⟩
theorem wit_WaitsRetireOrHold_counts : let obj := st.numNow 0x10000 8
    (st.rd.rs 0).toNat % 2 ^ 32 ≤ obj % 2 ^ 32 ∧ obj % 2 ^ 32 < (st.rd.rs 11).toNat % 2 ^ 32
    ∧ (st.rd.rs 0).toNat % 2 ^ 31 ≤ obj / 2 ^ 32 % 2 ^ 31 ∧ obj / 2 ^ 32 % 2 ^ 31 < (st.rd.rs 11).toNat % 2 ^ 31 := by decide
theorem wit_EngineClaim : let k := BitVec.ofNat 2 (st.c.seq % 4); let m := st.mownOf st.c.core st.c.rank
    st.c.rank < 131072 ∧ (st.rank 0).prot = false ∧ m.extractLsb' 0 2 = k ∧ m.getLsbD 2 = false ∧ (∀ j < 4, j ≠ st.c.seq % 4 → (st.sibling j).mops = [])
    ∧ { st with mown := [(0, 4)] }.mownOf 0 0 = 1#1 ++ k
    ∧ (let t := stc fun c => { c with seq := 1 }
       (t.mownOf 0 0).extractLsb' 0 2 ≠ BitVec.ofNat 2 (t.c.seq % 4) ∧ (t.mownOf 0 0).getLsbD 2 = false ∧ (∀ j < 4, j ≠ t.c.seq % 4 → (t.sibling j).mops = [])
       ∧ (let u := { t with mown := [(0, 4)] }; (u.mownOf 0 0).extractLsb' 0 2 ≠ 1 ∧ (u.mownOf 0 0).getLsbD 2 = true)
       ∧ (let u := { t with cur := 8, ctxs := [(0, { strand with mops := [⟨0, .mswap, 0, 0, 0, 0, false, 0, 0, 0, 0, [], [], false, [], 0, [], 0⟩] })] }
          ¬ ∀ j < 4, j ≠ u.c.seq % 4 → (u.sibling j).mops = [])) := by decide
theorem wit_FlagFence : st.rd.digitsDone = true ∧ st.rd.mops = [] ∧ st.rd.asticky.extractLsb' 0 5 &&& st.rd.asticky.extractLsb' 8 5 = 0
    ∧ (let t := stc fun c => { c with asticky := 0x0101 }; t.rd.asticky.extractLsb' 0 5 &&& t.rd.asticky.extractLsb' 8 5 ≠ 0)
    ∧ (let t := stc fun c => { c with mops := [⟨0, .mdrain 0 0 (.v 0) 1 0 false false, 0, 0, 0, 0, false, 0, 0, 0, 0, [], [], false, [], 0, [], 0⟩] }
       ¬ ∀ m ∈ t.rd.mops, ¬ ∃ f k d r c x y, m.instr = .mdrain f k d r c x y) := by
  refine ⟨by decide, rfl, by decide, by decide, fun h => ?_⟩
  exact h _ (List.mem_singleton_self _) ⟨0, 0, .v 0, 1, 0, false, false, rfl⟩
/-- An access of the strand to the launch record's line still waits. -/
theorem wit_LaunchIssues_waits : let s : State := { st with feq := [7], pend := [(7, some (.store 0 [514] true [(0x10100, [1])] none))] }
    s.readWaits (linesOf 0x10100 128) = true ∧ (waits0 st).waitsOf 0 ≠ [] ∧ st.waitsOf st.cur = [] ∧ (waits0 st).readWaits (linesOf 0x10100 128) = false := by decide

/-! ## Traps and what ends a strand -/

theorem quiet_st (lvl : Bool) : Quiet st lvl := by cases lvl <;> exact ⟨rfl, rfl, by decide, by decide, by decide⟩
theorem quiet_sv : Quiet sv true := ⟨rfl, rfl, by decide, by decide, by decide⟩
theorem wit_TrapTaken : Takes st false [(0x10000, 13696)] ∧ Takes sv true [(0x10000, 13696)] ∧ Takes st true [(0x10000, 13696)]
    ∧ (supCause 0x01 || st.c.sv) = false ∧ (mkTrap 0x01 0xFF 0 0).kind = 0 :=
  ⟨⟨quiet_st false, by decide, ok_of (by decide)⟩, ⟨quiet_sv, by decide, ok_of (by decide)⟩, ⟨quiet_st true, by decide, ok_of (by decide)⟩,
    by decide, by decide⟩
theorem wit_TrapEntryEvent : let s := { st.fresh with c := { st.c with npc := st.c.pc } }
    Takes s (false || st.c.sv) [(0x10000, 13696)] ∧ (mkTrap 0x01 0xFF 0 0).kind ≠ 1
    ∧ ¬ Quiet (stc fun c => { c with q := [(0, [⟨5, [], 0, 0, [], 1⟩])] }) false :=
  ⟨⟨quiet_st false, by decide, ok_of (by decide)⟩, by decide, fun h => absurd h.1 (by decide)⟩
theorem wit_PadsPassed : (∃ t, st.check st.c 0x900000 0 4 .fetch false = .error t) ∧ st.check st.c 0x10000 0 4 .fetch false = .ok 0x10000
    ∧ st.numNow 0x10000 4 ≠ 0 ∧ st.check st.c 0x100C4 0 4 .fetch false = .ok 0x100C4 ∧ st.numNow 0x100C4 4 = 0 ∧ Memory.wf st.mem = true
    ∧ (0x100C4 : DWord).toNat % 64 = 0x100C4 % 64 ∧ 0x100C4 / 64 * 64 + 64 < 0x100C4 / 65536 * 65536 + 65536
    ∧ st.num (0x100C4 / 64 * 64 + 64) 4 ≠ 0 := by
  refine ⟨err_of ?_, ok_of ?_, ?_, ok_of ?_, ?_, ?_, ?_, ?_, ?_⟩ <;> decide
theorem wit_TrapFrameLayout : strand.loops.length ≤ 6 := by decide
/-- A strand in its rank-level handler, and one that stands in both. -/
def inHandler : State := stc fun c => { c with tstat := 1 }
def inBoth : State := stc fun c => { c with tstat := 3 }
theorem wit_DoubleTrap : (mkTrap 0x01 0xFF 0 0).kind = 0 ∧ supCause 0x01 = false ∧ inHandler.c.sv = false ∧ Quiet inHandler false
    ∧ (settled inHandler).tstat.getLsbD 0 = true ∧ (settled inHandler).tstat.getLsbD 1 = false
    ∧ (held inHandler).pieces { settled inHandler with sv := true } .write (frameAt (settled inHandler) true) 13696 = .ok [(0x10000, 13696)]
    ∧ Quiet inBoth false ∧ (settled inBoth).tstat.getLsbD 0 = true ∧ (settled inBoth).tstat.getLsbD 1 = true :=
  ⟨by decide, by decide, rfl, ⟨rfl, rfl, by decide, by decide, by decide⟩, by decide, by decide, ok_of (by decide),
    ⟨rfl, rfl, by decide, by decide, by decide⟩, by decide, by decide⟩

/-- Memory that holds a frame of the rank level, WIN 64, with nothing in flight; byte 0x0B may name the other level, byte 0x80 a depth. -/
def framed (lvl depth : Byte) : State :=
  { inHandler with mem := Store.setRange 0 (Store.setRange 0 [] 0x1000B [lvl]) 0x10080 [depth, 0, 0, 0, 0, 0, 0x40] }
theorem wit_ReturnFromTrap : let f := (framed 0 0).readPieces [(0x10000, 13696)]
    st.rd.tstat &&& inBit false = 0 ∧ (framed 0 0).rd.tstat &&& inBit false ≠ 0
    ∧ (framed 0 0).pieces (framed 0 0).rd .read (frameAt (framed 0 0).rd false) 13696 = .ok [(0x10000, 13696)]
    ∧ field f 0x0B 1 ≤ false.toNat ∧ false.toNat < field ((framed 1 0).readPieces [(0x10000, 13696)]) 0x0B 1
    ∧ frameOk 64 ((framed 0 7).readPieces [(0x10000, 13696)]) = false
    ∧ (framed 0 0).loopsOf ((f.drop 0x20).take 96) [] (field f 0x80 1) = .ok [] ∧ Readable (framed 0 0) [(0x10000, 13696)] :=
  ⟨by decide, by decide, ok_of (by decide), by decide, by decide, by decide, ok_of (by decide), readable_plain (by decide) rfl⟩
theorem wit_ReturnFromTrap_good : frameOk 64 ((framed 0 0).readPieces [(0x10000, 13696)]) = true := by decide

/-- The same frame with one valid port whose first lane has a digit sum of 1 and RES 0. -/
def badRes : State := { framed 0 0 with mem := Store.setRange 0 (Store.setRange 0 (framed 0 0).mem 0x11500 [1]) 0x11520 ([1] ++ List.replicate 11 0 ++ [32, 0]) }
theorem wit_ReturnFromTrap_res : ResAgrees ((framed 0 0).readPieces [(0x10000, 13696)])
    ∧ ¬ ResAgrees (badRes.readPieces [(0x10000, 13696)]) := by
  constructor
  · intro k l hk _ h
    revert h
    have : ∀ k < 8, ¬ field ((framed 0 0).readPieces [(0x10000, 13696)]) (0x1500 + 1040 * k) 1 % 2 = 1 := by decide
    exact fun h => absurd h (this k hk)
  · intro h
    exact absurd (h 0 0 (by decide) (by decide) (by decide) (by decide)) (by decide)
theorem wit_StrandEnds : st.c.mops = [] ∧ sv.rd.sv = true ∧ st.rd.sv = false ∧ (st.seqOf 0).active = some (st.cur % 8)
    ∧ st.c.resident = false ∧ (st.mownOf 0 0).extractLsb' 0 2 = BitVec.ofNat 2 (st.c.seq % 4) := by decide
theorem wit_DebugStop : ({ st with seqs := [(0, { Seq.reset with active := some 0, attached := true })] }.seqOf 0).attached = true
    ∧ st.secure = false ∧ (st.seqOf 0).attached = false ∧ (st.seqOf 0).active = some 0 := by decide

/-- A supervisor whose save area at s13 names the image of a strand of rank 1, which is resident in its cluster. -/
def swapper (good : Bool) : State := { sv with
  tlb1 := [(0, [⟨4, 0, 0x200000, 0, 0x7⟩])]
  images := if good then [(5, { strand with rank := 1, win0 := 64 })] else []
  ranks := [(0, rk), (1, { rk with slot := 1 })] }
theorem wit_ContextSwapped : let s := swapper true; let x := Store.get Ctx.reset s.images (s.num (0x11000 + 8) 8)
    st.rd.sv = false ∧ s.rd.sv = true ∧ s.rd.sBad 13 = false ∧ s.check s.c (s.rd.rs 13) 0 4096 .rw false = .ok 0x11000
    ∧ s.pieces s.c .rw (s.rd.rs 13) 262144 = .ok [(0x11000, 0xF000), (0x20000, 0x10000), (0x30000, 0x10000), (0x40000, 0x10000), (0x50000, 0x1000)]
    ∧ s.num 0x11000 4 % 32 = 1 ∧ s.num 0x11004 4 ≤ 262136 ∧ x.live = true ∧ x.resident = false ∧ (s.rank x.rank).placed = true
    ∧ s.c.cluster ∈ (s.rank x.rank).domain ∧ s.secureCluster (s.rank x.rank).dom.toNat = false
    ∧ (s.ctx (8 * s.c.seq + (s.rank x.rank).slot)).live = false
    ∧ ({ s with ctxs := [(1, strand)] }.ctx (8 * s.c.seq + (s.rank x.rank).slot)).live = true ∧ s.c.inFlight = false ∧ s.c.mops = [] ∧ s.answersDue s.cur = false
    ∧ s.waitsOf s.cur = [] ∧ s.wq = [] ∧ s.host.cached = [] ∧ s.host.wbOut = [] ∧ Store.get none s.host.wbWait s.cur = none ∧ Readable s [(0x11000, 16)]
    ∧ (Store.get Ctx.reset (swapper false).images ((swapper false).num 0x11008 8)).live = false ∧ s.heldLines [0x11000 / 128] = [] := by
  refine ⟨rfl, rfl, rfl, ok_of ?_, ok_of ?_, ?_, ?_, ?_, ?_, ?_, ?_, ?_, ?_, ?_, rfl, rfl, ?_, ?_, rfl, rfl, rfl, rfl,
    readable_one (by decide) (by decide), ?_, ?_⟩ <;> decide

/-- A supervisor with the timetable record at s10; its domain may be in timetable mode with a table already. -/
def tabled (d : Dom) : State := { sv with sched := { Sched.reset with doms := [(0, d)] } }
theorem wit_TimetableLoaded : let s := tabled { Dom.reset with mode := true }; let two := [2, 0, 0, 0, 64, 0, 64, 0, 64, 0, 64, 0, 0, 0, 0, 0, 0, 0, 1, 0, 1, 0, 1]
    s.rd.sv = true ∧ s.isDom 0 = true ∧ s.secureCluster 0 = false ∧ s.rd.sBad 10 = false
    ∧ s.check s.c (s.rd.rs 10) 0 16 .read false = .ok 0x10400 ∧ s.pieces s.c .read (s.rd.rs 10) 16 = .ok [(0x10400, 16)]
    ∧ s.pieces s.c .read (s.rd.rs 10) (16 + 4 * min 16 ((s.readPieces [(0x10400, 16)]).headD 0).toNat) = .ok [(0x10400, 20)]
    ∧ (tabled Dom.reset).sched.domSel.toNat = 0 ∧ ((tabled Dom.reset).domOf 0).mode = false ∧ (s.domOf 0).mode = true
    ∧ (ttOf (s.readPieces [(0x10400, 20)] ++ List.replicate 64 0)).2 = true ∧ (ttOf (List.replicate 84 0)).2 = false
    ∧ (ttOf (s.readPieces [(0x10400, 20)] ++ List.replicate 64 0)).1.short = none ∧ (s.domOf 0).tt = none
    ∧ ((ttOf (two ++ List.replicate 64 0)).2 = true ∧ (ttOf (two ++ List.replicate 64 0)).1.short ≠ none)
    ∧ ((tabled { Dom.reset with mode := true, tt := some ⟨[], [], [], 0⟩ }).domOf 0).tt = some ⟨[], [], [], 0⟩
    ∧ Readable s [(0x10400, 20)] := by
  refine ⟨rfl, ?_, ?_, rfl, ok_of ?_, ok_of ?_, ok_of ?_, ?_, ?_, ?_, ?_, ?_, ?_, ?_, ?_, ?_, readable_plain ?_ rfl⟩ <;> decide

/-! ## Control registers -/

theorem wit_RegisterRead : (0x000, st.rd.fpctl.setWidth 64) ∈ registerReads st ∧ rankReads 0x000 = true ∧ listed 0x202 = true ∧ sv.rd.sv = true
    ∧ sv.names 0x202 0 = none ∧ (let s := { sv with ranks := [(1, { rk with dom := 1 })], sched := { Sched.reset with domSel := 1 }
                                                    world := { Worlds.reset with clusters := 2 } }
       listed 0x601 = true ∧ s.names 0x601 0 ≠ none ∧ s.rd.sv = true) := by decide
theorem wit_RegisterWrite : (0x001, 9) ∈ plainWidths ∧ rankWrites 0x001 = true ∧ sv.names 0x001 0 = none ∧ sv.names 0x500 0 = none
    ∧ (0x200 : Nat) ∉ plainWidths.map (·.1) := by decide
theorem wit_RegisterRefused : listed 0x007 = false ∧ listed 0x200 = true ∧ st.rd.sv = false ∧ rankReads 0x200 = false ∧ rankWrites 0x200 = false
    ∧ readOnly 0x102 = true ∧ sv.rd.sv = true ∧ readOnly 0x300 = false ∧ sv.names 0x300 (sv.rd.rs 3) = some (0, 0) := by decide
theorem wit_WindowResized : (st.domOf (st.rank st.c.rank).dom.toNat).mode = false
    ∧ (let win := ((0x400000 : DWord).toNat / 2 ^ 16) % 2 ^ 11; 64 ≤ win ∧ win ≤ 1024 ∧ win % 64 = 0 ∧ win ≤ st.c.win0)
    ∧ ((0x410000 : DWord).toNat / 2 ^ 16) % 2 ^ 11 % 64 ≠ 0 ∧ (st.domOf (st.rank st.c.rank).dom.toNat).tt = none
    ∧ (let t : Timetable := ⟨[], [64, 0, 0, 0], [], 0⟩; (tabled { Dom.reset with tt := some t }).c.resident = false
      ∧ t.cwin.getD ((tabled { Dom.reset with tt := some t }).rank 0).slot 1024 < 128) := by decide
theorem wit_EngineGiven : st.c.rank < 131072 ∧ (¬ ∃ j, j < 4 ∧ j ≠ ((0 : DWord).extractLsb' 0 2).toNat ∧ (st.sibling j).mops ≠ [])
    ∧ (let s := stc fun c => { c with mops := [⟨0, .mswap, 0, 0, 0, 0, false, 0, 0, 0, 0, [], [], false, [], 0, [], 0⟩] }
       ∃ j, j < 4 ∧ j ≠ ((1 : DWord).extractLsb' 0 2).toNat ∧ (s.sibling j).mops ≠ []) := by decide

/-! ## Memory -/

/-- The machine with the page's permissions and place changed. -/
def paged (perm : BitVec 4) (pa : Nat) : State := { st with tlb1 := [(0, [⟨0, 0x10000, 0x10000, pa, perm⟩])] }
def secured : State := { st with world := { Worlds.reset with mapBase := 0x20000 }, mem := Store.set 0 bytes0 0x20000 1 }
theorem wit_AddressChecks : (0x10001 : DWord).toNat % 4 ≠ 0 ∧ 2 ^ 52 ≤ (0x10000000000000 : DWord).toNat ∧ (0x10000000000000 : DWord).toNat % 4 = 0
    ∧ inAperture 0xFF00001000000 = true ∧ (st.rank 0).clusters ≤ 0xFF00001000000 / 2 ^ 24 % 32
    ∧ inAperture 0xFF0001F000000 = true ∧ 0xFF0001F000000 / 2 ^ 24 % 32 = 31 ∧ 0xFF0001F000000 % 2 ^ 24 < (st.rank 0).csMib * 2 ^ 20
    ∧ inAperture 0x10000 = false ∧ (∃ l, st.translate strand 0x50000 = .error l) ∧ (∃ e, st.translate strand 0x10000 = .ok e)
    ∧ missing 0x5 false .write ≠ 0 ∧ missing 0x7 false .read = 0 ∧ secured.worldOk (secured.secureCluster 0) 0x10000 false = false
    ∧ st.worldOk (st.secureCluster 0) 0x10000 false = true ∧ isHost (2 ^ 51) = true ∧ isHost 0x10000 = false := by
  have walks : (∃ l, st.translate strand 0x50000 = .error l) ∧ ∃ e, st.translate strand 0x10000 = .ok e :=
    ⟨err_of (by decide), ok_ex (by decide)⟩
  and_intros <;> first | exact walks.1 | exact walks.2 | decide

/-- All sixteen lanes, and the address of each one's word from a scalar. -/
def allLanes : LaneSel := ⟨0, false⟩
def at4 (base : BitVec 6) : List (Nat × DWord) := (List.range 16).map fun l => (l, st.ea ⟨base, 0⟩ + BitVec.ofNat 64 (4 * l))
theorem wit_LoadsEnterQueue : st.fullQueue 0 = false ∧ st.rd.sBad 5 = false
    ∧ (List.range 16).filter (fun l => (st.rd.rp allLanes.pred).getLsbD l != allLanes.inv) = List.range 16
    ∧ st.check st.c (st.ea ⟨5, 0⟩) 0 (2 ^ (2 : BitVec 2).toNat) .read false = .ok 0x10000 ∧ (∃ ls, st.locate 4 .read false (at4 5) = .ok ls)
    ∧ (∃ ls, st.locate 4 .read false ((at4 0).filter fun e => (st.check st.c e.2 e.1 4 .read false).isOk) = .ok ls)
    ∧ st.check st.c (st.ea ⟨5, 0⟩) 0 64 .read true = .ok 0x10000 ∧ inAperture (st.ea ⟨6, 0⟩).toNat = true
    ∧ (∃ loc, st.check st.c (st.ea ⟨6, 0⟩) 0 64 .read false = .ok loc) :=
  ⟨rfl, rfl, by decide, ok_of (by decide), ok_ex (by decide), ok_ex (by decide), ok_of (by decide), by decide, ok_ex (by decide)⟩
theorem wit_LoadsEnterQueue_shaped : (st.rd.rs 15).toNat % 2 ^ 16 = 0 ∧ st.rd.sBad 15 = false ∧ st.rd.sBad 16 = false
    ∧ (∃ ls, st.locate 4 .read false ((List.range 16).map fun (l : Nat) => (l, st.ea ⟨14, 0⟩ + BitVec.ofInt 64 (4 * (0 * 16 + (0 + (l : Int)))))) = .ok ls)
    ∧ (∃ xs bad, st.rd.source 9 .lane = .ok xs bad ∧ (∀ x ∈ bad, x = 0)
      ∧ ∃ ls, st.locate 4 .read false ((List.range 16).map fun l => (l, st.rd.rs 5 + (gatherIndex ⟨2, false, 2⟩ (xs.getD l 0) <<< 2))) = .ok ls) :=
  ⟨by decide, rfl, rfl, ok_ex (by decide), ⟨_, _, rfl, by decide, ok_ex (by decide)⟩⟩

/-- The strand with entry 9 of queue 0 in flight. -/
def loading (l : Load) : State :=
  { stc fun c => { c with q := [(0, [⟨9, List.replicate 16 0, 0, 0, [], 1⟩])] } with loads := [(9, some l)] }
def scalarLoad (loc : Nat) : Load := ⟨0, 0, List.replicate 16 none, some (loc, 4, true), false, none, none⟩
def vectorLoad (w : Option (BitVec 3 × Nat)) (fe : Option Nat) : Load := ⟨0, 0, (List.range 16).map fun i => some (0x10000 + 4 * i), none, false, w, fe⟩
theorem wit_LoadLands : Store.get none (loading (scalarLoad 0x10000)).loads 9 = some (scalarLoad 0x10000)
    ∧ (loading (scalarLoad (2 ^ 52))).ready 9 = false ∧ (loading (scalarLoad 0x10000)).ready 9 = true
    ∧ (loading (vectorLoad (some (3, 512)) none)).ready 9 = true
    ∧ (∀ i loc, (vectorLoad (some (3, 512)) none).lanes.getD i none = some loc → st.marked loc = false)
    ∧ (∃ x ∈ ((loading (vectorLoad (some (3, 512)) none)).ctx 0).queue 0, x.ref = 9)
    ∧ (loading (vectorLoad none (some 512))).ready 9 = true ∧ (∀ e ∈ st.ranks, ∀ x ∈ e.2.lives, 9 ∉ x.waits) ∧ 0 ∉ (loading (scalarLoad 0x10000)).feq :=
  ⟨by decide, by decide, by decide, by decide, fun _ _ _ => by
      show (Store.get (0 : BitVec 16) [] _).getLsbD _ = false; simp [Store.get], ⟨_, List.mem_singleton_self _, rfl⟩, by decide, by decide, by decide⟩
theorem wit_StoresWrite : st.rd.sBad 5 = false ∧ st.rd.dataBad 3 8 = false ∧ st.check st.c (st.ea ⟨5, 0⟩) 0 (2 ^ (3 : BitVec 2).toNat) .write false = .ok 0x10000
    ∧ Clear st [lineOf 0x10000] ∧ (∃ ws bw, st.rd.source 9 (.v 3) = .ok ws bw ∧ ∀ l < 16, bw.getD l 0 = 0)
    ∧ (∃ xs bx, st.rd.source 9 .lane = .ok xs bx ∧ (∀ x ∈ bx, x = 0))
    ∧ (∃ ls, st.locate 4 .write false (at4 5) = .ok ls ∧ ls ≠ [] ∧ Clear st (linesOfLocs (ls.map (·.2))))
    ∧ st.locate 4 .write false [] = .ok [] ∧ (List.range 16).filter (fun l => (st.rd.rp 0).getLsbD l != true) = [] :=
  ⟨rfl, rfl, ok_of (by decide), ⟨by decide, by decide⟩, ⟨_, _, rfl, by decide⟩, ⟨_, _, rfl, by decide⟩,
    ⟨_, rfl, by decide, by decide, by decide⟩, rfl, by decide⟩
theorem wit_StoresWrite_scatter : ∃ xs bx, st.rd.source 9 (.v 3) = .ok xs bx ∧ (∀ x ∈ bx, x = 0) ∧
    ∃ ls, st.locate 4 .write false ((List.range 16).map fun l => (l, st.rd.rs 5 + (gatherIndex ⟨2, false, 2⟩ (xs.getD l 0) <<< 2))) = .ok ls
      ∧ Clear st (linesOfLocs (ls.map (·.2))) := ⟨_, _, rfl, by decide, _, rfl, by decide, by decide⟩
theorem wit_CountedStore : (st.rd.rs (13 + 1)).toNat % 2 ^ 48 ≠ 0 ∧ (st.rd.rs (22 + 1)).toNat % 2 ^ 48 = 0 ∧ st.rd.sBad 22 = false
    ∧ (∃ ls, st.locate 4 .write false (at4 22) = .ok ls ∧ ls ≠ [] ∧ Clear st (linesOfLocs (ls.map (·.2)))) :=
  ⟨by decide, by decide, rfl, _, rfl, by decide, by decide, by decide⟩
theorem wit_PairedStore : st.rd.win ≤ (61 : BitVec 8).toNat + 3 ∧ (60 : BitVec 8).toNat + 3 < st.rd.win
    ∧ (∀ r c, r < 8 → c < 8 → st.rd.rvBad ((60 + r / 2 + st.rd.wrot) % st.rd.win) (8 * (r % 2) + c) = 0)
    ∧ st.check st.c (st.ea ⟨21, 0⟩) 0 (64 * pairWidth 3) .write true = .ok 0x10200
    ∧ st.check st.c (st.rd.rs 22) 0 (64 * pairWidth 3) .write true = .ok 0x10280
    ∧ Clear st (linesOf 0x10200 64 ++ linesOf 0x10280 64).eraseDups := 
  ⟨by decide, by decide, fun _ _ _ _ => rfl, ok_of (by decide), ok_of (by decide), by decide, by decide⟩
theorem wit_FullEmpty : inAperture (st.ea ⟨6, 0⟩).toNat = true ∧ st.check st.c (st.ea ⟨6, 0⟩) 0 64 .write false = .ok (2 ^ 52)
    ∧ isCs (128 * lineOf (2 ^ 52)) = true ∧ Clear st [lineOf (2 ^ 52)] ∧ st.isFull (lineOf (2 ^ 52)) = false
    ∧ { st with full := [(2 ^ 45, true)] }.isFull (lineOf (2 ^ 52)) = true ∧ st.waitingFor st.cur = false ∧ (waits0 st).waitingFor 0 = true
    ∧ st.behind st.feq st.cur [lineOf (2 ^ 52)] = false ∧ (let s := { waits0 st with fenced := [(7, 0)] }; s.behind s.feq s.cur [lineOf (2 ^ 52)] = true)
    ∧ inAperture (st.ea ⟨6, 0⟩ &&& ~~~0x7F).toNat = true ∧ st.check st.c (st.ea ⟨6, 0⟩ &&& ~~~0x7F) 0 1 .write false = .ok (2 ^ 52)
    ∧ inAperture (st.ea ⟨5, 0⟩ &&& ~~~0x7F).toNat = false
    ∧ (let s := { st with feq := [9], pend := [(9, some (.store 0 [2 ^ 45] true [(2 ^ 52, [1])] none))] }
       9 ∈ s.feq ∧ s.ready 9 = true ∧ ∀ c ∈ s.copies, c.id ≠ 9) :=
  ⟨by decide, ok_of (by decide), by decide, ⟨by decide, by decide⟩, by decide, by decide, by decide, by decide, by decide, by decide, by decide, ok_of (by decide),
    by decide, by decide⟩
theorem wit_VersionedWrites : st.wq = [] ∧ st.feq = [] ∧ st.heldLines [lineOf 0x10000] = [] ∧ st.rd.sBad 5 = false
    ∧ st.check st.c (st.rd.rs 5) 0 64 .write true = .ok 0x10000 ∧ (∀ k < 8, ¬ ((0x01 : BitVec 8).getLsbD k = true ∧ ∃ x, Store.get none st.rd.w k = some x ∧ x.line = 512))
    ∧ (let s := stc fun c => { c with w := [(0, some ⟨512, 0⟩)] }
       (0x01 : BitVec 8).getLsbD 0 = true ∧ Store.get none s.rd.w 0 = some ⟨512, 0⟩ ∧ s.version 512 = 0 ∧ lineOf 0x10000 = 512)
    ∧ (let s := stc fun c => { c with w := [(0, some ⟨512, 1⟩)] }; Store.get none s.rd.w 0 = some ⟨512, 1⟩ ∧ s.version 512 ≠ 1) := by
  refine ⟨rfl, rfl, by decide, rfl, ok_of (by decide), ?_, by decide, by decide⟩
  rintro k - ⟨-, x, h, -⟩
  cases h
theorem wit_AtomicIssues : st.check st.c (st.ea ⟨5, 0⟩) 0 8 .rw false = .ok 0x10000 ∧ st.marked 0x10000 = false
    ∧ { st with poison := [(512, 1)] }.marked 0x10000 = true ∧ st.rd.dataBad 3 8 = false ∧ st.rd.dataBad 4 8 = false
    ∧ st.heldLines [lineOf 0x10000] = [] :=
  ⟨ok_of (by decide), by decide, by decide, rfl, rfl, by decide⟩
/-- A rank whose root table stands at 0x40000, those of the next levels at 0x50000, 0x51000 and 0x52000, with one entry in each; no TLB
entry. -/
def tables (e0 e1 e2 e3 : Nat) : State := { st with
  ranks := [(0, { rk with ptRoot := 0x40000 })], tlb1 := []
  mem := Store.setRange 0 (Store.setRange 0 (Store.setRange 0 (Store.setRange 0 [] 0x40000 (le 8 e0)) 0x50000 (le 8 e1)) 0x51000 (le 8 e2)) 0x52008 (le 8 e3) }
/-- Does the walk of VA 0x1ABCD fail at a level, and what does it map? -/
def failsAt (s : State) (l : BitVec 8) : Bool := match s.translate strand 0x1ABCD with
  | .error x => x = l
  | .ok _ => false
theorem wit_PageWalks : (tables 0x50001 0x51001 0x52001 0x2001F).translate strand 0x1ABCD = .ok ⟨0, 0x10000, 0x10000, 0x20000, 7⟩
    ∧ (tables 0x50001 0x51001 0x400007 0).translate strand 0x1ABCD = .ok ⟨0, 0, 0x200000, 0x400000, 1⟩
    ∧ (tables 0x50001 0x40000007 0 0).translate strand 0x1ABCD = .ok ⟨0, 0, 0x40000000, 0x40000000, 1⟩ := by
  and_intros <;> exact ok_of (by decide)
theorem wit_PageWalks_fail : failsAt (tables 0 0 0 0) 0 = true ∧ failsAt (tables 0x50003 0x51001 0x52001 0x2001F) 0 = true
    ∧ failsAt (tables 0x50001 0x51000 0 0) 1 = true ∧ failsAt (tables 0x50001 0x51041 0 0) 1 = true ∧ failsAt (tables 0x50001 0x10000007 0 0) 1 = true
    ∧ failsAt (tables 0x50001 0x51001 0x10000000052001 0) 2 = true ∧ failsAt (tables 0x50001 0x51001 (2 ^ 39 + 7) 0) 2 = true
    ∧ failsAt (tables 0x50001 0x51001 0x52001 0x20001) 3 = true ∧ failsAt (tables 0x50001 0x51001 0x52001 0) 3 = true := by decide
theorem wit_PageWalks_hit : (Store.get [] st.tlb1 0).find? (fun e => e.tag = 0 && decide (e.va ≤ 0x1ABCD ∧ 0x1ABCD < e.va + e.size)) = some ⟨0, 0x10000, 0x10000, 0x10000, 0x7⟩
    ∧ st.translate strand 0x1ABCD = .ok ⟨0, 0x10000, 0x10000, 0x10000, 0x7⟩ ∧ 0x1ABCD < 2 ^ 52 := ⟨by decide, ok_of (by decide), by decide⟩
theorem wit_MemoryAnswers : let may (s : State) : Prop := s.ready 9 = true ∧ s.heldLines (s.writeLines 9) = []
    st.wq = [] ∧ (pending (.amo 0 .add true (2 ^ 52) 1 2 3)).ready 9 = false
    ∧ may (pending (.amo 0 .add true 0x10000 1 2 (3 : BitVec 6).toNat)) ∧ may (pending (.amo 0 .cas false 0x10000 1 2 (3 : BitVec 6).toNat))
    ∧ may (pending (.casv 0 (3 : BitVec 6).toNat 0x10000 0 [1])) ∧ may (pending (.answerS 0 3 7)) ∧ may (pending (.answerB 0 3 true))
    ∧ Store.get none st.loads 9 = none
    ∧ (let s := hostHolds 512 (pending (.amo 0 .add true 0x10000 1 2 3)); s.ready 9 = true ∧ s.heldLines (s.writeLines 9) ≠ []) := by decide
theorem wit_MemoryAnswers_free (p : Pending) : Unawaited (pending p) 9 := by
  show ∀ e ∈ [(0, rk)], ∀ x ∈ e.2.lives, 9 ∉ x.waits
  decide
theorem wit_ReductionsOpenEntries : let ls4 := (List.range 16).map fun l => (l, 0x10000 + 4 * l); let ls2 := (List.range 16).map fun l => (l, 0x10000 + 2 * l)
    st.wq = [] ∧ (∀ l ∈ List.range 16, inAperture (st.ea ⟨5, 0⟩ + BitVec.ofNat 64 (4 * l)).toNat = false)
    ∧ st.locate 4 .write false (at4 5) = .ok ls4 ∧ linesOfLocs (ls4.map (·.2)) = [512] ∧ st.heldLines [512] = []
    ∧ st.locate 2 .write false ((List.range 16).map fun l => (l, st.ea ⟨5, 0⟩ + BitVec.ofNat 64 (2 * l))) = .ok ls2
    ∧ linesOfLocs (ls2.map (·.2)) = [512] ∧ inAperture (st.ea ⟨6, 0⟩ + BitVec.ofNat 64 (4 * 0)).toNat = true
    ∧ st.behind st.feq st.cur [512] = false :=
  ⟨rfl, by decide, ok_of (by decide), by decide, by decide, ok_of (by decide), by decide, by decide, by decide⟩
theorem wit_BlockReductions : (st.ea ⟨5, 0⟩).toNat % 16 = 0 ∧ inAperture (st.ea ⟨5, 0⟩).toNat = false
    ∧ inAperture (st.ea ⟨5, 0⟩ + BitVec.ofNat 64 (272 - 1)).toNat = false
    ∧ st.pieces st.c .write (st.ea ⟨5, 0⟩) 272 = .ok [(0x10000, 272)] ∧ st.pieces st.c .write (st.ea ⟨5, 0⟩) 144 = .ok [(0x10000, 144)]
    ∧ Clear st (linesOf 0x10000 272) ∧ Clear st (linesOf 0x10000 144) :=
  ⟨by decide, by decide, by decide, ok_of (by decide), ok_of (by decide), ⟨by decide, by decide⟩, by decide, by decide⟩
theorem wit_ReductionApplied : (0 : Nat) ∈ [0, 1, 2, 5, 6] ∧ (6 : Nat) ∈ [0, 1, 2, 5, 6] ∧ isDev (128 * 512) = true
    ∧ (∀ z ∈ st.wq, 512 ∉ z.lines) := by decide
/-- A host side with a dirty line, and one that has sent it and waits for its write-back. -/
def dirtyHost : HostIf := { HostIf.reset with cached := [(2 ^ 44, true)] }
def sentHost (l : List Nat) : HostIf := { HostIf.reset with wbWait := [(0, some l)] }
theorem drained_st : Drained st := .inr (by decide)
theorem drained_sv : Drained sv := .inr (by decide)
theorem wit_FencesAndDrains : st.wq = [] ∧ st.feq = [] ∧ st.waitingFor st.cur = false ∧ 4 ≤ (4 : BitVec 3).toNat
    ∧ (waits0 st).waitingFor 0 = true ∧ Drained (hosted (sentHost []))
    ∧ Store.get none (hosted dirtyHost).host.wbWait 0 = none ∧ (hosted dirtyHost).flushAll.host.cached.filter (·.2) ≠ []
    ∧ Store.get false (hosted dirtyHost).flushAll.host.cached (2 ^ 44) = true
    ∧ Store.get none (hosted (sentHost [2 ^ 44])).host.wbWait 0 = some (2 ^ 44 :: []) 
    ∧ (∃ e ∈ (hosted (sentHost [2 ^ 44])).host.wbWait, ∃ ls, e.2 = some ls ∧ 2 ^ 44 ∈ ls) :=
  ⟨rfl, rfl, by decide, by decide, by decide, .inl rfl, rfl, by decide, by decide, rfl, _, List.mem_singleton_self _, _, rfl, by decide⟩
theorem wit_ArrivalsIssue : st.behind st.feq st.cur [] = false ∧ st.waitingFor st.cur = false ∧ st.wq = [] ∧ st.feq = []
    ∧ (waits0 st).waitingFor 0 = true ∧ { waits0 st with fenced := [(7, 0)] }.behind [7] 0 [] = true := by decide
theorem wit_CountedWrites : let p : Perch := ⟨0, 0, 4, [⟨0, 8, false, none⟩, ⟨1, 4, false, none⟩], [], false, 0⟩; let s := st.setPerch 3 (some p)
    st.perchOf 3 = none ∧ s.perchOf 3 = some p ∧ p.rank ≠ 1 ∧ (∀ e ∈ p.dests, e.party ≠ 2) ∧ p.rank = 0 ∧ p.held = false
    ∧ p.dests.find? (fun e => e.party = 0) = some ⟨0, 8, false, none⟩ ∧ (∃ e ∈ p.dests, e.party ≠ 0 ∧ e.left ≠ 0) ∧ 0 < 8 ∧ 8 ≤ 8 ∧ 8 < 9 := by decide
theorem wit_QueueAdvance : let e : QEntry := ⟨0, [], 0, 0, [], 1⟩; let f : QEntry := ⟨0, [], 0, 0, [], 2⟩
    (stc fun c => { c with q := [(0, [e])] }).rd.queue 0 = [e] ∧ e.dist ≤ 1 ∧ (stc fun c => { c with q := [(0, [f])] }).rd.queue 0 = [f] ∧ 1 < f.dist
    ∧ st.rd.queue 0 = [] := by decide
theorem wit_TranslationsInvalidated : Store.wf [] st.tlb1 = true ∧ Store.wf [] st.tlb2 = true ∧ st.rd.sv = false ∧ sv.rd.sv = true
    ∧ sv.waitingFor sv.cur = false ∧ (sv.rd.rs 0) &&& ~~~0x1F07 = 0 ∧ (sv.rd.rs 0).toNat % 8 ≤ 4 ∧ (sv.rd.rs 0).toNat % 8 ≠ 4
    ∧ sv.isDom ((sv.rd.rs 0).toNat / 256 % 32) = true ∧ sv.secureCluster ((sv.rd.rs 0).toNat / 256 % 32) = false
    ∧ sv.rd.rs (22 + 1) = 0 ∧ (sv.rd.rs 5) &&& ~~~0x1F07 ≠ 0 ∧ Drained sv :=
  by and_intros <;> first | decide | exact drained_sv
/-- The machine at the first cycle of the strand's slot on the slice of the line at 0x10000. -/
def inSlot : State := { st with time := BitVec.ofNat 64 (st.slotAt 0 (sliceOf 512)) }
theorem wit_SlotNow : SlotNow inSlot 512 ∧ ¬ SlotNow { inSlot with time := inSlot.time + 1 } 512 ∧ inSlot.heldLines [512] = []
    ∧ inSlot.behind inSlot.feq inSlot.cur [512] = false ∧ inSlot.wq = [] := by unfold SlotNow; decide
theorem wit_Earlier : Earlier { waits0 st with issueRef := 8 } ∧ ¬ Earlier { waits0 st with issueRef := 7 } ∧ ¬ Earlier st := by unfold Earlier; decide

/-! ## The digit units -/

def wide : State := stc fun c => { c with wcfg := 0x400000 }

/-- A slot on entries 5, 6 and 7 into entry 4, at RM `rm`. -/
def ds (fmt : BitVec 4) (minor : BitVec 5) (rm : BitVec 2) : DSlot := ⟨fmt, 0, false, false, .v 4, .v 5, .v 6, .v 7, .none, rm, false, minor⟩

/-- What the witnesses of the D slots check of a row, a format, a MINOR and a rounding. -/
def dok (s : State) (op : Nat) (d : DSlot) : Bool :=
  match s.resolve d.fmt, Decode.dRow op d.minor, s.rd.entries (dTarget d) with
  | some r, some row, some _ => decide (s.rd.portCases d = .go) && decide (r.fmt = d.fmt.toNat) && row.fmts.contains r.fmt && row.minor d.minor
      && row.rms.contains d.rm.toNat && !d.sat && [d.sa, d.sb, d.sc, d.dst].all (fun o => !Decode.isPort o) && Decode.isReg (dTarget d)
  | _, _, _ => false

theorem issues_of (s : State) (op : Nat) (d : DSlot) (h : dok s op d = true) : ∃ r es, DIssues s op d r es ∧ NoPorts d ∧ r.fmt = d.fmt.toNat := by
  unfold dok at h
  split at h
  · rename_i r row es h1 h2 h3
    simp only [Bool.and_eq_true, decide_eq_true_eq, List.contains_eq_mem, Bool.not_eq_true', List.all_eq_true] at h
    obtain ⟨⟨⟨⟨⟨⟨⟨hp, hf⟩, hm⟩, hmin⟩, hrm⟩, hs⟩, hno⟩, hreg⟩ := h
    refine ⟨r, es, ⟨h1, hp, ?_, ?_, row, h2, hm, hmin, hrm, ?_⟩, ?_, hf⟩
    · intro hh; have := hno d.dst (by simp); simp_all
    · rw [if_pos hreg]; exact h3
    · intro hh; rw [hs] at hh; cases hh
    · intro o ho; exact hno o ho
  · cases h

/-- A row of each kind of R318 to R333, each at a format, a MINOR and a rounding that it admits. -/
def rows : List (Nat × DSlot) :=
  ([0x18, 0x19, 0x1A, 0x1C, 0x1D, 0x1E, 0x1F, 0x20, 0x21, 0x22, 0x23, 0x24, 0x25, 0x26, 0x27, 0x28, 0x29, 0x2A, 0x30, 0x31, 0x32, 0x33].map
      fun op => (op, ds 8 0 0))
    ++ [(0x1B, ds 8 0 0), (0x1B, ds 8 0 1), (0x34, ds 8 0 0), (0x34, ds 0 2 0), (0x38, ds 0 0 0), (0x39, ds 0 0 0), (0x3A, ds 0 0 0), (0x3B, ds 0 0 0),
        (0x3C, ds 0 0 0), (0x3C, ds 5 0 0), (0x3C, ds 12 0 0), (0x3E, ds 0 0 0), (0x3F, ds 0 0 0), (0x11, ds 9 0 0), (0x11, ds 0 1 0), (0x11, ds 0 2 0)]
    ++ ([0x01, 0x02, 0x03, 0x04, 0x05, 0x08, 0x09, 0x0A, 0x0B, 0x0C, 0x0D, 0x0E].flatMap fun op => [(op, ds 0 0 0), (op, ds 4 0 0)])
    ++ [(0x01, ds 0 0 2), (0x0A, ds 0 7 0), (0x0F, ds 0 3 0), (0x0F, ds 5 0 0), (0x0F, ds 8 0 0), (0x0F, ds 8 10 0), (0x12, ds 1 0 2), (0x06, ds 0 0 0), (0x06, ds 1 0 1), (0x07, ds 0 0 0), (0x07, ds 1 0 3)]

theorem rows_checked : rows.all (fun x => dok wide x.1 x.2) = true := by decide

/-- Each of those rows issues, and its sources read as registers in every format it reads them in. -/
theorem wit_DRows (x : Nat × DSlot) (hx : x ∈ rows) (f : Nat) : ∃ r es, DIssues wide x.1 x.2 r es ∧ NoPorts x.2 ∧ r.fmt = x.2.fmt.toNat
    ∧ (∃ a ab, wide.rd.source f (.v 5) = .ok a ab) ∧ (∃ b bb, wide.rd.source f (.v 6) = .ok b bb) ∧ (∃ c cb, wide.rd.source f (.v 7) = .ok c cb) := by
  obtain ⟨r, es, h1, h2, h3⟩ := issues_of wide x.1 x.2 (List.all_eq_true.mp rows_checked x hx)
  exact ⟨r, es, h1, h2, h3, ⟨_, _, rfl⟩, ⟨_, _, rfl⟩, ⟨_, _, rfl⟩⟩

theorem wit_RowsUse : (∀ x ∈ rows, x.2.sa = .v 5 ∧ x.2.sb = .v 6 ∧ x.2.sc = .v 7 ∧ (x.2.rm ≠ 3 → wide.rd.mode x.2.rm = x.2.rm.toNat))
    ∧ wide.rd.stream = wide.c.stream ∧ laneOn wide (ds 8 0 0) 3 = true ∧ laneOn (stc fun c => { c with wcfg := 0x400000 }) { ds 8 0 0 with pn := true } 3 = false
    ∧ ((List.range 16).filter (laneOn wide (ds 8 0 0))).map (fun l => intVal 8 (BitVec.ofNat 32 l)) = 0 :: (List.range 15).map (fun l => ((l : Nat) : Int) + 1)
    ∧ (redFloat ⟨0, 0, none⟩ wide.rd 0 false 2 (wide.rd.dLanes (ds 0 2 0)) (List.replicate 16 0) 0).isSome = true := by decide

/-- A `dmov` in flight from entry 5 that drives port 0, its first digit gone. -/
def prod : DOp := ⟨9, 0x03, 0, 0, 0, false, false, 12, false, 0, false, .v 5, .v 6, .none, .port 0, .none, [], none, none, none, 0, 5, 17, none,
  List.replicate 16 ⟨true, 0, 0, 0, 0, false, 0, 0, [], false, false, false, 0, 0, false, 0, 0, 0, 0⟩, false, [], [], false, false⟩
def chained (age : Nat) (used : Bool) : State := { st with
  nextRef := 20
  c := { strand with wcfg := 0x400000, dops := [{ prod with age }], ports := [(0, some ⟨9, used, []⟩)] } }

def land : DSlot := ⟨0, 0, false, false, .v 4, .port 0, .none, .none, .none, 0, false, 0⟩

theorem wit_ChainLands : (∃ p, producerOf (chained 5 false) 0 p) ∧ (chained 5 false).resolve 0 = some ⟨0, 0, none⟩ ∧ (chained 5 false).rd.ports = (chained 5 false).c.ports
    ∧ (chained 5 false).rd.mode 0 ≠ 2 ∧ (∃ es, (chained 5 false).rd.entries land.dst = some es) ∧ Decode.isPort land.dst = false
    ∧ (∃ q, Store.get none (chained 5 true).rd.ports 0 = some q ∧ q.consumed = true) ∧ Store.get none wide.rd.ports 0 = none
    ∧ findOp (chained 1 false).rd.dops 9 = some { prod with age := 1 } ∧ 1 < delay prod.op.toNat :=
  ⟨⟨{ prod with age := 5 }, ⟨9, false, []⟩, by decide, rfl, by decide, by decide, by decide⟩, rfl, rfl, by decide, ⟨_, rfl⟩, rfl,
    ⟨⟨9, true, []⟩, by decide, rfl⟩, by decide, by decide, by decide⟩

theorem wit_DigitsStep : (stc fun c => { c with fresh := true }).c.fresh = true ∧ (chained 1 false).c.fresh = false
    ∧ (chained 1 false).c.dops[0]? = some { prod with age := 1 } := by decide

def lands (dst : Opnd) (es : List Nat) : State := stc fun c => { c with wcfg := 0x400000, dops := [{ prod with fixed := true, dst, dstEnts := es, land := some 2, age := 2 }] }

theorem wit_ResultsLand : (lands (.v 4) (List.replicate 16 4)).c.dops = [{ prod with fixed := true, dst := .v 4, dstEnts := List.replicate 16 4, land := some 2, age := 2 }]
    ∧ (lands (.pred 1) []).c.ports = [] ∧ ({ prod with fixed := true, dst := .v 4, land := some 2, age := 2 } : DOp).producer = false
    ∧ prod.landed = false ∧ prod.pa = none ∧ (lands (.pred 1) []).c.mops = [] ∧ (lands (.pred 1) []).staged = false := by decide

theorem wit_EmptyBundle : (¬ ∃ k ∈ st.c.told, (st.ctx k).again ≠ 0)
    ∧ (∃ k ∈ ({ st with ctxs := [(5, { strand with again := 1 })], c := { strand with told := [5] } } : State).c.told,
        (({ st with ctxs := [(5, { strand with again := 1 })], c := { strand with told := [5] } } : State).ctx k).again ≠ 0) := by
  refine ⟨by decide, 5, by decide, by decide⟩

/-- The word of 1.0 is a finite number that ends none of the rows of R318, R320, R324 and R326. -/
theorem wit_OnlineWords : ∀ f ∈ [0, 1, 2, 3, 4, 5], let v := (decodeF f false 0 (if f = 0 then 0x3F800000 else 0x0001)).v
    v.isNan = false ∧ v.isInf = false ∧ v.isZero = false ∧ v.neg = false := by decide
theorem wit_OnlineReads : let s : State := stc fun c => { c with wcfg := 0x400000, v := Store.setRange 0 [] 80 (List.replicate 48 0x3F800000) }
    s.rd.source 0 (.v 5) = .ok (List.replicate 16 0x3F800000) (List.replicate 16 0)
    ∧ s.rd.source 0 (.v 7) = .ok (List.replicate 16 0x3F800000) (List.replicate 16 0) := by decide

/-! ## The matrix engine -/

/-- The strand owns the engine, with every bank. -/
def own : State := stc fun c => { c with wcfg := 0xE00000, banks := 0xFF }

theorem wit_EngineSlots : own.rd.win ≠ 0 ∧ own.c.rank < 131072 ∧ (own.mownOf own.rd.core own.rd.rank).extractLsb' 0 2 = BitVec.ofNat 2 (own.rd.seq % 4)
    ∧ own.rd.banks.getLsbD 7 = true ∧ st.rd.banks.getLsbD 7 = false
    ∧ own.resolve 1 = some ⟨1, 0, none⟩ ∧ (1 : Nat) ∈ [1, 2, 3, 4, 5, 6, 7] ∧ blockRows 1 64 = true ∧ blockRows 6 64 = true ∧ blockRows 6 63 = false
    ∧ 96 + entriesOf 1 64 ≤ 224 ∧ 96 + entriesOf 1 64 ≤ own.rd.win ∧ own.resolve 0 = some ⟨0, 0, none⟩
    ∧ mayIssue own.rd.mops (.mma 1 7 true false (.v 96) 0 0 64) own.myEngine.plane = true
    ∧ mayIssue [mkMOp 9 (.mclr 7 true)] (.mma 1 7 true false (.v 96) 0 0 64) 0 = false
    ∧ own.rd.ports = [] ∧ own.c.ports = [] ∧ (4 : BitVec 3).toNat ≤ 4 ∧ own.formerBusy = false
    ∧ (own.seqOf own.rd.seq).both.getLsbD 7 = false := by decide
/-- The strand while bank 7 still holds the data of the context before it, and behind an operation of a former owner. -/
def swapped : State := { own with time := 5, seqs := [(0, { Seq.reset with active := some 0, both := 0x80, bothAt := 9 })] }
def behindFormer : State := { own with ctxs := [(8, { strand with seq := 1, mops := [mkMOp 9 .mswap] })], seqs := own.seqs ++ [(1, { Seq.reset with active := some 0 })] }
theorem wit_EngineSlots_waits : bankOf (.mclr 7 true) = some 7 ∧ (swapped.seqOf swapped.rd.seq).both.getLsbD 7 = true
    ∧ swapped.time.toNat < (swapped.seqOf swapped.rd.seq).bothAt ∧ behindFormer.formerBusy = true
    ∧ (behindFormer.mownOf 0 0).extractLsb' 0 2 = BitVec.ofNat 2 (behindFormer.rd.seq % 4) := by decide

def mop (i : EOp) (fmt age : Nat) (ws : List (List Word)) : MOp := { mkMOp 9 i with fmt, age, words := ws, win := 224, zero := false }

theorem wit_MloadRows : let i : EOp := .mload 1 1 (.v 96) 4 60
    (mop i 1 3 []).instr = i ∧ (mop i 1 3 []).fmt ∈ [1, 2, 3, 4, 5] ∧ (mop i 1 3 []).plane ≤ 1 ∧ (60 : BitVec 6).toNat + (4 : BitVec 8).toNat ≤ 64
    ∧ 3 < (4 : BitVec 8).toNat ∧ (mop i 1 3 []).zero = false ∧ (mop i 1 5 (List.replicate 4 [])).age = 3 + 2 ∧ 3 < (List.replicate 4 ([] : List Word)).length := by
  decide

theorem wit_MmaRows : let i : EOp := .mma 5 7 false true (.v 96) 0 0 6
    let o := mop i 5 13 (List.replicate 6 []); let e := Engine.reset
    o.instr = i ∧ o.fmt ∈ [1, 2, 3, 4, 5, 6, 7] ∧ o.age = 12 + 1 ∧ (6 : BitVec 8).toNat ≤ 64
    ∧ (∀ r, r < (6 : BitVec 8).toNat → r / 4 = 1 → r < o.words.length) ∧ ((6 : BitVec 8).toNat + 4 - 1) / 4 = 1 + 1
    ∧ finite (f32Val (e.elem 7 5 63)) ∧ e.ckv.getLsbD 7 = false := by unfold finite; decide

theorem wit_BankRows : (mop (.mclr 7 true) 0 1 []).age = 1 ∧ (mop (.kwrite 7 5 (.v 0) true) 0 1 [List.replicate 64 1]).instr = .kwrite 7 5 (.v 0) true
    ∧ ([List.replicate 64 (1 : Word)].getD 0 []).length = 64 ∧ (mop (.kadd 7 5 (.v 0) true) 0 4 []).age = 4
    ∧ 64 ≤ (mop (.kread 7 63 (.v 0) true) 0 3 []).win ∧ (mop (.kread 7 63 (.v 0) true) 0 3 []).age = 3 ∧ (mop (.kreadck 7 (.v 0) false) 0 3 []).age = 3
    ∧ (mop (.mdrain 8 7 (.v 0) 2 127 false true) 8 6 [List.replicate 64 1, List.replicate 64 1]).age = 1 + 5
    ∧ (mop (.mdrain 8 7 (.v 0) 2 127 false true) 8 6 [List.replicate 64 1, List.replicate 64 1]).fmt ∈ [0, 8, 9]
    ∧ Decode.isPort (.v 0) = false := by decide

theorem wit_DrainsAndChecks : finite (f32Val 0x4B800000) ∧ (127 : BitVec 8) ≠ 255 ∧ (({ Engine.reset with ckv := 0xFF } : Engine).ckv.getLsbD (7 : BitVec 3).toNat) = true
    ∧ (Engine.reset.ckv.getLsbD (7 : BitVec 3).toNat) = false ∧ finite (f32Val (Store.get 0 Engine.reset.cr 0)) := by unfold finite; decide

def ending (i : EOp) : State := stc fun c => { c with mops := [mop i 0 9 []] }
theorem wit_MatrixCompletes : (ending (.mchk 7 62 3 1)).c.mops.find? (fun x => x.ref = 9) = some (mop (.mchk 7 62 3 1) 0 9 [])
    ∧ 1 ≤ (62 : BitVec 6).toNat ∧ (62 : BitVec 6).toNat ≤ 62
    ∧ (ending (.mdrain 0 7 (.v 0) 2 127 false true)).c.mops.find? (fun x => x.ref = 9) = some (mop (.mdrain 0 7 (.v 0) 2 127 false true) 0 9 [])
    ∧ (ending (.kread 7 63 (.v 0) true)).c.mops.find? (fun x => x.ref = 9) = some (mop (.kread 7 63 (.v 0) true) 0 9 []) := by decide

/-! ## Engines -/

/-- The strand with other scalars. -/
def regs (l : Store DWord) : State := stc fun c => { c with s := l }

theorem wit_XReady : XReady st [5, 7, 20, 21, 0] 0 none ∧ XReady st [5, 8] 8 (some 0x10100) :=
  ⟨⟨by decide, by decide, rfl⟩, ⟨by decide, by decide, ⟨_, ok_of (show _ = some 0x10100 by decide), rfl⟩⟩⟩

/-- A copy of 64 bytes, one of none, and one of two rows. -/
def cpr (n pit : DWord) : State := regs [(30, 0x10100), (31, 0xFFFF00000000003F), (32, 0x10000), (33, n), (34, pit)]
theorem wit_CopyIssues : XReady (cpr 64 0) ([30, 32, 32 + 1, 32 + 2, 0] ++ [30 + 1]) 0 none
    ∧ ((cpr 64 0).rd.rs 33).toNat < 2 ^ 32 ∧ ((cpr 64 0).rd.rs (30 + 1)).toNat / 2 ^ 6 % 2 ^ 42 = 0 ∧ (st.rd.rs (5 + 1)).toNat / 2 ^ 6 % 2 ^ 42 ≠ 0
    ∧ 2 ^ 32 ≤ ((cpr 0x4000000002 0).rd.rs 33).toNat
    ∧ ((cpr 64 0).rd.rs 30).toNat % 4 = 0 ∧ ((cpr 64 0).rd.rs 32).toNat % 4 = 0 ∧ ((cpr 64 0).rd.rs 33).toNat % 4 = 0
    ∧ ((cpr 0 0).rd.rs 33) = 0 ∧ ((cpr 63 0).rd.rs 33).toNat % 4 ≠ 0 ∧ (st.rd.rs 7).toNat % 4 ≠ 0
    ∧ (((cpr 64 0).copies.filter fun c => c.core = (cpr 64 0).c.core).length < 4) ∧ ((cpr 64 0).rank (cpr 64 0).c.rank).st ≠ .ending
    ∧ ¬ (({ cpr 64 0 with copies := List.replicate 4 ⟨3, 0, 0, [], false, [], none, none, 0, 0, false⟩ } : State).copies.filter fun c => c.core = 0).length < 4
    ∧ 64 ≤ ((cpr 0x4000000002 0x8000000040).rd.rs 34).toNat % 2 ^ 32 ∧ ((cpr 0x4000000002 0x8000000040).rd.rs 33).toNat / 2 ^ 32 = 64
    ∧ 1 < ((cpr 0x4000000002 0x800000003C).rd.rs 33).toNat % 2 ^ 32 ∧ ((cpr 0x4000000002 0x800000003C).rd.rs 34).toNat % 2 ^ 32 < 64 :=
  ⟨⟨by decide, by decide, rfl⟩, by and_intros <;> decide⟩
theorem wit_CopyPieces : let m := performed (cpr 64 0); let n := performed (cpr 0x4000000002 0x8000000040)
    m.pieces m.c .read 0x10000 64 = .ok [(0x10000, 64)] ∧ m.pieces m.c .write 0x10100 64 = .ok [(0x10100, 64)]
    ∧ (∃ e, m.pieces m.c .read 0x90000 64 = .error e)
    ∧ (∀ i, i < 2 → n.pieces n.c .read (0x10000 + BitVec.ofNat 64 (128 * i)) 64 = .ok [([0x10000, 0x10080].getD i 0, 64)]
        ∧ n.pieces n.c .write (0x10100 + BitVec.ofNat 64 (64 * i)) 64 = .ok [([0x10100, 0x10140].getD i 0, 64)]) := by
  refine ⟨ok_of (by decide), ok_of (by decide), err_of (by decide), fun i hi => ?_⟩
  match i, hi with
  | 0, _ => exact ⟨ok_of (by decide), ok_of (by decide)⟩
  | 1, _ => exact ⟨ok_of (by decide), ok_of (by decide)⟩

def copied : Copy := ⟨3, 0, 0, [(0x10000, 0x10100, 64)], true, [(0x10100, List.replicate 64 1, List.replicate 64 false)], some 0x10200, none, 0, 64, false⟩
def copying (f : Copy → Copy) : State := { st with copies := [f copied] }
theorem wit_CopyMoves : (copying id).copyOf 3 = some copied ∧ copied.fail = false ∧ (copying id).ready 3 = true ∧ (copying fun c => { c with fail := true }).copyOf 3
      = some { copied with fail := true }
    ∧ (copying fun c => { c with segs := [(2 ^ 52, 0x10100, 64)] }).ready 3 = false
    ∧ (copying id).heldLines (linesOf 0x10100 64) = [] ∧ (List.replicate 64 false).all (fun x => !x) = true ∧ (copying id).wq = []
    ∧ (hostHolds 514 (copying id)).heldLines (linesOf 0x10100 64) ≠ [] := by decide

/-- A descriptor of two parties at ranks 0 and 1, with SBUF and DBUF on lines, and one that asks for no element. -/
def cdesc (n : Nat) : List Byte := Decode.leBytes 8 0x10800 ++ Decode.leBytes 8 0x11000 ++ Decode.leBytes 4 n ++ Decode.leBytes 4 7 ++ Decode.leBytes 4 0
  ++ Decode.leBytes 4 2 ++ Decode.leBytes 4 1 ++ List.replicate 28 0
def coll0 : Coll := ⟨9, false, 0, 0, 0, 0, 7, 0, 2, 1, 0, 4, 0, [], [], [], [(0x11000, 16)], true, some 0x10200, 0x10200, false, false, none, [], false, none, false, [], false⟩
def collective (n : Nat) (cs : List Coll) : State := { st with mem := Store.setRange 0 bytes0 0x10200 (cdesc n), colls := cs }
theorem wit_CollectiveIssues : XReady (collective 4 []) [21, 0] 0 none ∧ ((collective 4 []).rd.rs 21).toNat % 64 = 0
    ∧ (collective 4 []).pieces (collective 4 []).c .read 0x10200 64 = .ok [(0x10200, 64)]
    ∧ (cdescOf ((collective 4 []).readPieces [(0x10200, 64)])).partyOf (collective 4 []).c.rank = some 0
    ∧ (cdescOf ((collective 4 []).readPieces [(0x10200, 64)])).ok 0 0 2 = true ∧ (cdescOf ((collective 4 []).readPieces [(0x10200, 64)])).ok 1 1 2 = true
    ∧ (cdescOf ((collective 4 []).readPieces [(0x10200, 64)])).ok 2 0 2 = true ∧ (cdescOf ((collective 4 []).readPieces [(0x10200, 64)])).ok 3 0 2 = true
    ∧ (cdescOf ((collective 0 []).readPieces [(0x10200, 64)])).ok 0 0 2 = false
    ∧ (cdescOf (cdesc 4)).sbuf.toNat % 128 = 0 ∧ (cdescOf (cdesc 4)).dbuf.toNat % 128 = 0 ∧ (cdescOf (cdesc 4)).tag = 7
    ∧ (∃ c ∈ (collective 4 [coll0]).colls.filter (fun c => c.rank = 0), c.tag = 7)
    ∧ (∀ c ∈ (collective 4 (List.replicate 16 { coll0 with tag := 8 })).colls.filter (fun c => c.rank = 0), c.tag ≠ 7)
    ∧ 16 ≤ ((collective 4 (List.replicate 16 { coll0 with tag := 8 })).colls.filter (fun c => c.rank = 0)).length
    ∧ Readable (collective 4 []) [(0x10200, 64)] := by
  refine ⟨⟨?_, ?_, rfl⟩, ?_, ok_of ?_, ?_, ?_, ?_, ?_, ?_, ?_, ?_, ?_, ?_, ?_, ?_, ?_, readable_plain ?_ rfl⟩ <;> decide

theorem wit_PartiesNumbered : let d := cdescOf (cdesc 4)
    d.nr ≠ 0 ∧ 1 < d.nr ∧ d.stride ≠ 0 := by decide

/-- Four words of a collective, the last of them marked. -/
def words (n : Nat) : CWords := [(BitVec.ofNat 32 (n + 1), false), (BitVec.ofNat 32 (n + 2), false), (0, false), (0x3F800000, true)]
def col (f : Coll → Coll) : State := collective 4 [f coll0]
theorem wit_CollectiveMoves : (col id).coll 9 = some coll0 ∧ coll0.id = 9 ∧ coll0.started = false ∧ (∃ c, (col fun c => { c with ok := false }).coll 9 = some c ∧ c.ok = false)
    ∧ coll0.reads = true ∧ ({ coll0 with nbrs := [(1, 1)] } : Coll).cutFrom = [] ∧ coll0.own = none ∧ coll0.result = none ∧ coll0.op ≠ 3 ∧ (∀ e ∈ coll0.ins, e.1 ≠ 1)
    ∧ treeChildren ({ coll0 with party := 1 } : Coll).party coll0.parties = [] ∧ coll0.dpieces = [(0x11000, 16)]
    ∧ (finalBytes coll0.op coll0.minor ((coll0.mine (words 0)).map (·.1))).length = 16 ∧ (col id).heldLines (linesOf 0x11000 16) = [] ∧ (col id).wq = []
    ∧ coll0.landed = false ∧ coll0.sentDown = false ∧ coll0.waits = []
    ∧ (col fun c => { c with started := true }).coll 9 = some { coll0 with started := true } := by
  refine ⟨by decide, rfl, rfl, ⟨_, rfl, rfl⟩, ?_, ?_, rfl, rfl, ?_, ?_, ?_, rfl, ?_, ?_, rfl, rfl, rfl, rfl, ?_⟩ <;> decide

theorem wit_Trees : let c : Coll := { coll0 with own := some (words 0), started := true }
    (∃ q ∈ treeChildren c.party c.parties, ∀ e ∈ c.ins, e.1 ≠ q)
    ∧ (∀ q ∈ treeChildren c.party c.parties, ∃ e ∈ ({ c with ins := [(1, words 4)] } : Coll).ins, e.1 = q)
    ∧ treeChildren c.party c.parties = [1] ∧ (∀ q ∈ treeChildren 1 c.parties, ∃ e ∈ c.ins, e.1 = q) ∧ c.result = none ∧ c.sentUp = false ∧ c.sentDown = false
    ∧ (1 : Nat) ∈ treeChildren 0 65536 ∧ finite (f32Val 0x3F800000) := by
  refine ⟨⟨1, by decide, by decide⟩, by decide, by decide, by decide, rfl, rfl, rfl, by decide, by unfold finite; decide⟩

/-- Scruple commands: s30 is w and s31 v. -/
def scr2 (w v : DWord) : State := regs [(30, w), (31, v)]
theorem wit_ScrupleCommands : (∀ y ∈ [(30 : BitVec 6), 31, 0], (scr2 0x8F (BitVec.ofInt 64 (-160))).rd.sBad y = false)
    ∧ (0x8F : DWord).toNat % 128 / 16 = 0 ∧ (0x8F : DWord).toNat / 8 % 16 ≤ 1 ∧ (0x9F : DWord).toNat % 128 / 16 ≠ 0
    ∧ -160 ≤ ((scr2 0x8F (BitVec.ofInt 64 (-160))).rd.rs 31).toInt ∧ ((scr2 0x8F (BitVec.ofInt 64 (-160))).rd.rs 31).toInt ≤ 127
    ∧ ((scr2 65535 5).rd.rs 30).toNat < 65536 ∧ ((scr2 65535 5).rd.rs 31).toNat ≤ 5 ∧ 65536 ≤ ((scr2 65536 1).rd.rs 30).toNat ∧ 5 < ((scr2 0 6).rd.rs 31).toNat
    ∧ ((scr2 65535 5).scr 0 0 15).total = 0
    ∧ ((0x10000 : DWord).toNat % 256 = 0 ∧ (3 : DWord).toNat % 256 ≠ 0) ∧ st.c.mops = [] ∧ isDev 0x10000 = true := by decide
theorem wit_ScrupleCounted : let x : Scruple := { Scruple.reset with total := 4, counts := [(3, 4)] }
    let above (b : Nat) : Nat := ((List.range 32).map fun i => if b < i then (Store.get 0 x.counts i).toNat else 0).sum
    x.total ≠ 0 ∧ above 3 ≤ 65535 * x.total.toNat / 65536 ∧ (∀ b', b' < 3 → 65535 * x.total.toNat / 65536 < above b')
    ∧ (performed st).check (performed st).c 0x10000 0 256 .write false = .ok 0x10000 ∧ (∃ e, (performed st).check (performed st).c 0x90000 0 256 .write false = .error e) :=
  ⟨by decide, by decide, by decide, ok_of (by decide), err_of (by decide)⟩

theorem wit_Snapshots : st.heldLines (linesOf 0x10000 256) = [] ∧ (hostHolds 513 st).heldLines (linesOf 0x10000 256) ≠ []
    ∧ (f32Val 0x7FC00000).isNan = true ∧ (f32Val 0).isZero = true ∧ (f32Val 0xFF800000).isInf = true
    ∧ (∃ n m e, f32Val 0x40400000 = .fin n m e ∧ m ≠ 0 ∧ (2 : Int) = min 31 (max 1 ((m.log2 : Int) + e - Scruple.reset.ebase.toInt + 1))) :=
  ⟨by decide, by decide, by decide, by decide, by decide, ⟨false, _, _, rfl, by decide, by decide⟩⟩

def big : State := { st with
   tlb1 := [(0, [⟨0, 0x40000000, 0x40000000, 0x40000000, 0x7⟩, ⟨4, 0x40000000, 0x40000000, 0x40000000, 0x7⟩])],
   mem := Store.setRange 0 [] 0x40000003 [0x40] }
def le (n v : Nat) : List Byte := Decode.leBytes n v
def blk : List Byte := le 8 0x40000000 ++ le 4 16 ++ le 2 5 ++ [0, 0] ++ le 8 0x40000000 ++ le 8 0xFF0001F000000 ++ le 4 256 ++ le 2 0 ++ le 2 0 ++ le 2 2 ++ le 2 2 ++ le 2 0 ++ [63, 0] ++ le 8 0x40001000 ++ le 8 0x40001040 ++ List.replicate 64 0
def rec0 (t b : Bool): DecRec := ⟨9, blk, 0, 0, false, none, t, t, t, t, b⟩
theorem span_some (s : State) (c : Ctx) (a : Acc) (lo hi : Nat) (hhi : hi < 2 ^ 64)
    (h : ∀ ea : DWord, lo ≤ ea.toNat → ea.toNat < hi → (s.check c ea 0 1 a false).toOption.isSome = true) :
    ∀ (fuel : Nat) (ea : DWord) (n : Nat), lo ≤ ea.toNat → ea.toNat + n ≤ hi → (s.span c a fuel ea n).toOption.isSome = true := by
  intro fuel
  induction fuel with
  | zero => intro ea n _ _; rfl
  | succ k ih =>
    intro ea n h1 h2
    unfold State.span
    by_cases hn : n = 0
    · rw [if_pos hn]; rfl
    · rw [if_neg hn]
      have hc := h ea h1 (by omega)
      cases hh : s.check c ea 0 1 a false with
      | error t => rw [hh] at hc; cases hc
      | ok loc =>
        have e1 : (ea + BitVec.ofNat 64 (min n (65536 - ea.toNat % 65536))).toNat = ea.toNat + min n (65536 - ea.toNat % 65536) := by
          rw [BitVec.toNat_add, BitVec.toNat_ofNat, Nat.mod_eq_of_lt (a := min _ _) (by omega), Nat.mod_eq_of_lt (by omega)]
        have hi' := ih (ea + BitVec.ofNat 64 (min n (65536 - ea.toNat % 65536))) (n - min n (65536 - ea.toNat % 65536))
          (by omega) (by omega)
        dsimp only
        cases hs : s.span c a k (ea + BitVec.ofNat 64 (min n (65536 - ea.toNat % 65536))) (n - min n (65536 - ea.toNat % 65536)) with
        | error t => rw [hs] at hi'; cases hi'
        | ok ps => rfl

theorem big_check (ea : DWord) (h1 : 0x40000000 ≤ ea.toNat) (h2 : ea.toNat < 0x80000000) :
    (big.check (rec0 false false).as ea 0 1 .rw false).toOption.isSome = true := by
  have hap : inAperture ea.toNat = false := by unfold inAperture apertureVa; simp only [decide_eq_false_iff_not]; omega
  have ht : big.translate (rec0 false false).as ea.toNat = .ok ⟨0, 0x40000000, 0x40000000, 0x40000000, 0x7⟩ := by
    have : tlbFind (Store.get [] big.tlb1 (rec0 false false).as.core) (big.tag (rec0 false false).as) ea.toNat = some ⟨0, 0x40000000, 0x40000000, 0x40000000, 0x7⟩ := by
      have e1 : Store.get [] big.tlb1 (rec0 false false).as.core = [⟨0, 0x40000000, 0x40000000, 0x40000000, 0x7⟩, ⟨4, 0x40000000, 0x40000000, 0x40000000, 0x7⟩] := by decide
      have e2 : big.tag (rec0 false false).as = 0 := by decide
      rw [e1, e2]
      simp [tlbFind]
      omega
    unfold State.translate
    rw [show big.tlbHit (rec0 false false).as ea.toNat = some ⟨0, 0x40000000, 0x40000000, 0x40000000, 0x7⟩ by
      unfold State.tlbHit; rw [this]]
  have hw (pa : Nat) : big.worldOk (big.secureCluster (rec0 false false).as.cluster) pa true = true := by
    have e : big.world.mapBase = 0 := by decide
    simp [State.worldOk, State.secureRegion, State.inBitmap, e]
  unfold State.check
  simp only [Nat.mod_one, ne_eq, not_true_eq_false, if_false, hap, ht]
  have hm : missing 7 (rec0 false false).as.sv .rw = 0 := by decide
  rw [if_neg (by omega)]
  simp only [hm, show Acc.isWrite .rw = true from rfl, hw]
  simp [Except.toOption]

theorem big_regions (t b : Bool) : big.decRegions (rec0 t b) = some [[(0x40000000, 4096)], [(0x10000000000000, 260)], [(0x40001000, 8)], [(0x40001040, 64)]] := by
  have hf : BitVec.ofNat 64 (field (big.readPieces [(0x40000000, 4096)]) 0 8) = 0x40000000 := by decide
  have h := span_some big (rec0 false false).as .rw 0x40000000 0x80000000 (by omega) big_check (9 * 2 ^ 25 / 65536 + 2) 0x40000000#64 (9 * 2 ^ 25) (by simp) (by simp)
  unfold State.decRegions
  have e1 : big.pieces (rec0 t b).as .read (decBlockOf blk).bits (decBlockOf blk).len = .ok [(0x40000000, 16)] := ok_of (by cases t <;> cases b <;> decide)
  have e2 : big.pieces (rec0 t b).as .rw (decBlockOf blk).ctx 4096 = .ok [(0x40000000, 4096)] := ok_of (by cases t <;> cases b <;> decide)
  have e3 : big.pieces (rec0 t b).as .write (decBlockOf blk).out (decBlockOf blk).span = .ok [(0x10000000000000, 260)] := ok_of (by cases t <;> cases b <;> decide)
  have e4 : big.pieces (rec0 t b).as .rw ((decBlockOf blk).mask + BitVec.ofNat 64 (8 * ((decBlockOf blk).sample / 64))) 8 = .ok [(0x40001000, 8)] :=
    ok_of (by cases t <;> cases b <;> decide)
  have e5 : big.pieces (rec0 t b).as .write (decBlockOf blk).stat 64 = .ok [(0x40001040, 64)] := ok_of (by cases t <;> cases b <;> decide)
  dsimp only
  rw [show (rec0 t b).block = blk from rfl, e1, e2, e3, e4, e5]
  dsimp only
  rw [hf]
  have h' : (big.pieces (rec0 t b).as .rw 0x40000000 (9 * 2 ^ 25)).toOption.isSome = true := h
  cases hh : big.pieces (rec0 t b).as .rw 0x40000000 (9 * 2 ^ 25) with
  | error _ => rw [hh] at h'; cases h'
  | ok _ => rfl

def deciding (t b : Bool) : State := { big with decs := [(15, [rec0 t b])] }
theorem wit_DecoderMoves : (deciding true false).decQ 15 = [rec0 true false] ∧ (deciding false false).decQ 15 = [rec0 false false]
    ∧ (decBlockOf (rec0 false false).block).waitin = false ∧ (decBlockOf (rec0 true true).block).counted = false ∧ (rec0 true true).busy = true
    ∧ (deciding true false).heldLines (pieceLines [(0x40000000, 4096), (0x10000000000000, 260), (0x40001000, 8), (0x40001040, 64)]) = []
    ∧ (deciding true false).wq = [] ∧ (rec0 true true).srcUp = true ∧ (rec0 false true).srcUp = false ∧ (rec0 false false).started = false
    ∧ ({ deciding true false with decs := [(15, [{ rec0 true false with srcUp := false }])] } : State).decQ 15 = [{ rec0 true false with srcUp := false }] := by
  decide
/-- The same record with WAITIN and its own decoder's counter on line 63. -/
def recW (met : Bool) : DecRec := { rec0 false false with block := blk.set 15 2, met }
theorem recW_regions (m : Bool) : big.decRegions (recW m) = some [[(0x40000000, 4096)], [(0x10000000000000, 260)], [(0x40001000, 8)], [(0x40001040, 64)]] := by
  have h := big_regions false false
  have e : (decBlockOf (recW m).block).bits = (decBlockOf blk).bits ∧ (decBlockOf (recW m).block).len = (decBlockOf blk).len
      ∧ (decBlockOf (recW m).block).ctx = (decBlockOf blk).ctx ∧ (decBlockOf (recW m).block).out = (decBlockOf blk).out
      ∧ (decBlockOf (recW m).block).span = (decBlockOf blk).span ∧ (decBlockOf (recW m).block).mask = (decBlockOf blk).mask
      ∧ (decBlockOf (recW m).block).sample = (decBlockOf blk).sample ∧ (decBlockOf (recW m).block).stat = (decBlockOf blk).stat := by
    rw [show (recW m).block = blk.set 15 2 from rfl]
    decide
  obtain ⟨e1, e2, e3, e4, e5, e6, e7, e8⟩ := e
  unfold State.decRegions at h ⊢
  dsimp only at h ⊢
  rw [e1, e2, e3, e4, e5, e6, e7, e8, show (recW m).as = (rec0 false false).as from rfl]
  rw [show (rec0 false false).block = blk from rfl] at h
  exact h
theorem wit_DecoderStarts : (deciding false false).opWaits 9 = false ∧ (rec0 false false).checked = false ∧ (rec0 true false).srcUp = true
    ∧ (decBlockOf (recW true).block).waitin = true ∧ (recW true).met = true ∧ (recW false).started = false ∧ (recW false).checked = false
    ∧ (decBlockOf (recW false).block).waitin = true ∧ (recW false).met = false ∧ big.perchOf (BitVec.ofNat 6 (decBlockOf (recW false).block).line) = none
    ∧ (big.setPerch 63 (some ⟨0, 0, 4, [⟨0x800F, 0, false, none⟩], [], false, 0⟩)).perchOf (BitVec.ofNat 6 (decBlockOf (recW false).block).line)
      = some ⟨0, 0, 4, [⟨0x800F, 0, false, none⟩], [], false, 0⟩ ∧ BitVec.ofNat 16 (0x8000 + (15 : BitVec 4).toNat) = (0x800F : BitVec 16)
    ∧ (deciding false false).heldLines (linesOf (0x40000000 + 8) 1) = [] := by decide
theorem wit_DecoderFrames : let b := decBlockOf (rec0 true false).block; let z := decBlockOf (blk.set 15 5)
    b.ok = true ∧ b.span = 260 ∧ b.chroma = false ∧ z.ok = true ∧ z.counted = true ∧ z.chroma = true
    ∧ 0x40000000 + 4096 ≤ 0x10000000000000 ∧ 0x40000000 + 4096 ≤ 0x40001000 ∧ 0x40001000 + 8 ≤ 0x40001040 ∧ 0x40001040 + 64 ≤ 0x10000000000000 := by decide
theorem wit_DecoderUnmapped : ({ deciding false false with tlb1 := [] } : State).decRegions (rec0 false false) = none := by decide

def decd (bs : List Byte) (w : Worlds) (q : List DecRec) : State := { st with mem := Store.setRange 0 [] 0x10200 bs, world := w, decs := [(15, q)] }
theorem wit_DecoderIssues : (decd blk { Worlds.reset with decoders := 0xFFFF } []).world.decoders.getLsbD 15 = true
    ∧ (decd blk { Worlds.reset with decoders := 0xFFFF } []).secure = false ∧ (decd blk Worlds.reset []).world.decoders.getLsbD 15 = false
    ∧ XReady (decd blk Worlds.reset []) [21, 0] 0 none ∧ ((decd blk Worlds.reset []).rd.rs 21).toNat % 128 = 0
    ∧ (decd blk Worlds.reset []).pieces (decd blk Worlds.reset []).c .read 0x10200 128 = .ok [(0x10200, 128)]
    ∧ Readable (decd blk Worlds.reset []) [(0x10200, 128)] ∧ (decd blk Worlds.reset []).readPieces [(0x10200, 128)] = blk ∧ (decBlockOf blk).ok = true ∧ inAperture (decBlockOf blk).out.toNat = true
    ∧ (decBlockOf (List.replicate 128 0)).ok = false ∧ (decBlockOf blk).ctx.toNat % 4096 = 0 ∧ (decBlockOf blk).mask.toNat % 8 = 0
    ∧ (decBlockOf blk).stat.toNat % 64 = 0 ∧ 4 ≤ (Store.get [] (decd blk Worlds.reset (List.replicate 4 (rec0 true false))).decs 15).length
    ∧ (Store.get [] (decd blk Worlds.reset []).decs 15).length < 4 ∧ inAperture (decBlockOf (blk.set 30 0)).out.toNat = false ∧ (decBlockOf (blk.set 30 0)).ok = true :=
  ⟨by decide, by decide, by decide, ⟨by decide, by decide, rfl⟩, by decide, ok_of (by decide), readable_plain (by decide) rfl, by and_intros <;> decide⟩

/-- `migr`: s30 is the result's address, s31 the command's word. -/
def mig (v : DWord) (sv : Bool) : State := { st with c := { strand with s := [(30, 0x10000), (31, v)], sv }, world := { Worlds.reset with clusters := 0xFFFFFF } }
theorem wit_LeagueCommands : (∃ r ∈ [(30 : BitVec 6), 31, 0], (stc fun c => { c with bad := [(60, 1)] }).rd.sBad r = true) ∧ (mig 0 false).rd.sv = false ∧ (mig 1 true).rd.sv = true ∧ ((mig 1 true).rd.rs 31).toNat % 2 ^ 48 ≠ 0
    ∧ (mig 0 true).secure = true ∧ ((mig 0 true).rank 0).league = none ∧ ({ mig 0 true with ranks := [(0, { rk with league := some (League.new .precopy (asker 2) 0) })] } : State).ranks ≠ []
    ∧ (({ mig 0 true with ranks := [(0, { rk with league := some (League.new .precopy (asker 2) 0) })] } : State).rank 0).league ≠ none
    ∧ (∃ e, (mig 0 true).check (mig 0 true).c 0x90000 0 16 .write false = .error e) ∧ XReady (mig 0 true) [30, 31, 0] 0 none ∧ (mig 0 true).check (mig 0 true).c ((mig 0 true).rd.rs 30) 0 16 .write false = .ok 0x10000
    ∧ ((mig 0x000300000000001F true).rd.rs 31).toNat % 2 ^ 48 = ((mig 0x000300000000001F true).rd.rs 31).toNat % 32
    ∧ ((mig 0x00030FFF00FF001F true).rd.rs 31) &&& 0xF000FF00FFE0 = 0 :=
  ⟨by decide, by decide, by decide, by decide, by decide, by decide, by decide, by decide, err_of (by decide), ⟨by decide, by decide, rfl⟩, ok_of (by decide),
    by decide, by decide⟩

/-- 2^24 + 1 is midway between two FP32 values, 2^24 + 3 between two others; 2^150 overflows; 2^-140 is tiny. -/
def exactly (m : Nat) (e : Int) : Ex := .val (.fin false m e)
theorem wit_RoundsOnce : RoundsMag (exactly (2 ^ 24 + 1) 0) 1 0 0 (2 ^ 23) ∧ RoundsMag (exactly (2 ^ 24 + 3) 0) 1 0 0 (2 ^ 23 + 2)
    ∧ RoundsMag (exactly (2 ^ 24 + 3) 0) 1 1 0 (2 ^ 23 + 1) ∧ RoundsMag (exactly (2 ^ 24 + 3) 0) 1 2 0x8000 (2 ^ 23 + 2)
    ∧ RoundsMag (exactly (2 ^ 24 + 3) 0) 1 2 0x7FFF (2 ^ 23 + 1) := by
  refine ⟨⟨2 ^ 23, ?_⟩, ⟨2 ^ 23 + 1, ?_⟩, ⟨2 ^ 23 + 1, ?_⟩, ⟨2 ^ 23 + 1, ?_⟩, ⟨2 ^ 23 + 1, ?_⟩⟩ <;>
    (simp only [exactly, AtLeast, AtMost, ratOf, pow2]; decide +kernel)
theorem wit_RoundsOnce_frame : AtLeast (pow2 24) (exactly (2 ^ 24 + 1) 0) ∧ ¬ AtLeast (pow2 25) (exactly (2 ^ 24 + 1) 0)
    ∧ largest 0 < (2 ^ 23 : Nat) * pow2 (150 - 23) ∧ (2 ^ 23 : Nat) * pow2 (-140 - 23) < pow2 (1 - 127)
    ∧ Exactly 3 (exactly 3 0) ∧ ¬ Exactly 2 (exactly 3 0) ∧ AtLeast 1 (.quo false 3 2 0) ∧ ¬ AtLeast 2 (.quo false 3 2 0)
    ∧ AtLeast 1 (.root 2 0) ∧ ¬ AtLeast 2 (.root 2 0) := by
  simp only [exactly, Exactly, AtLeast, AtMost, ratOf, pow2, largest]
  decide +kernel
/-- Rounded by hand: 2^24 + 1 to 2^24, 2^24 + 3 to 2^24 + 4, 65520 of FP16 to infinity, -2^31 - 1 clamped, 2.5 to 2. -/
theorem test_rounding : roundTo 0 0 false false false 0 (exactly (2 ^ 24 + 1) 0) = (0x4B800000, flNx)
    ∧ roundTo 0 0 false false false 0 (exactly (2 ^ 24 + 3) 0) = (0x4B800002, flNx) ∧ roundTo 1 0 false false false 0 (exactly 65520 0) = (0x7C00, flOf ||| flNx)
    ∧ floatToInt 8 0 false 0 (.fin true (2 ^ 31 + 1) 0) = (0x80000000, flInv) ∧ floatToInt 8 0 false 0 (.fin false 5 (-1)) = (2, flNx)
    ∧ redWord 0 0x3F800000 0x40000000 0 = 0x40400000 := by decide

/-! ## Power, bring-up and the fabric -/

def pwr (f : Power → Power) : State := { st with pwr := f st.pwr }

theorem wit_Power : (pwr fun p => { p with trip := true }).pwr.trip = true ∧ (pwr fun p => { p with orderErr := true }).pwr.orderErr = true ∧ st.pwr.trip = false
    ∧ st.pwr.orderErr = false ∧ st.host.cached = [] ∧ (pwr fun p => { p with phase := 0 }).pwr.phase = 0 ∧ st.pwr.phase ≠ 0
    ∧ 110 ≤ (110 : BitVec 8).toNat ∧ 95 ≤ (95 : BitVec 8).toNat ∧ (94 : BitVec 8).toNat < 95 ∧ (89 : BitVec 8).toNat < 90 ∧ 90 ≤ (90 : BitVec 8).toNat ∧ 1 ≤ st.pwr.phase
    ∧ (0x18 : BitVec 8) ≠ 0x14 ∧ (0x18 : BitVec 8) ≠ 0x1C ∧ st.pwr.thermAt ≤ st.time.toNat ∧ 50 < (51 : BitVec 8).toNat ∧ (50 : BitVec 8).toNat ≤ 50
    ∧ st.time.toNat < (pwr fun p => { p with thermAt := 9 }).pwr.thermAt ∧ st.pwr.railsOut = 0
    ∧ (pwr fun p => { p with railsOut := 63 }).pwr.railsOut = 63 ∧ ∀ r : Fin 6, (0 : BitVec 6).getLsbD r.val = false ∧ (63 : BitVec 6).getLsbD r.val = true := by decide

theorem wit_BringUp : (∀ k ∈ List.range 16, (pwr fun p => { p with phase := k }).pwr.phase = k) ∧ (pwr fun p => { p with phase := 0 }).pwr.err = 0
    ∧ (pwr fun p => { p with phase := 0, err := 1 }).pwr.err = 1 ∧ (0xFFFFFF : BitVec 24) ≠ 0 ∧ (0xFE : BitVec 8) ≠ 0xFF := by decide
theorem wit_SupervisorStarts : (⟨767, 0x10003, 1024⟩ : SvStrand).seq < 768 ∧ st.pwr.pass.getLsbD (767 / 32) = true ∧ 64 ≤ 1024 ∧ 1024 % 64 = 0 := by decide

/-- Channel 5 in a state, peer 9, port 3 up. -/
def cend (f : Chan → Chan) : Chan := f { Chan.reset with peer := 9, cports := 8, domains := 1 }
def chn (f : Chan → Chan) (xs : List Xfer) (t : DWord) : State := { st with time := t, fab := { Fabric.reset with
  chans := [(5, cend f)], chanSel := 5, ports := [(3, { SPort.reset with up := true })], xfers := xs, epmap := 0x80000 } }
def xf : Xfer := ⟨7, 5, 0, 0, 0, 0x10200, .league 0 4, 0⟩

theorem wit_ChannelCommands : (∀ x ∈ [ChanState.closed, .opening, .opened, .fencing, .fenced], ((chn (fun c => { c with st := x }) [] 0).chan 5).st = x)
    ∧ (chn id [] 0).fab.chanSel = 5 ∧ (chn id [] 0).cfgOk 5 false = true ∧ (chn id [] 0).cfgOk 5 true = false
    ∧ (∃ ups : BitVec 16, ∀ k, k < 16 → ups.getLsbD k = ((chn id [] 0).port k).up)
    ∧ (∀ e ∈ (chn id [] 0).fab.chans, e.2.st = .closed) ∧ (∃ e ∈ (chn (fun c => { c with st := .opened }) [] 0).fab.chans, e.2.st ≠ .closed) := by
  refine ⟨by decide, by decide, by decide, by decide, ⟨8, by decide⟩, by decide, ⟨_, List.mem_cons_self, by decide⟩⟩
theorem wit_Fenced : Fenced (chn (fun c => { c with st := .opened, markers := 8 }) [] 0) 5 (cend fun c => { c with st := .opened, markers := 8 })
    ∧ ¬ Fenced (chn (fun c => { c with st := .opened }) [] 0) 5 (cend fun c => { c with st := .opened })
    ∧ ¬ Fenced (chn (fun c => { c with st := .opened, markers := 8 }) [xf] 0) 5 (cend fun c => { c with st := .opened, markers := 8 }) :=
  ⟨⟨by decide, by unfold NoXfers; decide⟩, fun h => absurd h.1 (by decide), fun h => absurd h.2 (by unfold NoXfers; decide)⟩
theorem wit_ChannelEvents : let op := chn (fun c => { c with st := .opening, since := 1 }) [] 40001
    op.chansWith (fun c => (c.st = .opening || c.st = .opened) && decide (c.peer = 9)) = [5]
    ∧ op.chansWith (fun c => (c.st = .opening || c.st = .opened) && decide (c.peer = 8)) = []
    ∧ (3 : BitVec 12) ≠ op.fab.node ∧ (0 : BitVec 12) = op.fab.node ∧ (cend id).cports &&& 8 ≠ 0 ∧ (cend id).cports &&& 4 = 0
    ∧ (op.chan 5).since < op.time.toNat ∧ (op.time.toNat - (op.chan 5).since) % 40000 = 0
    ∧ (op.chan 5).since + max 1 (op.fab.timeout.toNat) ≤ ({ op with time := 0xFFFFFFFFF } : State).time.toNat := by decide

def prt (f : SPort → SPort) : State := { st with fab := { Fabric.reset with ports := [(3, f SPort.reset)], chans := [(5, cend fun c => { c with st := .opened })] } }
theorem wit_PortEvents : (∀ u ∈ [true, false], ∀ h ∈ [true, false], ((prt fun x => { x with up := u, held := h }).port 3).up = u ∧ ((prt fun x => { x with up := u, held := h }).port 3).held = h)
    ∧ ((prt fun x => { x with up := true, replay := [(0, some 1)], replays := 14 }).port 3).replays < 15 ∧ ((prt fun x => { x with replay := [(0, some 1)] }).port 3).replay ≠ []
    ∧ 15 ≤ ((prt fun x => { x with up := true, replay := [(0, some 1)], replays := 15 }).port 3).replays ∧ ((prt fun x => { x with training := true }).port 3).training = true
    ∧ ((prt fun x => { x with up := true, replay := [(0, some 1)] }).port 3).up = true ∧ ((prt id).port 3).training = false ∧ Store.get Chan.reset (prt id).fab.chans 5 = cend (fun c => { c with st := .opened }) ∧ (cend id).cports.getLsbD 3 = true := by decide

/-- An endpoint map at 0x80000 whose entry for rank 0 is local, of epoch 2. -/
def lnd (e : List Byte) : State := { chn (fun c => { c with st := .opened, admits := true, gen := 4 }) [] 0 with mem := Store.setRange 0 bytes0 0x80000 e }
def pkt : Packet := ⟨9, 4, 0, 0, 2, 6, 7, 0, true, .data 0x10200 [1, 2, 3, 4] 0 none 0 0⟩
theorem wit_PacketsSeen : let s := chn (fun c => { c with st := .opened, admits := true, gen := 4, pgot := [6] }) [] 0
    s.seen pkt = true ∧ (lnd []).seen pkt = false ∧ pkt.body.size ≤ 256 ∧ (∀ x ∈ (lnd []).fab.ins, ¬ (x.src = pkt.src ∧ x.id = pkt.xfer))
    ∧ (lnd []).heldLines (linesOf 0x10200 4) = [] ∧ (lnd []).wq = []
    ∧ ({ lnd [] with colls := [coll0] } : State).parties 7 0 2 1 = [coll0] ∧ coll0.rank = pkt.rank := by decide
theorem wit_PacketsSeen_data : ∀ n m, pkt.body ≠ .league n m := by intro n m h; cases h
theorem wit_PacketsLand : pkt.body.size ≤ 256 ∧ (∃ x ∈ (lnd [1, 0, 0, 0, 0, 0, 2, 0]).fab.chans, (x.2.st = .opened ∨ x.2.st = .fencing) ∧ x.2.admits = true ∧ x.2.peer = pkt.src ∧ x.2.gen = pkt.gen
      ∧ x.2.domains.getLsbD pkt.dom.toNat = true)
    ∧ (¬ ∃ x ∈ st.fab.chans, (x.2.st = .opened ∨ x.2.st = .fencing) ∧ x.2.admits = true ∧ x.2.peer = pkt.src ∧ x.2.gen = pkt.gen ∧ x.2.domains.getLsbD pkt.dom.toNat = true)
    ∧ entState ((lnd [1, 0, 0, 0, 0, 0, 2, 0]).mapEntry pkt.rank) = 1 ∧ entEpoch ((lnd [1, 0, 0, 0, 0, 0, 2, 0]).mapEntry pkt.rank) = pkt.epoch
    ∧ entState ((lnd []).mapEntry pkt.rank) ≠ 1
    ∧ (lnd [1, 0, 0, 0, 0, 0, 2, 0]).pieces ((lnd [1, 0, 0, 0, 0, 0, 2, 0]).asRank 0) .write (BitVec.ofNat 64 0x10200) 4 = .ok [(0x10200, 4)]
    ∧ (∃ f, (lnd [1, 0, 0, 0, 0, 0, 2, 0]).pieces ((lnd [1, 0, 0, 0, 0, 0, 2, 0]).asRank 0) .write (BitVec.ofNat 64 0x90000) 4 = .error f) :=
  ⟨by decide, ⟨_, List.mem_cons_self, by decide⟩, by decide, by decide, by decide, by decide, ok_of (by decide), err_of (by decide)⟩
theorem wit_TransfersEnd : xf.what = .league 0 4 ∧ (chn (fun c => { c with st := .opened }) [xf] 0).xfer 7 = some xf ∧ ((chn (fun c => { c with st := .opened }) [xf] 0).chan 5).st ≠ .fencing
    ∧ xf.at_ + max 1 (chn id [xf] 0xFFFFFFFFF).fab.timeout.toNat ≤ (chn id [xf] 0xFFFFFFFFF).time.toNat
    ∧ (chn id [xf] 0).time.toNat < xf.at_ + max 1 (chn id [xf] 0).fab.timeout.toNat := by decide
/-- Port 3 up, whose neighbour stands one hop from root 2. -/
def timed (f : Fabric → Fabric) (x : SPort) : State := { st with time := 400000, fab := f { Fabric.reset with lock := true, ports := [(3, x)] } }
def near1 : SPort := { SPort.reset with up := true, nhops := 1, nroot := 2 }
theorem wit_TimeKept : (timed id near1).fab.lock = true ∧ (timed id near1).fab.root = false ∧ (timed id near1).fab.exchangeAt + 400000 ≤ (timed id near1).time.toNat
    ∧ (timed id near1).parent = some (2, 1, 3) ∧ ((timed id near1).port 3).up = true ∧ ((timed id SPort.reset).port 3).up = false
    ∧ (timed (fun f => { f with root := true }) SPort.reset).parent = none ∧ (8 : BitVec 16).toInt ≤ 8 ∧ -8 ≤ (0xFFF8 : BitVec 16).toInt
    ∧ (timed id near1).fab.slewAt + 4096 ≤ (timed id near1).time.toNat := by decide
theorem wit_TimeKept_rate : (timed (fun f => { f with slewAt := 5 }) near1).fab.slewAt ≠ 0 ∧ (timed id near1).fab.slewAt = 0
    ∧ (timed (fun f => { f with lock := false, rate := -5 }) near1).fab.rate ≠ 0 ∧ (timed (fun f => { f with lock := false }) near1).fab.root = false
    ∧ max (timed (fun f => { f with lock := false, rate := -5 }) near1).fab.rateAt ((timed (fun f => { f with lock := false, rate := -5 }) near1).fab.slewAt + 4096)
      ≤ (timed (fun f => { f with lock := false, rate := -5 }) near1).time.toNat := by decide

/-! ## The host and its records -/

/-- Host link up; table 2 at 0x40000, as f makes it. -/
def hst (f : Cmdt → Cmdt) (h : HostIf → HostIf) : State := { st with
  pwr := { st.pwr with link := true, tierGib := 64 }
  host := h { HostIf.reset with cmdts := [(2, f { Cmdt.reset with base := 0x40 })] } }

theorem wit_CxlIo : (hst id id).pwr.link = true ∧ st.pwr.link = false ∧ (hst id id).pwr.phase = 8 ∧ ((hst id id).cmdt 2).en = false ∧ ((hst id id).cmdt 2).state ≠ 1
    ∧ (0x58 : BitVec 12).toNat = 0x48 + 8 * 2 ∧ (4 : DWord).getLsbD 0 = false ∧ (0x68 : BitVec 12) ≠ 0x40
    ∧ ((hst (fun c => { c with en := true }) id).cmdt 2).en = true ∧ (0x40001000 : DWord).extractLsb' 12 40 ≠ ((hst (fun c => { c with en := true }) id).cmdt 2).base
    ∧ Store.get false (hst id fun h => { h with ide := [(4, true)] }).host.ide (4 : BitVec 3).toNat = true
    ∧ ({ st with pwr := { st.pwr with link := true, phase := 7 } } : State).pwr.phase < 8 ∧ ({ st with pwr := { st.pwr with link := true, phase := 15 } } : State).pwr.phase = 15 := by
  decide
theorem wit_TablesSwitched : (hst id id).wq = [] ∧ (hst id id).heldLines [4096 * ((hst id id).cmdt 2).base.toNat / 128 + 1] = []
    ∧ ((hst (fun c => { c with en := true }) id).cmdt 2).en = true ∧ ((hst (fun c => { c with en := true, state := 1 }) id).cmdt 2).state = 1
    ∧ ((hst (fun c => { c with en := true, state := 1, busy := true }) id).cmdt 2).busy = true ∧ ((hst id id).cmdt 2).busy = false
    ∧ ((hst (fun c => { c with busy := true }) id).cmdt 2).busy = true ∧ ((hst (fun c => { c with busy := true }) id).cmdt 2).en = false := by decide
theorem wit_CxlAccesses : (hst id id).worldOk false 0x10000 false = true ∧ (hst id id).worldOk false 0x10000 true = true
    ∧ ({ hst id id with world := { Worlds.reset with mapBase := 0x10000 } } : State).worldOk true 0x10000 true = false
    ∧ ({ hst id id with world := { Worlds.reset with mapBase := 0x10000 } } : State).worldOk false 0x10000 false = false
    ∧ 0x10000 / 64 * 64 + 64 ≤ 2 ^ 39 ∧ ¬ (2 ^ 39 + 64 ≤ 2 ^ 39 ∨ (2 ^ 40 ≤ 2 ^ 39 ∧ 2 ^ 39 + 64 ≤ 2 ^ 40 + 2 ^ 30 * min 3072 64))
    ∧ Store.get false (hst id fun h => { h with cachedSet := [(2 ^ 40, true)] }).host.cachedSet (2 ^ 40) = true ∧ Store.get false (hst id id).host.cachedSet 5 = false
    ∧ isHost (128 * 2 ^ 44) = true ∧ isHost (128 * 5) = false
    ∧ (hst id fun h => { h with biWait := [(512, [.loopBoundary])] }).host.biWait.find? (fun w => w.1 = 512) = some (512, [.loopBoundary])
    ∧ (hst id id).heldLines (linesOf 0x10000 4) = [] ∧ (hst id fun h => { h with held := [(512, true)] }).heldLines (linesOf 0x10000 4) ≠ []
    ∧ (hst id id).host.wbWait = [] ∧ 0x10000 % 64 + 4 ≤ 64 ∧ (hst id id).pwr.phase = 8 := by decide
theorem wit_Spdm : (hst id fun h => { h with negotiated := true }).host.negotiated = true ∧ (hst id id).host.negotiated = false ∧ (hst id fun h => { h with keyed := true }).host.keyed = true
    ∧ (hst id id).host.keyed = false ∧ (hst id fun h => { h with session := true }).host.session = true ∧ (hst id id).host.session = false ∧ (List.replicate 64 (0 : Byte)).length = 64
    ∧ (hst id id).pwr.phase = 8 ∧ 5 ≤ (5 : BitVec 3).toNat ∧ (4 : BitVec 3).toNat < 5 := by decide

/-- A secure supervisor; the bitmap at 0x200000. -/
def world : State := { st with world := { Worlds.reset with clusters := 0xFFFFFF, mapBase := 0x200000 }, pwr := { st.pwr with tierGib := 64 }, c := { strand with sv := true } }
theorem wit_WorldsSet : world.secure = true ∧ blocksOf 0 ≤ 24 ∧ 23 < blocksOf 0 ∧ world.blockBusy 0 0 = true ∧ world.blockBusy 0 23 = false ∧ world.blockBusy 4 15 = false
    ∧ world.world.mapBase ≠ 0 ∧ st.world.mapBase = 0 ∧ world.regionBacked 0 = true ∧ world.regionBacked (2 ^ 21 - 1) = false ∧ world.heldLines (world.regionLines 0) = [] ∧ world.wq = []
    ∧ (hostHolds (0x200000 / 128) world).heldLines ((hostHolds (0x200000 / 128) world).regionLines 0) ≠ []
    ∧ (world.byte 0x200000).getLsbD 0 = (0 : DWord).getLsbD 63 ∧ (world.byte 0x200000).getLsbD 0 ≠ (0x8000000000000000 : DWord).getLsbD 63 := by decide
theorem wit_BuffersZeroed : st.ranks.find? (fun e => e.2.placed && decide (e.2.slot = 0) && e.2.domain.contains (7 / 8)) = some (0, rk) ∧ isDev (2 ^ 21) = true ∧ st.heldIn 0 (2 ^ 21) = [] := by decide

/-- Table 2, secure or not, and a rank. -/
def tab (sec : Bool) (r : Rank) : State := { hst (fun c => { c with secure := sec, en := true }) id with ranks := [(0, r)], tlb1 := st.tlb1 }
def rcd (a0 a1 a2 : DWord) : CmdRec := ⟨2, false, 0, 0, a0, a1, a2, 0, 0, none⟩

theorem wit_RankRecords : ((tab true rk).cmdt 2).secure = true ∧ ((tab false rk).cmdt 2).secure = false ∧ ((tab true rk).rank 0).st = .hot ∧ ((tab true Rank.reset).rank 0).st ≠ .hot
    ∧ (rcd 4095 255 31).a0.toNat < 4096 ∧ (rcd 4095 255 31).a1.toNat < 256 ∧ 4096 ≤ (rcd 4096 0 0).a0.toNat
    ∧ (∃ f, (tab true rk).launchCheck ((tab true rk).asRank 0) 0x90000 false = .error f)
    ∧ (∃ x, (tab true rk).launchCheck ((tab true rk).asRank 0) 0x10100 false = .ok x)
    ∧ ({ tab false rk with world := { Worlds.reset with clusters := 0xFFFFFF } } : State).secureCluster (rk.dom).toNat = true
    ∧ (rcd 0 0 0).fwd = false ∧ ({ rcd 0 0 0 with fwd := true } : CmdRec).fwd = true ∧ ((tab true Rank.reset).rank 0).st = .absent
    ∧ ((tab true { rk with st := .incoming }).rank 0).st = .incoming := by
  refine ⟨?_, ?_, ?_, ?_, ?_, ?_, ?_, err_of ?_, ok_ex ?_, ?_, rfl, rfl, ?_, ?_⟩ <;> decide

theorem wit_ParkBegins : ((tab true rk).rank 0).league = none ∧ (tab true rk).tierRun ((tab true rk).secureCluster 0) (2 ^ 20) ≠ none
    ∧ 65536 * (pageAddrs ((tab true rk).mapped 0)).length + 1 * 1 * (1 * 2 ^ 20) = 2 ^ 20
    ∧ ({ tab true rk with pwr := { st.pwr with tierGib := 0 } } : State).tierRun false (2 ^ 20) = none ∧ (tab true rk).still 0 = false ∧ rk.heldRelease = false := by decide

def cold : Rank := { rk with st := .cold, dist := List.replicate 65 0xFF, pages := [⟨0x10000, 0x10000000000, 0x10000, 7⟩] }
theorem wit_RecallBegins : ((tab true cold).rank 0).st = .cold ∧ (tab true cold).placeStatus 0 23 1 1 1 false false cold.dist = 0
    ∧ (tab true cold).placeStatus 0 23 2 1 1 false false cold.dist ≠ 0
    ∧ (tab true cold).hbmRun false (tableBytes [0x10000] + 65536) ≠ none ∧ (tab true cold).hbmRun false (2 ^ 39) = none
    ∧ lowestRun 1 0 (((tab true cold).allotments 0 23).map fun e => (e.2.csBase, e.2.csMib)) = some 0 := by decide
theorem wit_MigrationAsked : let s := chn (fun c => { c with st := .opened }) [] 0
    (s.rank 0).st = .hot ∧ (s.rank 0).league = none ∧ (s.chan 5).st = .opened ∧ (s.chan 5).peer = 9 ∧ (s.chan 6).st ≠ .opened := by decide

def lg (step : LeagueStep) : League := League.new step (asker 2) 0
def rkl (x : RankState) (step : LeagueStep) : Rank := { rk with st := x, league := some (lg step) }
theorem wit_EndBegins : (tab true Rank.reset).rank 0 = Rank.reset ∧ ((tab true { rk with st := .ending }).rank 0).st = .ending
    ∧ ((tab true (rkl .outgoing .commit)).rank 0).league = some (lg .commit) ∧ (lg .commit).step = .commit ∧ ((tab true (rkl .incoming .transfer)).rank 0).st = .incoming
    ∧ (tab true rk).engineBusy 0 = false ∧ (tab true rk).strands 0 ≠ [] ∧ ({ tab true rk with c := Ctx.reset } : State).strands 0 = [] := by decide
theorem wit_RankEnds : let s : State := { tab true { rk with st := .ending, ends := [asker 2] } with c := Ctx.reset }
    (s.rank 0).st = .ending ∧ s.strands 0 = [] ∧ (s.rank 0).ends = [asker 2] ∧ s.wq = [] ∧ (tab true { rk with st := .ending }).strands 0 ≠ []
    ∧ s.heldLines (s.vacateLines 0) = [] ∧ (hostHolds (s.mapLoc 0 / 128) s).heldLines ((hostHolds (s.mapLoc 0 / 128) s).vacateLines 0) ≠ [] := by decide
theorem wit_OperationsReport : st.heldLines (linesOf 0x10000 16 ++ (some 0x10200).toList.flatMap fun o => linesOf o 8) = []
    ∧ (hostHolds 512 st).heldLines (linesOf 0x10000 16 ++ (some 0x10200).toList.flatMap fun o => linesOf o 8) ≠ [] := by decide

theorem wit_ChannelRecord : 256 ≤ (rcd 256 0 0).a0.toNat ∧ 8 ≤ (rcd 0 0 8).a2.toNat ∧ ((tab true rk).chan 5).st = .closed
    ∧ ({ tab false rk with world := { Worlds.reset with wports := 8 } } : State).secureChan 8 0 = true ∧ (chn (fun c => { c with st := .opened }) [] 0).chan 5 ≠ Chan.reset := by decide
theorem wit_WorldRecord : 5 < (rcd 6 0 0).a0.toNat ∧ 1 < (rcd 0 0 2).a2.toNat ∧ blocksOf 4 ≤ 16 ∧ 15 < blocksOf 4 ∧ (tab true rk).blockBusy 0 0 = true
    ∧ (tab true rk).blockBusy 4 15 = false ∧ (tab true rk).world.mapBase = 0 ∧ 0 < 2 ^ 21
    ∧ world.regionBacked 0 = true ∧ world.heldLines (world.regionLines 0) = [] := by decide

/-- An image of one code section without bytes, at 0x20000. -/
def dirEnt (kind fl off size va mem : Nat) : List Byte := le 2 kind ++ le 2 fl ++ le 4 0 ++ le 8 off ++ le 8 size ++ le 8 va ++ le 8 mem
def image : List Byte := le 4 0x4B4E4152 ++ le 2 1 ++ le 2 4 ++ le 4 1 ++ le 4 0 ++ [1, 1, 0, 1] ++ le 4 0 ++ le 8 0 ++ List.replicate 32 0
  ++ dirEnt 1 7 1024 0 0x10000 0x10000 ++ dirEnt 3 0 256 65 0 0 ++ dirEnt 4 0 400 0 0 0 ++ dirEnt 5 0 512 512 0 0 ++ List.replicate 32 0 ++ List.replicate 65 0xFF
def img : Image := ⟨1, 0, 1, 1, 0, 1, false, 0, [⟨1, 7, 1024, 0, 0x10000, 0x10000, true⟩, ⟨3, 0, 256, 65, 0, 0, true⟩, ⟨4, 0, 400, 0, 0, 0, true⟩,
  ⟨5, 0, 512, 512, 0, 0, true⟩]⟩
def ldr : State := { tab true Rank.reset with ranks := [], mem := Store.setRange 0 [] 0x20000 image, world := { Worlds.reset with clusters := 0xFFFFFF } }
theorem wit_LoadBegins : 65536 ≤ ({ rcd 0 0 0 with rank := 65536 } : CmdRec).rank.toNat ∧ ldr.image 0x20000 1024 = some img ∧ ldr.image 0x30000 1024 = none
    ∧ ldr.segTable 0x20000 img = some [] ∧ 0 < img.v ∧ img.v ≤ 1 ∧ img.job = 0 ∧ (ldr.rank 0).st = .absent
    ∧ (∃ e ∈ ({ ldr with ranks := [(3, { rk with job := 5 })] } : State).ranks, e.2.st ≠ .absent ∧ e.2.job ≠ img.job) ∧ (∀ e ∈ ldr.ranks, e.2.st = .absent ∨ e.2.job = img.job)
    ∧ ldr.placeStatus 0 23 1 1 1 false true (ldr.bytesNow (0x20000 + 256) 65) = 0 ∧ ldr.placeStatus 0 23 1 1 1 false true [] ≠ 0
    ∧ ldr.hbmRun true (tableBytes ((pagesOf img.sects 0).map (·.va)) + 65536 * (pagesOf img.sects 0).length) ≠ none
    ∧ lowestRun 1 0 ((ldr.allotments 0 23).map fun e => (e.2.csBase, e.2.csMib)) = some 0
    ∧ ldr.segTable 0x20000 { img with sects := img.sects.map fun x => if x.kind = 4 then { x with size := 16 } else x } = none
    ∧ (ldr.cmdt 2).secure = true := by
  refine ⟨?_, ?_, ?_, ?_, ?_, ?_, ?_, ?_, ⟨_, List.mem_cons_self, ?_⟩, ?_, ?_, ?_, ?_, ?_, ?_, ?_⟩ <;> decide
theorem wit_LoadEnds : let r : Rank := { rkl .loading .load with league := some { lg .load with run := (0x20000, 1024) }, image := 0x20000, bytes := 0x20000 }
    let s : State := { ldr with ranks := [(0, r)] }
    let lines := linesOf (s.mapLoc 0) 8 ++ s.heldIn r.base r.bytes
    (s.rank 0).st = .loading ∧ (s.rank 0).league = r.league ∧ s.heldLines lines = [] ∧ (lg .load).who = asker 2 ∧ s.wq = []
    ∧ (st.rank 0).st ≠ .loading ∧ (hostHolds (s.mapLoc 0 / 128) s).heldLines lines ≠ [] := by decide
theorem wit_RecordsComplete : let f (c : Cmdt) : Cmdt := { c with en := true, done := some (0, 0), rcd := 0x40100, home := 0x40000 }; let s := hst f id
    (s.cmdt 2).done = some (0, 0) ∧ s.heldLines [(s.cmdt 2).rcd / 128, ((s.cmdt 2).home + 0x80) / 128] = [] ∧ s.wq = [] ∧ (s.cmdt 2).again = false
    ∧ (hst f fun h => { h with held := [(2049, true)] }).heldLines [2050, 2049] ≠ [] ∧ (s.cmdt 2).en = true ∧ 0x40000 + 0x84 ≤ 0x40100 := by decide
theorem wit_WorldsSet_due : let s : State := { world with world := { world.world with changes := [(0, true)] } }
    s.world.changes = [(0, true)] ∧ s.regionBacked 0 = true ∧ s.heldLines (s.regionLines 0) = [] ∧ s.wq = []
    ∧ (s.byte (s.world.mapBase.toNat / 65536 * 65536)).getLsbD 0 ≠ true := by decide
theorem wit_ChannelRecord_asked : let s : State := { tab false rk with world := { Worlds.reset with wports := 8 } }
    (s.chan 5).st = .closed ∧ s.secureChan (s.chan 5).cports (s.chan 5).domains = false
    ∧ s.secureChan ((rcd 5 0x0000008000000000 0).a1.extractLsb' 36 16) ((rcd 5 0x0000008000000000 0).a1.extractLsb' 12 24) = true := by decide
/-- A rank of one domain whose page tables stand in its own run, and whose page does not. -/
def ended : State := { tab true { rk with st := .ending, ends := [asker 2], ptRoot := 0x40000, base := 0x40000, bytes := 0x20000 } with
  c := Ctx.reset, mem := (tables 0x50001 0x51001 0x52001 0x20001F).mem }
theorem wit_RankEnds_places : NoReds ended ∧ ended.eventsOf 0 = [] ∧ ended.strands 0 = [] ∧ (ended.rank 0).ptRoot ≠ 0
    ∧ (0x200000 ∈ pageAddrs (ended.mapped 0)) ∧ isDev 0x200000 = true ∧ (∀ b ∈ ended.runs, b.2 = 0 ∨ 0x200000 < b.1 ∨ b.1 + b.2 ≤ 0x200000)
    ∧ (0 : Nat) ∈ domClusters (ended.rank 0).dom.toNat (ended.rank 0).shapeX (ended.rank 0).shapeY
    ∧ (ended.mapLoc 0 + 8 ≤ (ended.rank 0).base) ∧ 0 < (ended.rank 0).csMib :=
  ⟨noReds_of rfl rfl, by decide, by decide, by decide, by decide, by decide, by decide, by decide, by decide, by decide⟩
theorem wit_EndBegins_hot : (tab true rk).orphans 0 = [] ∧ rk.queue = [] ∧ (tab true rk).engineBusy 0 = false ∧ rk.league = none ∧ rk.st = .hot := by decide
/-- A load of a section of 4 bytes into a run at 0x10000000, its page tables at the run's start. -/
def loading' : State :=
  let img := image.set (128 + 16) 4
  { ldr with
    mem := Store.setRange 0 (Store.setRange 0 [] 0x20000 img) 0x20400 [1, 2, 3, 4]
    ranks := [(0, { rkl .loading .load with
      league := some { lg .load with run := (0x10000000, 1028) }, image := 0x20000, base := 0x10000000, bytes := 0x40000
      pages := [⟨0x10000, 0x10000000 + tableBytes [0x10000], 0x10000, 7⟩] })] }
theorem wit_LoadEnds_places : let s := loading'; let r := s.rank 0
    let inRun (a n : Nat) : Prop := r.base ≤ a ∧ a + n ≤ r.base + r.bytes
    NoReds s ∧ (s.mapLoc 0 + 8 ≤ r.base) ∧ r.base % 128 = 0 ∧ r.bytes % 128 = 0
    ∧ (∀ p ∈ s.sectionPieces r 1028, inRun p.1 p.2.length) ∧ (∀ x ∈ tableEntries r.base r.pages, inRun x.1 8)
    ∧ (tableEntries r.base r.pages).length = 4 ∧ s.heldLines (linesOf (s.mapLoc 0) 8 ++ s.heldIn r.base r.bytes) = [] :=
  ⟨noReds_of rfl rfl, by decide, by decide, by decide, by decide, by decide, by decide, by decide⟩

/-! ## Moves of ranks -/

def req : MigReq := ⟨0, 9, 4, 5, 23, 1, 1, 1, false, 0, 1, List.replicate 64 0xFF, [0xFF]⟩
theorem wit_Requests : (tab true Rank.reset).requestStatus req (65536 + 65536 * ((12288 * req.pages + 65535) / 65536) + 65536 * req.pages) = (0, 0x4000000000)
    ∧ ((tab true rk).requestStatus req 65536).1 = 8 ∧ lowestRun 1 0 (((tab true Rank.reset).allotments 0 23).map fun e => (e.2.csBase, e.2.csMib)) = some 0
    ∧ (∃ e ∈ (tab true { rk with job := 5 }).ranks, e.2.st ≠ .absent ∧ e.2.job ≠ req.job) ∧ ((tab true rk).rank 3).st = .absent
    ∧ (∀ e ∈ (tab true Rank.reset).ranks, e.2.st = .absent ∨ e.2.job = req.job)
    ∧ (tab true Rank.reset).placeStatus 0 23 2 1 1 false false req.dslice ≠ 0 ∧ (tab true Rank.reset).hbmRun false (2 ^ 39) = none :=
  ⟨by decide, by decide, by decide, ⟨_, List.mem_cons_self, by decide⟩, by decide, by decide, by decide, by decide⟩

/-- A rank that moves. -/
def mov (x : RankState) (f : League → League) (r : Rank → Rank) : State := tab true (r { rk with st := x, league := some (f (lg .request)) })
theorem wit_Moves : (∀ x ∈ [RankState.parking, .outgoing, .recalling, .incoming, .loading], ((mov x id id).rank 0).st = x ∧ ((mov x id id).rank 0).league = some (lg .request))
    ∧ (∀ x ∈ [LeagueStep.precopy, .quiesce, .hold, .snapshot, .transfer, .commit, .recall], ∃ l, ((mov .outgoing (fun l => { l with step := x }) id).rank 0).league = some l ∧ l.step = x)
    ∧ (lg .hold).who = asker 2 ∧ (lg .hold).co = none
    ∧ (chn (fun c => { c with st := .opened }) [] 0).chan 5 ≠ Chan.reset ∧ ((mov .outgoing id id).chan 5).st = .closed
    ∧ ((mov .parking id id).rank 0).saved = [] ∧ ((mov .parking id id).rank 0).heldRelease = false ∧ (mov .parking id id).wq = []
    ∧ (mov .parking id id).heldLines [(mov .parking id id).mapLoc 0 / 128] = [] ∧ (tab true rk).fab.holds = [] ∧ (1 : BitVec 8) ≠ 0 := by
  refine ⟨by decide, ?_, by and_intros <;> decide⟩
  intro x hx
  exact ⟨_, rfl, rfl⟩

theorem wit_RoundsEnd : (0 : Nat) < 65536 * (tab true rk).sched.precopyStop.toNat ∧ 65536 * (tab true rk).sched.precopyStop.toNat ≤ 65536 * 1024 ∧ (lg .precopy).round < 8
    ∧ (lg .precopy).failed = none ∧ (∀ x ∈ (mov .outgoing (fun l => { l with step := .precopy }) id).fab.xfers, x.what ≠ .league 0 (lg .precopy).id)
    ∧ (¬ ∀ x ∈ (chn id [{ xf with what := .league 0 (lg .precopy).id }] 0).fab.xfers, x.what ≠ .league 0 (lg .precopy).id) ∧
    (chn (fun c => { c with st := .opened }) [] 0).chan 5 = cend (fun c => { c with st := .opened }) ∧ (mov .outgoing (fun l => { l with step := .precopy }) id).still 0 = false := by decide
theorem wit_HoldsArrive : (tab true rk).heldLines [(tab true rk).mapLoc 0 / 128] = [] ∧ (tab true rk).wq = [] ∧ (tab true rk).fab.holds = []
    ∧ (hostHolds ((tab true rk).mapLoc 0 / 128) (tab true rk)).heldLines [(tab true rk).mapLoc 0 / 128] ≠ [] ∧ (∀ c ∈ (tab true rk).colls, c.owes 0 = false) ∧ (∀ x ∈ (tab true rk).fab.xfers, x.dest ≠ 0) ∧ (∃ x ∈ (chn id [xf] 0).fab.xfers, x.dest = 0)
    ∧ (∃ c ∈ ({ st with colls := [{ coll0 with started := true, nbrs := [(0, 1)], party := 1, rank := 1, own := some [], result := none }] } : State).colls, c.owes 0 = true) := by decide

/-- A park that waits for chip 9, its one strand at a pre-emption point. -/
def holding (ws : List (BitVec 12)) (c : Ctx) : State := { mov .parking (fun l => { l with step := .hold, waiting := ws }) id with c }
theorem wit_HoldsAnswered : (9 : BitVec 12) ∈ [(9 : BitVec 12), 8] ∧ (8 : BitVec 12) ∉ [(9 : BitVec 12)] ∧ [(9 : BitVec 12), 8].filter (· ≠ 9) ≠ [] ∧ [(9 : BitVec 12)].filter (· ≠ 9) = []
    ∧ (holding [9] Ctx.reset).strands 0 = [] ∧ (holding [9] { strand with bound := true }).strands 0 = [(0, { strand with bound := true })]
    ∧ (holding [9] { strand with bound := true }).atPoint { strand with bound := true } = true ∧ (holding [9] strand).atPoint strand = false
    ∧ (holding [9] { strand with bound := true }).ctx 0 = { strand with bound := true } ∧ 0 / 8 = strand.seq
    ∧ (holding [9] { strand with bound := true }).quiet 0 { strand with bound := true } = true ∧ (holding [9] strand).feq = []
    ∧ ((holding [9] strand).seqOf strand.seq).swapTo = none ∧ (holding [9] Ctx.reset).orphans 0 = [] ∧ (holding [9] strand).orphans 0 = []
    ∧ (holding [9] strand).waitingFor 0 = false
    ∧ (lg .hold).at_ + max 1 (holding [9] strand).fab.timeout.toNat ≤ ({ holding [9] strand with time := 0xFFFFFFFFF } : State).time.toNat := by decide
theorem wit_Commits : (lg .commit).late = none ∧ ((mov .outgoing (fun l => { l with step := .commit, waiting := [9] }) id).rank 0).ends = []
    ∧ (lg .commit).at_ + max 1 (tab true rk).fab.timeout.toNat ≤ (0xFFFFFFFFF : DWord).toNat ∧ ¬ (lg .commit).at_ + max 1 (tab true rk).fab.timeout.toNat ≤ (tab true rk).time.toNat
    ∧ (tab true rk).heldLines ((tab true rk).vacateLines 0) = []
    ∧ (hostHolds ((tab true rk).mapLoc 0 / 128) (tab true rk)).heldLines ((hostHolds ((tab true rk).mapLoc 0 / 128) (tab true rk)).vacateLines 0) ≠ [] := by
  decide
theorem wit_IncomingGivenUp : let s : State := { mov .incoming id id with time := 0xFFFFFFFFF }
    (s.rank 0).st = .incoming ∧ (lg .request).kept + max 1 s.fab.timeout.toNat ≤ s.time.toNat
    ∧ ¬ (lg .request).kept + max 1 (mov .incoming id id).fab.timeout.toNat ≤ (mov .incoming id id).time.toNat := by decide

def pg : Page := ⟨0x10000, 0x10000, 0x10000, 7⟩
def brought : Moved := ⟨{ rk with pages := [pg] }, [], [], [], [], []⟩
theorem wit_EntriesArrive_waits : let s (x : RankState) (f : Fabric) : State := { mov x id fun r => { r with base := 0x200000, bytes := 0x30000 } with fab := f }
    let t := s .incoming { Fabric.reset with arrived := [(0, some brought)] }
    (t.rank 0).st = .incoming ∧ Store.get none t.fab.arrived 0 = some brought ∧ (t.rank 0).ends = [] ∧ isDev pg.pa = true
    ∧ t.heldLines ([t.mapLoc 0 / 128] ++ t.heldIn (t.rank 0).base (t.rank 0).bytes) = [] ∧ t.wq = []
    ∧ Store.get none (s .hot Fabric.reset).fab.before 0 = none ∧ (s .hot Fabric.reset).heldLines [(s .hot Fabric.reset).mapLoc 0 / 128] = []
    ∧ Store.get none (s .hot { Fabric.reset with before := [(0, some 7)] }).fab.before 0 = some 7 ∧ (3 : DWord).toNat % 4 ≠ 1
    ∧ (hostHolds (t.mapLoc 0 / 128) t).heldLines [t.mapLoc 0 / 128] ≠ [] := by decide
theorem wit_EntriesArrive : (1 : DWord).toNat % 4 = 1 ∧ brought.rank.pages = [pg] ∧ brought.rank.heldRelease = false ∧ pg.size = 65536 ∧ pg.pa % 65536 = 0 ∧ pg.va < 2 ^ 52
    ∧ brought.cs = [] ∧ 0x200000 % 65536 = 0 ∧ 0x200000 + tableBytes [pg.va] + 65536 ≤ 2 ^ 51 := by decide

theorem wit_ParkEnds : let r : Rank := { rk with st := .parking, pages := [pg], base := 0x10000, bytes := 0x20000
                                                 league := some { lg .transfer with run := (0x10000000000, 0x110000) } }
    let s := tab true r
    (s.rank 0).league = some { lg .transfer with run := (0x10000000000, 0x110000) } ∧ s.mapped 0 = [pg] ∧ s.wq = [] ∧ 0x110000 = r.coldBytes [pg] ∧ r.base + r.bytes ≤ 2 ^ 51
    ∧ s.heldLines (s.vacateLines 0) = [] ∧ (hostHolds (s.mapLoc 0 / 128) s).heldLines ((hostHolds (s.mapLoc 0 / 128) s).vacateLines 0) ≠ []
    ∧ (lg .transfer).who = asker 2 ∧ isDev pg.pa = true ∧ Apart (s.mapLoc 0) 8 pg.pa 65536
    ∧ r.base % 128 = 0 ∧ r.bytes % 128 = 0 ∧ Apart pg.pa 65536 0x10000000000 0x110000 ∧ Apart r.base r.bytes 0x10000000000 0x110000
    ∧ Apart (s.mapLoc 0) 8 0x10000000000 0x110000 ∧ Apart (s.mapLoc 0) 8 r.base r.bytes ∧ s.mapLoc 0 + 8 ≤ 2 ^ 52 := by
  simp only [Apart]; decide
theorem wit_RecallEnds : let p : Page := { pg with pa := 0x10000000000 }
    let r : Rank := { rk with st := .recalling, pages := [p], base := 0x10000000000, bytes := 0x110000, league := some { lg .recall with run := (0x200000, 0x30000) } }
    let s := tab true r
    (s.rank 0).league = some { lg .recall with run := (0x200000, 0x30000) } ∧ p.pa % 65536 = 0 ∧ 0x200000 % 65536 = 0 ∧ p.pa + 65536 ≤ 2 ^ 51 ∧ 0x200000 + 0x30000 ≤ 2 ^ 51
    ∧ 0x30000 = tableBytes [p.va] + 65536 ∧ isDev p.pa = true ∧ s.heldLines (s.vacateLines 0 ++ s.heldIn 0x200000 0x30000) = [] ∧ r.base = p.pa ∧ 65536 ≤ r.bytes ∧ r.base + r.bytes ≤ 2 ^ 51 ∧ r.bytes % 128 = 0 ∧ Apart r.base r.bytes 0x200000 0x30000
    ∧ Apart (s.mapLoc 0) 8 0x200000 0x30000 ∧ Apart (s.mapLoc 0) 8 r.base r.bytes ∧ s.mapLoc 0 + 8 ≤ 2 ^ 52 := by
  simp only [Apart]; decide

/-! ## The scheduler -/

def lnch : Launch := ⟨7, 0x10000, 2, 1, 1, 1, 1, 0, 64, 0x10100, false, 0, 0, false, 0, List.replicate 16 0, [], 0⟩
def que (c : Ctx) (r : Rank → Rank) : State := { st with c, ranks := [(0, r { rk with queue := [lnch] })] }
theorem wit_StrandGranted : (que Ctx.reset id).ranks.find? (fun e => e.2.placed && decide (e.2.slot = 0) && e.2.domain.contains (0 / 32)) = some (0, { rk with queue := [lnch] })
    ∧ (que Ctx.reset id).rank 0 = { rk with queue := [lnch] } ∧ ({ rk with queue := [lnch] } : Rank).coreAt 0 = 0 / 4 ∧ ((que Ctx.reset id).ctx 0).live = false
    ∧ ((que strand id).ctx 0).live = true ∧ ({ rk with queue := [lnch] } : Rank).grants = true ∧ (que Ctx.reset id).chooseLaunch { rk with queue := [lnch] } 0 = some lnch
    ∧ (que Ctx.reset id).chooseLaunch rk 0 = none ∧ lnch.strandFor 8 0 = some 0 ∧ lnch.args.length = 16 ∧ (que Ctx.reset id).depMet lnch = true
    ∧ ({ st.sched with ageStep := 1 } : Sched).ageStep ≠ 0 ∧ lnch.at_ ≤ st.time.toNat := by decide

def swp (f : Seq → Seq) (c : Ctx) : State := { st with seqs := [(0, f { Seq.reset with active := some 0, want := some 1, shadow := some 1 })], c, ctxs := [(1, strand)] }
theorem wit_ShadowSwaps : (swp id strand).swapReady 0 = false ∧ (swp id { strand with bound := true }).swapReady 0 = true
    ∧ ((swp (fun q => { q with swapTo := some 1 }) strand).seqOf 0).swapTo = some 1 ∧ (swp id strand).tableOf 0 = none
    ∧ ((swp (fun q => { q with active := none }) Ctx.reset).seqOf 0).active = none ∧ ((swp (fun q => { q with filling := some 2 }) strand).seqOf 0).filling = some 2
    ∧ (swp id { strand with bound := true }).quiet 0 { strand with bound := true } = true ∧ (swp id strand).atPoint strand = false
    ∧ ((swp (fun q => { q with minres := 9 }) strand).seqOf 0).minres = 9 ∧ st.time.toNat < 9 := by decide
theorem wit_Buckets : let s (n : BitVec 4) : State := { st with sched := { Sched.reset with tbSel := n } }
    (s 0).sched.tbSel.toNat % 4 < 3 ∧ (s 3).sched.tbSel.toNat % 4 = 3 ∧ st.isDom 0 = true ∧ ({ st with ranks := [] } : State).isDom 0 = false := by decide
def tt : Timetable := ⟨[(0, 2), (1, 3)], [], [], 0⟩
theorem wit_Timetables : tt.now 32 = (1, 1, 32, 80) ∧ tt.now 80 = (0, 0, 80, 112) ∧ tt.start ≤ 79 ∧ 1 < tt.slots.length ∧ 32 ≤ (79 - tt.start) % 80 ∧ (79 - tt.start) % 80 < 80
    ∧ ({ st with sched := { Sched.reset with doms := [(0, { Dom.reset with tt := some tt, pending := some tt })] } } : State).domOf 0 = { Dom.reset with tt := some tt, pending := some tt } := by decide
/-- Sequencer 0 runs slot 0 by its domain's timetable, at a pre-emption point or inside a segment; the domain's mode may have changed. -/
def modal (m : Bool) (b : Bool) : State := { stc fun c => { c with bound := b } with
  seqs := [(0, { Seq.reset with active := some 0, mode := true })], sched := { Sched.reset with doms := [(0, { Dom.reset with mode := m })] } }
theorem wit_DomainsKept : st.ranks.find? (fun e => e.2.placed && decide (e.2.dom.toNat = 0)) = some (0, rk) ∧ ({ st with ranks := [] } : State).isDom 0 = false
    ∧ (∃ e ∈ (modal true true).seqs, e.2.mode = true ∧ e.2.active ≠ none ∧ e.1 / 32 ∈ rk.domain)
    ∧ ¬ (∃ e ∈ st.seqs, e.2.mode = true ∧ e.2.active ≠ none ∧ e.1 / 32 ∈ rk.domain) ∧ (st.domOf 0).tt = none
    ∧ (1 : DWord).getLsbD 0 = true ∧ (2 : DWord).getLsbD 0 = false := by decide
theorem wit_ModeFollowed : (modal true true).domainAt 0 = some (0, [0]) ∧ ((modal true true).seqOf 0).mode = ((modal true true).domOf 0).mode
    ∧ ((modal false true).seqOf 0).mode ≠ ((modal false true).domOf 0).mode ∧ ((modal false true).seqOf 0).active = some 0
    ∧ (modal false true).atPoint ((modal false true).ctx 0) = true ∧ (modal false false).atPoint ((modal false false).ctx 0) = false := by decide
theorem wit_Tokens : st.unmet 0 = false ∧ st.c.resident = false ∧ st.funded 0 = true ∧ (st.seqOf 0).active = some 0
    ∧ (∀ j ∈ [1, 2, 3, 4], (stc fun c => { c with wait := some (.time 9) }).qualifies 0 true ((0 + j) % 5) = false) ∧ (stc fun c => { c with wait := some (.time 9) }).unmet 0 = true
    ∧ ({ stc (fun c => { c with wait := some (.time 9) }) with ctxs := [(2, strand)] } : State).qualifies 0 true ((0 + 2) % 5) = true
    ∧ ({ stc (fun c => { c with wait := some (.time 9) }) with ctxs := [(2, strand)] } : State).qualifies 0 true ((0 + 1) % 5) = false := by decide
/-- Channel 5, open to node 9 under PGEN 4, with domain 23. -/
def opened5 (s : State) : State := { s with fab := { s.fab with
  chans := [(5, { Chan.reset with peer := 9, cports := 8, domains := 0x800000, st := .opened, admits := true, gen := 4 })] } }
theorem wit_Admits : Admits (opened5 (tab true rk)) ⟨9, 4⟩ ∧ ¬ Admits (opened5 (tab true rk)) ⟨9, 3⟩ ∧ ¬ Admits (tab true rk) ⟨9, 4⟩
    ∧ (∃ x ∈ (opened5 (tab true rk)).fab.chans, (x.2.st = .opened ∨ x.2.st = .fencing) ∧ x.2.admits = true
      ∧ x.2.peer = req.src ∧ x.2.gen = req.gen ∧ x.2.domains.getLsbD req.dom.toNat = true) := by unfold Admits; decide
theorem wit_Admits_given : NoReds (mov .incoming id id) ∧ NoReds (opened5 (mov .incoming id id)) ∧ ((opened5 (mov .incoming id id)).rank 0).st = .incoming
    ∧ (opened5 (mov .incoming id id)).heldLines ((opened5 (mov .incoming id id)).vacateLines 0) = []
    ∧ (mov .incoming id id).heldLines ((mov .incoming id id).vacateLines 0) = [] ∧ (lg .request).late = none := ⟨noReds_of rfl rfl, noReds_of rfl rfl, by decide, by decide, by decide, by decide⟩
theorem wit_DestinationAnswers : let s := mov .hot id fun r => { r with pages := [pg] }
    (s.rank 0).st = .hot ∧ (s.rank 0).league = some (lg .request) ∧ (lg .request).step = .request ∧ (lg .request).co = none ∧ s.mapped 0 = [pg]
    ∧ isDev pg.pa = true ∧ pg.pa % 65536 = 0 ∧ (s.chan (lg .request).chan).st = .closed
    ∧ ((chn (fun c => { c with st := .opened }) [] 0).chan 5).st = .opened ∧ ((chn (fun c => { c with st := .fencing }) [] 0).chan 5).st = .fencing := by decide
theorem wit_PacketsLand_moved : let s := opened5 (mov .incoming id id); let p : Packet := { pkt with body := .league 0 (some brought), dom := 23 }
    s.seen p = false ∧ p.body.size ≤ 256 ∧ (∀ x ∈ s.fab.ins, ¬ (x.src = p.src ∧ x.id = p.xfer)) ∧ p.last = true ∧ p.part = 0
    ∧ (s.rank p.rank).st = .incoming := by decide

/-! ## Faults, and the step -/

def prc (ws : List Nat) : Perch := ⟨0, 0, 4, [⟨0, 8, false, none⟩], ws, false, 0⟩
def pst (ws : List Nat) : State := { st with perch := [(63, some (prc ws))], prot := { st.prot with window := 16, log := 0x20000 } }
theorem wit_Lines : (pst []).perchOf 63 = some (prc []) ∧ st.perchOf 63 = none ∧ (pst [0]).perchOf 63 = some (prc [0]) ∧ (pst [0]).prot.window.toNat ≠ 0
    ∧ (prc [0]).at_ + (pst [0]).prot.window.toNat ≤ ({ pst [0] with time := 16 } : State).time.toNat ∧ (pst [0]).time.toNat < (prc [0]).at_ + (pst [0]).prot.window.toNat
    ∧ (pst [0]).heldLines (linesOf (0x20000 + 1024 * 63) 1024) = [] ∧ (prc [0]).rank < 65536 ∧ ((prc [0]).dests.map (·.left)).sum < 2 ^ 64 := by decide

/-- ERRINJ: target, core 0, sequencer 0, INDEX 5, LANE 3, bit 31, and a mode. -/
def inj (tgt mode : Nat) : DWord := BitVec.ofNat 64 (tgt * 2 ^ 60 + 5 * 2 ^ 35 + 3 * 2 ^ 31 + 31 * 2 ^ 26 + mode)
theorem wit_ErrorsInjected : world.secure = true ∧ (∀ m ∈ [0, 1, 2], world.errTarget (errInjOf (inj 1 m)) = true ∧ (errInjOf (inj 1 m)).mode = m ∧ (errInjOf (inj 1 m)).tgt = 1)
    ∧ (errInjOf (inj 1 1)).lane < 16 ∧ world.errTarget (errInjOf (inj 2 1)) = true ∧ (errInjOf (inj 2 1)).index ≠ 0 ∧ (errInjOf (inj 2 3)).mode = 3
    ∧ world.errTarget (errInjOf (inj 8 1)) = false ∧ world.errTarget (errInjOf (inj 4 1)) = true := by decide

/-- A strand that has rewound n times to the point where it stands. -/
def snapped (n : Nat) : State := stc fun c => { c with snap := some ⟨c.toRegs, [], []⟩, rewinds := n }
theorem wit_Rewinds : (stc fun c => { c with live := false }).c.live = false ∧ st.c.live = true ∧ (snapped 0).c.snap = some ⟨strand.toRegs, [], []⟩
    ∧ (snapped 2).c.rewinds < 3 ∧ 3 ≤ (snapped 3).c.rewinds ∧ (2 : BitVec 3) ≠ 5 ∧ st.c.mark = false ∧ st.c.snap = none
    ∧ (stc fun c => { c with mark := true }).c.mark = true := by decide
theorem wit_ErrorsArise : (st.seqOf 0).active = some 0 ∧ (st.seqOf 1).active = none ∧ (st.ctx (8 * 0 + 0)).live = true := by decide
theorem wit_WaitsEnd : st.wq = [] ∧ ((stc fun c => { c with wait := some (.time 9) }).ctx 0).wait = some (.time 9) ∧ (st.ctx 0).wait = none
    ∧ (stc fun c => { c with wait := some (.time 9) }).waitMet 0 strand (.time 9) = false ∧ ({ st with time := 1 } : State).waitMet 0 strand (.time 0) = true := by decide
theorem wit_Translations : st.check st.c 0x10000 0 1 .write false = .ok 0x10000 ∧ (∃ f, st.check st.c 0x90000 0 1 .read false = .error f) ∧ inAperture 0x10000 = false :=
  ⟨ok_of (by decide), err_of (by decide), by decide⟩
theorem wit_Rows : let t (n : Nat) : Tracker := (List.range 16).map fun k => (k, n)
    (∀ e ∈ t 1, e.1 ≠ 99) ∧ 16 ≤ (t 1).length ∧ ([(3, 1)] : Tracker).length < 16 ∧ (t 64).find? (fun e => decide (e.1 = 5)) = some (5, 64)
    ∧ max 64 st.rmThresh.toNat ≤ 4095 + 1 ∧ 1 + 1 < max 64 st.rmThresh.toNat := by decide

/-- The bundle at 0x10000: a branch whose guard does not act. -/
def still : Decode.Bundle := ⟨⟨0, 0, false, false, false, false, 1⟩, [(0, .br off 0)], 8⟩

theorem next_ex {o : Host.Outcome State Fault Refusal} (h : (match o with
    | .next t => t.stall.isNone && t.trapped.isNone
    | _ => false) = true) : ∃ t, o = .next t ∧ t.stall = none ∧ t.trapped = none := by
  cases o with
  | next t =>
    have h : t.stall = none ∧ t.trapped = none := by simpa using h
    exact ⟨t, rfl, h⟩
  | fault _ => cases h
  | refused _ => cases h

theorem wit_MayIssue : MayIssue st 0 := by unfold MayIssue; decide
theorem wit_Fetches : FetchesBundle (turnState st 0) 0x10000 still := ⟨ok_of (by decide), by decide⟩
theorem wit_StepRuns : still.slots = [(0, .br off 0)] ∧ ((turnState st 0).fetched (turnState st 0).c.pc 0x10000).locked (.br off 0) = false
    ∧ (slotState (turnState st 0) 0x10000 still).stall = none ∧ actsAfter (.br off 0) = false ∧ (slotState (turnState st 0) 0x10000 still).mismatch still [st] = none ∧ (slotState (turnState st 0) 0x10000 still).spoilt = false := by decide

/-- A rank in protected mode whose twin's next signature is spoilt. -/
def twinned : State := { st with ranks := [(0, { rk with prot := true })], seqs := st.seqs ++ [(1, { Seq.reset with spoilt := true })] }
theorem wit_Mismatch : MayIssue twinned 0 ∧ (slotState (turnState twinned 0) 0x10000 still).spoilt = true
    ∧ (slotState (turnState twinned 0) 0x10000 still).mismatch still [st] = none
    ∧ (slotState (turnState twinned 0) 0x10000 still).stall = none := by unfold MayIssue; decide

/-- The bundles `ret s7`, where s7 is no address of a bundle, `launch s8` and `waitv s9, s10`, with a strand as f makes it. -/
def one (w : List Byte) (f : Ctx → Ctx) : State := { stc f with mem := Store.setRange 0 bytes0 0x10000 ([1, 0, 0, 0] ++ w) }
def returns (f : Ctx → Ctx) : State := one [0, 0x80, 3, 0x10] f
def launches (f : Ctx → Ctx) : State := one [0, 0, 4, 0x2C] f
def retBundle : Decode.Bundle := ⟨⟨0, 0, false, false, false, false, 1⟩, [(0, .ret go 7)], 8⟩
def launchBundle : Decode.Bundle := ⟨⟨0, 0, false, false, false, false, 1⟩, [(0, .launch go 8)], 8⟩
def watches (f : Ctx → Ctx) : State := one [0, 0x94, 4, 0x68] fun c => f { c with s := Store.set 0 c.s 9 0x10000 }
def watchBundle : Decode.Bundle := ⟨⟨0, 0, false, false, false, false, 1⟩, [(0, .waitv go 9 10)], 8⟩
/-- Its s8 has a faulty residue. -/
def faulty (c : Ctx) : Ctx := { c with bad := [(16, 1)] }
def inHandlers (c : Ctx) : Ctx := { c with tstat := 3 }
theorem wit_StepStops : MayIssue (returns inHandlers) 0 ∧ MayIssue (launches faulty) 0 ∧ MayIssue (waits0 (watches id)) 0 := by unfold MayIssue; decide
theorem wit_StepStops_fetch : FetchesBundle (turnState (returns inHandlers) 0) 0x10000 retBundle ∧ FetchesBundle (turnState (launches faulty) 0) 0x10000 launchBundle
    ∧ FetchesBundle (turnState (waits0 (watches id)) 0) 0x10000 watchBundle :=
  ⟨⟨ok_of (by decide), by decide⟩, ⟨ok_of (by decide), by decide⟩, ok_of (by decide), by decide⟩

theorem stops_ex {o : Host.Outcome State Fault Refusal} (p : State → Bool) (h : (match o with
    | .next t => p t
    | _ => false) = true) : ∃ t, o = .next t ∧ p t = true := by
  cases o with
  | next t => exact ⟨t, rfl, h⟩
  | fault _ => cases h
  | refused _ => cases h

theorem wit_StepTraps : ∃ t, exec (.ret go 7) { slotState (turnState (returns inHandlers) 0) 0x10000 retBundle with slot := 0 } = .next t
    ∧ (t.stall.isNone && t.trapped.any fun x => x.kind = 0) = true := stops_ex _ (by decide)
theorem wit_StepRewinds : ∃ t, exec (.launch go 8) { slotState (turnState (launches faulty) 0) 0x10000 launchBundle with slot := 0 } = .next t
    ∧ decide (t.stall = some .rewind) = true := stops_ex _ (by decide)
theorem wit_StepHolds : ∃ t, exec (.waitv go 9 10) { slotState (turnState (waits0 (watches id)) 0) 0x10000 watchBundle with slot := 0 } = .next t
    ∧ decide (t.stall = some .hold) = true := stops_ex _ (by decide)

/-- The bundle `sub s1, s2, s3` of a protected strand whose twin has another s2. -/
def split : State := { stc (fun c => { c with tw := [(4, 1)] }) with
  ranks := [(0, { rk with prot := true })], mem := Store.setRange 0 bytes0 0x10000 [4, 0, 0, 0, 0, 0x83, 0x10, 0x08] }
def subBundle : Decode.Bundle := ⟨⟨0, 0, false, false, false, false, 4⟩, [(2, .sub 1 2 3)], 8⟩
theorem wit_StepSplit : MayIssue split 0 ∧ ∃ t, exec (.sub 1 2 3) { slotState (turnState split 0) 0x10000 subBundle with slot := 2 } = .next t
    ∧ (t.stall.isNone && decide ((slotState (turnState split 0) 0x10000 subBundle).mismatch subBundle [t] = some 3)) = true :=
  ⟨by unfold MayIssue; decide, stops_ex _ (by decide)⟩
/-- The bundles `svc 7` and `rfi`, which act behind the boundary. -/
def svcBundle : Decode.Bundle := ⟨⟨0, 0, false, false, false, false, 1⟩, [(0, .svc go 7)], 8⟩
theorem wit_StepActsAfter : actsAfter (.svc go 7) = true ∧ actsAfter (.rfi go) = true
    ∧ (∃ w, boundaryOf ((slotState (turnState (one [7, 0, 0, 0x84] id) 0) 0x10000 svcBundle).commit strand svcBundle) = .next w
      ∧ (w.stall.isNone && w.rd.rb go.bp != go.bn) = true)
    ∧ ∃ z, exec (.svc go 7) { slotState (turnState (one [7, 0, 0, 0x84] id) 0) 0x10000 svcBundle with slot := 0 } = .next z
      ∧ (z.stall.isNone && z.trapped.all fun x => x.kind != 0) = true :=
  ⟨by decide, by decide, stops_ex _ (by decide +kernel), stops_ex _ (by decide +kernel)⟩

/-- An injection armed on the line at 0x20000, which the event that is due writes, or on another. -/
def armed (at_ : BitVec 52) (tgt : Nat) : State := { st with
  agenda := [.sharedCacheAccess (.write 0x20000 [1])], prot := { st.prot with errinj := inj tgt 2, erraddr := at_ } }
theorem wit_ArmedErrors (at_ : BitVec 52) (h : at_ = 0x20000) : ∃ t, (armed at_ 6).move = .next t ∧ (decide (t.prot.errinj = (armed at_ 6).prot.errinj)
    && decide ((armed at_ 6).errWatch (errInjOf (armed at_ 6).prot.errinj) 0 ≠ t.errWatch (errInjOf (armed at_ 6).prot.errinj) 0)) = true := by
  subst h; exact stops_ex _ (by decide)
theorem wit_ArmedErrors_other : ∃ t, (armed 0x30000 6).move = .next t ∧ (decide (t.prot.errinj = (armed 0x30000 6).prot.errinj)
    && decide ((armed 0x30000 6).errWatch (errInjOf (armed 0x30000 6).prot.errinj) 0 = t.errWatch (errInjOf (armed 0x30000 6).prot.errinj) 0)) = true :=
  stops_ex _ (by decide)
theorem wit_ArmedErrors_modes : (errInjOf (inj 6 2)).mode = 2 ∧ (errInjOf (inj 6 2)).tgt = 6 ∧ (errInjOf st.prot.errinj).mode ≠ 2 := by decide
theorem wit_SlotActs : ∃ t, exec (.br off 0) { slotState (turnState st 0) 0x10000 still with slot := 0 } = .next t ∧ t.stall = none ∧ t.trapped = none := next_ex (by decide)
theorem wit_SlotsAct : ∃ t, runSlots (issueOrder still.slots) (slotState (turnState st 0) 0x10000 still) = .next t ∧ t.stall = none ∧ t.trapped = none := next_ex (by decide)

theorem wit_Words : (Instr.br off (-1)).wf = true ∧ encode (.br off (-1)) = some (.short 0 none 0x043FFFFF)
    ∧ (Encode.SlotWord.short 0 none 0x043FFFFF).decode = some (.br off (-1)) := by decide
theorem wit_Memory : Memory.wf st.mem = true ∧ Memory.wf State.reset.mem = true ∧ (∀ e ∈ st.wq, ∀ l ∈ e.lines, l ∉ linesOf 0x10000 4) ∧ (0xFFFF < 0x10000 ∨ 0x10000 + 4 ≤ 0xFFFF) := by decide
theorem wit_Steps : ∃ t, step st = .next t ∧ t.stall = none ∧ t.trapped = none := next_ex (by decide)

/-! ## Decoding: words that the spec writes out, or that its encoding tables give -/

/-- A slot's word decodes to an instruction, which is well formed and has that word. -/
def reads {n : Nat} (f : BitVec n → Encode.SlotWord) (w : BitVec n) (i : Instr) : Prop := (f w).decode = some i ∧ i.wf = true ∧ encode i = some (f w)

/-- The C-slot words of R250, R264, R265, R269 to R279 and R374 to R379. -/
theorem test_decode_c0 : reads (.short 0 none ·) 0x04BFFFFD (.br ⟨2, true⟩ (-3))
  ∧ reads (.short 0 none ·) 0x0806FFFF (.braAny ⟨0, false⟩ 3 (-1))
  ∧ reads (.short 0 none ·) 0x08070005 (.braAll ⟨0, false⟩ 3 5)
  ∧ reads (.short 0 none ·) 0x0C000040 (.call ⟨0, false⟩ 64)
  ∧ reads (.short 0 none ·) 0x101F0000 (.ret ⟨0, false⟩ 62)
  ∧ reads (.short 0 none ·) 0x141E8000 (.jmpi ⟨0, false⟩ 61)
  ∧ reads (.short 0 none ·) 0x2002804D (.loop ⟨0, false⟩ 5 2 3 1)
  ∧ reads (.short 0 none ·) 0x24000005 (.lbrk ⟨0, false⟩ 5)
  ∧ reads (.short 0 none ·) 0x28114A18 (.spawn ⟨0, false⟩ 2 10 20 3) := by unfold reads; decide

/-- The C-slot words of R250, R264, R265, R269 to R279 and R374 to R379. -/
theorem test_decode_c1 : reads (.short 0 none ·) 0x2C030000 (.launch ⟨0, false⟩ 6)
  ∧ reads (.short 0 none ·) 0x2C030001 (.launchAfter ⟨0, false⟩ 6)
  ∧ reads (.short 0 none ·) 0x30000000 (.exit ⟨0, false⟩)
  ∧ reads (.short 0 none ·) 0x40021200 (.gjoin ⟨0, false⟩ 4 9)
  ∧ reads (.short 0 none ·) 0x441F8000 (.gleave ⟨0, false⟩ 63)
  ∧ reads (.short 0 none ·) 0x48108000 (.gwait ⟨0, false⟩ 33)
  ∧ reads (.short 0 none ·) 0x50038000 (.parm ⟨0, false⟩ 7)
  ∧ reads (.short 0 none ·) 0x54039800 (.pwait ⟨0, false⟩ 7 3)
  ∧ reads (.short 0 none ·) 0x60000000 (.tfence ⟨0, false⟩) := by unfold reads; decide

/-- The C-slot words of R250, R264, R265, R269 to R279 and R374 to R379. -/
theorem test_decode_c2 : reads (.short 0 none ·) 0x64048000 (.waitt ⟨0, false⟩ 9)
  ∧ reads (.short 0 none ·) 0x68049400 (.waitv ⟨0, false⟩ 9 10)
  ∧ reads (.short 0 none ·) 0x6C049400 (.waitcSrc ⟨0, false⟩ 9 10)
  ∧ reads (.short 0 none ·) 0x6C059801 (.waitcLand ⟨0, false⟩ 11 12)
  ∧ reads (.short 0 none ·) 0x700A0000 (.mclaim ⟨0, false⟩ 5)
  ∧ reads (.short 0 none ·) 0x74000000 (.mrel ⟨0, false⟩)
  ∧ reads (.short 0 none ·) 0x7810D000 (.setft ⟨0, false⟩ 33 5)
  ∧ reads (.short 0 none ·) 0x8000FFFF (.trap ⟨0, false⟩ 0xFFFF)
  ∧ reads (.short 0 none ·) 0x84000007 (.svc ⟨0, false⟩ 7) := by unfold reads; decide

/-- The C-slot words of R250, R264, R265, R269 to R279 and R374 to R379. -/
theorem test_decode_c3 : reads (.short 0 none ·) 0x88000000 (.rfi ⟨0, false⟩)
  ∧ reads (.short 0 none ·) 0xA0048000 (.ttload ⟨0, false⟩ 9)
  ∧ reads (.short 0 none ·) 0xA4048000 (.swapctx ⟨0, false⟩ 9)
  ∧ reads (.short 0 none ·) 0xA8000000 (.halt ⟨0, false⟩)
  ∧ reads (.short 0 none ·) 0xAC00BEEF (.dbg ⟨0, false⟩ 0xBEEF) := by unfold reads; decide

/-- The A-slot words of R251, R252, R296 to R312 and R380. -/
theorem test_decode_a0 : reads (.short 1 none ·) 0x044FAFC6 (.ld ⟨4, 0⟩ 2 63 2 true)
  ∧ reads (.short 1 none ·) 0x0843E003 (.st ⟨4, 0⟩ 62 3)
  ∧ reads (.short 1 none ·) 0x204F9300 (.vld ⟨4, 0⟩ 1 12 ⟨0, false⟩)
  ∧ reads (.short 1 none ·) 0x244DF015 (.vst ⟨4, 0⟩ (.v 0xDF) ⟨5, true⟩)
  ∧ reads (.short 1 none ·) 0x24A0C160 (.vstCnt ⟨10, 0⟩ (.v 12) 5 ⟨0, false⟩)
  ∧ reads (.short 1 none ·) 0x2BDFB1C1 (.vldw ⟨61, 0⟩ 3 7 ⟨1, false⟩)
  ∧ reads (.short 1 none ·) 0x2C4F8040 (.pf ⟨4, 0⟩ 0 1 ⟨0, false⟩)
  ∧ reads (.short 1 none ·) 0x3073269A (.vgth 7 (.v 0x32) 1 10 ⟨1, true, 2⟩)
  ∧ reads (.short 1 none ·) 0x347DE027 (.vsct 7 0xDE ⟨2, false, 7⟩) := by unfold reads; decide

/-- The A-slot words of R251, R252, R296 to R312 and R380. -/
theorem test_decode_a1 : reads (.short 1 none ·) 0x404F8140 (.ldfe ⟨4, 0⟩ 0 5 ⟨0, false⟩)
  ∧ reads (.short 1 none ·) 0x444FC000 (.stfe ⟨4, 0⟩ .zero ⟨0, false⟩)
  ∧ reads (.short 1 none ·) 0x484FF000 (.clrfe ⟨4, 0⟩)
  ∧ reads (.short 1 none ·) 0x514FAA03 (.ldv ⟨20, 0⟩ 2 40 3)
  ∧ reads (.short 1 none ·) 0x540FF004 (.vsetChk 4 0xFF)
  ∧ reads (.short 1 none ·) 0x59428004 (.vsetSt 20 4 (.v 0x28) 0xFF)
  ∧ reads (.short 1 none ·) 0x5C828009 (.casv ⟨8, 0⟩ 9 (.v 0x28))
  ∧ reads (.short 1 none ·) 0x6040C027 (.amo ⟨4, 0⟩ .cas true 12)
  ∧ reads (.short 1 none ·) 0x6040D002 (.amo ⟨4, 0⟩ .add false 13) := by unfold reads; decide

/-- The A-slot words of R251, R252, R296 to R312 and R380. -/
theorem test_decode_a2 : reads (.short 1 none ·) 0x6861E002 (.redAddF32 ⟨6, 0⟩ (.v 0x1E) ⟨2, false⟩)
  ∧ reads (.short 1 none ·) 0x6C61E000 (.redAddBf16 ⟨6, 0⟩ (.v 0x1E) ⟨0, false⟩)
  ∧ reads (.short 1 none ·) 0x6C61E020 (.redAddBf16Sr ⟨6, 0⟩ (.v 0x1E) ⟨0, false⟩)
  ∧ reads (.short 1 none ·) 0x706F8000 (.redAddBdx8 ⟨6, 0⟩ (.queue 0) ⟨0, false⟩)
  ∧ reads (.short 1 none ·) 0x746E5000 (.redAddBdx4 ⟨6, 0⟩ (.uni 5) ⟨0, false⟩)
  ∧ reads (.short 1 none ·) 0x786FD000 (.redMaxF32 ⟨6, 0⟩ .lane ⟨0, false⟩)
  ∧ reads (.short 1 none ·) 0x7C61E000 (.redAddS32 ⟨6, 0⟩ (.v 0x1E) ⟨0, false⟩)
  ∧ reads (.short 1 none ·) 0x83DDC003 (.pstore ⟨61, 0⟩ 0xDC 3)
  ∧ reads (.short 1 none ·) 0x900FF002 (.fenceRel 2) := by unfold reads; decide

/-- The A-slot words of R251, R252, R296 to R312 and R380. -/
theorem test_decode_a3 : reads (.short 1 none ·) 0x900FF00D (.fenceAcq 5)
  ∧ reads (.short 1 none ·) 0x900FF013 (.fenceSc 3)
  ∧ reads (.short 1 none ·) 0x940FF004 (.drain 4)
  ∧ reads (.short 1 none ·) 0x9893F001 (.arrive 9 63 1)
  ∧ reads (.short 1 none ·) 0x9893F009 (.arriveRel 9 63 1)
  ∧ reads (.short 1 none ·) 0x9C0FB000 (.lqadv 3)
  ∧ reads (.short 1 none ·) 0xA3EFF000 (.tlbinvPage ⟨62, 0⟩)
  ∧ reads (.short 1 none ·) 0xA09FF001 (.tlbinvCtx 9)
  ∧ reads (.short 1 none ·) 0xA00FF002 .tlbinvAll := by unfold reads; decide

/-- The S-slot words of R253 and R283 to R289. -/
theorem test_decode_s0 : reads (.short 2 none ·) 0x04108300 (.add 1 2 3)
  ∧ reads (.short 2 none ·) 0x08108300 (.sub 1 2 3)
  ∧ reads (.short 2 none ·) 0x0C108300 (.mul 1 2 3)
  ∧ reads (.short 2 none ·) 0x10928B01 (.mulh 9 10 11 true)
  ∧ reads (.short 2 none ·) 0x23F08300 (.and 63 2 3)
  ∧ reads (.short 2 none ·) 0x27F08300 (.or 63 2 3)
  ∧ reads (.short 2 none ·) 0x2BF08300 (.xor 63 2 3)
  ∧ reads (.short 2 none ·) 0x2FF08300 (.andn 63 2 3)
  ∧ reads (.short 2 none ·) 0x33F08300 (.shl 63 2 3) := by unfold reads; decide

/-- The S-slot words of R253 and R283 to R289. -/
theorem test_decode_s1 : reads (.short 2 none ·) 0x37F08300 (.shr 63 2 3)
  ∧ reads (.short 2 none ·) 0x3BF08300 (.sar 63 2 3)
  ∧ reads (.short 2 none ·) 0x3FF08300 (.rol 63 2 3)
  ∧ reads (.short 2 none ·) 0x40108080 (.addi 1 2 0xFF80)
  ∧ reads (.short 2 none ·) 0x44108080 (.andi 1 2 0xFF80)
  ∧ reads (.short 2 none ·) 0x48108080 (.ori 1 2 0xFF80)
  ∧ reads (.short 2 none ·) 0x4C108080 (.xori 1 2 0xFF80)
  ∧ reads (.short 2 none ·) 0x5010803F (.shli 1 2 63)
  ∧ reads (.short 2 none ·) 0x5410803F (.shri 1 2 63) := by unfold reads; decide

/-- The S-slot words of R253 and R283 to R289. -/
theorem test_decode_s2 : reads (.short 2 none ·) 0x5810803F (.sari 1 2 63)
  ∧ reads (.short 2 none ·) 0x5C10803F (.roli 1 2 63)
  ∧ reads (.short 2 none ·) 0x60518308 (.bfx 5 6 3 8 false)
  ∧ reads (.short 2 none ·) 0x60518348 (.bfx 5 6 3 8 true)
  ∧ reads (.short 2 none ·) 0x64518308 (.bfi 5 6 3 8)
  ∧ reads (.short 2 none ·) 0x68518000 (.clz 5 6)
  ∧ reads (.short 2 none ·) 0x6C518000 (.popc 5 6)
  ∧ reads (.short 2 none ·) 0x70108300 (.min 1 2 3)
  ∧ reads (.short 2 none ·) 0x74108300 (.max 1 2 3) := by unfold reads; decide

/-- The S-slot words of R253 and R283 to R289. -/
theorem test_decode_s3 : reads (.short 2 none ·) 0x78108300 (.minu 1 2 3)
  ∧ reads (.short 2 none ·) 0x7C108300 (.maxu 1 2 3)
  ∧ reads (.short 2 none ·) 0x80214607 (.cmp .ntst 2 5 6)
  ∧ reads (.short 2 none ·) 0x84214200 (.cmpi .lt 2 5 0)
  ∧ reads (.short 2 none ·) 0x88720903 (.sel 7 3 8 9)
  ∧ reads (.short 2 none ·) 0x8C108304 (.band 1 2 3 true)
  ∧ reads (.short 2 none ·) 0x8C108305 (.bor 1 2 3 true)
  ∧ reads (.short 2 none ·) 0x8C108306 (.bxor 1 2 3 true)
  ∧ reads (.short 2 none ·) 0x8C108307 (.bandn 1 2 3 true) := by unfold reads; decide

/-- The S-slot words of R253 and R283 to R289. -/
theorem test_decode_s4 : reads (.short 2 none ·) 0xA0580001 (.movi 5 0xFFFF80001)
  ∧ reads (.short 2 none ·) 0xA450476D (.lui 5 0x476D)
  ∧ reads (.short 2 none ·) 0xC0700205 (.getc 7 0x205)
  ∧ reads (.short 2 none ·) 0xC4024205 (.putc 0x205 9)
  ∧ reads (.short 2 none ·) 0xE071C603 (.lea 7 7 6 3)
  ∧ reads (.short 2 none ·) 0xE41080FF (.leai 1 2 0xFFFF) := by unfold reads; decide

/-- The D-slot words of R233 and R254. -/
theorem test_decode_d0 : reads (.long 3 none ·) 0x040E280A0BFFFF40 (.dadd ⟨0, 3, true, false, .v 0x28, .v 0x0A, .v 0x0B, .none, .none, 1, false, 0⟩)
  ∧ reads (.long 3 none ·) 0x084E280A0BFFFF07 (.dsub ⟨1, 3, true, false, .v 0x28, .v 0x0A, .v 0x0B, .none, .none, 0, false, 7⟩)
  ∧ reads (.long 3 none ·) 0x0C8E280A0BFFFF20 (.dmul ⟨2, 3, true, false, .v 0x28, .v 0x0A, .v 0x0B, .none, .none, 0, true, 0⟩)
  ∧ reads (.long 3 none ·) 0x10CE280A0B0CFF00 (.dfma ⟨3, 3, true, false, .v 0x28, .v 0x0A, .v 0x0B, .v 0x0C, .none, 0, false, 0⟩)
  ∧ reads (.long 3 none ·) 0x150E280A0B0CFF80 (.dfms ⟨4, 3, true, false, .v 0x28, .v 0x0A, .v 0x0B, .v 0x0C, .none, 2, false, 0⟩)
  ∧ reads (.long 3 none ·) 0x184E280A0BFFFF00 (.ddiv ⟨1, 3, true, false, .v 0x28, .v 0x0A, .v 0x0B, .none, .none, 0, false, 0⟩)
  ∧ reads (.long 3 none ·) 0x1C0E280AFFFFFF00 (.dsqrt ⟨0, 3, true, false, .v 0x28, .v 0x0A, .none, .none, .none, 0, false, 0⟩)
  ∧ reads (.long 3 none ·) 0x20CE280AFFFFFF00 (.dabs ⟨3, 3, true, false, .v 0x28, .v 0x0A, .none, .none, .none, 0, false, 0⟩)
  ∧ reads (.long 3 none ·) 0x250E280AFFFFFF00 (.dneg ⟨4, 3, true, false, .v 0x28, .v 0x0A, .none, .none, .none, 0, false, 0⟩) := by unfold reads; decide

/-- The D-slot words of R233 and R254. -/
theorem test_decode_d1 : reads (.long 3 none ·) 0x280E050AFCFFFF07 (.dcmp ⟨0, 3, true, false, .pred 5, .v 0x0A, .zero, .none, .none, 0, false, 7⟩)
  ∧ reads (.long 3 none ·) 0x2C8E280A0B0CFF00 (.dsel ⟨2, 3, true, false, .v 0x28, .v 0x0A, .v 0x0B, .v 0x0C, .none, 0, false, 0⟩)
  ∧ reads (.long 3 none ·) 0x300E280A0B0CFF00 (.dclip ⟨0, 3, true, false, .v 0x28, .v 0x0A, .v 0x0B, .v 0x0C, .none, 0, false, 0⟩)
  ∧ reads (.long 3 none ·) 0x340E280A0BFFFF0F (.dmax ⟨0, 3, true, false, .v 0x28, .v 0x0A, .v 0x0B, .none, .none, 0, false, 15⟩)
  ∧ reads (.long 3 none ·) 0x3B8E280A0BFFFF00 (.dmin ⟨14, 3, true, false, .v 0x28, .v 0x0A, .v 0x0B, .none, .none, 0, false, 0⟩)
  ∧ reads (.long 3 none ·) 0x3F4E280AFFFFFF25 (.dcvt ⟨13, 3, true, false, .v 0x28, .v 0x0A, .none, .none, .none, 0, true, 5⟩)
  ∧ reads (.long 3 none ·) 0x440E050AFFFFFF02 (.vrng ⟨0, 3, true, false, .pred 5, .v 0x0A, .none, .none, .none, 0, false, 2⟩)
  ∧ reads (.long 3 none ·) 0x488E280A0BFFFF80 (.vsr ⟨2, 3, true, false, .v 0x28, .v 0x0A, .v 0x0B, .none, .none, 2, false, 0⟩)
  ∧ reads (.long 3 none ·) 0x620E280A0BFFFF20 (.vadd ⟨8, 3, true, false, .v 0x28, .v 0x0A, .v 0x0B, .none, .none, 0, true, 0⟩) := by unfold reads; decide

/-- The D-slot words of R233 and R254. -/
theorem test_decode_d2 : reads (.long 3 none ·) 0x664E280A0BFFFF20 (.vsub ⟨9, 3, true, false, .v 0x28, .v 0x0A, .v 0x0B, .none, .none, 0, true, 0⟩)
  ∧ reads (.long 3 none ·) 0x6A8E280A0BFFFF20 (.vmul ⟨10, 3, true, false, .v 0x28, .v 0x0A, .v 0x0B, .none, .none, 0, true, 0⟩)
  ∧ reads (.long 3 none ·) 0x6ECE280A0BFFFF40 (.vmulh ⟨11, 3, true, false, .v 0x28, .v 0x0A, .v 0x0B, .none, .none, 1, false, 0⟩)
  ∧ reads (.long 3 none ·) 0x720E280A0BFFFF00 (.vand ⟨8, 3, true, false, .v 0x28, .v 0x0A, .v 0x0B, .none, .none, 0, false, 0⟩)
  ∧ reads (.long 3 none ·) 0x764E280A0BFFFF00 (.vor ⟨9, 3, true, false, .v 0x28, .v 0x0A, .v 0x0B, .none, .none, 0, false, 0⟩)
  ∧ reads (.long 3 none ·) 0x7A8E280A0BFFFF00 (.vxor ⟨10, 3, true, false, .v 0x28, .v 0x0A, .v 0x0B, .none, .none, 0, false, 0⟩)
  ∧ reads (.long 3 none ·) 0x7ECE280A0BFFFF00 (.vandn ⟨11, 3, true, false, .v 0x28, .v 0x0A, .v 0x0B, .none, .none, 0, false, 0⟩)
  ∧ reads (.long 3 none ·) 0x830E280A0BFFFF00 (.vshl ⟨12, 3, true, false, .v 0x28, .v 0x0A, .v 0x0B, .none, .none, 0, false, 0⟩)
  ∧ reads (.long 3 none ·) 0x874E280A0BFFFF00 (.vshr ⟨13, 3, true, false, .v 0x28, .v 0x0A, .v 0x0B, .none, .none, 0, false, 0⟩) := by unfold reads; decide

/-- The D-slot words of R233 and R254. -/
theorem test_decode_d3 : reads (.long 3 none ·) 0x8A0E280A0BFFFF00 (.vsar ⟨8, 3, true, false, .v 0x28, .v 0x0A, .v 0x0B, .none, .none, 0, false, 0⟩)
  ∧ reads (.long 3 none ·) 0x8E4E280A0BFFFF00 (.vmin ⟨9, 3, true, false, .v 0x28, .v 0x0A, .v 0x0B, .none, .none, 0, false, 0⟩)
  ∧ reads (.long 3 none ·) 0x928E280A0BFFFF00 (.vmax ⟨10, 3, true, false, .v 0x28, .v 0x0A, .v 0x0B, .none, .none, 0, false, 0⟩)
  ∧ reads (.long 3 none ·) 0x960E050A0BFFFF05 (.vcmp ⟨8, 3, true, false, .pred 5, .v 0x0A, .v 0x0B, .none, .none, 0, false, 5⟩)
  ∧ reads (.long 3 none ·) 0x994E280A0B07FF00 (.vsel ⟨5, 3, true, false, .v 0x28, .v 0x0A, .v 0x0B, .pred 7, .none, 0, false, 0⟩)
  ∧ reads (.long 3 none ·) 0x9F0E280AFFFFFF00 (.vclz ⟨12, 3, true, false, .v 0x28, .v 0x0A, .none, .none, .none, 0, false, 0⟩)
  ∧ reads (.long 3 none ·) 0xA30E280AFFFFFF00 (.vpopc ⟨12, 3, true, false, .v 0x28, .v 0x0A, .none, .none, .none, 0, false, 0⟩)
  ∧ reads (.long 3 none ·) 0xA70E280AFFFFFF00 (.vabs ⟨12, 3, true, false, .v 0x28, .v 0x0A, .none, .none, .none, 0, false, 0⟩)
  ∧ reads (.long 3 none ·) 0xAB0E280AFFFFFF00 (.vneg ⟨12, 3, true, false, .v 0x28, .v 0x0A, .none, .none, .none, 0, false, 0⟩) := by unfold reads; decide

/-- The D-slot words of R233 and R254. -/
theorem test_decode_d4 : reads (.long 3 none ·) 0xC18E280A0BFFFF00 (.vperm ⟨6, 3, true, false, .v 0x28, .v 0x0A, .v 0x0B, .none, .none, 0, false, 0⟩)
  ∧ reads (.long 3 none ·) 0xC58E280A0BFFFF00 (.vrot ⟨6, 3, true, false, .v 0x28, .v 0x0A, .v 0x0B, .none, .none, 0, false, 0⟩)
  ∧ reads (.long 3 none ·) 0xC98E280A0BFFFF00 (.vbcast ⟨6, 3, true, false, .v 0x28, .v 0x0A, .v 0x0B, .none, .none, 0, false, 0⟩)
  ∧ reads (.long 3 none ·) 0xCE0E280AFFFFFF04 (.vshuf ⟨8, 3, true, false, .v 0x28, .v 0x0A, .none, .none, .none, 0, false, 4⟩)
  ∧ reads (.long 3 none ·) 0xD28E280AFFFFFF02 (.vred ⟨10, 3, true, false, .v 0x28, .v 0x0A, .none, .none, .none, 0, false, 2⟩)
  ∧ reads (.long 3 none ·) 0xE00E050607FFFF00 (.pand ⟨0, 3, true, false, .pred 5, .pred 6, .pred 7, .none, .none, 0, false, 0⟩)
  ∧ reads (.long 3 none ·) 0xE40E050607FFFF00 (.por ⟨0, 3, true, false, .pred 5, .pred 6, .pred 7, .none, .none, 0, false, 0⟩)
  ∧ reads (.long 3 none ·) 0xE80E050607FFFF00 (.pxor ⟨0, 3, true, false, .pred 5, .pred 6, .pred 7, .none, .none, 0, false, 0⟩)
  ∧ reads (.long 3 none ·) 0xEC0E050607FFFF00 (.pandn ⟨0, 3, true, false, .pred 5, .pred 6, .pred 7, .none, .none, 0, false, 0⟩) := by unfold reads; decide

/-- The D-slot words of R233 and R254. -/
theorem test_decode_d5 : reads (.long 3 none ·) 0xF1CE050AFFFFFF00 (.ptest ⟨7, 3, true, false, .pred 5, .v 0x0A, .none, .none, .none, 0, false, 0⟩)
  ∧ reads (.long 3 none ·) 0xF80E280AFFFFFF00 (.vmov ⟨0, 3, true, false, .v 0x28, .v 0x0A, .none, .none, .none, 0, false, 0⟩)
  ∧ reads (.long 3 none ·) 0x400028F3FFFFFF00 (.dland ⟨0, 0, false, false, .v 0x28, .port 3, .none, .none, .none, 0, false, 0⟩) := by unfold reads; decide

/-- The M-slot words that the examples behind R350 give. -/
theorem test_decode_m0 : reads (.long 5 none ·) 0x0484080001000000 (.mload 2 1 (.v 8) 16 0)
  ∧ reads (.long 5 none ·) 0x0800000000000000 .mswap
  ∧ reads (.long 5 none ·) 0x1402000000000000 (.mclr 0 true)
  ∧ reads (.long 5 none ·) 0x0C83085151000000 (.mma 2 0 true true (.v 8) 20 21 16)
  ∧ reads (.long 5 none ·) 0x188000000102827F (.mdrain 2 0 (.v 0x28) 16 127 false true)
  ∧ reads (.long 5 none ·) 0x1000000000000001 (.mcfg false true)
  ∧ reads (.long 5 none ·) 0x1C00007900000006 (.mchk 0 30 16 6) := by unfold reads; decide

/-- The K-slot words of R257 and R349. -/
theorem test_decode_k0 : reads (.short 6 none ·) 0x040A7800 (.kread 0 5 (.v 0x3C) false)
  ∧ reads (.short 6 none ·) 0x0BFFB801 (.kwrite 7 63 (.v 0xDC) true)
  ∧ reads (.short 6 none ·) 0x0C0A7800 (.kadd 0 5 (.v 0x3C) false)
  ∧ reads (.short 6 none ·) 0x11807801 (.kreadck 3 (.v 0x3C) true) := by unfold reads; decide

/-- The X-slot words of R258 and of the examples behind R370. -/
theorem test_decode_x0 : reads (.short 7 none ·) 0x04A30E0B (.cp 10 12 14 3 true)
  ∧ reads (.short 7 none ·) 0x08A30E02 (.cp2d 10 12 14 2 false)
  ∧ reads (.short 7 none ·) 0x10900000 (.launchX 9)
  ∧ reads (.short 7 none ·) 0x10900001 (.launchAfterX 9)
  ∧ reads (.short 7 none ·) 0x21401600 (.collAr 20 22 .addF32)
  ∧ reads (.short 7 none ·) 0x25401603 (.collRs 20 22 .addS32)
  ∧ reads (.short 7 none ·) 0x29401600 (.collAg 20 22)
  ∧ reads (.short 7 none ·) 0x2D401600 (.collBc 20 22)
  ∧ reads (.short 7 none ·) 0x41E01F05 (.dec 5 30 31) := by unfold reads; decide

/-- The X-slot words of R258 and of the examples behind R370. -/
theorem test_decode_x1 : reads (.short 7 none ·) 0x5061C00F (.histOn 15 6 7)
  ∧ reads (.short 7 none ·) 0x5400000F (.histOff 15)
  ∧ reads (.short 7 none ·) 0x5860080F (.histRd 15 6 8)
  ∧ reads (.short 7 none ·) 0x5C61C003 (.hscale 3 6 7)
  ∧ reads (.short 7 none ·) 0x60500000 (.seed 5)
  ∧ reads (.short 7 none ·) 0x80824A00 (.migrMove 8 9 10)
  ∧ reads (.short 7 none ·) 0x80824A01 (.migrPark 8 9 10)
  ∧ reads (.short 7 none ·) 0x80824A02 (.migrRecall 8 9 10)
  ∧ reads (.short 7 none ·) 0x80824A03 (.migrEnd 8 9 10) := by unfold reads; decide

/-! ## Bundles that the spec writes out -/

/-- The slots that words of a bundle hold. -/
def slotsOf (ws : List (BitVec 32)) : List (Nat × Instr) :=
  match Decode.bundle (ws.flatMap fun w => Decode.leBytes 4 w.toNat) with
  | .bundle b => if b.size = 4 * ws.length then b.slots else []
  | _ => []

def rejected (ws : List (BitVec 32)) : Bool :=
  match Decode.bundle (ws.flatMap fun w => Decode.leBytes 4 w.toNat) with
  | .reject _ => true
  | _ => false

/-- Chapter 12, four lines and their words. -/
theorem test_bundle_chain : slotsOf [0x00000008, 0x04FF1400, 0x040CF103] = [(3, .dadd ⟨0, 3, false, false, .port 1, .v 3, .v 4, .none, .v 20, 0, false, 0⟩)] := by decide
theorem test_bundle_displacement : slotsOf [0x00402C02, 0x204F9300] = [(1, .vld ⟨4, 0x40⟩ 1 12 ⟨0, false⟩)] := by decide
theorem test_bundle_segment : slotsOf [0x00040103, 0x20028060, 0x206F8100] = [(0, .loop ⟨0, false⟩ 5 3 0 0), (1, .vld ⟨6, 0⟩ 0 4 ⟨0, false⟩)] := by decide
theorem test_bundle_two_d : slotsOf [0x00000018, 0x04FFFF09, 0x0C00F207, 0x04FFFF09, 0x0C00F308]
    = [(3, .dmul ⟨0, 0, false, false, .port 2, .v 7, .v 4, .none, .none, 0, false, 9⟩), (4, .dmul ⟨0, 0, false, false, .port 3, .v 8, .v 4, .none, .none, 0, false, 9⟩)] := by decide
theorem test_bundle_kill : slotsOf [0x00000008, 0xF3FFFF00, 0x340128F2] = [(3, .dmax ⟨0, 0, false, true, .v 0x28, .port 2, .port 3, .none, .none, 0, false, 0⟩)] := by decide
theorem test_bundle_a_first : (slotsOf [0x0000000A, 0x204F9300, 0x04FF1400, 0x040CF103]).map (·.1) = [1, 3] := by decide
theorem test_bundle_pad : Decode.bundle (List.replicate 12 0) = .pad := by decide
/-- R228: `+ppt nop`. -/
theorem test_bundle_empty : slotsOf [0x00000400] = [] ∧ rejected [0x00000400] = false ∧ rejected [0x00001000] = true := by decide

/-- Chapter 13: a compare, and three near misses. -/
theorem test_compare : slotsOf [0x00000008, 0xFCFFFF02, 0x280102F2] = [(3, .dcmp ⟨0, 0, false, true, .pred 2, .port 2, .zero, .none, .none, 0, false, 2⟩)] := by decide
theorem test_near_misses : rejected [0x00000008, 0xFCFFFF0A, 0x280102F2] = true ∧ rejected [0x00000008, 0xFCFFFF02, 0x280112F2] = true
    ∧ rejected [0x00000008, 0xFCFFFF02, 0x4C0102F2] = true ∧ rejected [0x00000001, 0] = true ∧ rejected [0x00000002, 0] = true ∧ rejected [0x00000004, 0] = true
    ∧ rejected [0x00000008, 0, 0] = true ∧ rejected [0x00000020, 0, 0] = true ∧ rejected [0x00000040, 0] = true ∧ rejected [0x00000080, 0] = true := by decide

/-- Chapters 14, 15, 16 and 17: bundles with an extension. -/
theorem test_bundle_movi : slotsOf [0x01CE4804, 0xA054E5B9] = [(2, .movi 5 0x01CE4E5B9)] ∧ slotsOf [0xBF584804, 0xA450476D] = [(2, .lui 5 0xBF58476D)] := by decide
theorem test_bundle_branch : slotsOf [0x00000005, 0x04800003, 0x84214200] = [(0, .br ⟨2, false⟩ 3), (2, .cmpi .lt 2 5 0)] := by decide
theorem test_bundle_counted : slotsOf [0x00802802, 0x24A0C160] = [(1, .vstCnt ⟨10, 0x80⟩ (.v 12) 5 ⟨0, false⟩)]
    ∧ slotsOf [0x00082802, 0x59428004] = [(1, .vsetSt 20 4 (.v 0x28) 8)] := by decide
theorem test_bundle_literal : slotsOf [0x3F406808, 0xFFFFFF02, 0x440005FE] = [(3, .vrng ⟨0, 0, false, false, .pred 5, .imm 0x3F40, .none, .none, .none, 0, false, 2⟩)]
    ∧ slotsOf [0x3E006808, 0xFFFFFF00, 0xFC4003FE] = [(3, .vmovi ⟨1, 0, false, false, .v 3, .imm 0x3E00, .none, .none, .none, 0, false, 0⟩)] := by decide
theorem test_bundle_d : slotsOf [0x00000008, 0xFFFFFF20, 0x3C801E0C] = [(3, .dcvt ⟨2, 0, false, false, .v 0x1E, .v 0xC, .none, .none, .none, 0, true, 0⟩)]
    ∧ slotsOf [0x00000008, 0x0B0CFF00, 0x2C802C0A] = [(3, .dsel ⟨2, 0, false, false, .v 0x2C, .v 0xA, .v 0xB, .v 0xC, .none, 0, false, 0⟩)]
    ∧ slotsOf [0x00000008, 0x0BFFFF00, 0xCE00280A] = [(3, .vshuf ⟨8, 0, false, false, .v 0x28, .v 0xA, .v 0xB, .none, .none, 0, false, 0⟩)]
    ∧ slotsOf [0x00000008, 0xFFFFFF00, 0xD0003214] = [(3, .vred ⟨0, 0, false, false, .v 0x32, .v 0x14, .none, .none, .none, 0, false, 0⟩)] := by decide

/-! ## What WellFormed refuses -/

theorem test_wf_control : (Instr.loop go 5 0 0 0).wf = false ∧ (Instr.lbrk go 6).wf = false ∧ (Instr.spawn go 0 1 60 5).wf = false ∧ (Instr.spawn go 0 1 2 0).wf = false := by decide
theorem test_wf_memory : (Instr.ld ⟨4, 0⟩ 0 0 3 true).wf = false ∧ (Instr.vst ⟨4, 0⟩ (.port 1) ⟨0, false⟩).wf = false ∧ (Instr.vst ⟨4, 0⟩ (.v 0xE0) ⟨0, false⟩).wf = false
    ∧ (Instr.vstCnt ⟨63, 0⟩ (.v 1) 0 ⟨0, false⟩).wf = false ∧ (Instr.vldw ⟨62, 0⟩ 0 0 ⟨0, false⟩).wf = false ∧ (Instr.vgth 7 (.imm 1) 0 0 ⟨0, false, 0⟩).wf = false
    ∧ (Instr.vgth 7 (.v 1) 0 0 ⟨3, false, 0⟩).wf = false ∧ (Instr.vsct 7 0xDF ⟨0, false, 0⟩).wf = false ∧ (Instr.vsct 7 0 ⟨3, false, 0⟩).wf = false := by decide
theorem test_wf_ordered : (Instr.amo ⟨4, 0⟩ .cas true 63).wf = false ∧ (Instr.pstore ⟨62, 0⟩ 0 0).wf = false ∧ (Instr.pstore ⟨0, 0⟩ 0xDD 0).wf = false ∧ (Instr.fenceRel 6).wf = false
    ∧ (Instr.fenceAcq 7).wf = false ∧ (Instr.fenceSc 6).wf = false ∧ (Instr.drain 6).wf = false ∧ (Instr.arrive 1 1 6).wf = false ∧ (Instr.arriveRel 1 1 7).wf = false
    ∧ (Instr.tlbinvPage ⟨63, 0⟩).wf = false ∧ (Instr.stfe ⟨4, 0⟩ .none ⟨0, false⟩).wf = false ∧ (Instr.casv ⟨4, 0⟩ 1 (.imm 0)).wf = false
    ∧ (Instr.vsetSt 4 0 (.pred 1) 0).wf = false ∧ (Instr.redAddF32 ⟨4, 0⟩ (.port 0) ⟨0, false⟩).wf = false := by decide
theorem test_wf_scalar : (Instr.bfx 1 2 63 1 false).wf = false ∧ (Instr.bfi 1 2 56 8).wf = false := by decide

/-- A D slot off each check of its row: format, MINOR, RM, SAT, KILL, destination, sources, LANDTO, two literals, a port of its own. -/
theorem test_wf_digit : (Instr.dadd { ds 0 0 0 with sc := .none }).wf = true ∧ (Instr.dadd { ds 8 0 0 with sc := .none }).wf = false
    ∧ (Instr.dadd { ds 0 16 0 with sc := .none }).wf = false ∧ (Instr.vmulh { ds 8 0 2 with sc := .none }).wf = false ∧ (Instr.dabs { ds 0 0 0 with sb := .none, sc := .none, sat := true }).wf = false
    ∧ (Instr.dadd { ds 0 0 0 with sc := .none, kill := true }).wf = false ∧ (Instr.dadd { ds 0 0 0 with sc := .none, dst := .pred 1 }).wf = false
    ∧ (Instr.dcmp { ds 0 0 0 with sc := .none }).wf = false ∧ (Instr.dadd (ds 0 0 0)).wf = false ∧ (Instr.vadd { ds 8 0 0 with sc := .none, sa := .port 1 }).wf = false
    ∧ (Instr.dadd { ds 0 0 0 with sc := .none, landTo := .v 9 }).wf = false ∧ (Instr.dadd { ds 0 0 0 with sc := .none, sa := .imm 1, sb := .imm 2 }).wf = false
    ∧ (Instr.dadd { ds 0 0 0 with sc := .none, sa := .port 1, dst := .port 1 }).wf = false ∧ (Instr.dadd { ds 3 0 0 with sc := .none, sb := .imm 0x100 }).wf = false
    ∧ (Instr.dadd { ds 0 0 0 with sc := .none, sb := .v 0xE0 }).wf = false ∧ (Instr.vred { ds 8 3 0 with sb := .none, sc := .none }).wf = false := by decide
theorem test_wf_matrix : (Instr.mload 0 0 (.v 0) 1 0).wf = false ∧ (Instr.mload 1 0 (.v 0) 65 0).wf = false ∧ (Instr.mload 1 0 (.v 0) 4 61).wf = false ∧ (Instr.mload 6 0 (.v 0) 4 2).wf = false
    ∧ (Instr.mload 1 0 (.v 0xDF) 4 0).wf = false ∧ (Instr.mma 6 0 false true (.v 0) 0 0 6).wf = false ∧ (Instr.mma 1 0 true false (.v 0) 0 0 4).wf = false
    ∧ (Instr.mdrain 15 0 (.v 0) 4 0 false false).wf = false ∧ (Instr.mdrain 0 0 (.port 5) 4 0 false false).wf = false ∧ (Instr.mdrain 0 0 (.port 0) 4 0 true false).wf = false
    ∧ (Instr.mdrain 1 0 (.port 0) 4 0 false false).wf = false ∧ (Instr.mchk 0 0 0 0).wf = false ∧ (Instr.mchk 0 63 0 0).wf = false ∧ (Instr.kread 0 0 (.v 0xDD) false).wf = false := by decide
theorem test_wf_engines : (Instr.cp 1 2 3 6 false).wf = false ∧ (Instr.cp 63 2 3 0 false).wf = false ∧ (Instr.cp2d 1 62 3 0 false).wf = false ∧ (Instr.cp2d 1 61 3 5 false).wf = true := by decide

/-! ## Values that the spec works out -/

/-- The example behind R331: 1.0 in lane 0 and 2^-24 in the others. -/
theorem test_reduction : (redFloat ⟨0, 0, none⟩ strand 0 false 0 0xFFFF (0x3F800000 :: List.replicate 15 0x33800000) 0).map (·.1) = some 0x3F800007 := by decide
/-- The example behind R333: the largest FP32 value to BF16, saturating. -/
theorem test_conversion : (roundTo 2 0 true false false 0 (.val (decodeF 0 false 0 0x7F7FFFFF).v)).1 = 0x7F7F := by decide
/-- Chapter 15: two bundles build 0xBF58476D1CE4E5B9. -/
theorem test_constants : (match exec (.movi 5 0x01CE4E5B9) st with
    | .next t => match exec (.lui 5 0xBF58476D) t with
      | .next u => u.c.rs 5
      | _ => 0
    | _ => 0) = 0xBF58476D1CE4E5B9 := by decide
/-- R158, R160: Mix64 of the two values of chapter 21. -/
theorem test_mix : (mix64 0x9E3779B97F4A7C15).extractLsb' 32 32 = 0xE220A839#32 ∧ (mix64 0x3C6EF372FE94F82A).extractLsb' 32 32 = 0x6E789E6A#32 ∧ mix64 0 = 0 := by decide
/-- R225: the value of ERRINJ that chapter 11 writes. -/
theorem test_errinj : let e := errInjOf 0x30000A4858000001
    e.tgt = 3 ∧ e.index = 329 ∧ e.bitNo = 22 ∧ e.mode = 1 := by decide
/-- R30: the entry of rank 5 in chapter 2. -/
theorem test_map_entry : mkEntry 2 2 4 1 3 = 0x000300000001040A := by decide

end Sys2Proof.Tests
end

/-!
Rules of the state's operations: tables written or changed as a whole, what the slices of the shared cache serve, write events.
-/
namespace Sys2Proof.Proofs
open Sys2Proof.Machine Sys2Proof.Claims

/-! ## Tables written or changed as a whole -/

/-- A table whose keys below n have been set in turn. -/
theorem get_foldl_set {α : Type} [DecidableEq α] (d : α) (f : Nat → α) (m : Store α) (n k : Nat) :
    Store.get d ((List.range n).foldl (fun m p => Store.set d m p (f p)) m) k = if k < n then f k else Store.get d m k := by
  induction n with
  | zero => rfl
  | succ n ih =>
    rw [List.range_succ, List.foldl_append, List.foldl_cons, List.foldl_nil, Store.get_set, ih]
    by_cases hk : k = n
    · rw [if_pos hk, if_pos (by omega), hk]
    · by_cases hlt : k < n
      · rw [if_neg hk, if_pos hlt, if_pos (by omega)]
      · rw [if_neg hk, if_neg hlt, if_neg (by omega)]

/-- A table whose listed values have been changed. -/
theorem get_map {α : Type} (d : α) (g : α → α) (m : Store α) (k : Nat) :
    Store.get d (m.map fun e => (e.1, g e.2)) k = if k ∈ m.map (·.1) then g (Store.get d m k) else Store.get d m k := by
  induction m with
  | nil => rfl
  | cons e m ih =>
    by_cases he : e.1 = k
    · simp [Store.get, he]
    · have hb : (e.1 == k) = false := by simpa using he
      have hk : k ∈ (e :: m).map (·.1) ↔ k ∈ m.map (·.1) := by simp [Ne.symm he]
      simp only [hk]
      simpa [Store.get, hb] using ih

/-- A key stays listed when another one is set. -/
theorem mem_keys_set {α : Type} [DecidableEq α] (d : α) (m : Store α) (e : Nat × α) (k : Nat) (v : α) (h : e ∈ m) (hk : e.1 ≠ k) :
    e ∈ Store.set d m k v := by
  simp only [Store.set, Store.setRange, List.mem_append, List.mem_filter, decide_eq_true_eq, List.length_singleton]
  rcases Nat.lt_or_gt_of_ne hk with hlt | hgt
  · exact .inl (.inl ⟨h, hlt⟩)
  · exact .inr ⟨h, hgt⟩

theorem port_setPort (s : State) (p k : Nat) (x : SPort) : (s.setPort p x).port k = if k = p then x else s.port k :=
  Store.get_set ..

theorem cmdt_setCmdt (s : State) (t k : Nat) (c : Cmdt) : (s.setCmdt t c).cmdt k = if k = t then c else s.cmdt k :=
  Store.get_set ..

theorem chan_setChan (s : State) (ch k : BitVec 8) (c : Chan) : (s.setChan ch c).chan k = if k = ch then c else s.chan k := by
  refine (Store.get_set ..).trans ?_
  by_cases h : k = ch
  · rw [if_pos h, if_pos (congrArg _ h)]
  · rw [if_neg h, if_neg fun e => h (BitVec.eq_of_toNat_eq e)]
    rfl

/-! ## What a slice's service changes (R76) -/

/-- What t differs from s in: what the caches hold, the rows that they open, and the host lines that they write back. -/
structure Serves (s t : State) : Prop where
  frame : { t with
    slices := s.slices, dies := s.dies, agenda := s.agenda, out := s.out
    host := { t.host with cached := s.host.cached, cachedSet := s.host.cachedSet, wbOut := s.host.wbOut } } = s
  out : ∃ wb, t.out = s.out ++ wb ∧ ∀ m ∈ wb, ∃ l, m = .writeBack l (s.bytes (128 * l) 128)

namespace Serves

theorem refl (s : State) : Serves s s := ⟨rfl, [], (List.append_nil _).symm, fun _ h => absurd h List.not_mem_nil⟩

/-- A change of the caches alone. -/
theorem of_out {s t : State} (h : { t with
    slices := s.slices, dies := s.dies, agenda := s.agenda, out := s.out
    host := { t.host with cached := s.host.cached, cachedSet := s.host.cachedSet, wbOut := s.host.wbOut } } = s)
    (ho : t.out = s.out) : Serves s t :=
  ⟨h, [], ho.trans (List.append_nil _).symm, fun _ h => absurd h List.not_mem_nil⟩

theorem mem {s t : State} (h : Serves s t) : t.mem = s.mem := congrArg (·.mem) (show _ = s from h.frame)
theorem ver {s t : State} (h : Serves s t) : t.ver = s.ver := congrArg (·.ver) (show _ = s from h.frame)
theorem poison {s t : State} (h : Serves s t) : t.poison = s.poison := congrArg (·.poison) (show _ = s from h.frame)
theorem c {s t : State} (h : Serves s t) : t.c = s.c := congrArg (·.c) (show _ = s from h.frame)
theorem ctxs {s t : State} (h : Serves s t) : t.ctxs = s.ctxs := congrArg (·.ctxs) (show _ = s from h.frame)
theorem held {s t : State} (h : Serves s t) : t.host.held = s.host.held := congrArg (·.host.held) (show _ = s from h.frame)
theorem cmdts {s t : State} (h : Serves s t) : t.host.cmdts = s.host.cmdts := congrArg (·.host.cmdts) (show _ = s from h.frame)

theorem bytes {s t : State} (h : Serves s t) (loc n : Nat) : t.bytes loc n = s.bytes loc n := by
  unfold State.bytes; rw [h.mem]

theorem marked {s t : State} (h : Serves s t) (loc : Nat) : t.marked loc = s.marked loc := by
  unfold State.marked; rw [h.poison]

theorem trans {s t u : State} (h : Serves s t) (h' : Serves t u) : Serves s u := by
  obtain ⟨wb, hs, hw⟩ := h.out
  obtain ⟨wb', hs', hw'⟩ := h'.out
  refine ⟨?_, wb ++ wb', by rw [hs', hs, List.append_assoc], fun m hm => ?_⟩
  · have hf := h.frame
    rw [← h'.frame] at hf
    exact hf
  · rcases List.mem_append.mp hm with hm | hm
    · exact hw m hm
    · obtain ⟨l, rfl⟩ := hw' m hm
      exact ⟨l, by rw [h.bytes]⟩

theorem foldl {α : Type} (f : State → α → State) (hf : ∀ s a, Serves s (f s a)) (l : List α) (s : State) :
    Serves s (l.foldl f s) :=
  List.foldlRecOn l f (motive := Serves s) (refl s) fun t ht a _ => ht.trans (hf t a)

end Serves

theorem serves_due (s : State) (i : Instr) : Serves s (s.due i) := .of_out rfl rfl

theorem serves_writeBack (s : State) (l : Nat) : Serves s (s.writeBack l) :=
  ⟨rfl, [_], rfl, fun _ hm => ⟨l, List.mem_singleton.mp hm⟩⟩

theorem serves_uncacheHost (s : State) (l : Nat) : Serves s (s.uncacheHost l) := .of_out rfl rfl

theorem serves_dieUse (s : State) (l : Nat) (w : Bool) : Serves s (s.dieUse l w) := by
  unfold State.dieUse
  generalize useWay (Store.get [] s.dies (dieSet l)) l w = x
  obtain ⟨set, hit, gone⟩ := x
  have h1 : Serves s { s with dies := Store.set [] s.dies (dieSet l) set } := .of_out rfl rfl
  refine Serves.trans ?_ (Serves.foldl _ (fun s e => ?_) _ _)
  · split
    · exact h1
    · exact h1.trans (serves_due _ _)
  · split
    · exact serves_due _ _
    · exact .refl s

/-- A way that leaves a set is cleaned up after. -/
def evict (s : State) (e : Nat × Bool) : State :=
  if isHost (128 * e.1) then (if e.2 then s.writeBack e.1 else s).uncacheHost e.1
  else if e.2 && isHbm e.1 then s.dieUse e.1 true
  else s

theorem serves_evict (s : State) (e : Nat × Bool) : Serves s (evict s e) := by
  unfold evict
  split
  · split
    · exact (serves_writeBack s _).trans (serves_uncacheHost _ _)
    · exact serves_uncacheHost s _
  · split
    · exact serves_dieUse s _ _
    · exact .refl s

/-- The machine when a line stands in its set and nothing has left the set yet. -/
def allocated (s : State) (line : Nat) (write : Bool) : State :=
  let x := useWay (Store.get [] s.slices (sliceSet line)) line write
  let s := { s with slices := Store.set [] s.slices (sliceSet line) x.1 }
  if isHost (128 * line) then
    { s with host := { s.host with
      cached := if write then Store.set false s.host.cached line true else s.host.cached
      cachedSet := Store.set false s.host.cachedSet line true } }
  else if x.2.1 || !isHbm line then s else s.dieUse line false

theorem sliceUse_eq (s : State) (line : Nat) (write : Bool) :
    s.sliceUse line write
      = (useWay (Store.get [] s.slices (sliceSet line)) line write).2.2.foldl evict (allocated s line write) := by
  unfold State.sliceUse allocated
  generalize useWay (Store.get [] s.slices (sliceSet line)) line write = x
  obtain ⟨set, hit, gone⟩ := x
  rfl

theorem serves_allocated (s : State) (line : Nat) (write : Bool) : Serves s (allocated s line write) := by
  unfold allocated
  generalize useWay (Store.get [] s.slices (sliceSet line)) line write = x
  have h1 : Serves s { s with slices := Store.set [] s.slices (sliceSet line) x.1 } := .of_out rfl rfl
  dsimp only
  split
  · exact .of_out rfl rfl
  · split
    · exact h1
    · exact h1.trans (serves_dieUse _ _ _)

theorem serves_sliceUse (s : State) (line : Nat) (write : Bool) : Serves s (s.sliceUse line write) := by
  rw [sliceUse_eq]
  exact (serves_allocated s line write).trans (Serves.foldl _ serves_evict _ _)

theorem serves_slicesUse (s : State) (ls : List Nat) (w : Bool) : Serves s (s.slicesUse ls w) :=
  Serves.foldl _ (fun s l => serves_sliceUse s l w) _ s

/-! ### A host line that has been served is held (R76) -/

theorem dieUse_host (s : State) (l : Nat) (w : Bool) : (s.dieUse l w).host = s.host := by
  unfold State.dieUse
  generalize useWay (Store.get [] s.dies (dieSet l)) l w = x
  obtain ⟨set, hit, gone⟩ := x
  refine List.foldlRecOn gone _ (motive := fun (t : State) => t.host = s.host) ?_ fun t ht e _ => ?_
  · dsimp only
    split <;> rfl
  · dsimp only
    split <;> exact ht

theorem evict_cachedSet (s : State) (e : Nat × Bool) (l : Nat) (h : e.1 ≠ l) :
    Store.get false (evict s e).host.cachedSet l = Store.get false s.host.cachedSet l := by
  have hset : Store.get false (Store.set false s.host.cachedSet e.1 false) l = Store.get false s.host.cachedSet l := by
    rw [Store.get_set, if_neg (Ne.symm h)]
  unfold evict
  split
  · split <;> exact hset
  · split
    · rw [dieUse_host]
    · rfl

/-- What leaves a set is not the line that has just been used. -/
theorem gone_useWay (set : List (Nat × Bool)) (line : Nat) (write : Bool) (e : Nat × Bool)
    (h : e ∈ (useWay set line write).2.2) : e.1 ≠ line := by
  have h' : e ∈ set.filter fun e => e.1 ≠ line := by
    simp only [useWay, List.length_append, List.length_singleton] at h
    rw [List.take_append_of_le_length (by omega)] at h
    exact List.mem_of_mem_take h
  simpa using (List.mem_filter.mp h').2

theorem sliceUse_cachedSet (s : State) (line : Nat) (write : Bool) (h : isHost (128 * line) = true) :
    Store.get false (s.sliceUse line write).host.cachedSet line = true := by
  rw [sliceUse_eq]
  refine List.foldlRecOn _ _ (motive := fun (t : State) => Store.get false t.host.cachedSet line = true) ?_ fun t ht e he => ?_
  · unfold allocated
    dsimp only
    rw [if_pos h]
    exact (Store.get_set ..).trans (if_pos rfl)
  · rw [evict_cachedSet t e line (gone_useWay _ _ _ e he)]
    exact ht

/-! ## Write events (R77, R132) -/

theorem flush_empty (s : State) (ls : List Nat) (h : s.wq = []) : s.flush ls = s := by
  unfold State.flush
  rw [h]
  rfl

theorem write_eq (s : State) (loc : Nat) (bs : List Byte) (h : s.wq = []) :
    s.write loc bs = (((s.poke loc bs).bump (linesOf loc bs.length)).fill (linesOf loc bs.length)) := by
  unfold State.write
  dsimp only
  rw [flush_empty s _ h]

theorem fill_ver (s : State) (ls : List Nat) : (s.fill ls).ver = s.ver := by
  refine List.foldlRecOn ls _ (motive := fun (t : State) => t.ver = s.ver) rfl fun t ht l _ => ?_
  split <;> exact ht

theorem bump_cons (s : State) (a : Nat) (ls : List Nat) : s.bump (a :: ls) = (s.bump [a]).bump ls := rfl

/-- `BitVec.add_zero` with its zero as the numeral that the model's terms have. -/
theorem add_zero_word {w : Nat} (x : BitVec w) : x + 0 = x := BitVec.add_zero x

theorem bump_one_version (s : State) (a l : Nat) (h : isDev (128 * l) = true) :
    (s.bump [a]).version l = s.version l + if l = a then 1 else 0 := by
  show (if isDev (128 * a) then { s with ver := Store.set 0 s.ver a (s.version a + 1) }
    else if isHost (128 * a) then s.sliceUse a true else s : State).version l = _
  by_cases hl : l = a
  · subst hl
    rw [if_pos h, if_pos rfl]
    exact (Store.get_set ..).trans (if_pos rfl)
  · rw [if_neg hl, add_zero_word]
    split
    · exact (Store.get_set ..).trans (if_neg hl)
    · split
      · exact congrArg (Store.get 0 · l) (serves_sliceUse s a true).ver
      · rfl

theorem bump_version (s : State) (ls : List Nat) (l : Nat) (hn : ls.Nodup) (h : isDev (128 * l) = true) :
    (s.bump ls).version l = s.version l + if l ∈ ls then 1 else 0 := by
  induction ls generalizing s with
  | nil => exact (add_zero_word _).symm
  | cons a ls ih =>
    obtain ⟨ha, hn⟩ := List.nodup_cons.mp hn
    rw [bump_cons, ih _ hn, bump_one_version s a l h]
    by_cases hl : l = a
    · subst hl
      rw [if_pos rfl, if_neg ha, if_pos List.mem_cons_self, add_zero_word]
    · simp only [List.mem_cons, hl, false_or, if_false, add_zero_word]

theorem nodup_linesOf (loc n : Nat) : (linesOf loc n).Nodup := by
  unfold linesOf
  split
  · exact List.nodup_nil
  · exact List.nodup_range'

theorem poke_byte_getD (s : State) (loc : Nat) (bs : List Byte) (j : Nat) :
    (s.poke loc bs).byte j = if loc ≤ j ∧ j < loc + bs.length then bs.getD (j - loc) 0 else s.byte j := by
  rw [State.poke_byte]
  split
  · next hj => exact List.getElem_eq_getD 0
  · rfl

/-- A write event with no reduction open leaves what R77 says. -/
theorem writtenAt_write (s : State) (loc : Nat) (bs : List Byte) (h : s.wq = []) : WrittenAt s (s.write loc bs) loc bs := by
  rw [write_eq s loc bs h]
  refine ⟨fun j => ?_, fun l hl => ?_⟩
  · rw [← poke_byte_getD]
    show Store.get 0 (State.fill _ _).mem j = _
    rw [State.fill_mem, State.bump_mem]
    rfl
  · show Store.get 0 (State.fill _ _).ver l = _
    rw [fill_ver]
    exact bump_version (s.poke loc bs) _ l (nodup_linesOf ..) hl

/-- What the slices serve behind a write event leaves the memory that it left. -/
theorem writtenAt_serves {s t u : State} {loc : Nat} {bs : List Byte} (h : WrittenAt s t loc bs) (hs : Serves t u) :
    WrittenAt s u loc bs := by
  obtain ⟨hb, hv⟩ := h
  refine ⟨fun j => ?_, fun l hl => ?_⟩
  · rw [← hb j]; exact congrArg (Store.get 0 · j) hs.mem
  · rw [← hv l hl]; exact congrArg (Store.get 0 · l) hs.ver

/-- A write event changes nothing of the host's side but what the caches hold of its lines. -/
theorem write_hostKept (s : State) (loc : Nat) (bs : List Byte) (h : s.wq = []) :
    (s.write loc bs).host.held = s.host.held ∧ (s.write loc bs).host.cmdts = s.host.cmdts := by
  have hfill (u : State) (ls : List Nat) : (u.fill ls).host = u.host :=
    List.foldlRecOn ls _ (motive := fun (t : State) => t.host = u.host) rfl fun t ht l _ => by split <;> exact ht
  have hbump (u : State) (ls : List Nat) : (u.bump ls).host.held = u.host.held ∧ (u.bump ls).host.cmdts = u.host.cmdts := by
    refine List.foldlRecOn ls _ (motive := fun (t : State) => t.host.held = u.host.held ∧ t.host.cmdts = u.host.cmdts)
      ⟨rfl, rfl⟩ fun t ht l _ => ?_
    split
    · exact ht
    · split
      · have hs := serves_sliceUse t l true
        exact ⟨hs.held.trans ht.1, hs.cmdts.trans ht.2⟩
      · exact ht
  rw [write_eq s loc bs h, hfill]
  exact hbump _ _

theorem write_ctxs (s : State) (loc : Nat) (bs : List Byte) : (s.write loc bs).c = s.c ∧ (s.write loc bs).ctxs = s.ctxs :=
  have h := State.sameBut_write s loc bs
  ⟨congrArg (·.c) (show _ = s from h), congrArg (·.ctxs) (show _ = s from h)⟩

/-- The chip's own write of lines that the host does not hold (R41). -/
theorem writeNow_eq (s : State) (loc : Nat) (bs : List Byte) (h : s.heldLines (linesOf loc bs.length) = []) :
    s.writeNow loc bs = (s.write loc bs).slicesUse (linesOf loc bs.length) true := by
  unfold State.writeNow
  dsimp only
  rw [h]
  rfl

theorem writeNow_writes (s : State) (loc : Nat) (bs : List Byte) (hw : s.wq = []) (h : s.heldLines (linesOf loc bs.length) = []) :
    WrittenAt s (s.writeNow loc bs) loc bs ∧ (s.writeNow loc bs).c = s.c ∧ (s.writeNow loc bs).ctxs = s.ctxs
      ∧ (s.writeNow loc bs).host.cmdts = s.host.cmdts := by
  rw [writeNow_eq s loc bs h]
  have hs := serves_slicesUse (s.write loc bs) (linesOf loc bs.length) true
  obtain ⟨hc, hx⟩ := write_ctxs s loc bs
  exact ⟨writtenAt_serves (writtenAt_write s loc bs hw) hs, hs.c.trans hc, hs.ctxs.trans hx, hs.cmdts.trans (write_hostKept s loc bs hw).2⟩

/-- Bytes within one line touch that line alone. -/
theorem linesOf_within (loc n : Nat) (h0 : 0 < n) (h : loc % 128 + n ≤ 128) : linesOf loc n = [loc / 128] := by
  have he : (loc + n - 1) / 128 + 1 - loc / 128 = 1 := by omega
  unfold linesOf lineOf
  rw [if_neg (by omega), he]
  rfl

end Sys2Proof.Proofs

/-!
What reset leaves (O58).
-/
namespace Sys2Proof.Proofs
open Sys2Proof.Machine Sys2Proof.Claims

theorem resetState : ResetState := by
  refine ⟨rfl, rfl, rfl, rfl, rfl, rfl, rfl, fun l => ?_, rfl⟩
  exact Store.get_nil 0 l

theorem resetRegisters : ResetRegisters :=
  ⟨rfl, rfl, rfl, by decide⟩

/-- Settles O58: each part is read off the one record `State.reset`. -/
theorem resetLeaves : Obligations.ResetLeaves :=
  ⟨resetState, resetRegisters, Store.wf_nil 0⟩

end Sys2Proof.Proofs

/-!
Resets, trips, the power limit and the sideband (O37).
-/
namespace Sys2Proof.Proofs
open Sys2Proof.Machine Sys2Proof.Claims

/-! ## Resets (R14 to R16) -/

theorem mem_dirtyLines (s : State) (l : Nat) : l ∈ s.dirtyLines ↔ (l, true) ∈ s.host.cached := by
  simp [State.dirtyLines]

theorem mem_hostBytes (s : State) (lost : List Nat) (e : Host.Cell) :
    e ∈ s.hostBytes lost ↔ e ∈ s.mem ∧ isHost e.1 = true ∧ lineOf e.1 ∉ lost := by
  simp [State.hostBytes]

/-- Of host memory what is left when the dirty lines are lost is every byte off them. -/
theorem mem_hostBytes_dirty (s : State) (e : Host.Cell) :
    e ∈ s.hostBytes s.dirtyLines ↔ e ∈ s.mem ∧ isHost e.1 = true ∧ ∀ l, (l, true) ∈ s.host.cached → e.1 / 128 ≠ l := by
  rw [mem_hostBytes, mem_dirtyLines]
  refine and_congr_right fun _ => and_congr_right fun _ => ⟨?_, ?_⟩
  · rintro h l hl rfl
    exact h hl
  · intro h hl
    exact h _ hl rfl

/-- One line of `State.writeBackAll`: written back, and held on clean. -/
def cleaned (s : State) (l : Nat) : State :=
  let s := s.writeBack l
  { s with
    slices := Store.set [] s.slices (sliceSet l)
      ((Store.get [] s.slices (sliceSet l)).map fun x => if x.1 = l then (x.1, false) else x)
    host := { s.host with cached := Store.set false s.host.cached l false } }

theorem writeBackAll_eq (s : State) : s.writeBackAll = s.host.cached.foldl (fun s e => cleaned s e.1) s := rfl

/-- What t differs from s in: the caches, and what is sent and awaited of write-backs. -/
def WritesBack (s t : State) : Prop :=
  { t with out := s.out, slices := s.slices, host := { t.host with wbOut := s.host.wbOut, cached := s.host.cached } } = s

theorem writesBack_cleaned {s t : State} (h : WritesBack s t) (l : Nat) : WritesBack s (cleaned t l) := h

theorem writesBack_foldl (s : State) (es : List (Nat × Bool)) : WritesBack s (es.foldl (fun s e => cleaned s e.1) s) :=
  List.foldlRecOn es _ (motive := WritesBack s) rfl fun _ h e _ => writesBack_cleaned h e.1

theorem out_subset_foldl_cleaned (es : List (Nat × Bool)) (s : State) (m : OutMsg) (h : m ∈ s.out) :
    m ∈ (es.foldl (fun s e => cleaned s e.1) s).out :=
  List.foldlRecOn es _ (motive := fun (t : State) => m ∈ t.out) h fun _ ht _ _ => List.mem_append_left _ ht

theorem mem_out_foldl_cleaned (es : List (Nat × Bool)) (s : State) (e : Nat × Bool) (h : e ∈ es) :
    .writeBack e.1 (s.bytes (128 * e.1) 128) ∈ (es.foldl (fun s e => cleaned s e.1) s).out := by
  induction es generalizing s with
  | nil => cases h
  | cons x es ih =>
    rcases List.mem_cons.mp h with rfl | h
    · exact out_subset_foldl_cleaned es _ _ (List.mem_append_right _ (List.mem_singleton.mpr rfl))
    · exact ih (cleaned s x.1) h

/-- A write-back of every dirty line leaves all else as it is. -/
theorem writeBackAll_frame (s : State) : { s.writeBackAll with
    out := s.out, slices := s.slices, host := { s.writeBackAll.host with wbOut := s.host.wbOut, cached := s.host.cached } } = s := by
  rw [writeBackAll_eq]
  exact writesBack_foldl s _

/-- A reset after every dirty line has been written back leaves what it leaves at once, but for the messages sent. -/
theorem toReset_writeBackAll (s : State) : s.writeBackAll.toReset = { s.toReset with out := s.writeBackAll.out } := by
  have h := writeBackAll_frame s
  have hf : s.writeBackAll.pwr = s.pwr := congrArg (·.pwr) h
  have hb : s.writeBackAll.host.boots = s.host.boots := congrArg (·.host.boots) h
  have hn : s.writeBackAll.nextRef = s.nextRef := congrArg (·.nextRef) h
  have hq : s.writeBackAll.free = s.free := congrArg (·.free) h
  simp only [State.toReset, hf, hb, hn, hq]

theorem writeBackAll_hostBytes (s : State) (lost : List Nat) : s.writeBackAll.hostBytes lost = s.hostBytes lost := by
  have h : s.writeBackAll.mem = s.mem := congrArg (·.mem) (writeBackAll_frame s)
  simp only [State.hostBytes, h]

theorem resetFrom_toReset (s : State) (m : List Host.Cell) : ResetFrom s { s.toReset with mem := m } := ⟨rfl, rfl, rfl⟩

theorem execWarmReset_held (s : State) (perst up : Bool) (h : s.pwr.trip = true ∨ s.pwr.orderErr = true) :
    execWarmReset perst up s = .next s := by
  have h : (s.pwr.trip || s.pwr.orderErr) = true := by simpa using h
  simp only [execWarmReset, h, if_true]

theorem execWarmReset_written (s : State) (ht : s.pwr.trip = false) (ho : s.pwr.orderErr = false) :
    execWarmReset false true s = .next { s.toReset with out := s.writeBackAll.out, mem := s.hostBytes [] } := by
  simp only [execWarmReset, ht, ho, Bool.or_self, Bool.false_eq_true, if_false, Bool.not_false, Bool.and_self, if_true,
    toReset_writeBackAll, writeBackAll_hostBytes]

theorem execWarmReset_lost (s : State) (perst up : Bool) (ht : s.pwr.trip = false) (ho : s.pwr.orderErr = false)
    (h : perst = true ∨ up = false) :
    execWarmReset perst up s = .next { s.toReset with mem := s.hostBytes s.dirtyLines } := by
  have h : (up && !perst) = false := by rcases h with rfl | rfl <;> simp
  simp only [execWarmReset, ht, ho, h, Bool.or_self, Bool.false_eq_true, if_false]

theorem resets : Resets := by
  intro s perst up
  refine ⟨⟨_, rfl, resetFrom_toReset s _, rfl, mem_hostBytes_dirty s⟩, execWarmReset_held s perst up, ?_, ?_⟩
  · intro ht ho
    refine ⟨_, execWarmReset_written s ht ho, ⟨rfl, rfl, rfl⟩, ?_, fun l hl => mem_out_foldl_cleaned _ s (l, true) hl⟩
    intro e
    simp [mem_hostBytes]
  · intro ht ho h
    exact ⟨_, execWarmReset_lost s perst up ht ho h, resetFrom_toReset s _, rfl, mem_hostBytes_dirty s⟩

/-! ## Trips (R11, R14, R15) -/

theorem isHost_of_mem_hostBytes (s : State) (lost : List Nat) (e : Host.Cell) (h : e ∈ s.hostBytes lost) : isHost e.1 = true :=
  ((mem_hostBytes s lost e).mp h).2.1

theorem trips : Trips := by
  intro s
  refine ⟨⟨_, rfl, rfl, rfl, rfl, rfl, isHost_of_mem_hostBytes s _⟩, ⟨_, rfl, rfl, rfl, rfl, isHost_of_mem_hostBytes s _⟩, ?_, ?_⟩
  · intro h
    exact if_pos h
  · intro h
    exact if_neg h

/-! ## The power limit (R12 to R14, R20) -/

theorem limitW_toNat (p : Power) : p.limitW.toNat = max 300 (min 1450 p.limit.toNat) := by
  have hhi : (1450 : BitVec 16).toNat = 1450 := rfl
  have hlo : (300 : BitVec 16).toNat = 300 := rfl
  unfold Power.limitW
  simp only [BitVec.lt_def, hhi, hlo]
  split
  · omega
  · split <;> omega

theorem inForce_toNat (p : Power) : p.inForce.toNat = limitOf p := by
  unfold Power.inForce limitOf
  rw [← limitW_toNat]
  split
  · next h => rw [BitVec.lt_def] at h; omega
  · next h => rw [BitVec.lt_def] at h; omega

/-- A power state with a junction temperature read below 110 °C (R13, R20). -/
def heated (p : Power) (tj : BitVec 8) : Power := { p with tj := tj, alert := if 95 ≤ tj.toNat then p.alert ||| 1 else p.alert }

theorem heat_trips (s : State) (tj : BitVec 8) (h : 110 ≤ tj.toNat) :
    s.heat tj = State.thermalTrip { s with pwr := { s.pwr with tj := tj, alert := s.pwr.alert ||| 1 } } := if_pos h

theorem heat_reads (s : State) (tj : BitVec 8) (h : tj.toNat < 110) : s.heat tj = { s with pwr := heated s.pwr tj } := by
  have h : ¬ 110 ≤ tj.toNat := by omega
  unfold State.heat heated
  rw [if_neg h]
  split <;> rfl

theorem execThermalLimitLower_trips (s : State) (tj : BitVec 8) (h : 110 ≤ tj.toNat) :
    execThermalLimitLower tj s = .next (s.heat tj) := by
  unfold execThermalLimitLower
  rw [heat_trips s tj h]; rfl

theorem execThermalLimitRaise_trips (s : State) (tj : BitVec 8) (h : 110 ≤ tj.toNat) :
    execThermalLimitRaise tj s = .next (s.heat tj) := by
  unfold execThermalLimitRaise
  rw [heat_trips s tj h]; rfl

/-- A step of the thermal limit can be taken: no trip, and the 1 ms since the last one have passed (R14). -/
def StepDue (s : State) : Prop := s.pwr.trip = false ∧ s.pwr.thermAt ≤ s.time.toNat

theorem execThermalLimitLower_steps (s : State) (tj : BitVec 8) (hi : 95 ≤ tj.toNat) (lo : tj.toNat < 110) (h : StepDue s) :
    execThermalLimitLower tj s = .next { s with pwr := { heated s.pwr tj with
      thermal := BitVec.ofNat 16 (limitOf s.pwr - 50), thermAt := s.time.toNat + 4000000 } } := by
  obtain ⟨ht, hd⟩ := h
  have hc : ¬ (s.pwr.trip || decide (tj.toNat < 95) || decide (s.time.toNat < s.pwr.thermAt)) = true := by
    simp [ht, hi, hd]
  unfold execThermalLimitLower
  rw [heat_reads s tj lo, ← inForce_toNat]
  exact if_neg hc

theorem execThermalLimitLower_reads (s : State) (tj : BitVec 8) (lo : tj.toNat < 110) (h : tj.toNat < 95 ∨ ¬ StepDue s) :
    execThermalLimitLower tj s = .next { s with pwr := heated s.pwr tj } := by
  have hc : (s.pwr.trip || decide (tj.toNat < 95) || decide (s.time.toNat < s.pwr.thermAt)) = true := by
    simp only [StepDue, not_and] at h
    rcases h with h | h
    · simp [h]
    · cases ht : s.pwr.trip <;> simp_all
  unfold execThermalLimitLower
  rw [heat_reads s tj lo]
  exact if_pos hc

theorem execThermalLimitRaise_steps (s : State) (tj : BitVec 8) (lo : tj.toNat < 90) (h : StepDue s) :
    execThermalLimitRaise tj s = .next { s with pwr := { heated s.pwr tj with thermAt := s.time.toNat + 4000000, thermal :=
      (if limitOf s.pwr + 50 < max 300 (min 1450 s.pwr.limit.toNat) then BitVec.ofNat 16 (limitOf s.pwr + 50) else 1450) } } := by
  obtain ⟨ht, hd⟩ := h
  have hc : ¬ (s.pwr.trip || decide (90 ≤ tj.toNat) || decide (s.time.toNat < s.pwr.thermAt)) = true := by
    simp [ht, lo, hd]
  unfold execThermalLimitRaise
  rw [heat_reads s tj (by omega), ← inForce_toNat, ← limitW_toNat]
  exact if_neg hc

theorem execThermalLimitRaise_reads (s : State) (tj : BitVec 8) (lo : tj.toNat < 110) (h : 90 ≤ tj.toNat ∨ ¬ StepDue s) :
    execThermalLimitRaise tj s = .next { s with pwr := heated s.pwr tj } := by
  have hc : (s.pwr.trip || decide (90 ≤ tj.toNat) || decide (s.time.toNat < s.pwr.thermAt)) = true := by
    simp only [StepDue, not_and] at h
    rcases h with h | h
    · simp [h]
    · cases ht : s.pwr.trip <;> simp_all
  unfold execThermalLimitRaise
  rw [heat_reads s tj lo]
  exact if_pos hc

theorem powerMoves : PowerMoves := by
  intro s tj avg bits p rail crossed causes read steps
  have bit : crossed.railsOut.getLsbD rail = !p.railsOut.getLsbD rail := by
    have h : rail < 6 := (Config.railOf p.rails).isLt
    simp [crossed, h]
  refine ⟨fun h => ?_, fun h => ?_, fun h => ?_, fun hi lo h => execThermalLimitLower_steps s tj hi lo h,
    fun lo h => execThermalLimitLower_reads s tj lo h, fun lo h => execThermalLimitRaise_steps s tj lo h,
    fun lo h => execThermalLimitRaise_reads s tj lo h, ?_, fun h => if_pos (decide_eq_true h), rfl, fun h => ?_⟩
  · exact congrArg Host.Outcome.next (if_pos (bit.trans (by rw [h]; rfl)))
  · exact congrArg Host.Outcome.next (if_neg (by rw [show _ = _ from bit, h]; exact Bool.false_ne_true))
  · exact ⟨(execThermalLimitLower_trips s tj h).trans (congrArg _ (heat_trips s tj h)),
      (execThermalLimitRaise_trips s tj h).trans (congrArg _ (heat_trips s tj h))⟩
  · show execPowerWindowEvaluation avg s = _
    unfold execPowerWindowEvaluation
    rw [inForce_toNat]
  · exact if_neg (by simp [State.sidebandUp, show s.pwr.phase = 0 from h])

/-! ## The sideband (R20) -/

theorem sidebandUp_iff (s : State) : s.sidebandUp = true ↔ 1 ≤ s.pwr.phase := decide_eq_true_iff

theorem execSidebandRead_up (s : State) (a : BitVec 8) (h : 1 ≤ s.pwr.phase) :
    execSidebandRead a s = .next (s.send (.i3c (s.sideband a))) := if_pos ((sidebandUp_iff s).mpr h)

theorem execSidebandRead_down (s : State) (a : BitVec 8) (h : s.pwr.phase = 0) : execSidebandRead a s = .next s :=
  if_neg (by rw [sidebandUp_iff]; omega)

theorem execSidebandWrite_down (s : State) (a : BitVec 8) (w : Word) (h : s.pwr.phase = 0) : execSidebandWrite a w s = .next s :=
  if_pos (by rw [Bool.not_eq_true', ← Bool.not_eq_true, sidebandUp_iff]; omega)

theorem execEntdaa_down (s : State) (a : BitVec 7) (h : s.pwr.phase = 0) : execEntdaa a s = .next s :=
  if_neg (by rw [sidebandUp_iff]; omega)

/-- A write reaches PWR_LIMIT and ALERT_STAT alone. -/
theorem execSidebandWrite_up (s : State) (a : BitVec 8) (w : Word) (h : 1 ≤ s.pwr.phase) :
    execSidebandWrite a w s = .next (if a = 0x14 then { s with pwr := { s.pwr with limit := w.extractLsb' 0 16 } }
      else if a = 0x1C then s.alertClear w else s) := by
  have hn : ¬ (!s.sidebandUp) = true := by simp [(sidebandUp_iff s).mpr h]
  unfold execSidebandWrite
  rw [if_neg hn]
  split
  · next h => rw [if_pos (BitVec.eq_of_toNat_eq h)]
  · next h => rw [if_neg (fun e => by rw [e] at h; cases h), if_pos (BitVec.eq_of_toNat_eq h)]
  · next h1 h2 => rw [if_neg (fun e => h1 (congrArg BitVec.toNat e)), if_neg (fun e => h2 (congrArg BitVec.toNat e))]

theorem vidbBits_fields (code : BitVec 8) : (vidbBits code).extractLsb' 16 4 = 0b1010 ∧ (vidbBits code).extractLsb' 8 8 = code
    ∧ (vidbBits code).extractLsb' 1 7 = 0
    ∧ ((vidbBits code).getLsbD 0 = true ↔ ((List.range 8).countP code.getLsbD) % 2 = 1) := by
  revert code; decide

theorem sideband : Sideband := by
  intro s a code addr data boot answers
  refine ⟨fun h => ⟨execSidebandRead_down s addr h, execSidebandWrite_down s addr data h, execEntdaa_down s a h⟩,
    fun h => ⟨if_pos ((sidebandUp_iff s).mpr h), execSidebandRead_up s _ h, execSidebandRead_up s _ h, execSidebandRead_up s _ h,
      execSidebandWrite_up s 0x14 data h, ?_, fun h1 h2 => ?_⟩, fun h => if_pos h, fun h => ?_⟩
  · exact (execSidebandWrite_up s 0x1C data h).trans (if_pos ((sidebandUp_iff s).mpr h)).symm
  · exact (execSidebandWrite_up s addr data h).trans (by rw [if_neg h1, if_neg h2])
  · exact ⟨vidbBits code, if_neg (by omega), vidbBits_fields code⟩

/-- Settles O37: a reset's memory is `State.hostBytes`, and each event of power is one of the equations above. -/
theorem resetsAndPower : Obligations.ResetsAndPower := ⟨resets, trips, powerMoves, sideband⟩

end Sys2Proof.Proofs

/-!
The phases of bring-up (O38).
-/
namespace Sys2Proof.Proofs
open Sys2Proof.Machine Sys2Proof.Claims

/-! ## Phases 0 to 5 (R17, R18) -/

theorem fuseLoad_runs (s : State) (form : BitVec 8) (hp : s.pwr.phase = 0) (he : s.pwr.err = 0) :
    PowerIs (.fuseLoad ⟨true, form⟩) s { s.pwr with phase := 1, form := form }
      ∧ PowerIs (.fuseLoad ⟨false, form⟩) s { s.pwr with err := 1, form := form } :=
  have h : ¬ (s.pwr.phase ≠ 0 || s.pwr.err ≠ 0) = true := by simp [hp, he]
  ⟨if_neg h, if_neg h⟩

theorem fuseLoad_elsewhere (s : State) (f : Fuses) (hp : s.pwr.phase ≠ 0) : execFuseLoad f s = .next s :=
  if_pos (by simp [hp])

theorem cxlLinkTraining_failed (s : State) (ok : Bool) (hp : s.pwr.phase = 0) (he : s.pwr.err = 1) :
    execCxlLinkTraining ok s = .next (State.failBringup { s with pwr := { s.pwr with link := ok } } 1) :=
  if_pos (by simp [hp, he])

theorem cxlLinkTraining_runs (s : State) (ok : Bool) (hp : s.pwr.phase = 2) :
    execCxlLinkTraining ok s = .next (if ok then State.toPhase { s with pwr := { s.pwr with link := ok } } 3
      else State.failBringup { s with pwr := { s.pwr with link := ok } } 0) := by
  unfold execCxlLinkTraining
  rw [if_neg (by simp [hp]), if_neg (by simp [hp])]

theorem cxlLinkTraining_elsewhere (s : State) (ok : Bool) (hp : s.pwr.phase ≠ 2) (h : ¬ (s.pwr.phase = 0 ∧ s.pwr.err = 1)) :
    execCxlLinkTraining ok s = .next s := by
  unfold execCxlLinkTraining
  rw [if_neg (by simpa using h), if_pos hp]

theorem selfTest_runs (s : State) (pass : BitVec 24) (a b : Bool) (hp : s.pwr.phase = 3) :
    let u : State := { s with pwr := { s.pwr with pass := pass } }
    execSelfTest pass a b s = .next (if a = false then u.failBringup 2 else if b = false then u.failBringup 5
      else if pass = 0 then u.failBringup 7 else u.toPhase 4) := by
  intro u
  unfold execSelfTest
  rw [if_neg (by simp [hp])]
  cases a <;> cases b <;> rfl

/-- A Soard port as phase 4 leaves it. -/
def trainedPort (s : State) (up : BitVec 16) (p : Nat) : SPort :=
  { SPort.reset with up := up.getLsbD p, tryAt := s.time.toNat + 4000000, ackAt := s.time.toNat }

/-- The ports as phase 4 leaves them. -/
def trainedPorts (s : State) (up : BitVec 16) : Store SPort :=
  (List.range 16).foldl (fun m (p : Nat) => Store.set SPort.reset m p (trainedPort s up p)) s.fab.ports

/-- The power state as phase 4 leaves it: what was found of the tiers, then phase 5 or the failure. -/
def trainedPower (p : Power) (hbm : BitVec 8) (ok : Bool) (gib : Nat) : Power :=
  let p := { p with hbmPass := hbm, tierGib := tierSize p.form gib }
  if hbm ≠ 0xFF then { p with phase := 15, err := 3, alert := p.alert ||| 2 }
  else if !ok then { p with phase := 15, err := 4, alert := p.alert ||| 2 }
  else { p with phase := 5 }

theorem memoryTraining_runs (s : State) (hbm : BitVec 8) (ok : Bool) (gib : Nat) (up : BitVec 16) (hp : s.pwr.phase = 4) :
    execMemoryTraining hbm ⟨ok, gib⟩ up s
      = .next { s with pwr := trainedPower s.pwr hbm ok gib, fab := { s.fab with ports := trainedPorts s up } } := by
  unfold execMemoryTraining trainedPower
  rw [if_neg (by simp [hp])]
  dsimp only
  split
  · rfl
  · split <;> rfl

theorem trainedPorts_get (s : State) (up : BitVec 16) (k : Nat) (hk : k < 16) :
    Store.get SPort.reset (trainedPorts s up) k = trainedPort s up k := (get_foldl_set _ _ _ _ _).trans (if_pos hk)

theorem trainedPower_found (p : Power) (hbm : BitVec 8) (ok : Bool) (gib : Nat) :
    (trainedPower p hbm ok gib).tierGib = tierSize p.form gib ∧ (trainedPower p hbm ok gib).hbmPass = hbm := by
  unfold trainedPower
  split
  · exact ⟨rfl, rfl⟩
  · split <;> exact ⟨rfl, rfl⟩

theorem memoryTraining_leaves (s : State) (hbm : BitVec 8) (ports : BitVec 16) (a : Bool) (gib : Nat) (hp : s.pwr.phase = 4) :
    ∃ t, exec (.memoryTraining hbm ⟨a, gib⟩ ports) s = .next t
      ∧ (∀ k, k < 16 → (t.port k).up = ports.getLsbD k ∧ (t.port k).replay = [] ∧ (t.port k).held = false)
      ∧ t.pwr.tierGib = min 3072 (if s.pwr.form = 3 then gib * 16 / 17 else gib) ∧ t.pwr.hbmPass = hbm
      ∧ (hbm = 0xFF → a = true → t.pwr.phase = 5 ∧ t.pwr.err = s.pwr.err)
      ∧ (hbm ≠ 0xFF → t.pwr.phase = 15 ∧ t.pwr.err = 3) ∧ (hbm = 0xFF → a = false → t.pwr.phase = 15 ∧ t.pwr.err = 4)
      ∧ { t with pwr := s.pwr, fab := { t.fab with ports := s.fab.ports } } = s := by
  obtain ⟨hgib, hpass⟩ := trainedPower_found s.pwr hbm a gib
  refine ⟨_, memoryTraining_runs s hbm a gib ports hp, fun k hk => ?_, hgib, hpass, ?_, fun h => ?_, ?_, rfl⟩
  · unfold State.port
    dsimp only
    rw [trainedPorts_get s ports k hk]
    exact ⟨rfl, rfl, rfl⟩
  · rintro rfl rfl
    exact ⟨rfl, rfl⟩
  · unfold trainedPower
    dsimp only
    rw [if_pos h]
    exact ⟨rfl, rfl⟩
  · rintro rfl rfl
    exact ⟨rfl, rfl⟩

theorem hardwareZeroing_leaves (s : State) (hp : s.pwr.phase = 5) :
    ∃ t, exec .hardwareZeroing s = .next t ∧ (∀ e, e ∈ t.mem ↔ e ∈ s.mem ∧ isDev e.1 = false) ∧ (∀ l, t.version l = 0)
      ∧ { t with mem := s.mem, ver := s.ver, poison := s.poison } = { s with pwr := { s.pwr with phase := 6 } } := by
  refine ⟨_, if_neg (by simp [hp]), fun e => ?_, fun l => Store.get_nil 0 l, rfl⟩
  simp

/-! ## Phase 6: device time (R36) -/

/-- A port whose moments are dated by the count after a step of device time. -/
def redated (now next : Nat) (x : SPort) : SPort := { x with tryAt := reDate now next x.tryAt, ackAt := reDate now next x.ackAt }

/-- The time that phase 6 leaves. -/
def rootTimeOr (s : State) (root : DWord) (hops : BitVec 8) : DWord := if hops = 0xFF then s.time else root

/-- The machine when phase 6 has heard the neighbour at a port. -/
def heard (s : State) (hops : BitVec 8) (node : BitVec 12) (port : BitVec 4) : State :=
  s.setPort port.toNat { s.port port.toNat with nhops := if (s.port port.toNat).up then hops else 0xFF, nroot := node }

theorem timeDiscipline_runs (s : State) (root : DWord) (hops : BitVec 8) (node : BitVec 12) (port : BitVec 4)
    (hp : s.pwr.phase = 6) : let t := rootTimeOr s root hops
    execTimeDiscipline root ⟨⟨hops, node⟩, port⟩ s = .next (State.rehop { s with
      time := t
      pwr := { s.pwr with phase := 7, thermAt := reDate s.time.toNat t.toNat s.pwr.thermAt }
      fab := { s.fab with
        exchangeAt := t.toNat
        ports := (heard s hops node port).fab.ports.map fun e => (e.1, redated s.time.toNat t.toNat e.2) } }) := by
  unfold execTimeDiscipline
  rw [if_neg (by simp [hp])]
  rfl

theorem heard_port_up (s : State) (hops : BitVec 8) (node : BitVec 12) (port : BitVec 4) (k : Nat) :
    ((heard s hops node port).port k).up = (s.port k).up := by
  unfold heard
  rw [port_setPort]
  split
  · next h => rw [h]
  · rfl

theorem timeDiscipline_leaves (s : State) (root : DWord) (hops : BitVec 8) (node : BitVec 12) (port : BitVec 4)
    (hp : s.pwr.phase = 6) :
    ∃ t, exec (.timeDiscipline root ⟨⟨hops, node⟩, port⟩) s = .next t ∧ t.time = (if hops = 0xFF then s.time else root)
      ∧ t.pwr = { s.pwr with phase := 7, thermAt := s.pwr.thermAt + t.time.toNat - s.time.toNat }
      ∧ (∀ k, (t.port k).up = (s.port k).up)
      ∧ (∀ e ∈ s.fab.ports, e.1 ≠ port.toNat → (t.port e.1).tryAt = (s.port e.1).tryAt + t.time.toNat - s.time.toNat)
      ∧ { t with time := s.time, fab := s.fab, pwr := s.pwr } = s := by
  refine ⟨_, timeDiscipline_runs s root hops node port hp, rfl, rfl, fun k => ?_, fun e he hne => ?_, rfl⟩
  · show (Store.get SPort.reset (List.map _ _) k).up = _
    rw [get_map, ← heard_port_up s hops node port k]
    split <;> rfl
  · show (Store.get SPort.reset (List.map _ _) e.1).tryAt = _
    have hin : e ∈ (heard s hops node port).fab.ports := mem_keys_set _ _ e _ _ he hne
    have hs : (heard s hops node port).port e.1 = s.port e.1 := (port_setPort ..).trans (if_neg hne)
    rw [get_map, if_pos (List.mem_map_of_mem hin)]
    show reDate _ _ ((heard s hops node port).port e.1).tryAt = _
    rw [hs]
    rfl

theorem bringUp : BringUp := by
  intro s hops form pass hbm ports ok a b root gib port node p fails
  refine ⟨fuseLoad_runs s form, fun h => fuseLoad_elsewhere s _ h, fun h => ⟨if_neg (not_not_intro h), if_neg (not_not_intro h)⟩,
    fun h => if_pos h, fun h he => cxlLinkTraining_failed s ok h he,
    fun h => ⟨cxlLinkTraining_runs s true h, cxlLinkTraining_runs s false h⟩, fun h he => cxlLinkTraining_elsewhere s ok h he,
    fun h => ⟨fun hne => ?_, ?_, ?_, ?_⟩, fun h => if_pos h, fun h => memoryTraining_leaves s hbm ports a gib h, fun h => if_pos h,
    fun h => hardwareZeroing_leaves s h, fun h => if_pos h, fun h => timeDiscipline_leaves s root hops node port h,
    fun h => if_pos h⟩
  · exact (selfTest_runs s pass true true h).trans (by rw [if_neg (by decide), if_neg (by decide), if_neg hne]; rfl)
  · exact selfTest_runs s pass false b h
  · exact selfTest_runs s pass true false h
  · exact selfTest_runs s 0 true true h

/-! ## Phase 7 (R17, R18, R377) -/

/-- A resident supervisor strand as it starts. -/
def startedStrand (x : SvStrand) : Ctx :=
  { Ctx.reset with
    pc := x.entry &&& ~~~3, npc := x.entry &&& ~~~3, live := true, sv := true, resident := true, seq := x.seq, rank := 65536,
    lcore := x.seq / 4, wcfg := BitVec.ofNat 32 (x.win * 2 ^ 16), win0 := x.win, mark := true }

theorem resident_starts (s : State) (x : SvStrand) (hq : x.seq < 768) (hc : s.pwr.pass.getLsbD (x.seq / 32) = true)
    (hw : winOk x.win = true) :
    s.resident x = (s.setCtx (8 * x.seq + 4) (startedStrand x)).modSeq x.seq fun q => { q with active := some 4, lastSlot := 4 } := by
  unfold State.resident
  rw [if_neg (by simp [hq, hc, hw])]
  rfl

theorem startedStrand_win (x : SvStrand) (h : x.win ≤ 1024) : (startedStrand x).win = x.win := by
  show (BitVec.extractLsb' 16 11 (BitVec.ofNat 32 (x.win * 2 ^ 16))).toNat = x.win
  rw [BitVec.extractLsb'_toNat, BitVec.toNat_ofNat, Nat.shiftRight_eq_div_pow]
  omega

/-- A context set leaves all of the machine but contexts. -/
theorem setCtx_frame (s : State) (k : Nat) (c : Ctx) : { s.setCtx k c with c := s.c, ctxs := s.ctxs } = s := by
  unfold State.setCtx
  split <;> rfl

theorem supervisorStart_runs (s : State) (xs : List SvStrand) (hp : s.pwr.phase = 7) :
    execSupervisorStart xs s = .next { xs.foldl State.resident s with
      pwr := { (xs.foldl State.resident s).pwr with phase := 8, memActive := true } } := if_neg (not_not_intro hp)

theorem supervisorStarts : SupervisorStarts := by
  intro s x
  refine ⟨fun h => if_pos h, fun h => supervisorStart_runs s [] h, fun h hq hc hlo hhi hm => ?_⟩
  have hw : winOk x.win = true := by simp [winOk, hlo, hhi, hm]
  have hr := resident_starts s x hq hc hw
  have hf := setCtx_frame s (8 * x.seq + 4) (startedStrand x)
  have hctx (k : Nat) : (s.resident x).ctx k = if k = 8 * x.seq + 4 then startedStrand x else s.ctx k := by
    rw [hr]; exact s.ctx_setCtx ..
  have hseq (q : Nat) : (s.resident x).seqOf q
      = if q = x.seq then { s.seqOf q with active := some 4, lastSlot := 4 } else s.seqOf q := by
    have hs (q : Nat) : (s.setCtx (8 * x.seq + 4) (startedStrand x)).seqOf q = s.seqOf q := congrArg (·.seqOf q) hf
    rw [hr, State.seqOf_modSeq, hs, hs]
    split
    · next h => rw [h]
    · rfl
  have hpwr : (s.resident x).pwr = s.pwr := by rw [hr]; exact congrArg (·.pwr) hf
  have hmem : (s.resident x).mem = s.mem := by rw [hr]; exact congrArg (·.mem) hf
  have hself := (hctx (8 * x.seq + 4)).trans (if_pos rfl)
  refine ⟨_, supervisorStart_runs s [x] h, congrArg (fun p : Power => { p with phase := 8, memActive := true }) hpwr,
    congrArg (·.live) hself, congrArg (·.sv) hself, congrArg (·.resident) hself, congrArg (·.pc) hself,
    (congrArg (·.win) hself).trans (startedStrand_win x hhi), fun k hk => (hctx k).trans (if_neg hk), hseq, hmem⟩

/-- Settles O38: phase by phase, and for phase 7 strand by strand. -/
theorem bringUpRuns : Obligations.BringUpRuns := ⟨bringUp, supervisorStarts⟩

end Sys2Proof.Proofs

/-!
Host accesses and command tables (O41).
-/
namespace Sys2Proof.Proofs
open Sys2Proof.Machine Sys2Proof.Claims

/-! ## CXL.io (R17 to R19, R39, R42) -/

theorem bootStat_wide (s : State) (h : s.pwr.phase ≤ 15) :
    s.bootStat.setWidth 64 = BitVec.ofNat 64 (256 * s.pwr.pass.toNat + 16 * s.pwr.err.toNat + s.pwr.phase) := by
  have hp := s.pwr.pass.isLt
  have he := s.pwr.err.isLt
  apply BitVec.eq_of_toNat_eq
  simp only [State.bootStat, BitVec.toNat_setWidth, BitVec.toNat_ofNat]
  omega

theorem dvsec_bootStat (s : State) (h : s.pwr.phase ≤ 15) :
    s.dvsec 0x40 = BitVec.ofNat 64 (256 * s.pwr.pass.toNat + 16 * s.pwr.err.toNat + s.pwr.phase) := bootStat_wide s h

theorem dvsec_cmdt (s : State) (t : Nat) (h : t < 4) : s.dvsec (0x48 + 8 * t) = (s.cmdt t).word := by
  unfold State.dvsec
  rw [if_neg (by omega), if_pos (by omega), show (0x48 + 8 * t - 0x48) / 8 = t by omega]

theorem cxlIo_unlinked (s : State) (r : CxlIo) (h : s.pwr.link = false) : exec (.cxlIoRequest r) s = .next s :=
  if_pos (by simp [h])

theorem cxlIo_linked (s : State) (h : s.pwr.link = true) : ¬ (!s.pwr.link) = true := by simp [h]

theorem cxlIo_other (s : State) (h : s.pwr.link = true) : exec (.cxlIoRequest .other) s = .next (s.send .cxlUr) :=
  if_neg (cxlIo_linked s h)

/-- A read of a register of configuration space, in any phase. -/
theorem cxlIo_dvsecRead (s : State) (off : BitVec 12) (h : s.pwr.link = true) :
    exec (.cxlIoRequest (.dvsecRead off)) s = if s.pwr.phase = 15 then .next (s.send (if off = 0x40 then .cxlCfg (s.dvsec 0x40) else .cxlUr))
      else if s.pwr.phase ≠ 8 then .next (s.send .cxlRetry) else .next (s.send (.cxlCfg (s.dvsec off.toNat))) :=
  if_neg (cxlIo_linked s h)

theorem cxlIo_dvsecWrite (s : State) (off : BitVec 12) (val : DWord) (stream : Option (BitVec 3)) (h : s.pwr.link = true) :
    exec (.cxlIoRequest (.dvsecWrite off val stream)) s = if s.pwr.phase = 15 then .next (s.send .cxlUr)
      else if s.pwr.phase ≠ 8 then .next (s.send .cxlRetry)
      else if 0x48 ≤ off.toNat ∧ off.toNat < 0x68 ∧ off.toNat % 8 = 0 then
        .next (s.cmdtWrite ((off.toNat - 0x48) / 8) val (s.ideSecure true stream))
      else .next s :=
  if_neg (cxlIo_linked s h)

theorem cxlIo_cfgRead (s : State) (off : BitVec 12) (h : s.pwr.link = true) :
    exec (.cxlIoRequest (.cfgRead off)) s = .next (s.send (if s.pwr.phase = 15 then .cxlUr else if s.pwr.phase ≠ 8 then .cxlRetry
      else .cxlCfg (Config.cfgSpace off))) :=
  if_neg (cxlIo_linked s h)

theorem cxlIo_cfgWrite (s : State) (off : BitVec 12) (val : DWord) (h : s.pwr.link = true) :
    exec (.cxlIoRequest (.cfgWrite off val)) s = if s.pwr.phase = 15 then .next (s.send .cxlUr)
      else if s.pwr.phase ≠ 8 then .next (s.send .cxlRetry) else .next s :=
  if_neg (cxlIo_linked s h)

/-- A write of a descriptor in phase 8. -/
theorem cxlIo_cmdtWrite (s : State) (off : BitVec 12) (val : DWord) (stream : Option (BitVec 3)) (t : Nat) (hl : s.pwr.link = true)
    (hp : s.pwr.phase = 8) (ht : t < 4) (ho : off.toNat = 0x48 + 8 * t) :
    exec (.cxlIoRequest (.dvsecWrite off val stream)) s = .next (s.cmdtWrite t val (s.ideSecure true stream)) := by
  rw [cxlIo_dvsecWrite s off val stream hl, if_neg (by omega), if_neg (by omega), if_pos (by omega),
    show (off.toNat - 0x48) / 8 = t by omega]

theorem cmdtWrite_ignored (s : State) (t : Nat) (val : DWord) (sec : Bool) (he : (s.cmdt t).en = true)
    (h : val.extractLsb' 12 40 ≠ (s.cmdt t).base ∨ (if sec then val.getLsbD 2 else (s.cmdt t).secure) ≠ (s.cmdt t).secure) :
    s.cmdtWrite t val sec = s :=
  if_pos (by simpa [he] using h)

theorem cmdtWrite_sets (s : State) (t : Nat) (val : DWord) (sec : Bool) (he : (s.cmdt t).en = false) (h0 : val.getLsbD 0 = false) :
    s.cmdtWrite t val sec = (s.setCmdt t { s.cmdt t with
      base := val.extractLsb' 12 40, secure := if sec then val.getLsbD 2 else (s.cmdt t).secure }).cmdtDisable t := by
  have hc : ¬ ((s.cmdt t).en && (val.extractLsb' 12 40 ≠ (s.cmdt t).base
      || (if sec then val.getLsbD 2 else (s.cmdt t).secure) != (s.cmdt t).secure)) = true := by simp [he]
  have h0 : ¬ val.getLsbD 0 = true := by rw [h0]; exact Bool.false_ne_true
  unfold State.cmdtWrite
  exact (if_neg hc).trans (if_neg h0)

/-- EN written to 0 with nothing to finish and no STATE to change. -/
theorem cmdtDisable_quiet (s : State) (t : Nat) (h : (s.cmdt t).state ≠ 1 ∨ (s.cmdt t).busy = true) :
    s.cmdtDisable t = s.setCmdt t { s.cmdt t with en := false } := by
  refine if_neg fun hc => ?_
  simp only [Bool.and_eq_true, decide_eq_true_eq, Bool.not_eq_true'] at hc
  rcases h with h | h
  · exact h hc.1
  · exact Bool.false_ne_true (hc.2.symm.trans h)

theorem cxlIoAnswers : CxlIoAnswers := by
  intro s off val stream t boot c read write others base secure
  have hsec : secure = if s.ideSecure true stream then val.getLsbD 2 else c.secure := by
    cases stream <;> simp [secure, State.ideSecure, and_assoc]
  clear_value secure
  subst hsec
  refine ⟨fun h => ⟨cxlIo_unlinked s _ h, cxlIo_unlinked s _ h, cxlIo_unlinked s _ h, ?_⟩, fun hl => ⟨cxlIo_other s hl,
    fun hp => ⟨?_, ?_, ?_⟩, fun hp => ⟨?_, fun ho => ?_, ?_, ?_⟩, fun hp => ⟨?_, ?_, ?_, fun ht ho he hne => ?_, fun ht => ?_, ?_,
      fun ht ho he hst h0 => ?_⟩⟩⟩
  · exact List.forall_mem_cons.mpr ⟨cxlIo_unlinked s _ h, List.forall_mem_singleton.mpr (cxlIo_unlinked s _ h)⟩
  · exact (cxlIo_dvsecRead s off hl).trans (by rw [if_neg (by omega), if_pos (by omega)]; rfl)
  · exact (cxlIo_dvsecWrite s off val stream hl).trans (by rw [if_neg (by omega), if_pos (by omega)]; rfl)
  · exact List.forall_mem_cons.mpr ⟨(cxlIo_cfgRead s off hl).trans (by rw [if_neg (by omega), if_pos (by omega)]; rfl),
      List.forall_mem_singleton.mpr ((cxlIo_cfgWrite s off val hl).trans (by rw [if_neg (by omega), if_pos (by omega)]; rfl))⟩
  · exact (cxlIo_dvsecRead s 0x40 hl).trans (by rw [if_pos hp, if_pos rfl, dvsec_bootStat s (by omega)]; rfl)
  · exact (cxlIo_dvsecRead s off hl).trans (by rw [if_pos hp, if_neg ho]; rfl)
  · exact (cxlIo_dvsecWrite s off val stream hl).trans (if_pos hp)
  · exact List.forall_mem_cons.mpr ⟨(cxlIo_cfgRead s off hl).trans (by rw [if_pos hp]; rfl),
      List.forall_mem_singleton.mpr ((cxlIo_cfgWrite s off val hl).trans (if_pos hp))⟩
  · exact (cxlIo_dvsecRead s 0x40 hl).trans (by
      rw [if_neg (by omega), if_neg (by omega), show (0x40 : BitVec 12).toNat = 0x40 from rfl, dvsec_bootStat s (by omega)]; rfl)
  · exact (cxlIo_cfgRead s off hl).trans (by rw [if_neg (by omega), if_neg (by omega)]; rfl)
  · exact (cxlIo_cfgWrite s off val hl).trans (by rw [if_neg (by omega), if_neg (by omega)])
  · exact (cxlIo_cmdtWrite s off val stream t hl hp ht ho).trans (by rw [cmdtWrite_ignored s t val _ he hne])
  · exact (cxlIo_dvsecRead s _ hl).trans (by
      rw [if_neg (by omega), if_neg (by omega), BitVec.toNat_ofNat, Nat.mod_eq_of_lt (by omega), dvsec_cmdt s t ht]; rfl)
  · exact (cxlIo_dvsecRead s 0x68 hl).trans (by rw [if_neg (by omega), if_neg (by omega)]; rfl)
  · refine ⟨_, (cxlIo_cmdtWrite s off val stream t hl hp ht ho).trans (congrArg _ ((cmdtWrite_sets s t val _ he h0).trans
      (cmdtDisable_quiet _ t (.inl (by rw [cmdt_setCmdt, if_pos rfl]; exact hst))))), fun k => ?_, rfl⟩
    simp only [cmdt_setCmdt, if_true]
    split
    · rw [← he]
    · rfl

/-! ## Command tables switched (R46) -/

theorem leBytes_eq (n x : Nat) : Decode.leBytes n x = le n x := by
  induction n generalizing x with
  | zero => rfl
  | succ n ih =>
    unfold Decode.leBytes le
    rw [ih, List.range_succ_eq_map, List.map_cons, List.map_map]
    refine congr (congrArg _ (by rw [Nat.mul_zero, Nat.pow_zero, Nat.div_one])) (List.map_congr_left fun i _ => ?_)
    show _ = BitVec.ofNat 8 (x / 2 ^ (8 * (i + 1)))
    rw [Nat.div_div_eq_div_mul, Nat.mul_add, Nat.pow_add, Nat.mul_comm]

/-- A table that starts afresh, its device line not held by the host. -/
def startedTable (s : State) (c : Cmdt) : Cmdt :=
  { c with
    en := true, cons := BitVec.ofNat 32 (s.num (c.addr + 8) 4), state := 1, busy := false, again := false, done := none
    batch := none, waits := none }

theorem cmdtEnable_starts (s : State) (t : Nat) (he : (s.cmdt t).en = false) (hb : (s.cmdt t).busy = false) :
    s.cmdtEnable t = s.cmdtStart t := by
  unfold State.cmdtEnable
  dsimp only
  rw [if_neg (by simp [he]), if_neg (by simp [hb])]

theorem cmdtStart_eq (s : State) (t : Nat) (hw : s.wq = []) :
    s.cmdtStart t = (s.setCmdt t (startedTable s (s.cmdt t))).writeNow ((s.cmdt t).addr + 0x80)
      (le 4 (startedTable s (s.cmdt t)).cons.toNat ++ [1, 0]) := by
  unfold State.cmdtStart
  dsimp only
  rw [flush_empty s _ hw, leBytes_eq]
  rfl

theorem writeState_idle (s : State) (t : Nat) :
    s.writeState t 0 none = (s.setCmdt t { s.cmdt t with state := 0 }).writeNow ((s.cmdt t).addr + 0x84) [0] := rfl

/-- A write into the device line of a table, behind a change of the table. -/
theorem tableLine_written (s : State) (t : Nat) (c' : Cmdt) (off : Nat) (bs : List Byte) (h0 : bs ≠ [])
    (hoff : 128 ≤ off ∧ off + bs.length ≤ 256) (hw : s.wq = []) (hh : s.heldLines [(s.cmdt t).addr / 128 + 1] = []) :
    let u := (s.setCmdt t c').writeNow ((s.cmdt t).addr + off) bs
    (∀ k, u.cmdt k = if k = t then c' else s.cmdt k) ∧ WrittenAt s u ((s.cmdt t).addr + off) bs ∧ u.c = s.c := by
  have hn := List.length_pos_iff.mpr h0
  have hl : linesOf ((s.cmdt t).addr + off) bs.length = [(s.cmdt t).addr / 128 + 1] := by
    unfold Cmdt.addr
    rw [linesOf_within _ _ hn (by omega)]
    congr 1
    omega
  obtain ⟨hm, hc, -, hx⟩ := writeNow_writes (s.setCmdt t c') ((s.cmdt t).addr + off) bs hw (by rw [hl]; exact hh)
  refine ⟨fun k => ?_, hm, hc⟩
  rw [← cmdt_setCmdt s t k c']
  exact congrArg (Store.get Cmdt.reset · k) hx

theorem tablesSwitched : TablesSwitched := by
  intro s t c a prod hw hh
  refine ⟨fun he hb => ?_, fun he hb => ?_, fun he => ?_, fun hs hb => ?_, fun h => ?_⟩
  · obtain ⟨hk, hm, hc⟩ := tableLine_written s t.toNat (startedTable s c) 0x80 (le 4 prod.toNat ++ [1, 0]) (by simp)
      (by simp [le]) hw hh
    refine ⟨_, congrArg Host.Outcome.next ((cmdtEnable_starts s t.toNat he hb).trans (cmdtStart_eq s t.toNat hw)), ?_, hm, hc⟩
    exact (hk _).trans (if_pos rfl)
  · refine ⟨s.setCmdt t.toNat { c with en := true, again := true }, congrArg Host.Outcome.next ?_, ?_, rfl⟩
    · unfold State.cmdtEnable
      dsimp only
      rw [if_neg (by simp [show (s.cmdt t.toNat).en = false from he]), if_pos hb]
    · exact (cmdt_setCmdt ..).trans (if_pos rfl)
  · exact congrArg Host.Outcome.next (if_pos he)
  · obtain ⟨hk, hm, hc⟩ := tableLine_written (s.setCmdt t.toNat { c with en := false }) t.toNat { c with en := false, state := 0 } 0x84 [0]
      (by simp) (by simp) hw (by rw [cmdt_setCmdt, if_pos rfl]; exact hh)
    rw [cmdt_setCmdt, if_pos rfl] at hk hm hc
    have hd : s.cmdtDisable t.toNat = (s.setCmdt t.toNat { c with en := false }).writeState t.toNat 0 none :=
      if_pos (by simp [show (s.cmdt t.toNat).state = 1 from hs, show (s.cmdt t.toNat).busy = false from hb])
    refine ⟨_, congrArg Host.Outcome.next (hd.trans ?_), (hk _).trans (if_pos rfl), hm, hc⟩
    rw [writeState_idle, cmdt_setCmdt, if_pos rfl]
  · exact ⟨_, congrArg Host.Outcome.next (cmdtDisable_quiet s t.toNat h), (cmdt_setCmdt ..).trans (if_pos rfl), rfl⟩

/-! ## Accesses over CXL (R39 to R41, R49, R50) -/

theorem hdm_iff (s : State) (x n : Nat) :
    s.hdm x n = true ↔ x + n ≤ 2 ^ 39 ∨ (2 ^ 40 ≤ x ∧ x + n ≤ 2 ^ 40 + 2 ^ 30 * min 3072 s.pwr.tierGib) := by
  unfold State.hdm
  rw [Bool.or_eq_true, decide_eq_true_iff, decide_eq_true_iff]
  exact Iff.rfl

theorem ideSecure_mem (s : State) (stream : Option (BitVec 3)) :
    s.ideSecure false stream = (decide (stream = some 0) && Store.get false s.host.ide 0) := by
  cases stream with
  | none => rfl
  | some k =>
    by_cases hk : k = 0
    · subst hk; rfl
    · have hs : decide (some k = some 0) = false := decide_eq_false fun h => hk (Option.some.inj h)
      show (decide (k = 0) && _) = _
      rw [decide_eq_false hk, hs, Bool.false_and, Bool.false_and]

theorem cxlMemRead_outside (s : State) (pa : Nat) (stream : Option (BitVec 3))
    (h : s.pwr.phase ≠ 8 ∨ ¬ s.hdm (pa / 64 * 64) 64 = true) : Sends (.cxlMemRead pa stream) s [.cxlError] :=
  if_pos (by simpa using h)

theorem cxlMemRead_inside (s : State) (pa : Nat) (hp : s.pwr.phase = 8) (h : s.hdm (pa / 64 * 64) 64 = true) :
    ¬ (s.pwr.phase ≠ 8 || !s.hdm (pa / 64 * 64) 64) = true := by simp [hp, h]

theorem cxlMemRead_refused (s : State) (pa : Nat) (stream : Option (BitVec 3)) (hp : s.pwr.phase = 8)
    (h : s.hdm (pa / 64 * 64) 64 = true) (hw : s.worldOk (s.ideSecure false stream) (pa / 64 * 64) false = false) :
    exec (.cxlMemRead pa stream) s
      = .next { s with host := { s.host with rasUr := true }, out := s.out ++ [.cxlData (List.replicate 64 0) true] } :=
  (if_neg (cxlMemRead_inside s pa hp h)).trans (if_pos (by rw [hw]; rfl))

theorem cxlMemRead_answers (s : State) (pa : Nat) (stream : Option (BitVec 3)) (hq : s.wq = []) (hp : s.pwr.phase = 8)
    (h : s.hdm (pa / 64 * 64) 64 = true) (hw : s.worldOk (s.ideSecure false stream) (pa / 64 * 64) false = true) :
    let a := pa / 64 * 64
    ∃ t wb, exec (.cxlMemRead pa stream) s = .next t
      ∧ t.out = s.out ++ wb ++ [.cxlData (s.bytes a 64) ((List.range 8).any fun g => s.marked (a + 8 * g))]
      ∧ (∀ m ∈ wb, ∃ l, m = .writeBack l (s.bytes (128 * l) 128)) ∧ t.mem = s.mem ∧ Store.get false t.host.held (a / 128) = true := by
  intro a
  have hs := serves_sliceUse s (lineOf a) false
  obtain ⟨wb, ho, hwb⟩ := hs.out
  let u := (s.flush [lineOf a]).sliceUse (lineOf a) false
  have hu : u = s.sliceUse (lineOf a) false := congrArg (State.sliceUse · (lineOf a) false) (flush_empty s _ hq)
  refine ⟨_, wb, (if_neg (cxlMemRead_inside s pa hp h)).trans (if_neg (by rw [hw]; exact Bool.false_ne_true)), ?_, hwb, ?_,
    (Store.get_set ..).trans (if_pos rfl)⟩
  · show u.out ++ [.cxlData (u.bytes a 64) ((List.range 8).any fun g => u.marked (a + 8 * g))] = _
    rw [hu, ho, hs.bytes]
    simp only [hs.marked]
  · show u.mem = s.mem
    rw [hu, hs.mem]

theorem cxlMemWrite_refused (s : State) (pa : Nat) (data : List Byte) (stream : Option (BitVec 3))
    (h : s.pwr.phase ≠ 8 ∨ data = [] ∨ 64 < pa % 64 + data.length ∨ ¬ s.hdm pa data.length = true) :
    Sends (.cxlMemWrite pa data ⟨stream, true⟩) s [.cxlError] :=
  if_pos (by simpa [or_assoc] using h)

theorem cxlMemWrite_inside (s : State) (pa : Nat) (data : List Byte) (stream : Option (BitVec 3)) (hp : s.pwr.phase = 8)
    (h0 : data ≠ []) (hn : pa % 64 + data.length ≤ 64) (h : s.hdm pa data.length = true) :
    exec (.cxlMemWrite pa data ⟨stream, true⟩) s = if !s.worldOk (s.ideSecure false stream) pa true then .next s.rasLog
      else .next ((State.write { s with
        host := { s.host with held := Store.set false s.host.held (lineOf pa) false } } pa data).sliceUse (lineOf pa) true) :=
  if_neg (by simp [hp, h0, hn, h])

theorem cxlMemWrite_writes (s : State) (pa : Nat) (data : List Byte) (hq : s.wq = []) :
    let u := (State.write { s with
      host := { s.host with held := Store.set false s.host.held (lineOf pa) false } } pa data).sliceUse (lineOf pa) true
    WrittenAt s u pa data ∧ Store.get false u.host.held (pa / 128) = false ∧ u.c = s.c ∧ u.ctxs = s.ctxs := by
  let s' : State := { s with host := { s.host with held := Store.set false s.host.held (lineOf pa) false } }
  have hs := serves_sliceUse (s'.write pa data) (lineOf pa) true
  obtain ⟨hc, hx⟩ := write_ctxs s' pa data
  refine ⟨writtenAt_serves (writtenAt_write s' pa data hq) hs, ?_, hs.c.trans hc, hs.ctxs.trans hx⟩
  rw [hs.held, (write_hostKept s' pa data hq).1]
  exact (Store.get_set ..).trans (if_pos rfl)

theorem hostSnoop_eq (s : State) (line : Nat) :
    exec (.hostSnoop ⟨line, true⟩) s = if !Store.get false s.host.cachedSet line then .next s
      else .next ((s.send (.writeBack line (s.bytes (128 * line) 128))).uncacheHost line) := rfl

theorem hostSnoop_held (s : State) (line : Nat) (h : Store.get false s.host.cachedSet line = true) :
    exec (.hostSnoop ⟨line, true⟩) s = .next ((s.send (.writeBack line (s.bytes (128 * line) 128))).uncacheHost line) :=
  (hostSnoop_eq s line).trans (if_neg (by simp [h]))

theorem cxlCacheResponse_completes (s : State) (line : Nat) (data : List Byte) (h : line ∈ s.host.wbOut) :
    ∃ t, exec (.cxlCacheResponse line data) s = .next t ∧ t.host.wbOut = s.host.wbOut.erase line
      ∧ { t with host := { t.host with wbOut := s.host.wbOut, wbWait := s.host.wbWait } } = s :=
  ⟨_, if_pos (List.contains_iff_mem.mpr h), rfl, rfl⟩

theorem cxlCacheResponse_fills (s : State) (line : Nat) (data : List Byte) (h : line ∉ s.host.wbOut)
    (hh : isHost (128 * line) = true) (hc : Store.get false s.host.cachedSet line = false) :
    exec (.cxlCacheResponse line data) s = .next ((s.poke (128 * line) (data.take 128)).sliceUse line false) :=
  (if_neg (by simpa using h)).trans (if_neg (by simp [hh, hc]))

theorem cxlCacheResponse_late (s : State) (line : Nat) (data : List Byte) (h : line ∉ s.host.wbOut)
    (hh : isHost (128 * line) = false ∨ Store.get false s.host.cachedSet line = true) :
    exec (.cxlCacheResponse line data) s = .next s :=
  (if_neg (by simpa using h)).trans (if_pos (by rcases hh with hh | hh <;> simp [hh]))

theorem backInvalidate_answered (s : State) (line : Nat) (evs : List Instr)
    (h : s.host.biWait.find? (fun w => w.1 = line) = some (line, evs)) :
    exec (.backInvalidateResponse line) s = .next { s with
      host := { s.host with
        held := Store.set false s.host.held line false, biWait := s.host.biWait.filter fun x => x.1 ≠ line }
      agenda := evs ++ s.agenda } := by
  show execBackInvalidateResponse line s = _
  unfold execBackInvalidateResponse
  rw [h]

theorem backInvalidate_unasked (s : State) (line : Nat) (h : s.host.biWait.find? (fun w => w.1 = line) = none) :
    exec (.backInvalidateResponse line) s = .next s := by
  show execBackInvalidateResponse line s = _
  unfold execBackInvalidateResponse
  rw [h]

theorem sharedCacheRead_eq (s : State) (loc n : Nat) (hq : s.wq = []) :
    exec (.sharedCacheAccess (.read loc n)) s = .next (s.slicesUse (linesOf loc n) false) := by
  show Host.Outcome.next ((s.flush (linesOf loc n)).slicesUse (linesOf loc n) false) = _
  rw [flush_empty s _ hq]

theorem slicesUse_hostLine (s : State) (loc n : Nat) (w : Bool) (h : isHost loc = true) (h0 : 0 < n) (hn : n ≤ 128 - loc % 128) :
    Store.get false (s.slicesUse (linesOf loc n) w).host.cachedSet (loc / 128) = true := by
  simp only [isHost, decide_eq_true_eq] at h
  have hh : isHost (128 * (loc / 128)) = true := by simp only [isHost, decide_eq_true_eq]; omega
  have hcs : isCs (128 * (loc / 128)) = false := by simp only [isCs, decide_eq_false_iff_not]; omega
  have he : s.slicesUse (linesOf loc n) w = s.sliceUse (loc / 128) w := by
    rw [linesOf_within loc n h0 (by omega)]
    simp [State.slicesUse, hcs]
  rw [he]
  exact sliceUse_cachedSet s _ w hh

theorem sharedCacheWrite_unheld (s : State) (loc : Nat) (data : List Byte) (h : s.heldLines (linesOf loc data.length) = []) :
    exec (.sharedCacheAccess (.write loc data)) s = .next (s.writeNow loc data) := if_pos (by rw [h]; rfl)

theorem sharedCacheWrite_held (s : State) (loc : Nat) (data : List Byte) (h : s.heldLines (linesOf loc data.length) ≠ []) :
    exec (.sharedCacheAccess (.write loc data)) s
      = .next (s.snoop (linesOf loc data.length) [.sharedCacheAccess (.write loc data)]) :=
  if_neg (by simpa using h)

theorem cxlAccesses : CxlAccesses := by
  intro s pa line loc n data stream hq a secure awaited inside bad
  have hin (x n : Nat) : inside x n ↔ s.hdm x n = true := (hdm_iff s x n).symm
  have hsec : s.ideSecure false stream = secure := ideSecure_mem s stream
  refine ⟨fun h => ?_, fun hp h hw => ?_, fun hp h hw => ?_, fun h => ?_, if_pos (by simp), rfl,
    fun hp h0 hn h => ⟨fun hw => ?_, fun hw => ?_⟩, fun h => ?_, fun h => ?_, cxlCacheResponse_completes s line data,
    fun h hh hc hl => ?_, cxlCacheResponse_late s line data, fun evs h => ?_, backInvalidate_unasked s line, ?_, fun h => ?_,
    sharedCacheWrite_held s loc data⟩
  · rw [hin] at h
    exact cxlMemRead_outside s pa stream h
  · exact cxlMemRead_refused s pa stream hp ((hin _ _).mp h) (by rw [hsec]; exact hw)
  · exact cxlMemRead_answers s pa stream hq hp ((hin _ _).mp h) (by rw [hsec]; exact hw)
  · rw [hin] at h
    exact cxlMemWrite_refused s pa data stream h
  · exact (cxlMemWrite_inside s pa data stream hp h0 hn ((hin _ _).mp h)).trans (if_pos (by rw [hsec, hw]; rfl))
  · exact ⟨_, (cxlMemWrite_inside s pa data stream hp h0 hn ((hin _ _).mp h)).trans
      (if_neg (by rw [hsec, hw]; exact Bool.false_ne_true)), cxlMemWrite_writes s pa data hq⟩
  · exact (hostSnoop_eq s line).trans (if_pos (by simp [h]))
  · exact ⟨_, hostSnoop_held s line h, rfl, (Store.get_set ..).trans (if_pos rfl), (Store.get_set ..).trans (if_pos rfl), rfl⟩
  · have ht : data.take 128 = data := List.take_of_length_le (Nat.le_of_eq hl)
    have hs := serves_sliceUse (s.poke (128 * line) data) line false
    refine ⟨_, cxlCacheResponse_fills s line data h hh hc, sliceUse_cachedSet _ _ _ hh, fun j => ?_, ?_⟩
    · rw [ht]
      show Store.get 0 _ j = _
      rw [hs.mem]
      have hb := poke_byte_getD s (128 * line) data j
      rwa [hl] at hb
    · rw [ht]; exact hs.ver
  · exact ⟨_, backInvalidate_answered s line evs h, rfl, (Store.get_set ..).trans (if_pos rfl), rfl, rfl⟩
  · have hs := serves_slicesUse s (linesOf loc n) false
    exact ⟨_, sharedCacheRead_eq s loc n hq, hs.mem, hs.ver, hs.c, hs.ctxs, slicesUse_hostLine s loc n false⟩
  · obtain ⟨hm, hc, hx, -⟩ := writeNow_writes s loc data hq h
    exact ⟨_, sharedCacheWrite_unheld s loc data h, hm, hc, hx⟩

/-- Settles O41: requests by phase and stream; what the slices serve changes no byte, and a write event changes its own. -/
theorem hostAccesses : Obligations.HostAccesses := ⟨cxlIoAnswers, tablesSwitched, cxlAccesses⟩

end Sys2Proof.Proofs

/-!
The events of the fabric's ports (O40).
-/
namespace Sys2Proof.Proofs
open Sys2Proof.Machine Sys2Proof.Claims

/-! ## Ports that are up (R23, R26) -/

/-- A mask gathered bit by bit. -/
theorem getLsbD_gathered (f : Nat → Bool) (n k : Nat) (h : n ≤ 16) :
    ((List.range n).foldl (fun (m : BitVec 16) p => if f p then m ||| BitVec.twoPow 16 p else m) 0).getLsbD k
      = (decide (k < n) && f k) := by
  induction n with
  | zero => simp
  | succ n ih =>
    have step (m : BitVec 16) :
        (if f n then m ||| BitVec.twoPow 16 n else m).getLsbD k = (m.getLsbD k || (f n && decide (k = n))) := by
      have hb : (BitVec.twoPow 16 n).getLsbD k = decide (k = n) := by
        rw [BitVec.getLsbD_twoPow]
        by_cases hk : k = n
        · simp [hk, show n < 16 by omega]
        · simp [hk, Ne.symm hk]
      cases f n <;> simp [hb]
    rw [List.range_succ, List.foldl_append, List.foldl_cons, List.foldl_nil, step, ih (by omega)]
    by_cases hk : k = n
    · simp [hk]
    · have hlt : k < n + 1 ↔ k < n := by omega
      simp [hk, hlt]

/-- A port is in PORTS_UP of a channel that names it while it is up. -/
theorem portsUp_getLsbD (s : State) (ch : BitVec 8) (k : Nat) :
    (s.portsUp ch).getLsbD k = ((s.chan ch).cports.getLsbD k && (s.port k).up) := by
  unfold State.portsUp State.upPorts
  rw [BitVec.getLsbD_and, getLsbD_gathered (fun p => (s.port p).up) 16 k (by omega)]
  by_cases hk : k < 16
  · simp [hk]
  · rw [BitVec.getLsbD_of_ge _ _ (by omega)]
    simp

theorem portsUp_congr {s t : State} (hc : t.fab.chans = s.fab.chans) (hu : ∀ k, (t.port k).up = (s.port k).up) (ch : BitVec 8) :
    t.portsUp ch = s.portsUp ch := by
  have h : t.chan ch = s.chan ch := congrArg (Store.get Chan.reset · ch.toNat) hc
  refine BitVec.eq_of_getLsbD_eq fun k _ => ?_
  rw [portsUp_getLsbD, portsUp_getLsbD, h, hu]

/-- Port x after n flits have left over it (R23). -/
def flitsSent (s : State) (x : SPort) (ch : Option (BitVec 8)) (n : Nat) : SPort :=
  { x with
    replay := x.replay ++ (List.range n).map fun i => (x.sent + i, ch)
    sent := x.sent + n
    ackAt := if x.replay.isEmpty then s.time.toNat else x.ackAt }

theorem portSend_port (s : State) (p k : Nat) (ch : Option (BitVec 8)) (n : Nat) :
    (s.portSend p ch n).port k = if k = p then flitsSent s (s.port p) ch n else s.port k := port_setPort ..

theorem flitsSent_one (s : State) (x : SPort) (ch : BitVec 8) : flitsSent s x (some ch) 1 = flitSent s x ch := rfl

/-! ## What leaves a port that is down as it is -/

/-- Port p and the power state are as they were. -/
structure PortKept (p : Nat) (s t : State) : Prop where
  pwr : t.pwr = s.pwr
  port : t.port p = s.port p

namespace PortKept

theorem refl (p : Nat) (s : State) : PortKept p s s := ⟨rfl, rfl⟩

theorem trans {p : Nat} {s t u : State} (h : PortKept p s t) (h' : PortKept p t u) : PortKept p s u :=
  ⟨h'.pwr.trans h.pwr, h'.port.trans h.port⟩

theorem down {p : Nat} {s t : State} (h : PortKept p s t) (hd : (s.port p).up = false) : (t.port p).up = false := by
  rw [h.port]; exact hd

/-- Steps that leave a port alone while it is down leave it alone one after another. -/
theorem foldl {α : Type} {p : Nat} (f : State → α → State) (hf : ∀ s a, (s.port p).up = false → PortKept p s (f s a)) (l : List α)
    (s : State) (hd : (s.port p).up = false) : PortKept p s (l.foldl f s) :=
  List.foldlRecOn l f (motive := PortKept p s) (refl p s) fun t ht a _ => ht.trans (hf t a (ht.down hd))

end PortKept

/-- A port picked among those of a channel that are up. -/
theorem up_of_find {s : State} {ch : BitVec 8} {q : Nat} (h : (List.range 16).find? (s.portsUp ch).getLsbD = some q) : (s.port q).up = true := by
  have hq := List.find?_some h
  rw [portsUp_getLsbD, Bool.and_eq_true] at hq
  exact hq.2

theorem portKept_fenceCheck (p : Nat) (s : State) (ch : BitVec 8) : PortKept p s (s.fenceCheck ch) := by
  unfold State.fenceCheck
  dsimp only
  split
  · exact ⟨rfl, rfl⟩
  · exact .refl p s

section
variable {p : Nat} {s : State} (hd : (s.port p).up = false)
include hd

theorem portKept_portSend {q : Nat} (hq : (s.port q).up = true) (ch : Option (BitVec 8)) (n : Nat) :
    PortKept p s (s.portSend q ch n) := by
  refine ⟨rfl, (portSend_port s q p ch n).trans (if_neg ?_)⟩
  rintro rfl
  rw [hd] at hq
  cases hq

theorem portKept_sendFlits (ch : BitVec 8) (n : Nat) : PortKept p s (s.sendFlits ch n) := by
  unfold State.sendFlits
  split
  · next q hq => exact portKept_portSend hd (up_of_find hq) _ n
  · exact .refl p s

theorem portKept_sendBack (node : BitVec 12) (m : OutMsg) : PortKept p s (s.sendBack node m) := by
  unfold State.sendBack
  split
  · next ch _ _ =>
    have h := portKept_sendFlits (s := s.send m) hd ch 1
    exact ⟨h.pwr, h.port⟩
  · exact ⟨rfl, rfl⟩

theorem portKept_failAt (c : Coll) (q : Nat) : PortKept p s (s.failAt c q) := by
  unfold State.failAt
  split
  · exact ⟨rfl, rfl⟩
  · split
    · exact portKept_sendBack hd _ _
    · exact portKept_sendBack hd _ _
    · exact .refl p s

theorem portKept_edgeLost (c : Coll) (q : Nat) (down : Bool) : PortKept p s (s.edgeLost c q down) := by
  have h := portKept_failAt hd c q
  unfold State.edgeLost
  dsimp only
  split
  · exact h
  · exact ⟨h.pwr, h.port⟩

theorem portKept_xferFails (x : Xfer) (code : Nat) : PortKept p s (s.xferFails x code) := by
  have h : PortKept p s (s.fabErr code x.chan x.co) := ⟨rfl, rfl⟩
  refine h.trans ?_
  unfold State.xferFails
  dsimp only
  split
  · split
    · exact portKept_edgeLost (h.down hd) _ _ _
    · exact .refl p _
  · split
    · exact portKept_failAt (h.down hd) _ _
    · exact .refl p _
  · unfold State.leagueFailed
    split
    · exact ⟨rfl, rfl⟩
    · exact .refl p _

end

/-! ## A port goes down (R23) -/

/-- The machine when a port has just gone down, nothing resent and no channel end told. -/
def fallen (s : State) (p : BitVec 4) : State :=
  let s' := (s.setPort p.toNat { s.port p.toNat with
    up := false, training := false, fell := true, replay := [], replays := 0, tryAt := s.time.toNat + 4000000, nhops := 0xFF }).rehop
  { s' with pwr := { s.pwr with alert := s.pwr.alert ||| 8 } }

/-- A flit that was not acknowledged is sent again on another port of its channel. -/
def resend (s : State) (f : Nat × Option (BitVec 8)) : State :=
  match f.2.bind fun ch => (List.range 16).find? (s.portsUp ch).getLsbD with
  | some q => (s.portSend q f.2 1).send (.flits (BitVec.ofNat 4 q) [((s.port q).sent, f.2)])
  | none => s

/-- A channel end that has lost a port: fenced where it was the last one. -/
def portLost (s : State) (ch : BitVec 8) : State :=
  if s.portsUp ch = 0 then
    (s.fab.xfers.filter fun t => t.chan = ch).foldl (fun s t => (s.dropXfer t.id).xferFails t 5)
      (s.setChan ch { s.chan ch with st := .fenced, lastErr := 5 })
  else s.fenceCheck ch

theorem portDown_idle (s : State) (p : BitVec 4) (h : (s.port p.toNat).up = false) :
    s.portDown p = s.setPort p.toNat { s.port p.toNat with training := false } := if_pos (by simp [h])

theorem portDown_falls (s : State) (p : BitVec 4) (h : (s.port p.toNat).up = true) :
    s.portDown p = ((fallen s p).chansWith fun c => (c.st = .opened || c.st = .fencing) && c.cports.getLsbD p.toNat).foldl portLost
      ((s.port p.toNat).replay.foldl resend (fallen s p)) := if_neg (by simp [h])

theorem portKept_resend {p : Nat} {s : State} (hd : (s.port p).up = false) (f : Nat × Option (BitVec 8)) :
    PortKept p s (resend s f) := by
  unfold resend
  split
  · next q hq =>
    obtain ⟨ch, -, hq⟩ := Option.bind_eq_some_iff.mp hq
    have h := portKept_portSend hd (up_of_find hq) f.2 1
    exact ⟨h.pwr, h.port⟩
  · exact .refl p s

theorem portKept_setChan (p : Nat) (s : State) (ch : BitVec 8) (c : Chan) : PortKept p s (s.setChan ch c) := ⟨rfl, rfl⟩

theorem portKept_dropXfer (p : Nat) (s : State) (id : Nat) : PortKept p s (s.dropXfer id) := ⟨rfl, rfl⟩

theorem portKept_portLost {p : Nat} {s : State} (hd : (s.port p).up = false) (ch : BitVec 8) : PortKept p s (portLost s ch) := by
  unfold portLost
  split
  · have hc := portKept_setChan p s ch { s.chan ch with st := .fenced, lastErr := 5 }
    refine hc.trans (PortKept.foldl _ (fun t x ht => ?_) _ _ (hc.down hd))
    have hx := portKept_dropXfer p t x.id
    exact hx.trans (portKept_xferFails (hx.down ht) x 5)
  · exact portKept_fenceCheck p s ch

theorem fallen_port (s : State) (p : BitVec 4) : (fallen s p).port p.toNat = { s.port p.toNat with
    up := false, training := false, fell := true, replay := [], replays := 0, tryAt := s.time.toNat + 4000000, nhops := 0xFF } :=
  (port_setPort s p.toNat p.toNat _).trans (if_pos rfl)

theorem portKept_portDown (s : State) (p : BitVec 4) (h : (s.port p.toNat).up = true) :
    PortKept p.toNat (fallen s p) (s.portDown p) := by
  have hd : ((fallen s p).port p.toNat).up = false := by rw [fallen_port]
  rw [portDown_falls s p h]
  have hr := PortKept.foldl resend (fun _ f ht => portKept_resend ht f) (s.port p.toNat).replay _ hd
  exact hr.trans (PortKept.foldl portLost (fun _ ch ht => portKept_portLost ht ch) _ _ (hr.down hd))

/-- Port p has gone down in t: what R20, R23 and R24 say of it. -/
def WentDown (s t : State) (p : BitVec 4) : Prop :=
  (t.port p.toNat).up = false ∧ (t.port p.toNat).training = false ∧ (t.port p.toNat).replay = []
    ∧ t.pwr = { s.pwr with alert := s.pwr.alert ||| 8 }
    ∧ (t.port p.toNat).fell = true ∧ (t.port p.toNat).tryAt = s.time.toNat + 4000000 ∧ ∀ ch, (t.portsUp ch).getLsbD p.toNat = false

theorem not_portsUp_of_down {t : State} {p : Nat} (h : (t.port p).up = false) (ch : BitVec 8) : (t.portsUp ch).getLsbD p = false := by
  rw [portsUp_getLsbD, h, Bool.and_false]

theorem wentDown_portDown (s : State) (p : BitVec 4) (h : (s.port p.toNat).up = true) :
    WentDown s (s.portDown p) p ∧ ((s.portDown p).port p.toNat).held = (s.port p.toNat).held := by
  obtain ⟨hw, hp⟩ := portKept_portDown s p h
  rw [fallen_port] at hp
  have hup : ((s.portDown p).port p.toNat).up = false := by rw [hp]
  exact ⟨⟨hup, by rw [hp], by rw [hp], hw, by rw [hp], by rw [hp], not_portsUp_of_down hup⟩, by rw [hp]⟩

/-- A port that has gone down has gone down when it is held, too. -/
theorem WentDown.hold {s t : State} {p : BitVec 4} (h : WentDown s t p) :
    WentDown s (t.setPort p.toNat { t.port p.toNat with held := true, training := false }) p := by
  obtain ⟨hu, -, hr, hw, hf, ht, -⟩ := h
  have hp := (port_setPort t p.toNat p.toNat { t.port p.toNat with held := true, training := false }).trans (if_pos rfl)
  exact ⟨by rw [hp]; exact hu, by rw [hp], by rw [hp]; exact hr, hw, by rw [hp]; exact hf, by rw [hp]; exact ht,
    not_portsUp_of_down (by rw [hp]; exact hu)⟩

/-! ## The events of a port (R23, R24) -/

theorem portIs_setPort (s : State) (p : BitVec 4) (x : SPort) (i : Instr) (h : exec i s = .next (s.setPort p.toNat x)) :
    PortIs i s p x := ⟨_, h, fun k => port_setPort s p.toNat k x, rfl⟩

theorem retrain_starts (s : State) (p : BitVec 4) (i : Instr) (hi : exec i s = .next (s.retrain p)) :
    ((s.port p.toNat).up = false → (s.port p.toNat).held = false → PortIs i s p { s.port p.toNat with training := true })
      ∧ ((s.port p.toNat).up = true ∨ (s.port p.toNat).held = true → exec i s = .next s) := by
  refine ⟨fun hu hh => portIs_setPort s p _ i (hi.trans (congrArg _ (if_neg ?_))), fun h => hi.trans (congrArg _ (if_pos ?_))⟩
  · simp [hu, hh]
  · simpa using h

/-- The machine when a flit of a port's replay buffer has been sent once more. -/
def replayed (s : State) (p : BitVec 4) : State :=
  (s.setPort p.toNat { s.port p.toNat with replays := (s.port p.toNat).replays + 1 }).send
    (.flits p ((s.port p.toNat).replay.take 1))

theorem flitReplay_eq (s : State) (p : BitVec 4) (hu : (s.port p.toNat).up = true) (hr : (s.port p.toNat).replay ≠ []) :
    exec (.flitReplay p) s
      = if 16 ≤ (s.port p.toNat).replays + 1 then .next ((replayed s p).portDown p) else .next (replayed s p) :=
  if_neg (by simp [hu, hr])

theorem replayed_port (s : State) (p : BitVec 4) (k : Nat) : (replayed s p).port k
    = if k = p.toNat then { s.port p.toNat with replays := (s.port p.toNat).replays + 1 } else s.port k := port_setPort ..

theorem portEvents : PortEvents := by
  intro s p n x isDown starts
  refine ⟨portIs_setPort s p _ _ rfl, fun hu hr hn => ?_, fun hu hr hn => ?_,
    fun hu => ⟨if_pos (by simp [show (s.port p.toNat).up = false from hu]), ?_⟩, fun hu => ?_, fun hu => ?_,
    portIs_setPort s p _ _ rfl, retrain_starts s p _ rfl, retrain_starts s p _ rfl, fun ht => ?_, fun ht => ?_⟩
  · have hn : (s.port p.toNat).replays < 15 := hn
    exact ⟨_, (flitReplay_eq s p hu hr).trans (if_neg (by omega)), rfl, replayed_port s p, rfl⟩
  · have hn : 15 ≤ (s.port p.toNat).replays := hn
    have hu' : ((replayed s p).port p.toNat).up = true := by rw [replayed_port, if_pos rfl]; exact hu
    exact ⟨_, (flitReplay_eq s p hu hr).trans (if_pos (by omega)), (wentDown_portDown (replayed s p) p hu').1⟩
  · exact portIs_setPort s p _ _ (congrArg _ (portDown_idle s p hu))
  · exact ⟨_, rfl, wentDown_portDown s p hu⟩
  · exact ⟨_, rfl, (wentDown_portDown s p hu).1.hold, congrArg (·.held) ((port_setPort ..).trans (if_pos rfl))⟩
  · refine ⟨_, if_neg (by simp [show (s.port p.toNat).training = true from ht]), fun k => port_setPort .., fun ch hc => ?_, rfl⟩
    rw [portsUp_getLsbD, port_setPort, if_pos rfl, Bool.and_true]
    exact hc
  · exact if_pos (by simp [show (s.port p.toNat).training = false from ht])

end Sys2Proof.Proofs

/-!
Packets: their tests, their acceptance and the answers to them (O40).
-/
namespace Sys2Proof.Proofs
open Sys2Proof.Machine Sys2Proof.Claims

/-! ## Answers to the chip that has sent something (R23) -/

/-- A flit leaves a channel on its lowest port that is up. -/
theorem sendFlits_port (s : State) (ch : BitVec 8) (k : Nat) :
    (s.sendFlits ch 1).port k = if (s.portsUp ch).getLsbD k = true ∧ ∀ j, j < k → (s.portsUp ch).getLsbD j = false
      then flitSent s (s.port k) ch else s.port k := by
  unfold State.sendFlits
  cases hq : (List.range 16).find? (s.portsUp ch).getLsbD with
  | none =>
    have hno : ¬ (s.portsUp ch).getLsbD k = true := by
      by_cases hk : k < 16
      · exact List.find?_eq_none.mp hq k (List.mem_range.mpr hk)
      · rw [BitVec.getLsbD_of_ge _ _ (by omega)]
        exact Bool.false_ne_true
    exact (if_neg fun h => hno h.1).symm
  | some q =>
    obtain ⟨hup, -, hfirst⟩ := List.find?_range_eq_some.mp hq
    refine (portSend_port s q k _ 1).trans ?_
    by_cases hk : k = q
    · subst hk
      rw [if_pos rfl, if_pos ⟨hup, fun j hj => by simpa using hfirst j hj⟩, flitsSent_one]
    · rw [if_neg hk, if_neg]
      rintro ⟨hk', hlow⟩
      rcases Nat.lt_or_gt_of_ne hk with hlt | hgt
      · exact absurd hk' (by simpa using hfirst k hlt)
      · rw [hlow q hgt] at hup
        cases hup

theorem flitSent_up (s : State) (x : SPort) (ch : BitVec 8) : (flitSent s x ch).up = x.up := rfl

theorem sendFlits_frame (s : State) (ch : BitVec 8) (n : Nat) :
    { s.sendFlits ch n with fab := { (s.sendFlits ch n).fab with ports := s.fab.ports } } = s := by
  unfold State.sendFlits
  split <;> rfl

theorem sendFlits_portsUp (s : State) (ch k : BitVec 8) : (s.sendFlits ch 1).portsUp k = s.portsUp k := by
  refine portsUp_congr (congrArg (·.fab.chans) (sendFlits_frame s ch 1)) (fun j => ?_) k
  rw [sendFlits_port]
  split
  · exact flitSent_up ..
  · rfl

/-- The channel ends by which a node is reached (R23). -/
def endsTo (s : State) (node : BitVec 12) : List (BitVec 8) :=
  s.chansWith fun c => (c.st = .opened || c.st = .fencing) && c.peer = node

theorem sendBack_reached {s : State} {node : BitVec 12} {ch : BitVec 8} {l : List (BitVec 8)} (h : endsTo s node = ch :: l)
    (m : OutMsg) : s.sendBack node m = (s.send m).sendFlits ch 1 := by
  unfold State.sendBack
  rw [show s.chansWith _ = ch :: l from h]

theorem sendBack_unreached {s : State} {node : BitVec 12} (h : endsTo s node = []) (m : OutMsg) : s.sendBack node m = s.send m := by
  unfold State.sendBack
  rw [show s.chansWith _ = [] from h]

/-- Nothing but one message sent, and the ports' buffers, changes. -/
theorem sendBack_frame (s : State) (node : BitVec 12) (m : OutMsg) : (s.sendBack node m).out = s.out ++ [m]
    ∧ { s.sendBack node m with out := s.out, fab := { (s.sendBack node m).fab with ports := s.fab.ports } } = s := by
  cases h : endsTo s node with
  | nil => rw [sendBack_unreached h]; exact ⟨rfl, rfl⟩
  | cons ch l =>
    rw [sendBack_reached h]
    have hf := sendFlits_frame (s.send m) ch 1
    exact ⟨congrArg (·.out) hf, congrArg (fun t : State => { t with out := s.out }) hf⟩

theorem sentBack_sendBack (s : State) (node : BitVec 12) (m : OutMsg) : SentBack (s.sendBack node m) s node := by
  have hc : (s.sendBack node m).fab.chans = s.fab.chans := congrArg (·.fab.chans) (sendBack_frame s node m).2
  have hch : endsTo (s.sendBack node m) node = endsTo s node := by unfold endsTo State.chansWith; rw [hc]
  unfold SentBack
  rw [show (s.sendBack node m).chansWith _ = endsTo s node from hch]
  cases h : endsTo s node with
  | nil => rw [sendBack_unreached h]; exact fun _ => rfl
  | cons ch l =>
    rw [sendBack_reached h]
    intro k
    rw [sendFlits_portsUp]
    exact sendFlits_port (s.send m) ch k

/-- An answer counted from an earlier state with the same ports and the same time. -/
theorem sentBack_since {t s u : State} {node : BitVec 12} (h : SentBack t u node) (hp : u.fab.ports = s.fab.ports)
    (ht : u.time = s.time) : SentBack t s node := by
  have hk (k : Nat) : u.port k = s.port k := congrArg (Store.get SPort.reset · k) hp
  have hf (x : SPort) (ch : BitVec 8) : flitSent u x ch = flitSent s x ch := by unfold flitSent; rw [ht]
  unfold SentBack at h ⊢
  split at h <;> simpa only [hk, hf] using h

/-! ## A packet is accepted (R23, R35) -/

/-- The words that a payload brings to an edge of a collective. -/
def wordsOf : Payload → List (Word × Bool)
  | .coll _ _ _ _ _ _ ws => ws
  | _ => []

/-- The channel end that admits a packet has noted its number. -/
def noteNumber (s : State) (p : Packet) : State :=
  match s.endOf p with
  | some ch => s.setChan ch { s.chan ch with pgot := (s.chan ch).pgot ++ [p.seqNo] }
  | none => s

/-- The transfer that a packet is a part of, with that part. -/
def partTaken (s : State) (p : Packet) : InXfer :=
  ((s.fab.ins.find? fun x => x.src = p.src && x.id = p.xfer).getD ⟨p.src, p.xfer, [], none⟩).take p (wordsOf p.body)

theorem noteNumber_ins (s : State) (p : Packet) : (noteNumber s p).fab.ins = s.fab.ins := by
  unfold noteNumber
  split <;> rfl

/-- What acceptance changes: the channel's record of numbers, and the transfers that are on their way. -/
theorem accept_eq (s : State) (p : Packet) :
    (s.accept p).2 = (partTaken s p).whole
      ∧ ∃ ins, (s.accept p).1 = { noteNumber s p with fab := { (noteNumber s p).fab with ins := ins } } := by
  have hx : partTaken s p = (((noteNumber s p).fab.ins.find? fun x => x.src = p.src && x.id = p.xfer).getD
      ⟨p.src, p.xfer, [], none⟩).take p (wordsOf p.body) := by rw [noteNumber_ins]; rfl
  rw [hx]
  unfold State.accept noteNumber wordsOf
  dsimp only
  split
  · next ws hw => exact ⟨hw.symm, _, rfl⟩
  · next hw => exact ⟨hw.symm, _, rfl⟩

/-- Of a transfer of one packet every part has come with it. -/
theorem whole_first (s : State) (p : Packet) (hf : ∀ x ∈ s.fab.ins, ¬ (x.src = p.src ∧ x.id = p.xfer)) (hl : p.last = true)
    (hp : p.part = 0) : (partTaken s p).whole = some (wordsOf p.body) := by
  have hn : s.fab.ins.find? (fun x => x.src = p.src && x.id = p.xfer) = none := by
    rw [List.find?_eq_none]
    simpa using hf
  unfold partTaken InXfer.take InXfer.whole
  rw [hn, hl, hp]
  simp

theorem whole_more (s : State) (p : Packet) (hf : ∀ x ∈ s.fab.ins, ¬ (x.src = p.src ∧ x.id = p.xfer)) (hl : p.last = false) :
    (partTaken s p).whole = none := by
  have hn : s.fab.ins.find? (fun x => x.src = p.src && x.id = p.xfer) = none := by
    rw [List.find?_eq_none]
    simpa using hf
  unfold partTaken InXfer.take InXfer.whole
  rw [hn, hl]
  rfl

theorem accept_frame (s : State) (p : Packet) :
    { (s.accept p).1 with fab := { (s.accept p).1.fab with chans := s.fab.chans, ins := s.fab.ins } } = s := by
  obtain ⟨-, ins, h⟩ := accept_eq s p
  rw [h]
  unfold noteNumber
  split <;> rfl

/-- The number of an accepted packet is noted at the channel end that admits it. -/
theorem accept_notes (s : State) (p : Packet) (ch : BitVec 8) (h : s.endOf p = some ch) :
    p.seqNo ∈ ((s.accept p).1.chan ch).pgot := by
  obtain ⟨-, ins, he⟩ := accept_eq s p
  have hc : (noteNumber s p).chan ch = { s.chan ch with pgot := (s.chan ch).pgot ++ [p.seqNo] } := by
    unfold noteNumber
    rw [h]
    exact (chan_setChan ..).trans (if_pos rfl)
  rw [he]
  show p.seqNo ∈ ((noteNumber s p).chan ch).pgot
  rw [hc]
  exact List.mem_append_right _ (List.mem_singleton.mpr rfl)

/-- A packet behind its tests: accepted, and its transfer landed with the last of its parts. -/
def landed (s : State) (p : Packet) : State :=
  match (s.accept p).2 with
  | some ws => (s.accept p).1.landXfer p ws
  | none => (s.accept p).1

theorem landed_whole {s : State} {p : Packet} {ws : List (Word × Bool)} (h : (partTaken s p).whole = some ws) :
    landed s p = (s.accept p).1.landXfer p ws := by
  unfold landed
  rw [(accept_eq s p).1, h]

theorem landed_more {s : State} {p : Packet} (h : (partTaken s p).whole = none) : landed s p = (s.accept p).1 := by
  unfold landed
  rw [(accept_eq s p).1, h]

/-! ## The tests of a packet (R29, R32, R35) -/

/-- The flit acknowledgement of a good packet (R23). -/
def flitAcked (s : State) (port : BitVec 4) (flit : Nat) : State := s.send (.flitAck port flit)

/-- The rejection of a packet (R29, R32). -/
def rejected (s : State) (port : BitVec 4) (flit : Nat) (p : Packet) (stale : Bool) : State :=
  (flitAcked s port flit).sendBack p.src (.reject p.src p.xfer stale)

section
variable (s : State) (port : BitVec 4) (flit : Nat) (p : Packet)

theorem admitted_iff : s.admitted p = true ↔ p.body.size ≤ 256 ∧ ∃ x ∈ s.fab.chans, (x.2.st = .opened ∨ x.2.st = .fencing)
    ∧ x.2.admits = true ∧ x.2.peer = p.src ∧ x.2.gen = p.gen ∧ x.2.domains.getLsbD p.dom.toNat = true := by
  simp only [State.admitted, State.admitsTo, Bool.and_eq_true, Bool.or_eq_true, decide_eq_true_eq, List.any_eq_true, and_assoc]

theorem packetArrival_unadmitted (h : s.admitted p = false) :
    exec (.packetArrival ⟨port, flit, true, p⟩) s = .next (rejected s port flit p false) := if_pos (by rw [h]; rfl)

theorem packetArrival_seen (h : s.admitted p = true) (hs : s.seen p = true) :
    exec (.packetArrival ⟨port, flit, true, p⟩) s = .next (flitAcked s port flit) :=
  (if_neg (by rw [h]; exact Bool.false_ne_true)).trans (if_pos hs)

variable (h : s.admitted p = true) (hs : s.seen p = false)
include h hs

theorem packetArrival_league {n : Nat} {m : Option Moved} (hb : p.body = .league n m) :
    exec (.packetArrival ⟨port, flit, true, p⟩) s = .next (landed ((flitAcked s port flit).leagueKept p.rank) p) := by
  obtain ⟨src, gen, dom, rank, epoch, seqNo, xfer, part, last, body⟩ := p
  obtain rfl : body = _ := hb
  refine (if_neg (by rw [h]; exact Bool.false_ne_true)).trans ((if_neg (by rw [hs]; exact Bool.false_ne_true)).trans ?_)
  unfold landed flitAcked
  dsimp only
  split <;> next ha => rw [ha]

theorem packetArrival_stale (hb : ∀ n m, p.body ≠ .league n m)
    (he : entState (s.mapEntry p.rank) ≠ 1 ∨ entEpoch (s.mapEntry p.rank) ≠ p.epoch) :
    exec (.packetArrival ⟨port, flit, true, p⟩) s = .next (rejected s port flit p true) := by
  obtain ⟨src, gen, dom, rank, epoch, seqNo, xfer, part, last, body⟩ := p
  refine (if_neg (by rw [h]; exact Bool.false_ne_true)).trans ((if_neg (by rw [hs]; exact Bool.false_ne_true)).trans ?_)
  cases body with
  | league n m => exact absurd rfl (hb n m)
  | data va bytes poison line party count => exact if_pos (by simpa using he)
  | coll tag base nr stride party down ws => exact if_pos (by simpa using he)
  | check c => exact if_pos (by simpa using he)

variable (h1 : entState (s.mapEntry p.rank) = 1) (h2 : entEpoch (s.mapEntry p.rank) = p.epoch)
include h1 h2

theorem packetArrival_coll {tag base nr stride party : Nat} {down : Bool} {ws : List (Word × Bool)}
    (hb : p.body = .coll tag base nr stride party down ws) :
    exec (.packetArrival ⟨port, flit, true, p⟩) s = .next (landed (flitAcked s port flit) p) := by
  obtain ⟨src, gen, dom, rank, epoch, seqNo, xfer, part, last, body⟩ := p
  obtain rfl : body = _ := hb
  refine (if_neg (by rw [h]; exact Bool.false_ne_true)).trans ((if_neg (by rw [hs]; exact Bool.false_ne_true)).trans
    ((if_neg (by simp [h1, h2])).trans ?_))
  unfold landed flitAcked
  dsimp only
  split <;> next ha => rw [ha]

theorem packetArrival_unmapped {va : Nat} {bytes : List Byte} {poison : BitVec 32} {line : Option (BitVec 6)} {party : BitVec 16}
    {count : Nat} (hb : p.body = .data va bytes poison line party count) {f : TrapInfo}
    (hf : s.pieces (s.asRank p.rank) .write (BitVec.ofNat 64 va) bytes.length = .error f) :
    exec (.packetArrival ⟨port, flit, true, p⟩) s = .next (rejected s port flit p false) := by
  obtain ⟨src, gen, dom, rank, epoch, seqNo, xfer, part, last, body⟩ := p
  obtain rfl : body = _ := hb
  refine (if_neg (by rw [h]; exact Bool.false_ne_true)).trans ((if_neg (by rw [hs]; exact Bool.false_ne_true)).trans
    ((if_neg (by simp [h1, h2])).trans ?_))
  dsimp only
  rw [hf]
  rfl

theorem packetArrival_data {va : Nat} {bytes : List Byte} {poison : BitVec 32} {line : Option (BitVec 6)} {party : BitVec 16}
    {count : Nat} (hb : p.body = .data va bytes poison line party count) {ps : List (Nat × Nat)}
    (hf : s.pieces (s.asRank p.rank) .write (BitVec.ofNat 64 va) bytes.length = .ok ps) (hh : s.heldLines (pieceLines ps) = []) :
    exec (.packetArrival ⟨port, flit, true, p⟩) s = .next (landed ((flitAcked s port flit).landSegs
      (cutRuns ps bytes ((List.range bytes.length).map fun i => poison.getLsbD (i / 8)))) p) := by
  obtain ⟨src, gen, dom, rank, epoch, seqNo, xfer, part, last, body⟩ := p
  obtain rfl : body = _ := hb
  refine (if_neg (by rw [h]; exact Bool.false_ne_true)).trans ((if_neg (by rw [hs]; exact Bool.false_ne_true)).trans
    ((if_neg (by simp [h1, h2])).trans ?_))
  dsimp only
  rw [hf]
  refine (if_pos (by rw [hh]; rfl)).trans ?_
  unfold landed flitAcked
  dsimp only
  split <;> next ha => rw [ha]

end

/-! ## What a packet leaves (R23, R29, R32, R35) -/

theorem rejected_leaves (s : State) (port : BitVec 4) (flit : Nat) (p : Packet) (stale : Bool) :
    let t := rejected s port flit p stale
    t.out = s.out ++ [.flitAck port flit, .reject p.src p.xfer stale] ∧ SentBack t s p.src
      ∧ { t with out := s.out, fab := { t.fab with ports := s.fab.ports } } = s := by
  obtain ⟨ho, hf⟩ := sendBack_frame (flitAcked s port flit) p.src (.reject p.src p.xfer stale)
  refine ⟨ho.trans (List.append_assoc ..), sentBack_since (sentBack_sendBack ..) rfl rfl, ?_⟩
  exact congrArg (fun t : State => { t with out := s.out }) hf

/-- A packet's number stands at the channel end that admits it. -/
def Noted (s t : State) (p : Packet) : Prop := ∀ ch, s.endOf p = some ch → p.seqNo ∈ (t.chan ch).pgot

/-- The fabric as a packet finds it stands in s0 as in s: its ports and channels, and the time. -/
structure SameLinks (s s0 : State) : Prop where
  chans : s0.fab.chans = s.fab.chans
  ports : s0.fab.ports = s.fab.ports
  time : s0.time = s.time

theorem noted_accept {s s0 u : State} {p : Packet} (h : SameLinks s s0) (hu : u.fab.chans = (s0.accept p).1.fab.chans) :
    Noted s u p := by
  intro ch hch
  have he : s0.endOf p = some ch := by
    rw [← hch]
    unfold State.endOf State.chansWith
    rw [h.chans]
  have hc : u.chan ch = (s0.accept p).1.chan ch := congrArg (Store.get Chan.reset · ch.toNat) hu
  rw [hc]
  exact accept_notes s0 p ch he

/-- An accepted packet is acknowledged: its number is noted, and the acknowledgement has left. -/
theorem acked_leaves {s s0 u : State} {p : Packet} (m : OutMsg) (h : SameLinks s s0) (hu : SameLinks (s0.accept p).1 u) :
    Noted s (u.sendBack p.src m) p ∧ SentBack (u.sendBack p.src m) s p.src := by
  have hf := (sendBack_frame u p.src m).2
  have ha := accept_frame s0 p
  have hp : u.fab.ports = s.fab.ports := (hu.ports.trans (congrArg (·.fab.ports) ha)).trans h.ports
  have ht : u.time = s.time := (hu.time.trans (congrArg (·.time) ha)).trans h.time
  exact ⟨noted_accept h ((congrArg (·.fab.chans) hf).trans hu.chans), sentBack_since (sentBack_sendBack ..) hp ht⟩

/-- What a migration has brought of a rank, kept until it is put in place (R68). -/
def brought (s : State) (rank : Nat) (m : Moved) : State :=
  { s with fab := { s.fab with arrived := Store.set none s.fab.arrived rank (some m) } }

theorem landXfer_league {s : State} {p : Packet} {n : Nat} {m : Moved} (hb : p.body = .league n (some m))
    (hi : (s.rank p.rank).st = .incoming) (ws : List (Word × Bool)) :
    s.landXfer p ws = (brought s p.rank m).sendBack p.src (.ack p.src p.xfer) := by
  unfold State.landXfer
  rw [hb]
  dsimp only
  rw [if_pos hi]
  rfl

theorem landXfer_coll {s : State} {p : Packet} {tag base nr stride party : Nat} {down : Bool} {words : List (Word × Bool)}
    (hb : p.body = .coll tag base nr stride party down words) {c : Coll}
    (hc : (s.parties tag base nr stride).find? (fun (x : Coll) => x.rank = p.rank) = some c) (ws : List (Word × Bool)) :
    s.landXfer p ws = (s.dueNow (.collEdgeArrival c.id party down ws)).sendBack p.src (.ack p.src p.xfer) := by
  unfold State.landXfer
  rw [hb]
  dsimp only
  rw [hc]

theorem landXfer_data {s : State} {p : Packet} {va : Nat} {bytes : List Byte} {poison : BitVec 32} {party : BitVec 16} {count : Nat}
    (hb : p.body = .data va bytes poison none party count) (ws : List (Word × Bool)) :
    s.landXfer p ws = s.sendBack p.src (.ack p.src p.xfer) := by
  unfold State.landXfer
  rw [hb]

/-- What the League keeps of a message alters its rank's operation alone. -/
theorem leagueKept_frame (s : State) (rank : Nat) : { s.leagueKept rank with ranks := s.ranks } = s := by
  unfold State.leagueKept
  split <;> rfl

theorem leagueKept_st (s : State) (rank : Nat) : ((s.leagueKept rank).rank rank).st = (s.rank rank).st := by
  unfold State.leagueKept
  split
  · rw [State.rank_modRank, if_pos rfl]
  · rfl

/-! ### Bytes that a packet brings -/

theorem Serves.said {s t : State} (h : Serves s t) : said t = said s := by
  obtain ⟨wb, ho, hwb⟩ := h.out
  unfold Claims.said
  rw [ho, List.filter_append, (List.filter_eq_nil_iff (l := wb)).mpr, List.append_nil]
  intro m hm
  obtain ⟨l, rfl⟩ := hwb m hm
  exact Bool.false_ne_true

theorem said_of_out {s t : State} (h : t.out = s.out) : said t = said s := by
  unfold Claims.said
  rw [h]

theorem said_bump (s : State) (ls : List Nat) : said (s.bump ls) = said s := by
  refine List.foldlRecOn ls _ (motive := fun (t : State) => said t = said s) rfl fun t ht l _ => ?_
  split
  · exact ht
  · split
    · exact (serves_sliceUse t l true).said.trans ht
    · exact ht

theorem said_fill (s : State) (ls : List Nat) : said (s.fill ls) = said s := by
  refine List.foldlRecOn ls _ (motive := fun (t : State) => said t = said s) rfl fun t ht l _ => ?_
  split <;> exact ht

/-- One piece without marks lands as one write event. -/
theorem landSegs_unmarked (s : State) (loc : Nat) (bs : List Byte) :
    s.landSegs (cutRuns [(loc, bs.length)] bs ((List.range bs.length).map fun i => (0 : BitVec 32).getLsbD (i / 8)))
      = s.writeAll [(loc, bs)] := by
  have hm : ((((List.range bs.length).map fun i => (0 : BitVec 32).getLsbD (i / 8)).take bs.length).zipIdx.filter (·.1)) = [] := by
    rw [List.filter_eq_nil_iff]
    rintro ⟨b, i⟩ hb
    have hb := List.mem_of_mem_take (List.fst_mem_of_mem_zipIdx hb)
    obtain ⟨j, -, rfl⟩ := List.mem_map.mp hb
    simp
  unfold State.landSegs cutRuns
  simp only [cutRuns, List.take_length, List.foldl_cons, List.foldl_nil, List.map_cons, List.map_nil]
  unfold State.markBytes
  rw [hm]
  rfl

theorem writeAll_one (s : State) (loc : Nat) (bs : List Byte) (hq : s.wq = []) :
    (∀ j, (s.writeAll [(loc, bs)]).byte j = if loc ≤ j ∧ j < loc + bs.length then bs.getD (j - loc) 0 else s.byte j)
      ∧ said (s.writeAll [(loc, bs)]) = said s := by
  unfold State.writeAll
  simp only [List.foldl_cons, List.foldl_nil, flush_empty s _ hq]
  refine ⟨fun j => ?_, ?_⟩
  · rw [← poke_byte_getD]
    show Store.get 0 (State.fill _ _).mem j = _
    rw [State.fill_mem, State.bump_mem]
    rfl
  · rw [said_fill, said_bump]
    exact said_of_out rfl

/-- A packet of bytes that brings no count, behind its write: accepted, and acknowledged where its transfer is whole. -/
theorem landed_data {p : Packet} {va : Nat} {bytes : List Byte} {poison : BitVec 32} {party : BitVec 16} {count : Nat}
    (hb : p.body = .data va bytes poison none party count) (s0 : State) :
    landed s0 p = (s0.accept p).1 ∨ landed s0 p = (s0.accept p).1.sendBack p.src (.ack p.src p.xfer) := by
  cases hw : (partTaken s0 p).whole with
  | none => exact .inl (landed_more hw)
  | some ws => exact .inr ((landed_whole hw).trans (landXfer_data hb ws))

section
variable {s : State} {p : Packet} (port : BitVec 4) (flit : Nat) (hf : ∀ x ∈ s.fab.ins, ¬ (x.src = p.src ∧ x.id = p.xfer))
include hf

/-- What a migration brings in one packet is kept for its rank (R68). -/
theorem league_lands {s0 : State} (hk : { s0 with ranks := s.ranks } = flitAcked s port flit)
    (hi : (s0.rank p.rank).st = .incoming) (hl : p.last = true) (hp : p.part = 0) {n : Nat} {m : Moved}
    (hb : p.body = .league n (some m)) : let t := landed s0 p
    Noted s t p ∧ Store.get none t.fab.arrived p.rank = some m ∧ SentBack t s p.src
      ∧ t.out = s.out ++ [.flitAck port flit, .ack p.src p.xfer] ∧ t.mem = s.mem ∧ t.ctxs = s.ctxs := by
  have hins : s0.fab.ins = s.fab.ins := congrArg (·.fab.ins) hk
  have ha := accept_frame s0 p
  have hai : ((s0.accept p).1.rank p.rank).st = .incoming := by
    have hr : (s0.accept p).1.ranks = s0.ranks := congrArg (·.ranks) ha
    unfold State.rank
    rw [hr]
    exact hi
  have ht : landed s0 p = (brought (s0.accept p).1 p.rank m).sendBack p.src (.ack p.src p.xfer) :=
    (landed_whole (whole_first s0 p (by rw [hins]; exact hf) hl hp)).trans (landXfer_league hb hai _)
  obtain ⟨ho, hfr⟩ := sendBack_frame (brought (s0.accept p).1 p.rank m) p.src (.ack p.src p.xfer)
  obtain ⟨hn, hsb⟩ := acked_leaves (.ack p.src p.xfer) (s := s) (s0 := s0) (p := p)
    ⟨congrArg (·.fab.chans) hk, congrArg (·.fab.ports) hk, congrArg (·.time) hk⟩
    (u := brought (s0.accept p).1 p.rank m) ⟨rfl, rfl, rfl⟩
  rw [ht]
  refine ⟨hn, ?_, hsb, ?_, ?_, ?_⟩
  · have hx := congrArg (fun t : State => Store.get none t.fab.arrived p.rank) hfr
    exact hx.trans ((Store.get_set ..).trans (if_pos rfl))
  · have hout : (brought (s0.accept p).1 p.rank m).out = s.out ++ [.flitAck port flit] :=
      (congrArg (·.out) ha).trans (congrArg (·.out) hk)
    rw [ho, hout, List.append_assoc]
    rfl
  · exact (congrArg (·.mem) hfr).trans ((congrArg (·.mem) ha).trans (congrArg (·.mem) hk))
  · exact (congrArg (·.ctxs) hfr).trans ((congrArg (·.ctxs) ha).trans (congrArg (·.ctxs) hk))

/-- The words of a transfer of one packet go to their collective (R35). -/
theorem coll_lands (hl : p.last = true) (hp : p.part = 0) {tag base nr stride party : Nat} {down : Bool} {ws : List (Word × Bool)}
    (hb : p.body = .coll tag base nr stride party down ws) {c : Coll}
    (hc : (s.parties tag base nr stride).find? (fun (x : Coll) => x.rank = p.rank) = some c) :
    let t := landed (flitAcked s port flit) p
    Noted s t p ∧ t.agenda = .collEdgeArrival c.id party down ws :: s.agenda
      ∧ t.out = s.out ++ [.flitAck port flit, .ack p.src p.xfer] ∧ SentBack t s p.src
      ∧ { t with agenda := s.agenda, out := s.out, fab := s.fab } = s := by
  intro t
  have ha := accept_frame (flitAcked s port flit) p
  have hac : ((flitAcked s port flit).accept p).1.colls = s.colls := congrArg (·.colls) ha
  have ht : t = (((flitAcked s port flit).accept p).1.dueNow (.collEdgeArrival c.id party down (wordsOf p.body))).sendBack p.src
      (.ack p.src p.xfer) :=
    (landed_whole (whole_first (flitAcked s port flit) p hf hl hp)).trans (landXfer_coll hb (by unfold State.parties; rw [hac]; exact hc) _)
  have hws : wordsOf p.body = ws := by rw [hb]; rfl
  rw [hws] at ht
  obtain ⟨ho, hfr⟩ := sendBack_frame (((flitAcked s port flit).accept p).1.dueNow (.collEdgeArrival c.id party down ws)) p.src
    (.ack p.src p.xfer)
  obtain ⟨hn, hsb⟩ := acked_leaves (.ack p.src p.xfer) (s := s) (s0 := flitAcked s port flit) (p := p) ⟨rfl, rfl, rfl⟩
    (u := ((flitAcked s port flit).accept p).1.dueNow (.collEdgeArrival c.id party down ws)) ⟨rfl, rfl, rfl⟩
  rw [ht]
  refine ⟨hn, ?_, ?_, hsb, ?_⟩
  · exact (congrArg (·.agenda) hfr).trans (congrArg (_ :: ·) (congrArg (·.agenda) ha))
  · have hout : (((flitAcked s port flit).accept p).1.dueNow (.collEdgeArrival c.id party down ws)).out
        = s.out ++ [.flitAck port flit] := congrArg (·.out) ha
    rw [ho, hout, List.append_assoc]
    rfl
  · refine (congrArg (fun t : State => { t with agenda := s.agenda, out := s.out, fab := s.fab }) hfr).trans ?_
    exact congrArg (fun t : State => { t with agenda := s.agenda, out := s.out, fab := s.fab }) ha

/-- The bytes of a packet are written (R32, R35); with the last part of its transfer it is acknowledged. -/
theorem data_lands {va : Nat} {bytes : List Byte} {poison : BitVec 32} {party : BitVec 16} {count : Nat}
    (hb : p.body = .data va bytes poison none party count) (loc : Nat) (hq : s.wq = []) :
    let t := landed ((flitAcked s port flit).writeAll [(loc, bytes)]) p
    Noted s t p ∧ (∀ j, t.byte j = if loc ≤ j ∧ j < loc + bytes.length then bytes.getD (j - loc) 0 else s.byte j)
      ∧ (p.last = false → said t = said s ++ [.flitAck port flit] ∧ ∀ k, t.port k = s.port k)
      ∧ (p.last = true → p.part = 0 → said t = said s ++ [.flitAck port flit, .ack p.src p.xfer] ∧ SentBack t s p.src)
      ∧ t.c = s.c ∧ t.ctxs = s.ctxs ∧ t.ranks = s.ranks := by
  obtain ⟨hbyte, hsaid⟩ := writeAll_one (flitAcked s port flit) loc bytes hq
  have hsame := State.sameBut_writeAll (flitAcked s port flit) [(loc, bytes)]
  generalize (flitAcked s port flit).writeAll [(loc, bytes)] = s0 at hbyte hsaid hsame ⊢
  have hlinks : SameLinks s s0 := ⟨congrArg (·.fab.chans) (show _ = _ from hsame), congrArg (·.fab.ports) (show _ = _ from hsame),
    congrArg (·.time) (show _ = _ from hsame)⟩
  have hins : s0.fab.ins = s.fab.ins := congrArg (·.fab.ins) (show _ = _ from hsame)
  have hf0 : ∀ x ∈ s0.fab.ins, ¬ (x.src = p.src ∧ x.id = p.xfer) := by rw [hins]; exact hf
  have hsaid : said s0 = said s ++ [.flitAck port flit] := hsaid.trans (List.filter_append ..)
  have ha := accept_frame s0 p
  have hsa : said (s0.accept p).1 = said s0 := said_of_out (congrArg (·.out) ha)
  obtain ⟨ho, hfr⟩ := sendBack_frame (s0.accept p).1 p.src (.ack p.src p.xfer)
  obtain ⟨hn, hsb⟩ := acked_leaves (.ack p.src p.xfer) (p := p) hlinks (u := (s0.accept p).1) ⟨rfl, rfl, rfl⟩
  have hframe : { landed s0 p with out := s0.out, fab := s0.fab } = s0 := by
    rcases landed_data hb s0 with h | h
    · rw [h]
      exact congrArg (fun t : State => { t with out := s0.out, fab := s0.fab }) ha
    · rw [h]
      exact (congrArg (fun t : State => { t with out := s0.out, fab := s0.fab }) hfr).trans
        (congrArg (fun t : State => { t with out := s0.out, fab := s0.fab }) ha)
  have hnoted : Noted s (landed s0 p) p := by
    rcases landed_data hb s0 with h | h
    · rw [h]; exact noted_accept hlinks rfl
    · rw [h]; exact hn
  refine ⟨hnoted, fun j => (congrArg (·.byte j) hframe).trans (hbyte j), fun hl => ?_, fun hl hp => ?_,
    (congrArg (·.c) hframe).trans (congrArg (·.c) (show _ = _ from hsame)),
    (congrArg (·.ctxs) hframe).trans (congrArg (·.ctxs) (show _ = _ from hsame)),
    (congrArg (·.ranks) hframe).trans (congrArg (·.ranks) (show _ = _ from hsame))⟩
  · rw [landed_more (whole_more s0 p hf0 hl)]
    refine ⟨hsa.trans hsaid, fun k => ?_⟩
    exact congrArg (Store.get SPort.reset · k) ((congrArg (·.fab.ports) ha).trans hlinks.ports)
  · rw [(landed_whole (whole_first s0 p hf0 hl hp)).trans (landXfer_data hb _)]
    refine ⟨?_, hsb⟩
    have hsay : said ((s0.accept p).1.sendBack p.src (.ack p.src p.xfer)) = said (s0.accept p).1 ++ [.ack p.src p.xfer] := by
      unfold Claims.said
      rw [ho, List.filter_append]
      rfl
    rw [hsay, hsa, hsaid, List.append_assoc]
    rfl

end

theorem packetsLand : PacketsLand := by
  intro s p port flit loc e i admitted rejects noted first
  have hadm : admitted ↔ s.admitted p = true := (admitted_iff s p).symm
  have hrej (stale : Bool) (h : exec i s = .next (rejected s port flit p stale)) : rejects stale :=
    ⟨_, h, rejected_leaves s port flit p stale⟩
  refine ⟨rfl, fun h => hrej false (packetArrival_unadmitted s port flit p ?_), fun h hs => packetArrival_seen s port flit p (hadm.mp h) hs,
    fun hs h hb he => hrej true (packetArrival_stale s port flit p (hadm.mp h) hs hb he), fun hs h hf hl hp n m hb hi => ?_,
    fun hs h h1 h2 hf => ⟨fun va bytes poison line party count hb => ⟨fun f he => ?_, fun he hpo hln h0 hq hh => ?_⟩,
      fun tag base nr stride party down ws c hb hl hp hc => ?_⟩⟩
  · rw [hadm] at h
    exact Bool.eq_false_iff.mpr h
  · exact ⟨_, packetArrival_league s port flit p (hadm.mp h) hs hb, league_lands port flit hf
      (leagueKept_frame (flitAcked s port flit) p.rank) ((leagueKept_st (flitAcked s port flit) p.rank).trans hi) hl hp hb⟩
  · exact hrej false (packetArrival_unmapped s port flit p (hadm.mp h) hs h1 h2 hb he)
  · subst hpo hln
    have hlines : s.heldLines (pieceLines [(loc, bytes.length)]) = [] := by
      unfold State.heldLines at hh ⊢
      rw [List.filter_eq_nil_iff] at hh ⊢
      intro l hl
      refine hh l ?_
      simpa [pieceLines] using hl
    refine ⟨_, (packetArrival_data s port flit p (hadm.mp h) hs h1 h2 hb he hlines).trans
      (congrArg (fun u => Host.Outcome.next (landed u p)) (landSegs_unmarked (flitAcked s port flit) loc bytes)), ?_⟩
    exact data_lands port flit hf hb loc hq
  · exact ⟨_, packetArrival_coll s port flit p (hadm.mp h) hs h1 h2 hb, coll_lands port flit hf hl hp hb hc⟩

end Sys2Proof.Proofs

/-!
The ends of a transfer, and the time tree (O40).
-/
namespace Sys2Proof.Proofs
open Sys2Proof.Machine Sys2Proof.Claims

/-! ## The ends of a transfer (R32, R34, R38) -/

theorem fenceCheck_idle (s : State) (ch : BitVec 8) (h : (s.chan ch).st ≠ .fencing) : s.fenceCheck ch = s :=
  if_neg (by simp [h])

theorem timedOut_iff (s : State) (since : Nat) :
    s.timedOut since = true ↔ since + max 1 s.fab.timeout.toNat ≤ s.time.toNat := decide_eq_true_iff

/-- What a failed transfer of a rank's League operation leaves of the rank (R34). -/
def toldLeague (r : Rank) (op code : Nat) : Rank :=
  { r with league := r.league.map fun l => if l.id = op then { l with failed := some code } else l }

/-- The rank's operation is told where it is the one that the transfer is of; nothing else changes. -/
theorem leagueFailed_tells (s : State) (rank op code : Nat) : let t := s.leagueFailed rank op code
    t.rank rank = toldLeague (s.rank rank) op code ∧ (∀ j, j ≠ rank → t.rank j = s.rank j) ∧ { t with ranks := s.ranks } = s := by
  unfold State.leagueFailed
  by_cases h : ((s.rank rank).league.any fun l => l.id = op) = true
  · obtain ⟨l, hl, hid⟩ := (Option.any_eq_true _ _).mp h
    have hid : l.id = op := by simpa using hid
    rw [if_pos h]
    refine ⟨?_, fun j hj => (State.rank_modRank ..).trans (if_neg hj), rfl⟩
    rw [State.rank_modRank, if_pos rfl]
    simp [toldLeague, hl, hid]
  · rw [if_neg h]
    refine ⟨?_, fun _ _ => rfl, rfl⟩
    have hn : (s.rank rank).league.map (fun l => if l.id = op then { l with failed := some code } else l) = (s.rank rank).league := by
      cases hl : (s.rank rank).league with
      | none => rfl
      | some l =>
        have hid : l.id ≠ op := by simpa [hl] using h
        simp [hid]
    rw [toldLeague, hn]

section
variable {s : State} {id : Nat} {x : Xfer} (hx : s.xfer id = some x) (hst : (s.chan x.chan).st ≠ .fencing)
include hx hst

theorem endXfer_acknowledged : s.endXfer id none = s.dropXfer id := by
  unfold State.endXfer
  rw [hx]
  exact fenceCheck_idle _ _ hst

theorem endXfer_failed {rank op : Nat} (hw : x.what = .league rank op) (code : Nat) :
    s.endXfer id (some code) = ((s.dropXfer id).fabErr code x.chan x.co).leagueFailed rank op code := by
  have hl := leagueFailed_tells ((s.dropXfer id).fabErr code x.chan x.co) rank op code
  have hf : (((s.dropXfer id).fabErr code x.chan x.co).leagueFailed rank op code).fab.chans = s.fab.chans :=
    congrArg (·.fab.chans) hl.2.2
  unfold State.endXfer
  rw [hx]
  unfold State.xferFails
  dsimp only
  rw [hw]
  refine fenceCheck_idle _ _ ?_
  unfold State.chan at hst ⊢
  dsimp only
  rw [hf]
  exact hst

end

theorem transfersEnd : TransfersEnd := by
  intro s id x rank op stale hx hw hst rest fails
  have hfails (i : Instr) (code : Nat) (hi : exec i s = .next (s.endXfer id (some code))) : fails i code := by
    obtain ⟨hr, hj, hf⟩ := leagueFailed_tells ((s.dropXfer id).fabErr code x.chan x.co) rank op code
    refine ⟨_, hi.trans (congrArg _ (endXfer_failed hx hst hw code)), congrArg (·.fab) hf, hr, hj, ?_⟩
    exact congrArg (fun t : State => { t with fab := s.fab }) hf
  have htime (h : s.timedOut x.at_ = true) : exec (.transferTimeout id) s = .next (s.endXfer id (some 6)) := by
    show Host.Outcome.next (s.transferTimeout id) = _
    unfold State.transferTimeout
    rw [hx]
    exact congrArg _ (if_pos h)
  refine ⟨congrArg _ (endXfer_acknowledged hx hst), hfails _ _ rfl, fun h => hfails _ _ (htime ((timedOut_iff s _).mpr h)), fun h => ?_⟩
  show Host.Outcome.next (s.transferTimeout id) = _
  unfold State.transferTimeout
  rw [hx]
  exact congrArg _ (if_neg (by rw [timedOut_iff]; omega))

/-! ## The time tree (R6, R36, R37) -/

/-- Root, hops and port of one neighbour come no later than another's (R36). -/
def NoLater (y z : Nat × Nat × Nat) : Prop :=
  y.1 < z.1 ∨ (y.1 = z.1 ∧ (y.2.1 < z.2.1 ∨ (y.2.1 = z.2.1 ∧ y.2.2 ≤ z.2.2)))

theorem NoLater.refl (y : Nat × Nat × Nat) : NoLater y y := .inr ⟨rfl, .inr ⟨rfl, Nat.le_refl _⟩⟩

theorem NoLater.trans {x y z : Nat × Nat × Nat} (h : NoLater x y) (h' : NoLater y z) : NoLater x z := by
  unfold NoLater at *; omega

theorem nearest_first (l : List (Nat × Nat × Nat)) (y : Nat × Nat × Nat) (h : nearest l = some y) :
    y ∈ l ∧ ∀ z ∈ l, NoLater y z := by
  induction l generalizing y with
  | nil => cases h
  | cons x xs ih =>
    unfold nearest at h
    split at h
    · next hn =>
      obtain rfl := Option.some.inj h
      have : xs = [] := by
        cases xs with
        | nil => rfl
        | cons a as => unfold nearest at hn; split at hn <;> cases hn
      subst this
      exact ⟨List.mem_cons_self, fun z hz => by rw [List.mem_singleton.mp hz]; exact .refl _⟩
    · next w hw =>
      obtain ⟨hm, hle⟩ := ih w hw
      obtain rfl := Option.some.inj h
      split
      · next hc =>
        have hx : NoLater w x := by
          simp only [Bool.or_eq_true, Bool.and_eq_true, decide_eq_true_eq] at hc
          unfold NoLater; omega
        exact ⟨List.mem_cons_of_mem _ hm, List.forall_mem_cons.mpr ⟨hx, hle⟩⟩
      · next hc =>
        have hx : NoLater x w := by
          simp only [Bool.or_eq_true, Bool.and_eq_true, decide_eq_true_eq] at hc
          unfold NoLater; omega
        exact ⟨List.mem_cons_self, List.forall_mem_cons.mpr ⟨.refl _, fun z hz => hx.trans (hle z hz)⟩⟩

theorem parent_nearest (s : State) (y : Nat × Nat × Nat) (h : s.parent = some y) : nearest s.timeNbrs = some y := by
  unfold State.parent at h
  split at h
  · next x hx =>
    split at h
    · cases h
    · rw [hx, h]
  · cases h

/-- The machine when it has heard over a port what the neighbour says of itself (R36). -/
def told (s : State) (port : Nat) (nbr : TimeNbr) : State :=
  (s.setPort port { s.port port with nhops := nbr.hops, nroot := nbr.root }).rehop

/-- The port's neighbour is the parent in the time tree. -/
def Follows (s : State) (port : Nat) : Prop := ∃ a b, s.parent = some (a, b, port)

theorem follows_iff (s : State) (port : Nat) : (s.parent.any fun y => y.2.2 = port) = true ↔ Follows s port := by
  unfold Follows
  cases s.parent with
  | none => simp
  | some y =>
    obtain ⟨a, b, c⟩ := y
    simp

theorem timeExchange_follows (s : State) (port : BitVec 4) (offset : BitVec 16) (nbr : TimeNbr) (hu : (s.port port.toNat).up = true)
    (h : Follows (told s port.toNat nbr) port.toNat) :
    exec (.timeExchange port offset nbr) s = .next ((told s port.toNat nbr).disciplined offset) :=
  (if_neg (by simp [hu])).trans (if_pos ((follows_iff ..).mpr h))

theorem timeExchange_other (s : State) (port : BitVec 4) (offset : BitVec 16) (nbr : TimeNbr) (hu : (s.port port.toNat).up = true)
    (h : ¬ Follows (told s port.toNat nbr) port.toNat) :
    exec (.timeExchange port offset nbr) s = .next (told s port.toNat nbr) :=
  (if_neg (by simp [hu])).trans (if_neg fun hf => h ((follows_iff ..).mp hf))

/-- The offset calls for a correction, the last one being 4,096 cycles or more ago (R36). -/
def Slews (s : State) (offset : BitVec 16) : Prop := offset ≠ 0 ∧ s.fab.slewAt + 4096 ≤ s.time.toNat

/-- The offset is within 8 cycles (R37). -/
abbrev Near (offset : BitVec 16) : Prop := -8 ≤ offset.toInt ∧ offset.toInt ≤ 8

section
variable (s : State) (offset : BitVec 16)

theorem slews_iff : (offset ≠ 0 && decide (s.fab.slewAt + 4096 ≤ s.time.toNat)) = true ↔ Slews s offset := by
  rw [Bool.and_eq_true, decide_eq_true_iff, decide_eq_true_iff]
  exact Iff.rfl

theorem disciplined_lock : (s.disciplined offset).fab.lock = true ↔ Near offset ∧ (s.fab.lock = true ∨ 3 ≤ s.fab.good) := by
  show (decide (Near offset) && (s.fab.lock || decide (4 ≤ if decide (Near offset) = true then s.fab.good + 1 else 0))) = true ↔ _
  by_cases hn : Near offset
  · rw [decide_eq_true hn, if_pos rfl, Bool.true_and, Bool.or_eq_true, decide_eq_true_iff, Nat.succ_le_succ_iff]
    exact ⟨fun h => ⟨hn, h⟩, fun h => h.2⟩
  · rw [decide_eq_false hn, Bool.false_and]
    exact ⟨fun h => absurd h Bool.false_ne_true, fun h => absurd h.1 hn⟩

theorem disciplined_hold : (s.disciplined offset).fab.hold = true ↔ s.fab.hold = true ∨ (Slews s offset ∧ 0 < offset.toInt) := by
  rw [← slews_iff, ← decide_eq_true_iff (p := 0 < offset.toInt), ← Bool.and_eq_true, ← Bool.or_eq_true]
  exact Iff.rfl

theorem disciplined_skip : (s.disciplined offset).fab.skip = true ↔ s.fab.skip = true ∨ (Slews s offset ∧ offset.toInt < 0) := by
  rw [← slews_iff, ← decide_eq_true_iff (p := offset.toInt < 0), ← Bool.and_eq_true, ← Bool.or_eq_true]
  exact Iff.rfl

end

theorem ite_of_iff {α : Type} {p q : Prop} {_ : Decidable p} {_ : Decidable q} (h : p ↔ q) (a b : α) :
    (if p then a else b) = if q then a else b := by
  by_cases hq : q
  · rw [if_pos hq, if_pos (h.mpr hq)]
  · rw [if_neg hq, if_neg fun hp => hq (h.mp hp)]

theorem timeKept : TimeKept := by
  intro s port offset hops root x i slew near follows overdue gap leads
  have hs := slews_iff s offset
  have hlead : (s.fab.root && s.parent.isNone) = true ↔ ¬ leads := by
    simp only [leads, Bool.and_eq_true, Option.isNone_iff_eq_none, not_or, Bool.not_eq_false, ne_eq, Classical.not_not]
  refine ⟨fun hu => if_pos (by simp [show (s.port port.toNat).up = false from hu]), fun hu => ?_, fun y hy => ?_, fun hl hle ho => ?_,
    fun hl hle hr hn => ?_, fun h => congrArg _ (if_neg ?_)⟩
  · by_cases hf : Follows (told s port.toNat ⟨hops, root⟩) port.toNat
    · refine ⟨_, timeExchange_follows s port offset ⟨hops, root⟩ hu hf, rfl, fun k => port_setPort s port.toNat k _,
        fun _ => ⟨rfl, rfl, ?_, disciplined_lock _ offset, ?_, disciplined_hold _ offset, disciplined_skip _ offset, ?_⟩,
        fun hn => absurd hf hn, rfl⟩
      · exact ite_of_iff decide_eq_true_iff _ _
      · exact ite_of_iff hs _ _
      · refine ite_of_iff ?_ _ _
        rw [Bool.and_eq_true, decide_eq_true_iff]
        exact and_congr_left fun _ => hs
    · exact ⟨_, timeExchange_other s port offset ⟨hops, root⟩ hu hf, rfl, fun k => port_setPort s port.toNat k _,
        fun h => absurd h hf, fun _ => rfl, rfl⟩
  · exact nearest_first _ y (parent_nearest s y hy)
  · refine congrArg _ (if_pos ?_)
    simp [hl, show ¬ _ from fun h => hlead.mp h hle, show s.fab.exchangeAt + 400000 ≤ s.time.toNat from ho]
  · refine if_neg ?_
    have hle : ¬ (s.fab.root && s.parent.isNone) = true := fun h => hlead.mp h hle
    simp only [Bool.or_eq_true, decide_eq_true_eq, hl, hr, hle, Bool.false_eq_true, or_false, false_or]
    omega
  · have ho : overdue ↔ s.fab.exchangeAt + 400000 ≤ s.time.toNat := Iff.rfl
    rw [ho] at h
    simp only [Bool.and_eq_true, decide_eq_true_eq, Bool.not_eq_true', Bool.and_eq_false_iff, Option.isNone_eq_false_iff, not_and]
    rintro ⟨hl, hr⟩ hd
    rcases h with h | ⟨h1, h2⟩ | h
    · simp [h] at hl
    · simp [h1, h2] at hr
    · exact h hd

/-- Settles O40: the ports, the packets and the time tree, each event by the equation that says what it does. -/
theorem packetsAndPorts : Obligations.PacketsAndPorts := ⟨portEvents, packetsLand, transfersEnd, timeKept⟩

end Sys2Proof.Proofs

/-!
The channel ends: their commands, handshakes and fencing (O39).
-/
namespace Sys2Proof.Proofs
open Sys2Proof.Machine Sys2Proof.Claims

/-! ## A message on every port of a channel (R27) -/

theorem upPorts_getLsbD (s : State) (k : Nat) (hk : k < 16) : s.upPorts.getLsbD k = (s.port k).up := by
  unfold State.upPorts
  rw [getLsbD_gathered (fun p => (s.port p).up) 16 k (Nat.le_refl 16), decide_eq_true hk, Bool.true_and]

/-- One flit leaves over each of a list of ports, and over no other one. -/
theorem portSends_port (l : List Nat) (hl : l.Nodup) (s : State) (ch : BitVec 8) (k : Nat) :
    (l.foldl (fun s p => s.portSend p (some ch) 1) s).port k = if k ∈ l then flitSent s (s.port k) ch else s.port k := by
  induction l generalizing s with
  | nil => rfl
  | cons p l ih =>
    obtain ⟨hp, hl⟩ := List.nodup_cons.mp hl
    rw [List.foldl_cons, ih hl, portSend_port]
    by_cases hk : k = p
    · subst hk
      rw [if_neg hp, if_pos rfl, if_pos List.mem_cons_self, flitsSent_one]
    · simp only [List.mem_cons, hk, false_or, if_false]
      rfl

theorem sendEach_port (s : State) (ports : BitVec 16) (ch : BitVec 8) (k : Nat) : (s.sendEach ports ch).port k
    = if ports.getLsbD k = true ∧ (s.port k).up = true then flitSent s (s.port k) ch else s.port k := by
  refine (portSends_port _ (List.nodup_range.filter _) s ch k).trans (ite_of_iff ?_ _ _)
  rw [List.mem_filter, List.mem_range, BitVec.getLsbD_and, Bool.and_eq_true]
  constructor
  · rintro ⟨hk, hp, hu⟩
    exact ⟨hp, (upPorts_getLsbD s k hk).symm.trans hu⟩
  · rintro ⟨hp, hu⟩
    have hk := BitVec.lt_of_getLsbD hp
    exact ⟨hk, hp, (upPorts_getLsbD s k hk).trans hu⟩

theorem sendEach_frame (s : State) (ports : BitVec 16) (ch : BitVec 8) :
    { s.sendEach ports ch with fab := { (s.sendEach ports ch).fab with ports := s.fab.ports } } = s :=
  List.foldlRecOn _ _ (motive := fun t : State => { t with fab := { t.fab with ports := s.fab.ports } } = s) rfl
    fun _ ht _ _ => ht

/-! ## What a change of one channel end leaves -/

/-- Channel `ch` has become c in t, and messages of it have been sent; nothing else differs from s. -/
structure EndBecomes (s t : State) (ch : BitVec 8) (c : Chan) (sent : List OutMsg) : Prop where
  chan : ∀ k, t.chan k = if k = ch then c else s.chan k
  sent : SentOnAll s t ch sent
  frame : { t with out := s.out, fab := { t.fab with chans := s.fab.chans, ports := s.fab.ports } } = s

namespace EndBecomes

theorem refl (s : State) (ch : BitVec 8) : EndBecomes s s ch (s.chan ch) [] := by
  refine ⟨fun k => ?_, ⟨(List.append_nil _).symm, fun k => (if_neg fun h => h.1 rfl).symm⟩, rfl⟩
  split
  · next h => rw [h]
  · rfl

section
variable {s t : State} {ch : BitVec 8} {c : Chan} {sent : List OutMsg} (h : EndBecomes s t ch c sent)
include h

theorem chanIs {i : Instr} (hi : exec i s = .next t) : ChanIs i s ch c sent := ⟨t, hi, h.chan, h.sent, h.frame⟩

theorem self : t.chan ch = c := (h.chan ch).trans (if_pos rfl)

theorem time : t.time = s.time := congrArg (·.time) (show _ = s from h.frame)

theorem xfers : t.fab.xfers = s.fab.xfers := congrArg (·.fab.xfers) (show _ = s from h.frame)

theorem setChan (c' : Chan) : EndBecomes s (t.setChan ch c') ch c' sent := by
  refine ⟨fun k => ?_, h.sent, h.frame⟩
  rw [chan_setChan, h.chan]
  split <;> rfl

theorem up (k : Nat) : (t.port k).up = (s.port k).up := by
  rw [h.sent.2 k]
  split
  · exact flitSent_up ..
  · rfl

theorem fenced_iff (hc : c.cports = (s.chan ch).cports) (d : Chan) : Fenced t ch d ↔ Fenced s ch d := by
  have hp : t.portsUp ch = s.portsUp ch := BitVec.eq_of_getLsbD_eq fun k _ => by
    rw [portsUp_getLsbD, portsUp_getLsbD, h.self, hc, h.up]
  unfold Fenced NoXfers
  rw [hp, h.xfers]

end

/-- The first message of a channel end leaves on every port of the channel. -/
theorem say {s t : State} {ch : BitVec 8} {c : Chan} (h : EndBecomes s t ch c []) (m : OutMsg) :
    EndBecomes s ((t.send m).sendEach (s.chan ch).cports ch) ch c [m] := by
  have hf := sendEach_frame (t.send m) (s.chan ch).cports ch
  have hport (k : Nat) : (t.send m).port k = s.port k := (h.sent.2 k).trans (if_neg fun hk => hk.1 rfl)
  have hflit (x : SPort) : flitSent (t.send m) x ch = flitSent s x ch := by
    unfold flitSent
    rw [show (t.send m).time = s.time from h.time]
  refine ⟨fun k => (congrArg (·.chan k) hf).trans (h.chan k), ⟨(congrArg (·.out) hf).trans ?_, fun k => ?_⟩, ?_⟩
  · exact congrArg (· ++ [m]) (h.sent.1.trans (List.append_nil _))
  · rw [sendEach_port, hport, hflit]
    exact ite_of_iff ⟨fun hk => ⟨List.cons_ne_nil _ _, hk⟩, And.right⟩ _ _
  · exact (congrArg (fun u : State => { u with out := s.out, fab := { u.fab with chans := s.fab.chans, ports := s.fab.ports } })
      hf).trans h.frame

end EndBecomes

theorem chanIs_setChan {s : State} {ch : BitVec 8} {c : Chan} {i : Instr} (hi : exec i s = .next (s.setChan ch c)) :
    ChanIs i s ch c [] := ((EndBecomes.refl s ch).setChan c).chanIs hi

/-- The OPEN that a channel end sends names its own GEN and peer, whatever else of it has changed. -/
theorem EndBecomes.sendOpen {s t : State} {ch : BitVec 8} {c : Chan} (h : EndBecomes s t ch c [])
    (hc : c.cports = (s.chan ch).cports) (reply : Bool) :
    EndBecomes s (t.sendOpen ch reply) ch c [.openMsg ch s.fab.node c.peer c.gen reply] := by
  have hn : t.fab.node = s.fab.node := congrArg (·.fab.node) (show _ = s from h.frame)
  unfold State.sendOpen
  dsimp only
  rw [h.self, hn, hc]
  exact h.say _

/-! ## Fencing (R27) -/

/-- FENCING ends exactly where every marker and every transfer's end has come. -/
theorem fenceCheck_iff (s : State) (ch : BitVec 8) (hst : (s.chan ch).st = .fencing) :
    ((s.chan ch).st = .fencing && s.portsUp ch &&& ~~~(s.chan ch).markers = 0 && !(s.fab.xfers.any fun x => x.chan = ch)) = true
      ↔ Fenced s ch (s.chan ch) := by
  simp [Fenced, NoXfers, hst]

section
variable {s t : State} {ch : BitVec 8} {c : Chan} {sent : List OutMsg} (h : EndBecomes s t ch c sent)
  (hc : c.cports = (s.chan ch).cports) (hst : c.st = .fencing)
include h hc hst

theorem fenceCheck_fences (hf : Fenced s ch c) : t.fenceCheck ch = t.setChan ch { c with st := .fenced } := by
  obtain rfl := h.self
  exact if_pos ((fenceCheck_iff t ch hst).mpr ((h.fenced_iff hc _).mpr hf))

theorem fenceCheck_waits (hf : ¬ Fenced s ch c) : t.fenceCheck ch = t := by
  obtain rfl := h.self
  exact if_neg fun hb => hf ((h.fenced_iff hc _).mp ((fenceCheck_iff t ch hst).mp hb))

end

section
variable {s t : State} {ch : BitVec 8} {c : Chan} (h : EndBecomes s t ch c []) (hc : c.cports = (s.chan ch).cports)
include h hc

/-- A channel end enters FENCING, its marker sent, before the test whether it is FENCED at once. -/
theorem toFencing_sends : ∃ u, t.toFencing ch = u.fenceCheck ch
    ∧ EndBecomes s u ch { c with st := .fencing, since := s.time.toNat } [.fenceMarker ch] := by
  unfold State.toFencing
  dsimp only
  rw [h.self, h.time, hc]
  exact ⟨_, rfl, (h.setChan _).say _⟩

theorem toFencing_waits (hf : ¬ Fenced s ch c) :
    EndBecomes s (t.toFencing ch) ch { c with st := .fencing, since := s.time.toNat } [.fenceMarker ch] := by
  obtain ⟨u, he, hu⟩ := toFencing_sends h hc
  rw [he, fenceCheck_waits hu hc rfl hf]
  exact hu

theorem toFencing_fences (hf : Fenced s ch c) :
    EndBecomes s (t.toFencing ch) ch { c with st := .fenced, since := s.time.toNat } [.fenceMarker ch] := by
  obtain ⟨u, he, hu⟩ := toFencing_sends h hc
  rw [he, fenceCheck_fences hu hc rfl hf]
  exact hu.setChan _

end

/-! ## The commands on the selected channel (R25, R27, R38) -/

theorem channelCommands : ChannelCommands := by
  intro s val sec node ch c refused
  have hself : EndBecomes s s ch c [] := EndBecomes.refl s ch
  have hcleared := hself.setChan { c with lastErr := 0 }
  have hopening := hself.setChan { c with st := .opening, lastErr := 0, since := s.time.toNat, markers := 0 }
  have hfence (h : c.st = .opened) : exec .chanCmdFence s = .next ((s.setChan ch { c with lastErr := 0 }).toFencing ch) := if_pos h
  refine ⟨fun h => chanIs_setChan (if_pos h), fun h => ⟨chanIs_setChan (if_neg h), chanIs_setChan (if_pos h)⟩, fun h hk => ?_,
    fun h hk => ?_, fun h hf => (toFencing_waits hcleared rfl hf).chanIs (hfence h),
    fun h hf => (toFencing_fences hcleared rfl hf).chanIs (hfence h), fun h => chanIs_setChan (if_neg h),
    fun h => chanIs_setChan (if_pos h), fun h => chanIs_setChan (if_neg h), fun h => ?_, fun h => ?_⟩
  · exact chanIs_setChan ((if_neg (not_not_intro h)).trans (if_pos (by rw [hk]; rfl)))
  · exact (hopening.sendOpen rfl false).chanIs ((if_neg (not_not_intro h)).trans (if_neg (by rw [hk]; decide)))
  · exact if_pos (List.all_eq_true.mpr fun e he => decide_eq_true (h e he))
  · obtain ⟨e, he, hne⟩ := h
    exact if_neg fun hall => hne (of_decide_eq_true (List.all_eq_true.mp hall e he))

/-! ## The configuration that OPEN admits (R27) -/

/-- A test of the bits of a mask that are set. -/
theorem all_masked {w : Nat} (n : Nat) (m : BitVec w) (b : Bool) (f : Nat → Bool) :
    ((List.range n).all fun k => !m.getLsbD k || f k = b) = true ↔ ∀ k, k < n → m.getLsbD k = true → f k = b := by
  rw [List.all_eq_true]
  refine forall_congr' fun k => ?_
  rw [List.mem_range, Bool.or_eq_true, decide_eq_true_iff]
  refine imp_congr_right fun _ => ?_
  cases m.getLsbD k
  · exact ⟨fun _ h => absurd h Bool.false_ne_true, fun _ => .inl rfl⟩
  · exact ⟨fun h _ => h.resolve_left Bool.false_ne_true, fun h => .inr (h rfl)⟩

/-- No other channel in use has the peer. -/
theorem no_other_end (l : Store Chan) (ch : Nat) (peer : BitVec 12) :
    (!(l.any fun e => e.1 ≠ ch && e.2.st ≠ .closed && e.2.peer = peer)) = true
      ↔ ∀ e ∈ l, e.1 ≠ ch → e.2.st ≠ .closed → e.2.peer ≠ peer := by
  simp

theorem openAdmits : OpenAdmits := by
  intro s ch sec c
  unfold State.cfgOk
  dsimp only
  rw [Bool.and_eq_true, Bool.and_eq_true, Bool.and_eq_true, Bool.and_eq_true, decide_eq_true_iff, decide_eq_true_iff, no_other_end,
    all_masked 16, all_masked 24, and_assoc, and_assoc, and_assoc]

/-! ## What arrives at a channel end, and what times out (R27) -/

section
variable {s : State} {src : BitVec 12} {ch : BitVec 8} {l : List (BitVec 8)}

theorem openArrival_unknown (dst : BitVec 12) (gen : BitVec 16) (reply : Bool)
    (h : s.chansWith (fun c => (c.st = .opening || c.st = .opened) && decide (c.peer = src)) = []) :
    exec (.openArrival src dst gen reply) s = .next s := by
  show execOpenArrival src dst gen reply s = _
  unfold execOpenArrival
  rw [h]

variable (h : s.chansWith (fun c => (c.st = .opening || c.st = .opened) && decide (c.peer = src)) = ch :: l)
include h

theorem openArrival_opening (dst : BitVec 12) (gen : BitVec 16) (reply : Bool) (hst : (s.chan ch).st = .opening) :
    exec (.openArrival src dst gen reply) s
      = .next (if dst ≠ s.fab.node then s.setChan ch { s.chan ch with st := .closed, lastErr := 4 }
        else if s.portsUp ch = 0 then s
        else (s.setChan ch { s.chan ch with st := .opened, pgen := gen, admits := true, psent := 0, pgot := [] }).sendOpen ch true) := by
  show execOpenArrival src dst gen reply s = _
  unfold execOpenArrival
  rw [h]
  dsimp only
  rw [if_pos hst, apply_ite Host.Outcome.next, apply_ite Host.Outcome.next]

theorem openArrival_opened (dst : BitVec 12) (gen : BitVec 16) (reply : Bool) (hst : (s.chan ch).st = .opened) :
    exec (.openArrival src dst gen reply) s
      = .next (if dst ≠ s.fab.node then s else if gen ≠ (s.chan ch).pgen then s.toFencing ch
        else if reply = true then s else s.sendOpen ch true) := by
  show execOpenArrival src dst gen reply s = _
  unfold execOpenArrival
  rw [h]
  dsimp only
  rw [if_neg (by rw [hst]; decide), apply_ite Host.Outcome.next, apply_ite Host.Outcome.next, apply_ite Host.Outcome.next]

end

/-- PORTS_UP of a channel is its mask of ports with the mask of those that are up. -/
theorem portsUp_of_ups (s : State) (ch : BitVec 8) (ups : BitVec 16) (h : ∀ k, k < 16 → ups.getLsbD k = (s.port k).up) :
    s.portsUp ch = (s.chan ch).cports &&& ups :=
  BitVec.eq_of_getLsbD_eq fun k hk => by rw [portsUp_getLsbD, BitVec.getLsbD_and, h k hk]

section
variable {s : State} {ch : BitVec 8}

theorem openRepeat_repeats (h : (s.chan ch).st = .opening) (hlt : (s.chan ch).since < s.time.toNat)
    (hm : (s.time.toNat - (s.chan ch).since) % 40000 = 0) : s.openRepeat ch = s.sendOpen ch false :=
  if_pos (by simp [h, hlt, hm])

theorem openRepeat_idle (h : (s.chan ch).st ≠ .opening) : s.openRepeat ch = s := if_neg (by simp [h])

theorem openingTimeout_closes (h : (s.chan ch).st = .opening) (ht : s.timedOut (s.chan ch).since = true) :
    s.openingTimeout ch = s.setChan ch { s.chan ch with st := .closed, lastErr := 3 } := if_pos (by simp [h, ht])

theorem openingTimeout_idle (h : (s.chan ch).st ≠ .opening) : s.openingTimeout ch = s := if_neg (by simp [h])

theorem fencingTimeout_fences (h : (s.chan ch).st = .fencing) (ht : s.timedOut (s.chan ch).since = true) :
    s.fencingTimeout ch = s.setChan ch { s.chan ch with st := .fenced, lastErr := 3 } := if_pos (by simp [h, ht])

theorem fencingTimeout_idle (h : (s.chan ch).st ≠ .fencing) : s.fencingTimeout ch = s := if_neg (by simp [h])

end

/-- A marker more does not take back that a channel end is fenced. -/
theorem fenced_marked {s : State} {ch : BitVec 8} {c : Chan} (h : Fenced s ch c) (m : BitVec 16) :
    Fenced s ch { c with markers := c.markers ||| m } := by
  obtain ⟨hp, hx⟩ := h
  refine ⟨?_, hx⟩
  show s.portsUp ch &&& ~~~(c.markers ||| m) = 0
  rw [BitVec.not_or, ← BitVec.and_assoc, hp]
  exact BitVec.zero_and

/-- The machine when a marker from the peer has been noted at a channel end (R27). -/
def noteMarker (s : State) (ch : BitVec 8) (port : BitVec 4) : State :=
  s.setChan ch { s.chan ch with markers := (s.chan ch).markers ||| BitVec.twoPow 16 port.toNat }

theorem EndBecomes.marked {s t : State} {ch : BitVec 8} {c : Chan} {sent : List OutMsg} (h : EndBecomes s t ch c sent)
    (port : BitVec 4) :
    EndBecomes s (noteMarker t ch port) ch { c with markers := c.markers ||| BitVec.twoPow 16 port.toNat } sent := by
  unfold noteMarker
  rw [h.self]
  exact h.setChan _

theorem fenceMarkerArrival_eq (s : State) (ch : BitVec 8) (port : BitVec 4) : exec (.fenceMarkerArrival ch port) s
    = .next (if (s.chan ch).st = .opened then (noteMarker (s.toFencing ch) ch port).fenceCheck ch
      else if (s.chan ch).st = .fencing then (noteMarker s ch port).fenceCheck ch else s) := by
  show execFenceMarkerArrival ch port s = _
  unfold execFenceMarkerArrival
  dsimp only
  split
  · next h => rw [if_pos h]; rfl
  · next h => rw [if_neg (by rw [h]; decide), if_pos h]; rfl
  · next ho hf => rw [if_neg ho, if_neg hf]

theorem channelEvents : ChannelEvents := by
  intro s ch src dst gen reply port c at_ i overdue marked
  have hself : EndBecomes s s ch c [] := EndBecomes.refl s ch
  have hmarked : EndBecomes s (noteMarker s ch port) ch marked [] := hself.marked port
  have hopened := hself.setChan { c with st := .opened, pgen := gen, admits := true, psent := 0, pgot := [] }
  have hfencing (h : c.st = .fencing) : exec (.fenceMarkerArrival ch port) s = .next ((noteMarker s ch port).fenceCheck ch) := by
    rw [fenceMarkerArrival_eq, if_neg (by rw [h]; decide), if_pos h]
  have hover (h : overdue) : s.timedOut (s.chan ch).since = true := (timedOut_iff s _).mpr h
  refine ⟨openArrival_unknown dst gen reply, fun l hl => ?_, fun h hlt hm => ?_,
    fun h => ⟨congrArg _ (openRepeat_idle h), congrArg _ (openingTimeout_idle h)⟩,
    fun h ho => chanIs_setChan (congrArg _ (openingTimeout_closes h (hover ho))),
    fun h ho => chanIs_setChan (congrArg _ (fencingTimeout_fences h (hover ho))),
    fun h => congrArg _ (fencingTimeout_idle h), fun h hf => ?_, fun h hf => ?_, fun h hf => ?_, fun ho hf => ?_⟩
  · have hopening := openArrival_opening hl dst gen reply
    have hopen := openArrival_opened hl dst gen reply
    refine ⟨fun h hd => chanIs_setChan ((hopening h).trans (congrArg _ (if_pos hd))), fun h hd ups hups => ?_,
      fun h hd => (hopen h).trans (congrArg _ (if_pos hd)), fun h hd hg hr => (hself.sendOpen rfl true).chanIs ((hopen h).trans ?_),
      fun h hd hg hr => (hopen h).trans ?_, fun h hd hg hf => (toFencing_waits hself rfl hf).chanIs ((hopen h).trans ?_)⟩
    · have hups := portsUp_of_ups s ch ups hups
      refine ⟨fun hp => (hopened.sendOpen rfl true).chanIs ((hopening h).trans ?_), fun hp => (hopening h).trans ?_⟩
      · rw [if_neg (not_not_intro hd), if_neg (by rw [hups]; exact hp)]
      · rw [if_neg (not_not_intro hd), if_pos (hups.trans hp)]
    · rw [if_neg (not_not_intro hd), if_neg (not_not_intro hg), if_neg (by rw [hr]; decide)]
    · rw [if_neg (not_not_intro hd), if_neg (not_not_intro hg), if_pos hr]
    · rw [if_neg (not_not_intro hd), if_pos hg]
  · exact (hself.sendOpen rfl false).chanIs (congrArg _ (openRepeat_repeats h hlt hm))
  · exact hmarked.chanIs ((hfencing h).trans (congrArg _ (fenceCheck_waits hmarked rfl h hf)))
  · exact (hmarked.setChan _).chanIs ((hfencing h).trans (congrArg _ (fenceCheck_fences hmarked rfl h hf)))
  · have hm := (toFencing_waits hself rfl fun hc => hf (fenced_marked hc _)).marked port
    have he := (fenceMarkerArrival_eq s ch port).trans (congrArg _ (if_pos h))
    exact hm.chanIs (he.trans (congrArg _ (fenceCheck_waits hm rfl rfl hf)))
  · rw [fenceMarkerArrival_eq, if_neg ho, if_neg hf]

/-- Settles O39: each command and each event changes one channel end, and what it sends leaves on every port of the channel. -/
theorem channels : Obligations.Channels := ⟨channelCommands, openAdmits, channelEvents⟩

end Sys2Proof.Proofs
